-- ==== Sys2Proof/Word.lean ====
section
/-! DEFINITION. The word types of the Kyotus Y-24 and their plainest conversions (00 R4 to R6).
Everything a test could show wrong about a value (sign extension, byte order, bit fields) stands in
files under Sys2Proof/Machine/, not here. -/
namespace Sys2Proof

/-- One byte. -/
abbrev Byte := BitVec 8
/-- A 16-bit value. -/
abbrev W16 := BitVec 16
/-- A 32-bit word: one lane register of one lane (00 R7). -/
abbrev W32 := BitVec 32
/-- A 64-bit word: one group-uniform register (00 R7). -/
abbrev W64 := BitVec 64
/-- A 128-bit value: a participation mask, or the data of a 16-byte access. -/
abbrev W128 := BitVec 128

end Sys2Proof
end

