-- ==== Sys2Proof/Config.lean ====
section
/-! DEFINITION. What is fixed for the machine (00 R1), and the free values: what the manual leaves open,
as opaque functions of a counter or of the operands they depend on (DESIGN CHOICE, log 6). No proof can see a value of one. -/
namespace Sys2Proof.Config

/-- Dies of a module (00 R1). -/
def dies : Nat := 24
/-- Logical cores of a die, rows times columns of the mesh (00 R1, 15 R407). -/
def coresPerDie : Nat := 96
/-- Rows of a die's logical mesh. -/
def meshRows : Nat := 8
/-- Columns of a die's logical mesh. -/
def meshCols : Nat := 12
/-- Resident group contexts of a core (00 R1). -/
def contexts : Nat := 64
/-- Register-cache lines of a core (00 R1, 01 R20). -/
def registerLines : Nat := 4096
/-- Spawn slots of a core (01 R40). -/
def spawnSlots : Nat := 32
/-- Landing-handler slices a core runs at once (01 R45). -/
def handlerSlots : Nat := 64
/-- Lines of a core's SRAM (04 R115). -/
def sramLines : Nat := 12288
/-- Lines of one CORE-homed page (04 R117). -/
def corePageLines : Nat := 512
/-- L2 slices of a die (00 R1). -/
def slices : Nat := 48
/-- Lines of an L2 slice of 4 MiB (04 R115). -/
def sliceLines : Nat := 32768
/-- Entries of a core's TLB, of a die's last-level TLB and of its large-page TLB for 16 GiB pages, and of its walk cache (00 R1, 16 R422). -/
def coreTlb : Nat := 64
def dieTlb : Nat := 1536
def largeTlb : Nat := 96
def walkCache : Nat := 256
/-- HBM stacks of a die and their bytes, and the pieces in which addresses alternate between them (04 R115, R116). -/
def hbmStacks : Nat := 2
def stackBytes : Nat := 0x1000000000
def stackPiece : Nat := 4096
/-- Physical tiles of a matrix unit (10 R294). -/
def tiles : Nat := 8
/-- Bytes of a tile (10 R294). -/
def tileBytes : Nat := 65536
/-- Outstanding instructions of a matrix unit (10 R299). -/
def matrixQueue : Nat := 16
/-- Outstanding engine operations of a core (11 R323). -/
def engineQueue : Nat := 64
/-- Outstanding exchange steps of a die's LXE (11 R323). -/
def lxeSteps : Nat := 16
/-- Holding-store slots of a die, and of a cluster (04 R134). -/
def dieSlots : Nat := 64
def clusterSlots : Nat := 16
/-- Strait ports of a module, and Atolls of a pod (00 R1, 18 R455). -/
def ports : Nat := 72
/-- Devices of a pod (18 R455). -/
def devices : Nat := 144
/-- Partitions (14 R379) and queues of a partition (15 R391). -/
def partitions : Nat := 24
def queues : Nat := 64
/-- Key slots (20 R508). -/
def keySlots : Nat := 256
/-- First physical address that names no storage (04 R116). -/
def storageEnd : Nat := 0x030000000000
/-- Bytes of a die's physical block, which its stacks hold (04 R116). -/
def dieBlock : Nat := hbmStacks * stackBytes
/-- Bytes of a frame of a partition's share (14 R380). -/
def frameBytes : Nat := 0x400000000
/-- Store-buffer bytes of a protected team (17 R444). -/
def storeBuffer : Nat := 65536
/-- Records of a unit's event buffer (19 R475). -/
def eventBuffer : Nat := 64
/-- Slots of the Shoal (19 R476). -/
def shoalSlots : Nat := 2147483648
/-- Flits of a replay buffer (18 R458). -/
def replayFlits : Nat := 512
/-- Unreplied requests towards one destination (18 R464). -/
def tagWindow : Nat := 4096
/-- Physical core sites of a die beyond the logical mesh (00 R1). -/
def spareSites : Nat := 8

/-- FREE VALUE (DESIGN CHOICE, log 9): which of `n` permitted translations an access uses when a stale one is cached
(16 R415, R428: "Which one is unpredictable"), by the counter of free values. DESIGN CHOICE, log 6. -/
opaque freeChoice : Nat → Nat
/-- FREE VALUE (DESIGN CHOICE, log 6): a byte of a group or slice control line in a context area (17 R441: "The encoding of
the control lines is the part's own"), by group identifier, byte offset and the counter of free values. -/
opaque controlByte : Nat → Nat → Nat → Byte
/-- FREE VALUE (DESIGN CHOICE, log 6): the column of a count-min sketch's row that a key hashes to (19 R492: seeds are drawn
from the part's random source at every clear), by seed counter, row and key. -/
opaque sketchColumn : Nat → Nat → Nat → Nat
/-- FREE VALUE (DESIGN CHOICE, log 6): the outcome of an ML-DSA-65 verification of a signature over a digest under
the fused key (20 R510), by digest bytes and signature bytes. -/
opaque signatureValid : List Byte → List Byte → Bool
/-- FREE VALUE (DESIGN CHOICE, log 6): the ML-DSA-65 signature of an attestation report under the device identity
key (20 R512), by the report's bytes. -/
opaque signature : List Byte → List Byte
/-- FREE VALUE (DESIGN CHOICE, log 6): the fixed hash H of (device, window, OFFSET[63:12]) that picks a route (18 R463). -/
opaque routeHash : Nat → Nat → Nat → Nat
/-- FREE VALUE (DESIGN CHOICE, log 6): the channel of its stack, the bank and the row that hold a 64-byte block (20 R505). -/
opaque dramPlace : Nat → Nat × Nat × Nat

end Sys2Proof.Config
end

