-- ==== Sys2Proof/Machine/Sparse.lean ====
section
/-! DEFINITION. Sparse data by key: a list of (key, value) pairs with strictly rising keys. `set` keeps the
canonical form of data that has a default: an entry equal to the default is not listed. `put` and `del` serve
records that are either present or absent. Reading and writing one key obey their laws on every list, in canonical form or not. -/
namespace Sys2Proof.Machine

/-- Pairs of key and value, in rising order of key. -/
abbrev Sparse (α : Type) := List (Nat × α)

def Sparse.find {α : Type} (m : Sparse α) (k : Nat) : Option α :=
  match m with
  | [] => none
  | (j, v) :: t => if j = k then some v else Sparse.find t k

/-- Adds or replaces the entry of a key. -/
def Sparse.put {α : Type} (m : Sparse α) (k : Nat) (v : α) : Sparse α :=
  match m with
  | [] => [(k, v)]
  | (j, w) :: t => if j = k then (k, v) :: t else if k < j then (k, v) :: (j, w) :: t else (j, w) :: Sparse.put t k v

/-- Removes the entry of a key. -/
def Sparse.del {α : Type} (m : Sparse α) (k : Nat) : Sparse α :=
  match m with
  | [] => []
  | (j, w) :: t => if j = k then Sparse.del t k else (j, w) :: Sparse.del t k

/-- The value of a key, `d` where none is listed. -/
def Sparse.get {α : Type} (d : α) (m : Sparse α) (k : Nat) : α := (Sparse.find m k).getD d

/-- Sets the value of a key; the default `d` is not listed. -/
def Sparse.set {α : Type} [DecidableEq α] (d : α) (m : Sparse α) (k : Nat) (v : α) : Sparse α :=
  if v = d then Sparse.del m k else Sparse.put m k v

def Sparse.setAll {α : Type} [DecidableEq α] (d : α) (m : Sparse α) (kvs : List (Nat × α)) : Sparse α :=
  kvs.foldl (fun acc kv => Sparse.set d acc kv.1 kv.2) m

/-- Applies a function to the entry of a key, if there is one. -/
def Sparse.upd {α : Type} (m : Sparse α) (k : Nat) (f : α → α) : Sparse α :=
  match m with
  | [] => []
  | (j, w) :: t => if j = k then (j, f w) :: t else (j, w) :: Sparse.upd t k f

/-- Strictly rising keys, all above `lo`. -/
def Sparse.sortedFrom {α : Type} (lo : Nat) (m : Sparse α) : Bool :=
  match m with
  | [] => true
  | (j, _) :: t => decide (lo ≤ j) && Sparse.sortedFrom (j + 1) t

/-- The canonical form: strictly rising keys and no entry equal to the default. -/
def Sparse.wf {α : Type} [DecidableEq α] (d : α) (m : Sparse α) : Bool :=
  Sparse.sortedFrom 0 m && m.all (fun kv => decide (kv.2 ≠ d))

/-- The first key at or above `lo` that is not in the list of a record map. -/
def Sparse.nextKey {α : Type} (m : Sparse α) : Nat := m.foldl (fun acc kv => max acc (kv.1 + 1)) 0

end Sys2Proof.Machine
end

