-- ==== Sys2Proof/Syntax.lean ====
section
/-! DEFINITION. The syntax of the machine's steps: one constructor of `Instr` for every row of
spec/opcode_table.json. The 156 instructions of the opcode map (06 R185) carry the fields of their words
(06 R168, R170) with the operand fields already read into `Opnd` (06 R175); the 106 other rows (engines,
launcher, paging, fabric, management) have no encoding and carry their operands as arguments. -/
namespace Sys2Proof

/-- The element types of the T field (06 R172). -/
inductive Ty where
  | i32 | n32 | i64 | n64 | f32 | f64 | f16 | bf16
  deriving DecidableEq, Repr

/-- What a 9-bit operand field names (02 R57, 06 R175). `sr` has the special registers 352 to 383, `bad` the
values 384 to 511, which every use refuses with `ILLEGAL_OPERAND`. -/
inductive Opnd where
  | v (n : BitVec 8)
  | g (n : BitVec 6)
  | b (n : BitVec 3)
  | q (n : BitVec 3)
  | k (n : BitVec 4)
  | sr (n : BitVec 5)
  | bad (n : BitVec 7)
  deriving DecidableEq, Repr

/-- The field value an operand stands for (06 R175). -/
def Opnd.bits : Opnd → BitVec 9
  | .v n => 0#1 ++ n
  | .g n => 0b100#3 ++ n
  | .b n => 0b101000#6 ++ n
  | .q n => 0b101001#6 ++ n
  | .k n => 0b10101#5 ++ n
  | .sr n => 0b1011#4 ++ n
  | .bad n => 0b11#2 ++ n

/-- The fields of an instruction word and of its second word (06 R168, R170). `w2` is 0 in a short instruction. -/
structure Fields where
  t  : Ty := .i32
  gn : Bool := false
  gp : BitVec 3 := 7
  w  : Bool := false
  d  : Opnd := .v 0
  a  : Opnd := .v 0
  b  : Opnd := .v 0
  c  : Opnd := .v 0
  x  : BitVec 12 := 0
  w2 : BitVec 64 := 0
  deriving DecidableEq, Repr

/-- Registers with no behaviour of their own that a CONFIG_WRITE writes: a partition's system register at its index (14 R382), and the writable
words of the configuration space (20 R499, R500); `readOnly` is a read-only word of one of its blocks, by the identifier of the block, and `word` the
word at an offset of the space. -/
inductive ConfigReg where
  | sys (part index : Nat)
  | queueTable (part : Nat)
  | queueEnable (part : Nat)
  | shoalFilter
  | dieControl (die : Nat)
  | readOnly (block : Nat)
  | word (ofs : Nat)
  deriving DecidableEq, Repr

/-- Where a queue record stands: a slot of a ring (15 R391) or a node of a running graph (15 R402). -/
inductive RecSrc where
  | ring (part queue slot : Nat)
  | node (part graph index : Nat)
  deriving DecidableEq, Repr

/-- Why a participant's LXE leaves RUNNING (11 R349). -/
inductive LxFailure where
  | data (cause : Nat)
  | progressWrite
  | peerDead
  deriving DecidableEq, Repr

/-- A packet of the fabric (18 R460): the header slot's fields and the data slots as bytes. -/
structure Packet where
  type : Nat := 0
  src : Nat := 0
  dst : Nat := 0
  inc : Nat := 0
  win : Nat := 0
  aop : Nat := 0
  size : Nat := 0
  status : Nat := 0
  detail : Nat := 0
  causal : W64 := 0
  offset : W64 := 0
  tag : Nat := 0
  acktag : Nat := 0
  attempt : Nat := 0
  route : Nat := 0
  rank : Nat := 0
  data : List Byte := []
  deriving DecidableEq, Repr

/-- Who a fabric packet reaches: this device through a Strait port, or an Atoll through one of its ports. -/
inductive Party where
  | device (port : Nat)
  | atoll (atoll port : Nat)
  deriving DecidableEq, Repr

/-- A unit that emits events (19 R471): kind, die (0 for an Atoll) and index of the unit. -/
structure UnitId where
  kind : Nat
  die : Nat
  index : Nat
  deriving DecidableEq, Repr

/-- A repair of the memory controllers (20 R505). -/
inductive Repair where
  | row (stack channel bank row : Nat)
  | pin (stack channel pin : Nat)
  | bank (stack channel bank : Nat)
  deriving DecidableEq, Repr

/-- What a DCP measures for a health block (20 R506). -/
structure HealthReading where
  age : Nat := 0
  tnow : Nat := 0
  vcore : Nat := 0
  power : Nat := 0
  deriving DecidableEq, Repr

/-- A release of a parked group (14 R377): for a tool by its handle, or for the control node itself. -/
structure Release where
  handle : Option W64 := none
  group : Nat
  deriving DecidableEq, Repr

/-- The processors that run firmware (20 R510). -/
inductive FwKind where
  | mmp | dcp
  deriving DecidableEq, Repr

/-- A queue's replay mode (19 R494). `replay` names the first log record in the Shoal. -/
inductive ReplayMode where
  | off
  | record
  | replay (first last : Nat)
  deriving DecidableEq, Repr

/-- The steps of the machine: one constructor for each row of spec/opcode_table.json. -/
inductive Instr where
  /-- IADD (R206): Adds A and B per active lane at type T, wrapping or saturating. -/
  | iadd (f : Fields)
  /-- ISUB (R206): Subtracts B from A per active lane, wrapping or saturating. -/
  | isub (f : Fields)
  /-- IMUL (R206): Writes the low n bits of A times B, or the saturated product. -/
  | imul (f : Fields)
  /-- IMULH (R206): Writes the high n bits of the 2n-bit product of A and B. -/
  | imulh (f : Fields)
  /-- IMAD (R206): Writes A times B plus C, wrapping or saturating. -/
  | imad (f : Fields)
  /-- IDIV (R207): Writes the truncated quotient of A by B, with defined results for zero and overflow, or raises ARITH with .TRAP. -/
  | idiv (f : Fields)
  /-- IREM (R207): Writes the remainder of the truncated division of A by B, or raises ARITH with .TRAP. -/
  | irem (f : Fields)
  /-- IMIN (R206): Writes the smaller of A and B. -/
  | imin (f : Fields)
  /-- IMAX (R206): Writes the larger of A and B. -/
  | imax (f : Fields)
  /-- IABS (R206): Writes the absolute value of A. -/
  | iabs (f : Fields)
  /-- INEG (R206): Writes the negation of A. -/
  | ineg (f : Fields)
  /-- IADDX (R208): Adds or subtracts with a carry in and carry out held in a predicate. -/
  | iaddx (f : Fields)
  /-- AND (R210): Writes the bitwise AND of A and B. -/
  | land (f : Fields)
  /-- OR (R210): Writes the bitwise OR of A and B. -/
  | lor (f : Fields)
  /-- XOR (R210): Writes the bitwise XOR of A and B. -/
  | lxor (f : Fields)
  /-- LOP3 (R210): Writes each bit from the LUT truth table indexed by the bits of A, B and C. -/
  | lop3 (f : Fields)
  /-- SHL (R210): Shifts A left by the count. -/
  | shl (f : Fields)
  /-- SHRL (R210): Shifts A right by the count, filling with zeros. -/
  | shrl (f : Fields)
  /-- SHRA (R210): Shifts A right by the count, copying the sign bit. -/
  | shra (f : Fields)
  /-- ROTL (R210): Rotates A left by the count modulo n. -/
  | rotl (f : Fields)
  /-- FSHL (R210): Writes the upper half of A:B shifted left by the count. -/
  | fshl (f : Fields)
  /-- BFX (R211): Extracts a bit field of A, sign- or zero-extended. -/
  | bfx (f : Fields)
  /-- BFI (R211): Inserts the low bits of A into a field of B. -/
  | bfi (f : Fields)
  /-- POPC (R210): Writes the number of 1 bits in A. -/
  | popc (f : Fields)
  /-- CLZ (R210): Writes the number of leading zero bits in A. -/
  | clz (f : Fields)
  /-- BREV (R210): Writes A with its bits reversed. -/
  | brev (f : Fields)
  /-- ICMP (R212): Compares two integers and writes a predicate, combined with another by AND or OR. -/
  | icmp (f : Fields)
  /-- SEL (R213): Writes A or B according to a predicate, as bits. -/
  | sel (f : Fields)
  /-- IADDI (R206): Adds the sign-extended 16-bit immediate to A. -/
  | iaddi (f : Fields)
  /-- MOVI (R171): Writes the immediate of its IMM word to D. -/
  | movi (f : Fields)
  /-- MOV (R214): Copies A to D as bits at the width of T. -/
  | mov (f : Fields)
  /-- IDOT4 (R209): Adds C and the four byte products of A and B. -/
  | idot4 (f : Fields)
  /-- FADD (R215): Rounds A plus B once into T. -/
  | fadd (f : Fields)
  /-- FSUB (R215): Rounds A minus B once into T. -/
  | fsub (f : Fields)
  /-- FMUL (R215): Rounds A times B once into T. -/
  | fmul (f : Fields)
  /-- FFMA (R215): Rounds A times B plus C once into T. -/
  | ffma (f : Fields)
  /-- FMIN (R216): Writes the smaller float operand, bit for bit. -/
  | fmin (f : Fields)
  /-- FMAX (R216): Writes the larger float operand, bit for bit. -/
  | fmax (f : Fields)
  /-- FABS (R217): Writes A with its sign cleared, inverted, set or copied from B. -/
  | fabs (f : Fields)
  /-- FCMP (R218): Compares two floats and writes a predicate. -/
  | fcmp (f : Fields)
  /-- FCLASS (R219): Writes a one-hot mask of the class of A. -/
  | fclass (f : Fields)
  /-- FDIV (R220): Rounds the quotient A by B once into T. -/
  | fdiv (f : Fields)
  /-- FSQRT (R220): Rounds the square root of A once into T. -/
  | fsqrt (f : Fields)
  /-- FRCP (R221): Writes the reciprocal of A rounded once under RN. -/
  | frcp (f : Fields)
  /-- FRSQ (R221): Writes the reciprocal square root of A rounded once under RN. -/
  | frsq (f : Fields)
  /-- FEXP2 (R221): Writes 2 to the power A rounded once under RN. -/
  | fexp2 (f : Fields)
  /-- FLOG2 (R221): Writes the base-2 logarithm of A rounded once under RN. -/
  | flog2 (f : Fields)
  /-- FSIN (R221): Writes the sine of A rounded once under RN. -/
  | fsin (f : Fields)
  /-- FCOS (R221): Writes the cosine of A rounded once under RN. -/
  | fcos (f : Fields)
  /-- FADDI (R215): Rounds A plus the immediate once into T. -/
  | faddi (f : Fields)
  /-- FMULI (R215): Rounds A times the immediate once into T. -/
  | fmuli (f : Fields)
  /-- FFMAI (R215): Rounds A times B plus the immediate once into T. -/
  | ffmai (f : Fields)
  /-- FSCALE (R222): Rounds A times 2 to the power B once into T. -/
  | fscale (f : Fields)
  /-- FROUND (R223): Rounds A to an integral value of T under RM. -/
  | fround (f : Fields)
  /-- FDOT2 (R224): Rounds C plus two packed 16-bit products once into F32. -/
  | fdot2 (f : Fields)
  /-- CVTIF (R226): Converts an integer to a float, FP8 or L6 format. -/
  | cvtif (f : Fields)
  /-- CVTFI (R227): Converts a float or L6 value to an integer, always saturating. -/
  | cvtfi (f : Fields)
  /-- CVTFF (R229): Converts between floating formats. -/
  | cvtff (f : Fields)
  /-- CVTII (R228): Converts between integer widths, wrapping or saturating. -/
  | cvtii (f : Fields)
  /-- PK8 (R230): Converts two scaled values to FP8 and packs them. -/
  | pk8 (f : Fields)
  /-- UNPK8 (R231): Selects one FP8 byte and converts it to float, optionally scaled and offset. -/
  | unpk8 (f : Fields)
  /-- PKL6 (R232): Converts two values to L6 and packs them. -/
  | pkl6 (f : Fields)
  /-- UNPKL6 (R232): Selects one L6 byte and converts its table value into T. -/
  | unpkl6 (f : Fields)
  /-- L6MUL (R233): Multiplies four pairs of L6 codes by adding codes. -/
  | l6mul (f : Fields)
  /-- L6LIN (R234): Adds four exact L6 products to an X48 value. -/
  | l6lin (f : Fields)
  /-- SCLX (R235): Computes the E8 scale code that brings A within a target's range. -/
  | sclx (f : Fields)
  /-- FMTW (R236): Builds a matrix format word from format codes and modifiers. -/
  | fmtw (f : Fields)
  /-- PKH (R237): Rounds two F32 values to 16 bits and packs them. -/
  | pkh (f : Fields)
  /-- UNPKH (R237): Widens one 16-bit half of A to F32. -/
  | unpkh (f : Fields)
  /-- FFLAG (R238): Reads, clears or sets the lane's %fflags bits. -/
  | fflag (f : Fields)
  /-- LD (R248): Loads SIZE bytes per active lane from global memory. -/
  | ld (f : Fields)
  /-- ST (R249): Stores SIZE bytes per active lane to global memory. -/
  | st (f : Fields)
  /-- LDS (R251): Loads from team scratch, plain or waiting for FULL and optionally emptying lines. -/
  | lds (f : Fields)
  /-- STS (R251): Stores to team scratch, plain, filling or waiting for EMPTY. -/
  | sts (f : Fields)
  /-- LDG (R250): Makes one load at the lowest active lane's address for the whole fragment. -/
  | ldg (f : Fields)
  /-- ATOM (R252): Performs an atomic read-modify-write per active lane at the home and returns the old value. -/
  | atom (f : Fields)
  /-- ACAS (R254): Performs a compare-and-swap of bit patterns per active lane. -/
  | acas (f : Fields)
  /-- ATOMS (R252): Performs an atomic read-modify-write on team scratch. -/
  | atoms (f : Fields)
  /-- RED (R255): Performs an atomic sub-operation with no returned value. -/
  | red (f : Fields)
  /-- FENCE (R256): Orders the lane's earlier LANE accesses before its later ones within a scope. -/
  | fence (f : Fields)
  /-- XFENCE (R257): Orders completed accesses of one path before later accesses of another path. -/
  | xfence (f : Fields)
  /-- PREF (R258): Requests a CACHED line into its home slice or a replica, without faulting. -/
  | pref (f : Fields)
  /-- CINV (R259): Drops replicas of the lines in a range. -/
  | cinv (f : Fields)
  /-- CWB (R259): Writes dirty home copies of the lines in a range to their backing store. -/
  | cwb (f : Fields)
  /-- SFILL (R251): Sets the full/empty state of the touched scratch lines. -/
  | sfill (f : Fields)
  /-- SSTAT (R251): Writes the full/empty state code of a scratch line. -/
  | sstat (f : Fields)
  /-- RLD (R262): Loads from a peer window, one instance per distinct peer. -/
  | rld (f : Fields)
  /-- RST (R262): Stores to a peer window, completing once its requests leave. -/
  | rst (f : Fields)
  /-- RATOM (R263): Performs atomics at a peer, recording done lanes so that none repeats. -/
  | ratom (f : Fields)
  /-- RFENCE (R265): Waits for acknowledgement of earlier remote writes and atomics to covered peers. -/
  | rfence (f : Fields)
  /-- BRA (R26): Branches by the guard vote, pushing reconvergence entries for divergent slices. -/
  | bra (f : Fields)
  /-- BRX (R269): Branches to per-lane code offsets, diverging by target. -/
  | brx (f : Fields)
  /-- CALL (R270): Writes a link and branches as BRA does. -/
  | call (f : Fields)
  /-- RET (R271): Returns each active lane to its code offset, pushing PATH entries only. -/
  | ret (f : Fields)
  /-- REGANG (R29): Arrives at a join of the named slices and joins them once all have arrived. -/
  | regang (f : Fields)
  /-- SPLITS (R31): Writes the lane bits of the fragment's or group's live slices to a mask. -/
  | splits (f : Fields)
  /-- BACKOFF (R35): Makes the oldest pending PATH entry of each slice current. -/
  | backoff (f : Fields)
  /-- VOTE (R273): Writes the ALL, ANY or UNI vote of a predicate over active lanes. -/
  | vote (f : Fields)
  /-- BALLOT (R274): Forms a 128-bit ballot of selected bits over active lanes. -/
  | ballot (f : Fields)
  /-- SHFL (R275): Reads A from another lane within a segment. -/
  | shfl (f : Fields)
  /-- GRED (R276): Reduces A over the active lanes and writes the result to each. -/
  | gred (f : Fields)
  /-- GSCAN (R276): Writes to each active lane the combination of A over lanes below it. -/
  | gscan (f : Fields)
  /-- BAR (R278): Arrives at a team barrier, or matches an earlier BARA, and waits for the generation. -/
  | bar (f : Fields)
  /-- BARA (R278): Arrives at a team barrier without waiting. -/
  | bara (f : Fields)
  /-- EXIT (R279): Waits for RST acknowledgements and ends the active lanes. -/
  | exit (f : Fields)
  /-- REGION (R280): Begins a region and makes staged counter increments permanent. -/
  | region (f : Fields)
  /-- SPAWN (R281): Creates one group on the core at a named entry and writes a status. -/
  | spawn (f : Fields)
  /-- LIVE (R282): Makes named v registers dead. -/
  | live (f : Fields)
  /-- YIELD (R283): A switch point with no other effect. -/
  | yield (f : Fields)
  /-- NOP (R283): Has no effect. -/
  | nop (f : Fields)
  /-- MMOV (R284): Moves and combines participation masks. -/
  | mmov (f : Fields)
  /-- TCFG (R315): Serialises the team's matrix work and claims and clears its tiles. -/
  | tcfg (f : Fields)
  /-- TMMA (R303): Queues a multiply-accumulate of operands from memory into a tile. -/
  | tmma (f : Fields)
  /-- TMMAZ (R303): Queues a multiply into a tile from zero. -/
  | tmmaz (f : Fields)
  /-- TACQ (R306): Waits and makes the issuing group the owner of a tile. -/
  | tacq (f : Fields)
  /-- TREL (R306): Returns a tile to the unit. -/
  | trel (f : Fields)
  /-- TRD (R307): Reads tile elements lane by lane. -/
  | trd (f : Fields)
  /-- TWR (R307): Writes tile elements lane by lane. -/
  | twr (f : Fields)
  /-- TZERO (R308): Queues the zeroing of a tile. -/
  | tzero (f : Fields)
  /-- TSTORE (R312): Queues a converted store of a tile to memory. -/
  | tstore (f : Fields)
  /-- TLOAD (R311): Queues a converted load of a tile from memory. -/
  | tload (f : Fields)
  /-- TCNT (R313): Waits for earlier tile work and reads an exception counter. -/
  | tcnt (f : Fields)
  /-- TWAIT (R300): Waits for the group's earlier instructions on a tile or on every tile. -/
  | twait (f : Fields)
  /-- TPIN (R314): Pins or releases CACHED operand lines in a range. -/
  | tpin (f : Fields)
  /-- QBIND (R325): Binds a queue register to a ring or semaphore, optionally initialising it. -/
  | qbind (f : Fields)
  /-- QUNBIND (R326): Unbinds one or all queue registers. -/
  | qunbind (f : Fields)
  /-- QSTAT (R326): Writes a status snapshot of a queue binding. -/
  | qstat (f : Fields)
  /-- COPY (R329): Hands a strided copy between global memory and scratch to the copy engine. -/
  | copy (f : Fields)
  /-- COPYM (R330): Places a tile into a cluster holding slot for named receivers. -/
  | copym (f : Fields)
  /-- CDRAIN (R331): Drains a holding slot's tile into the team's scratch. -/
  | cdrain (f : Fields)
  /-- HREAD (R332): Starts a burst read of up to four dimensions whose bursts start handler slices. -/
  | hread (f : Fields)
  /-- HEND (R335): Ends the issuing handler slice. -/
  | hend (f : Fields)
  /-- ABINIT (R336): Sets an arrival barrier's REMAIN and clears OVER. -/
  | abinit (f : Fields)
  /-- ABWAIT (R337): Waits until an arrival barrier reaches zero or changes phase. -/
  | abwait (f : Fields)
  /-- ABADD (R338): Makes one arrival of a byte count at a barrier. -/
  | abadd (f : Fields)
  /-- LXCHG (R345): Checks and accepts a layout exchange step on the die's LXE. -/
  | lxchg (f : Fields)
  /-- LXSTAT (R350): Reads W1 of a progress record as an acquire on the LX path. -/
  | lxstat (f : Fields)
  /-- LXRESUME (R351): Restarts this die's part of a stopped exchange step. -/
  | lxresume (f : Fields)
  /-- SEMPOST (R340): Posts words to a semaphore when room allows. -/
  | sempost (f : Fields)
  /-- SEMWAIT (R340): Takes words from a semaphore once present. -/
  | semwait (f : Fields)
  /-- TRET (R374): Ends supervisor handling and resumes the group as its trap record directs. -/
  | tret (f : Fields)
  /-- TMASK (R375): Sets or clears MSK. -/
  | tmask (f : Fields)
  /-- SYSR (R376): Reads a system register. -/
  | sysr (f : Fields)
  /-- SYSW (R376): Writes a system register and completes when the value is in effect partition-wide. -/
  | sysw (f : Fields)
  /-- HALT (R377): Writes back the group's lines, emits a HALT event and parks the group. -/
  | halt (f : Fields)
  /-- CTXFL (R378): Writes every dirty register and control line of the group to its context area. -/
  | ctxfl (f : Fields)
  /-- TRAP (R285): Completes and takes the trap SOFTWARE with a code. -/
  | trap (f : Fields)
  /-- EVENT (R286): Emits one software event record. -/
  | event (f : Fields)
  /-- MARK (R286): Emits one point or range marker record. -/
  | mark (f : Fields)
  /-- RDCNT (R288): Reads one partition counter under a COUNTER capability. -/
  | rdcnt (f : Fields)
  /-- RDTIME (R287): Reads the timebase once. -/
  | rdtime (f : Fields)
  /-- BRK (R285): Completes and takes the trap BREAKPOINT with a code. -/
  | brk (f : Fields)
  /-- ICINV (R291): Invalidates instruction caches and marks loop buffers stale within a scope. -/
  | icinv (f : Fields)
  /-- ISYNC (R292): Discards the fetched and decoded instructions of the issuing slices. -/
  | isync (f : Fields)
  /-- TCOMMIT (R293): Begins a region and requests a protected commit. -/
  | tcommit (f : Fields)
  /-- CAPCHK (R289): Writes a handle's rights and optionally traps if required rights are missing. -/
  | capchk (f : Fields)
  /-- PTROOT (R415): A write to PTROOT reads the translation control block and discards the partition's TLB entries. -/
  | ptroot (part : Nat) (value : W64)
  /-- CAPREVOKE (R386): A write to CAPREVOKE advances an entry's generation and drops cached copies. -/
  | caprevoke (part : Nat) (value : W64)
  /-- WINSYNC (R390): A write to WINSYNC takes a window table entry into effect after draining old requests. -/
  | winsync (part : Nat) (value : W64)
  /-- CONFIG_WRITE (R499): A write to a system or configuration register that has no behaviour of its own. -/
  | configWrite (reg : ConfigReg) (value : W64)
  /-- PREEMPT_LIMIT (R371): After 65,536 cycles a pre-emption waiting under MSK evicts the group anyway. -/
  | preemptLimit (group : Nat)
  /-- COMMITTED_STORE_PERFORM (R54): Committed stores are performed to memory in buffered order while the team runs. -/
  | committedStorePerform (team : Nat)
  /-- MATRIX_PERFORM (R299): The matrix unit performs an accepted instruction and writes its results in one step. -/
  | matrixPerform (die core index : Nat)
  /-- COPY_PIECE (R329): A piece of a copy lands and makes its arrival. -/
  | copyPiece (op piece : Nat)
  /-- COPY_PIECE_FAIL (R328): A piece of a transfer fails and the transfer stops after it. -/
  | copyPieceFail (op piece : Nat)
  /-- DRAIN_LAND (R331): A drained tile lands in scratch, arrives and records the team's drain. -/
  | drainLand (op : Nat)
  /-- BURST_RETURN (R333): A returned HREAD burst starts one handler slice. -/
  | burstReturn (op burst : Nat)
  /-- HELD_BURST_START (R45): A held burst starts once a handler slot frees. -/
  | heldBurstStart (op burst : Nat)
  /-- HELD_RECORD_PUSH (R327): A held completion record is pushed once its ring has room. -/
  | heldRecordPush (team : Nat) (ring : Nat)
  /-- LX_DIGEST (R348): Participants exchange and compare step digests before any destination write. -/
  | lxDigest (die stepid : Nat) (device fromDie : Nat) (digest : List W64) (done : Bool)
  /-- LX_CHUNK_DONE (R348): A chunk's bytes are written and its bitmap bit set. -/
  | lxChunkDone (die stepid chunk : Nat)
  /-- LX_STEP_DONE (R348): A participant reaches DONE and posts its completion. -/
  | lxStepDone (die stepid : Nat)
  /-- LX_FAULT (R349): A failure at this participant's LXE makes the step FAULTED. -/
  | lxFault (die stepid : Nat) (failure : LxFailure)
  /-- STEP_OVERDUE (R483): A step's deadline passes while RUNNING; the late participant is recorded and WATCHDOG emitted. -/
  | stepOverdue (die stepid : Nat)
  /-- LAUNCHER_TAKE (R392): The launcher takes a valid record from a queue slot. -/
  | launcherTake (part queue : Nat)
  /-- LAUNCH_RECORD (R522): A LAUNCH record starts, is checked and has its teams distributed. -/
  | launchRecord (src : RecSrc)
  /-- GRAPH_RECORD (R403): A GRAPH record starts and runs its node table. -/
  | graphRecord (src : RecSrc)
  /-- LX_RECORD (R405): An LX record acts as a die's LXCHG. -/
  | lxRecord (src : RecSrc)
  /-- SIGNAL (R405): A SIGNAL record performs an N64 add or set on an event word. -/
  | signal (src : RecSrc)
  /-- WAITEV (R405): A WAITEV record starts waiting for an event word to reach a target. -/
  | waitev (src : RecSrc)
  /-- WAITEV_COMPLETE (R405): A WAITEV record completes once its event word reaches the target. -/
  | waitevComplete (src : RecSrc)
  /-- CSTART (R491): Latches named counter banks into the start area of LREC. -/
  | cstart (src : RecSrc)
  /-- CSTOP (R491): Latches named counter banks into the stop area of LREC. -/
  | cstop (src : RecSrc)
  /-- FENCE_RECORD (R405): A barrier record with no effect beyond queue order. -/
  | fenceRecord (src : RecSrc)
  /-- GRAPH_NODE_COMPLETE (R403): A node completes, decrementing successors' pending counts. -/
  | graphNodeComplete (src : RecSrc)
  /-- LAUNCH_COMPLETE (R394): A launch completes when every team has ended and its writes are performed. -/
  | launchComplete (launch : Nat)
  /-- RUN (R398): CTRL RUN returns a suspended queue to RUNNING and resumes its steps. -/
  | run (part queue : Nat)
  /-- SUSPEND (R398): CTRL SUSPEND stops the launcher taking or starting the queue's records. -/
  | suspend (part queue : Nat)
  /-- SKIP (R397): CTRL SKIP completes a halted record without effect. -/
  | skip (part queue : Nat)
  /-- RETRY (R397): CTRL RETRY takes a halted record again. -/
  | retry (part queue : Nat)
  /-- CLUSTER_PLACE (R407): A GD places its first placeable cluster on the lowest admitting rectangle. -/
  | clusterPlace (die : Nat)
  /-- STEAL_REQUEST (R408): A dry GD asks the next die for an unplaced cluster. -/
  | stealRequest (die launch : Nat)
  /-- PREEMPT (R410): A blocked higher-priority cluster evicts the fewest lower-priority groups. -/
  | preempt (die : Nat)
  /-- GROUP_RESUME (R412): Evicted work resumes at its region entries once room exists. -/
  | groupResume (group : Nat)
  /-- INVAL (R428): Discards TLB entries for a range and restarts walks. -/
  | inval (part : Nat)
  /-- RESOLVE (R429): Answers a held fault record with retry or reject. -/
  | resolve (part : Nat)
  /-- PIN (R430): Copies a frame into a core or slice and holds it there. -/
  | pin (part : Nat)
  /-- UNPIN (R430): Writes a pinned copy back and releases its unit. -/
  | unpin (part : Nat)
  /-- FAULT_RECORD_WRITE (R426): A held NEEDRESP fault record is written once the queue has room. -/
  | faultRecordWrite (part : Nat)
  /-- FLIT_RECEIVE (R458): A receiver accepts an in-order decoded flit or NAKs and discards. -/
  | flitReceive (port : Nat) (wire : List Byte)
  /-- REPLAY (R458): A sender replays unacknowledged flits from ACKSEQ plus 1 after a NAK. -/
  | replay (port : Nat)
  /-- HEARTBEAT (R458): An end sends at least one flit each microsecond. -/
  | heartbeat (port : Nat)
  /-- LANE_FAIL (R459): A failing lane forces retraining at a narrower width. -/
  | laneFail (port lane : Nat)
  /-- RETRAIN_TIMEOUT (R459): Retraining not ended within 4 microseconds takes the port DOWN. -/
  | retrainTimeout (port : Nat)
  /-- REQW (R462): A write of REQW requests a width change. -/
  | reqw (port : Nat) (width : BitVec 2)
  /-- WIDTH_CHANGE (R459): A requested width change takes place at the next flit that begins a packet. -/
  | widthChange (port : Nat)
  /-- PORT_SILENT (R462): A port with no accepted flit for 10 microseconds is silent and isolated. -/
  | portSilent (port : Nat)
  /-- ATOLL_DISCARD (R465): An Atoll discards a packet held for 10 microseconds. -/
  | atollDiscard (atoll index : Nat)
  /-- RETRANSMIT (R465): A source resends an unreplied request after 50 microseconds or on a route loss. -/
  | retransmit (device tag : Nat)
  /-- RD (R461): A read request arrives and is checked and performed at a window. -/
  | rdReq (port : Nat) (pkt : Packet)
  /-- WR (R461): A write request arrives and is performed at a window. -/
  | wrReq (port : Nat) (pkt : Packet)
  /-- AT (R461): An atomic request arrives and is performed at a window. -/
  | atReq (port : Nat) (pkt : Packet)
  /-- RDREP (R461): A read reply arrives at its requester. -/
  | rdrep (port : Nat) (pkt : Packet)
  /-- WRACK (R461): A write acknowledgement arrives at its requester. -/
  | wrack (port : Nat) (pkt : Packet)
  /-- ATREP (R461): An atomic reply with the old value arrives at its requester. -/
  | atrep (port : Nat) (pkt : Packet)
  /-- LXPULL (R467): A destination pulls contributions for a chunk to a named reducer. -/
  | lxpull (party : Party) (pkt : Packet)
  /-- LXDATA (R467): A contribution arrives at a reducer and is accumulated once per rank. -/
  | lxdata (party : Party) (pkt : Packet)
  /-- LXRES (R467): A reduced chunk arrives at its destination participant. -/
  | lxres (party : Party) (pkt : Packet)
  /-- JOIN (R470): A device's JOIN arrives at an Atoll, which accepts or refuses it. -/
  | join (atoll port : Nat) (pkt : Packet)
  /-- JOINACK (R469): An Atoll's acceptance of JOIN arrives at the device. -/
  | joinack (port : Nat) (pkt : Packet)
  /-- JOINREFUSE (R469): An Atoll's refusal arrives and the device retries JOIN. -/
  | joinrefuse (port : Nat) (pkt : Packet)
  /-- DOWN (R468): A DOWN flit makes the sending device DEAD at the Atoll. -/
  | down (atoll port : Nat) (pkt : Packet)
  /-- PORTDOWN (R468): A PORTDOWN notice is counted and forwarded. -/
  | portdown (party : Party) (pkt : Packet)
  /-- DEATH (R468): A DEATH notice makes a device DEAD at the receiving party. -/
  | death (party : Party) (pkt : Packet)
  /-- ALIVE (R470): An ALIVE notice marks a rejoined device alive. -/
  | alive (party : Party) (pkt : Packet)
  /-- PARK (R503): A PARK notice makes a die's three Atolls unusable for its device. -/
  | park (party : Party) (pkt : Packet)
  /-- UNPARK (R469): An UNPARK notice makes the three Atolls usable again. -/
  | unpark (party : Party) (pkt : Packet)
  /-- POWER_RESET (R513): Resets everything except the Shoal and repair store and runs bring-up. -/
  | powerReset
  /-- MODULE_RESET (R513): Resets every die, DCP and the MMP after draining records and sending DOWN. -/
  | moduleReset
  /-- MMP_RESET (R513): Resets the MMP alone while the dies keep running. -/
  | mmpReset
  /-- HOLDOVER (R474): After 1 s of Ferry silence the timebase enters holdover. -/
  | holdover
  /-- TIMESYNC (R474): The timebase locks or is stepped to the grandmaster and emits TIMESYNC. -/
  | timesync (stepTo : Option W64)
  /-- LOSS (R475): A unit whose buffer frees after drops emits a LOSS record. -/
  | loss (unit : UnitId)
  /-- SAMPLE (R493): A core takes one PC sample per interval. -/
  | sample (die core : Nat)
  /-- HOSTMEM_READ (R501): The control node reads device memory through a partition's translation. -/
  | hostmemRead (ferry part : Nat) (va : W64) (bytes : Nat) (acquire : Bool)
  /-- HOSTMEM_WRITE (R501): The control node writes device memory, optionally as a release. -/
  | hostmemWrite (ferry part : Nat) (va : W64) (data : List Byte) (release : Bool)
  /-- ADD64 (R501): The control node performs an N64 atomic add at a home slice. -/
  | add64 (ferry part : Nat) (va addend : W64)
  /-- CAS64 (R501): The control node performs an N64 compare-and-swap at a home slice. -/
  | cas64 (ferry part : Nat) (va compare new : W64)
  /-- DRAIN (R502): Empties a die of teams, engine operations and LX steps. -/
  | drain (die : Nat)
  /-- QUARANTINE (R502): Writes back a drained die's L2, parks its ports and stops its clocks. -/
  | quarantine (die : Nat)
  /-- RESTART (R502): Resets a quarantined die, maps spares, repairs and loads a DCP image. -/
  | restart (die : Nat) (slot : Bool) (failed : List Nat)
  /-- RELEASE (R502): Unparks a quarantined die's ports and returns it to RUNNING. -/
  | release (die : Nat)
  /-- DCP_READY_TIMEOUT (R511): A restarted DCP not ready within 1 s is restarted with the other slot. -/
  | dcpReadyTimeout (die : Nat)
  /-- CORE_FENCE (R504): A core that fails in-service self-test is fenced and evicted. -/
  | coreFence (die core : Nat)
  /-- DRAM_REPAIR (R505): A failing row, pin or bank is remapped to a spare by copying. -/
  | dramRepair (die : Nat) (repair : Repair)
  /-- HEALTH_UPDATE (R506): The DCP updates its die health block each minute. -/
  | healthUpdate (die : Nat) (reading : HealthReading)
  /-- EOL_UPDATE (R507): EOL is recomputed each hour from ageing and error trends. -/
  | eolUpdate (die : Nat) (ageMonths errorMonths : Nat)
  /-- KEY_LOAD (R508): Firmware loads a key into a slot for a partition. -/
  | keyLoad (slot : Nat) (keyid : W32) (part : Nat)
  /-- KEY_CLEAR (R509): Firmware clears a key slot. -/
  | keyClear (slot : Nat)
  /-- FIRMWARE_WRITE (R511): An image written into a non-active slot is verified and marked PENDING or INVALID. -/
  | firmwareWrite (kind : FwKind) (slot : Bool) (image : List Byte)
  /-- FIRMWARE_COMMIT (R511): Makes the PENDING slot ACTIVE and raises the fused floor. -/
  | firmwareCommit (kind : FwKind)
  /-- ATTESTATION (R512): Returns a signed attestation report for a nonce. -/
  | attestation (nonce : List Byte)
  /-- WAIT_DESCRIPTOR_READ (R481): Returns the wait descriptors of a partition's groups and steps. -/
  | waitDescriptorRead (handle : W64) (part : Nat)
  /-- SKETCH_READ (R492): Reads and clears a count-min sketch in one command. -/
  | sketchRead (unit : UnitId)
  /-- SAMPLE_INTERVAL (R493): Sets the PC sampling interval of a partition's cores. -/
  | sampleInterval (handle : W64) (part n : Nat)
  /-- REPLAY_MODE (R494): Sets a queue's replay mode to OFF, RECORD or REPLAY. -/
  | replayMode (handle : W64) (part queue : Nat) (mode : ReplayMode)
  /-- HALT_RELEASE (R377): Firmware releases a parked group to continue after its HALT. -/
  | haltRelease (release : Release)
  /-- WATCHDOG_KILL (R432): Firmware kills a team at the control node's request. -/
  | watchdogKill (team : Nat)
  /-- INJECTION_ARM (R515): Arms one lane-pair mismatch injection on a core. -/
  | injectionArm (handle : W64) (part die core count bit : Nat)
  /-- POWER_LOSS (R477): On a loss of power, records not yet written to the Shoal are lost, written records survive in self-refresh, and the device falls silent without sending DOWN. -/
  | powerLoss
  /-- POWER_THROTTLE (R414): Power throttling holds or releases an issue slot, so that its cycles are not issue cycles and count as THROTTLE. -/
  | powerThrottle (die core slot : Nat) (hold : Bool)
  /-- RETRAIN_COMPLETE (R459): Forced retraining of a Strait link ends within 4 µs on a passing lane set, and the sender replays from the first flit of the interrupted packet at the new width. -/
  | retrainComplete (port : Nat) (laneok : Byte)
  deriving DecidableEq, Repr

end Sys2Proof
end

