-- ==== Sys2Proof/Machine/State.lean ====
section
/-! DEFINITION. The state of the machine, as plain data: everything the manual gives it (INVENTORY.md lists the
rules). `Run` holds what executes (groups, teams, engines, memory, partitions), `Mgmt` what the management plane
and the links hold; an instruction of the opcode map changes `Run` only. -/
namespace Sys2Proof.Machine

/-! Registers of a group (01, 02). -/

/-- Trap causes (17 R432). -/
inductive Cause where
  | illegalOpcode | illegalOperand | latchLost | formatDivergence | formatReserved | accToken | scratchBound
  | misaligned | pageFault | ownerFault | poison | integrity | queueUnbound | remoteError | peerDead
  | handlerViolation | privilege | tmaskDeferred | capability | breakpoint | software | arith | spawnEntry
  | pairMismatch | watchdog
  deriving DecidableEq, Repr

inductive RcKind where
  | join | path
  deriving DecidableEq, Repr

/-- An entry of a reconvergence stack (01 R27); `none` is the PC value "none". -/
structure RcEntry where
  pc : Option W64
  mask : BitVec 4
  rpc : Option W64
  kind : RcKind
  deriving DecidableEq, Repr

/-- What a fragment waits for, as its wait descriptor shows it (19 R479, R480), with its stall reason (R486). `aux` is 1 once an
arrival has woken it (04 R131); `switch` says that the instruction that waits is a switch point (01 R50, 11 R328); `lines` are the scratch lines that are
waited for (04 R125). -/
structure Wait where
  kind : Nat
  reason : Nat
  object : W64
  since : W64
  aux : Nat
  switch : Bool := false
  lines : List Nat := []
  deriving DecidableEq, Repr

/-- What a slice waited at when its group was trapped to SUPERVISOR level (01 R51, 14 R374): a REGANG arrival, a barrier, a wait. -/
structure Kept where
  arrived : Option (BitVec 32 × W64)
  recorded : Option (BitVec 32 × W64)
  bar : Option (Nat × Nat)
  wait : Option Wait
  deriving DecidableEq, Repr

/-- The state of one slice (01 "Slices, gangs and fragments"). Stacks hold their top first. `regMask`, `regStack`
and `regCrp` are what it held when its region began (R47); `gone` has the lanes ended by EXIT (R37); `arrived` is a
REGANG arrival: the slices named and the address after (R29), and `recorded` one that stays on record while the slice runs on (17 R454); `bar` the barrier and generation it waits for, and
`bara` the barriers with a BARA not yet matched by a BAR, with their generations (09 R278); `kept` is what it goes on waiting at after the
handler that is running. `last` is the tick of its last issue, of the instruction at `lastPc`,
by which the fragment that issued least recently is told (19 R486). `stale` has the instruction words the slice may still issue from its
fetch buffer after an `ICINV`, by address, and `staleLeft` how many; `buffer` has the instruction words that it has decoded, by address: where `loopAt`
names a backward branch by its target and the end of its span, they are what its loop buffer holds, which `loopStale` marks stale (09 R290, R291). -/
structure Slice where
  pc : W64
  mask : BitVec 4
  crp : Option W64
  stack : List RcEntry
  rge : W64
  regMask : BitVec 4
  regStack : List RcEntry
  regCrp : Option W64
  gone : BitVec 4
  frag : Nat
  arrived : Option (BitVec 32 × W64)
  recorded : Option (BitVec 32 × W64)
  bar : Option (Nat × Nat)
  bara : List (Nat × Nat)
  valid : BitVec 8
  wait : Option Wait
  last : Nat
  lastPc : W64
  stale : Sparse W64
  staleLeft : Nat
  buffer : Sparse W64
  loopAt : Option (W64 × Nat)
  loopStale : Bool
  kept : Option Kept
  deriving DecidableEq, Repr

/-- A queue register's binding (11 R325). -/
structure QBind where
  kind : Nat
  lw : Bool
  obj : W64
  deriving DecidableEq, Repr

/-- A raised cause with what its trap record says of it (17 R434, R436). -/
structure TrapInfo where
  cause : Cause
  detail : Nat
  lane : Nat
  code : Nat
  pc : W64
  addr : W64
  aux : Nat
  deferred : Bool
  deriving DecidableEq, Repr

/-- One lane's request of a remote instruction (18 R461): its reply, once there is one, is STATUS, DETAIL and data. -/
structure RLane where
  lane : Nat
  tag : Nat
  ofs : W64
  reply : Option (Nat × Nat × List Byte)
  deriving DecidableEq, Repr

/-- One instance of a remote instruction in flight (08 R262 to R264): its address, its fragment's lowest slice, its peer word and its
requests. `atom` marks an `RATOM`, of which `f` and `low` are the fields and the lowest active lane; `pops` has the words that it has popped
from queue registers. -/
structure Remote where
  pc : W64
  slice : Nat
  peer : W32
  lanes : List RLane
  atom : Bool
  f : Fields
  low : Nat
  pops : List (Nat × List W32) := []
  deriving DecidableEq, Repr

/-- The lanes of an `RATOM` that are done before their instruction is (08 R263). -/
structure RatomDone where
  pc : W64
  lanes : W128
  deriving DecidableEq, Repr

/-- What makes a group record a landing-handler slice (01 R42); it stays on the core that started it (R45). -/
structure Handler where
  op : Nat
  bseq : Nat
  bx : W32
  by_ : W32
  bz : W32
  slot : Nat
  burst : List Byte
  entry : W64
  die : Nat
  core : Nat
  deriving DecidableEq, Repr

/-- Counter increments staged against a group for one tile (03 R106). -/
structure Staged where
  tile : Nat
  nan : Nat
  inv : Nat
  ovf : Nat
  deriving DecidableEq, Repr

/-- An accumulator tile (10 R294, R296, R305; 03 R105). `owner` is none for the unit. -/
structure Tile where
  bytes : Sparse Byte
  w : Nat
  owner : Option Nat
  nan : W32
  inv : W32
  ovf : W32
  deriving DecidableEq, Repr

/-- A group, a spawned group, or a handler slice. `width` counts visible lanes; `holds` are the region holds with whether an
undo copy is due (10 R316, R317) and `undo` the undo copies, by tile, and by tile + 8 for the regions of a supervisor handler; `dirty`, `absent` and `saved` name register lines by 4 · register + pass, `regionNo` counts region starts, `ctlKey` names what its control lines in memory hold
(17 R441), `copy` is the checkpoint copy that its next resumption reads (17 R445; 0 for the context area). `evicting` is an eviction whose
write-back waits for a page (16 R431). Lanes are the visible ones (01 R52). `v` has register k of lane l
at key 128 k + l, `lat` latch k of lane l at key 8 l + k. `returned` has, by the address of a queue's object, words that an interrupted instruction had
popped and that found no room there again: the group pops them first. -/
structure Grp where
  team : Nat
  num : Nat
  handler : Option Handler
  parent : Nat
  spawned : Bool
  ended : Bool
  width : Nat
  slices : List Slice
  v : Sparse W32
  dirty : List Nat
  absent : List Nat
  saved : List Nat
  g : List W64
  p : List W128
  m : List W128
  lat : Sparse W32
  q : Sparse QBind
  fflags : Sparse (BitVec 5)
  sg : List W64
  sp : List W128
  super : Bool
  msk : Bool
  uin : Bool
  utvec : W64
  parked : Option (Nat × W64)
  deferred : List TrapInfo
  causal : W64
  stall : List W64
  staged : List Staged
  undo : Sparse Tile
  holds : List (Nat × Bool)
  regionNo : Nat
  remotes : List Remote
  rsts : List Remote
  returned : Sparse (List W32)
  ratom : List RatomDone
  ctx : Option Nat
  spawnSlot : Option Nat
  heldEvict : Option W64
  reenter : Bool
  ctxArea : Nat
  ctlKey : Option Nat
  copy : Nat
  evicting : Bool
  atomOrd : Sparse Nat
  hreadOrd : Nat
  lastIssue : Nat
  deriving DecidableEq, Repr

/-! Teams, clusters, launches. -/

inductive LineState where
  | empty | full | filling
  deriving DecidableEq, Repr

/-- A team barrier (09 R277): its generation, whether a `.SPAWNED` arrival fixed it, the groups (by `%groupid`)
expected since spawned groups joined, and each group's slices that have arrived. -/
structure Barrier where
  gen : Nat
  spawnedForm : Option Bool
  joined : List Nat
  arrived : Sparse (BitVec 32)
  deriving DecidableEq, Repr

/-- The configuration block (10 R295). -/
structure TileCfg where
  mb : Nat
  nb : Nat
  kb : Nat
  nt : Nat
  lda : Nat
  ldb : Nat
  deriving DecidableEq, Repr

/-- Who waits in LDS.TAKE or STS.GIVE for a line, in order of arrival (04 R127). DEDUCED, log 16. -/
structure LineWaiter where
  line : Nat
  group : Nat
  slice : Nat
  give : Bool
  deriving DecidableEq, Repr

/-- A leaf of the page tables as a TLB holds it (16 R419, R422). -/
structure Leaf where
  vbase : Nat
  size : Nat
  pbase : Nat
  u : Bool
  x : Bool
  w : Bool
  r : Bool
  home : Nat
  enc : Bool
  key : Nat
  hdie : Nat
  hunit : Nat
  deriving DecidableEq, Repr

/-- Where a buffered store goes: global memory through the translation of its issue, team scratch (`fill` for `STS.FILL`), or a peer, by
its peer word, with the address and slice of its `RST`. DEDUCED, log 34. -/
inductive BufDest where
  | mem (l : Leaf)
  | scratch (fill : Bool)
  | peer (w : W32) (pc : W64) (slice size : Nat)
  deriving DecidableEq, Repr

/-- A store of a protected team's store buffer (17 R444); a weak one may give way to a later one, but not past a release or a fence of its
lane (05 R141, R158), which `edge` marks; a fence's mark stores no byte. `taken` is what it takes of the buffer; `pc` and `hint` are the address of its instruction and its retention hint (08 R242). DEDUCED, log 34. -/
structure BufStore where
  group : Nat
  lane : Nat
  weak : Bool
  edge : Bool
  taken : Nat
  pc : W64
  hint : Nat
  dest : BufDest
  addr : Nat
  bytes : List Byte
  deriving DecidableEq, Repr

/-- A piece of a store, which is one write (12 R352). -/
structure LatePiece where
  leaf : Leaf
  va : W64
  bytes : List Byte
  deriving DecidableEq, Repr

/-- A lane's store with the pieces that are not performed yet (05 R141, R147, R160, 12 R352): its lane sees them, every other observer once they are
performed. `strong` and `release` are its kind (05 R140), `pc` and `hint` the address of its instruction and its retention hint. DESIGN CHOICE, log 3. -/
structure LateStore where
  group : Nat
  lane : Nat
  strong : Bool
  release : Bool
  part : Nat
  pc : W64
  hint : Nat
  pieces : List LatePiece
  deriving DecidableEq, Repr

/-- An instruction in a matrix unit's queue (10 R299), with the translations of its issue by 64 KiB region. -/
structure MatOp where
  group : Nat
  team : Nat
  opcode : Nat
  tile : Nat
  pc : W64
  fmt : W32
  base : W64
  base2 : W64
  stride : Nat
  cfg : TileCfg
  lane : Nat
  super : Bool
  wide : Bool
  region : Nat
  undo : Bool
  leaves : List (Nat × Leaf)
  deriving DecidableEq, Repr

/-- A checkpoint of a protected team (17 R445): its current area, 1 or 2, and the matrix work that was accepted and not performed. DEDUCED,
log 52. DEDUCED, log 61. -/
structure Checkpoint where
  area : Nat
  queue : List MatOp
  groups : Sparse Grp
  cfg : TileCfg
  tiles : List Tile
  bars : List Barrier
  deriving DecidableEq, Repr

/-- A completion record an engine holds for a full ring (11 R327), or the word of a copy to a STREAM queue with the destination lines that are
not FULL yet (04 R133). -/
structure HeldRecord where
  ring : Nat
  lines : List Nat
  words : List W32
  deriving DecidableEq, Repr

/-- A team. `admitted` orders the latest admissions of teams; `avoid` is the core a rollback leaves (17 R447); `save` is its save area (16 R431)
and `queue` the accepted matrix work with which it resumes. -/
structure Team where
  launch : Nat
  num : Nat
  cluster : Nat
  cteam : Nat
  die : Nat
  core : Nat
  resident : Bool
  ended : Bool
  killed : Bool
  size : Nat
  scratch : Sparse Byte
  lines : Sparse LineState
  lineWaiters : List LineWaiter
  bars : List Barrier
  cfg : TileCfg
  tiles : List Tile
  pins : List (Nat × Nat)
  held : List HeldRecord
  sbuf : List BufStore
  committed : List BufStore
  checkpoint : Option Checkpoint
  rollbacks : Nat
  avoid : Option (Nat × Nat)
  save : Nat
  saved : Bool
  queue : List MatOp
  admitted : Nat
  tstart : W64
  evicts : Nat
  banks : Sparse (List W64)
  startEvent : W64
  deriving DecidableEq, Repr

/-- A holding slot (04 R134): tile bytes, receivers, receivers that have drained it. -/
structure HoldSlot where
  bytes : List Byte
  recv : Nat
  drained : Nat
  deriving DecidableEq, Repr

/-- A cluster (01 R18): `die` is the GD that has it; `at_` the base core once it is placed; `leaving` while its eviction is not finished. -/
structure Cluster where
  launch : Nat
  num : Nat
  die : Nat
  at_ : Option Nat
  evicted : Bool
  leaving : Bool
  ended : Bool
  teams : List Nat
  slots : Sparse HoldSlot
  deriving DecidableEq, Repr

/-- A logged value of a recorded launch (19 R495). -/
structure LogEntry where
  key : W64
  where_ : W64
  old : W64
  deriving DecidableEq, Repr

/-- A launch; `firstLog` is the WPTR of its first log record (19 R495). -/
structure Launch where
  part : Nat
  src : RecSrc
  prio : Nat
  startOrder : Nat
  kernid : W32
  launchid : W32
  nteams : Nat
  ngroups : Nat
  width : Nat
  vregs : Nat
  gregs : Nat
  prot : Bool
  rows : Nat
  cols : Nat
  lines : Nat
  codeBase : Nat
  codeSize : Nat
  entries : List Nat
  handlers : List Nat
  args : List W64
  utvec : W64
  utrap : Nat
  lrec : Nat
  dies : List Nat
  teamsLeft : Nat
  mode : ReplayMode
  log : List LogEntry
  bursts : List (W64 × Nat × Nat)
  startEvent : W64
  diverged : Bool
  errors : Nat
  complete : Bool
  firstLog : Option Nat
  deriving DecidableEq, Repr

/-! Engines. -/

inductive OpKind where
  | copy | cdrain | hread
  deriving DecidableEq, Repr

/-- How far a piece is: not reached, waiting for a page, a burst held for its handler slice, a burst whose slice runs, done, failed. -/
inductive PieceState where
  | todo
  | waiting (tag : Nat)
  | held (data : List Byte)
  | running
  | done
  | failed (cause : Cause) (detail : Nat) (va : W64)
  deriving DecidableEq, Repr

/-- A piece of a transfer or a burst of an HREAD (11 R329, R333): its first byte in copy order, or `%bseq`; `handlerCause` is the trap
that ended its handler slice. -/
structure Piece where
  ofs : Nat
  len : Nat
  src : Nat
  dst : Nat
  state : PieceState
  handlerCause : Option Cause
  deriving DecidableEq, Repr

/-- An engine operation of a core (11 R323). `data` is what it moves where its source is a holding slot, whose number is `hidx`, or the
scratch of a team that has been killed. -/
structure Op where
  kind : OpKind
  group : Nat
  team : Nat
  core : Nat
  die : Nat
  pc : W64
  causal : W64
  super : Bool
  srcSc : Bool
  dstSc : Bool
  cmode : Nat
  cpl : Nat
  dst : Nat
  total : Nat
  pieces : List Piece
  data : List Byte
  nx : Nat
  ny : Nat
  nz : Nat
  hidx : Nat
  tag : W32
  gregs : List W64
  ordinal : Nat
  deriving DecidableEq, Repr

/-- A layout record (11 R341): its words, and its participant table as it stands and as (device, die). -/
structure Layout where
  words : List W64
  raw : List Nat
  parts : List (Nat × Nat)
  deriving DecidableEq, Repr

/-- A packet of what a chunk has received of one contributor, by source rank, or of an Atoll that has reduced it, with its place there and its conditions
(18 R467). -/
structure LxPart where
  chunk : Nat
  rank : Option Nat
  piece : Nat
  bytes : List Byte
  flags : Nat
  deriving DecidableEq, Repr

/-- A part of a layout exchange step at this device (11 R344 to R351; 18 R467; 19 R483), the latest of its die and STEPID. The layouts and the
bases are those of its acceptance; `digests` and `doneBy` name the participants whose digest, and whose report that its chunks are
done, have arrived; `sent` the chunks pulled from this participant; `reducer` the reducer of each chunk that this participant pulls;
`held` has the fault records that it waits for, with the destination rank and the chunk that each holds, or none for its progress record; `epoch` tells the uses of one STEPID apart. DEDUCED, log 82. DEDUCED, log 91. -/
structure LxStep where
  die : Nat
  part : Nat
  stepid : W32
  epoch : Nat
  prog : Nat
  slay : Layout
  dlay : Layout
  srcAddr : Nat
  dstAddr : Nat
  srcBase : Nat
  dstBase : Nat
  deadline : W64
  op : Nat
  endp : Bool
  team : Option Nat
  rec_ : Option RecSrc
  cmode : Nat
  cpl : Nat
  status : Nat
  flags : Nat
  bits : List Nat
  accepted : W64
  issueEvent : W64
  startEvent : W64
  digests : List (Nat × Nat)
  doneBy : List (Nat × Nat)
  watched : Bool
  attempt : Nat
  reducer : Sparse Nat
  got : List LxPart
  held : List (Nat × Option (Nat × Nat))
  super : Bool
  pc : W64
  launchid : W32
  kernid : W32
  order : Nat
  deriving DecidableEq, Repr

/-! Translation (16). -/

/-- Who waits for the answer to a NEEDRESP record (16 R424, R425, R429); `admission` is a cluster that waits for a page of the context pool
(R431). -/
inductive Waiter where
  | piece (op index : Nat)
  | handler (group : Nat)
  | lx (die : Nat) (stepid : W32)
  | context (group : Nat)
  | admission (cluster : Nat)
  deriving DecidableEq, Repr

/-- A fault record (16 R424), who waits on it and since when. `written` is false while it is held for a full queue (R426). -/
structure FaultRec where
  words : List W64
  waiter : Option Waiter
  tag : Nat
  since : W64
  written : Bool
  deriving DecidableEq, Repr

/-- The latched translation control block (16 R415). The index words that only hardware writes are its own; memory holds what it wrote last,
or what software stored over it (16 R416, 00 R10). DEDUCED, log 141. -/
structure ControlBlock where
  addr : Nat
  l0base : Nat
  fqbase : Nat
  fqlog : Nat
  cqbase : Nat
  cqlog : Nat
  ctxbase : Nat
  ctxsize : Nat
  fqtail : W64
  cqhead : W64
  dropped : W64
  deriving DecidableEq, Repr

/-- A pointer entry in a die's walk cache (16 R422): its level, the index bits of the addresses that it serves, and the table it names. -/
structure WalkPtr where
  part : Nat
  level : Nat
  index : Nat
  next : Nat
  deriving DecidableEq, Repr

/-- A pinned frame (16 R430). -/
structure PinnedFrame where
  frame : Nat
  size : Nat
  core : Bool
  die : Nat
  unit : Nat
  deriving DecidableEq, Repr

/-! Queues and graphs (15). -/

inductive RecState where
  | taken | started | done | halted
  deriving DecidableEq, Repr

/-- A record the launcher has taken, with the ERRCODE with which it has failed (15 R397). -/
structure TakenRec where
  slot : Nat
  words : List W64
  state : RecState
  code : Nat
  deriving DecidableEq, Repr

/-- The launcher's view of one queue (15 R391, R397, R398), with the words that only it writes. -/
structure QueueState where
  taken : W64
  done : W64
  err : W64
  recs : List TakenRec
  suspended : Bool
  halted : Bool
  deriving DecidableEq, Repr

/-- A running graph (15 R403): the queue slot of its record, its table, the PENDING of its nodes and its NLEFT as the launcher has written them (R401,
R402), ready nodes and running nodes; a dropped one only has nodes that still run. -/
structure Graph where
  queue : Nat
  slot : Nat
  table : Nat
  nnodes : Nat
  pending : List Nat
  left : Nat
  ready : List Nat
  running : List Nat
  finished : List Nat
  halted : Bool
  dropped : Bool
  deriving DecidableEq, Repr

/-- A partition's registers (14 R379 to R382), windows and queues. `served` has the queue served last by priority (15 R396); `areas` is what
the context pool has given (16 R431). -/
structure Partition where
  partid : Nat
  devid : BitVec 8
  pdies : BitVec 24
  pframe : List W64
  pwin : List W64
  scbase : W64
  scsize : W64
  stvec : W64
  pdeleg : W64
  capbase : W64
  capsize : W64
  winbase : W64
  ptroot : W64
  queueTable : W64
  queueEnable : Bool
  cb : Option ControlBlock
  windows : Sparse (List W64)
  queues : Sparse QueueState
  served : Sparse Nat
  graphs : Sparse Graph
  faults : List FaultRec
  nextTag : Nat
  banks : List (List W64)
  areas : List (Nat × Nat)
  sampleLog : Option Nat
  modes : Sparse ReplayMode
  deriving DecidableEq, Repr

/-! Cores and dies. -/

/-- A core: whether it is fenced (20 R504), an armed injection, its count and bit (21 R515), the issue slots that throttling holds (15 R414), the
context it sampled last and the interval of its latest sample (19 R493), the spare site it is mapped to, its matrix unit's queue (10 R299),
its instruction cache by physical address (09 R290) and its TLB (16 R422). -/
structure Core where
  fenced : Bool
  inject : Option (Nat × Nat)
  throttled : BitVec 4
  lastSample : Nat
  sampled : Nat
  spare : Option Nat
  matrix : List MatOp
  icache : Sparse W64
  tlb : List (Nat × Leaf)
  deriving DecidableEq, Repr

inductive DieState where
  | running | draining | drained | quarantined | restarting | failed
  deriving DecidableEq, Repr

/-- A line that its home slice holds (04 R520): whether it differs from HBM, and its retention hint, 0 none, 1 STRM, 2 KEEP (08 R242).
DEDUCED, log 8. -/
structure L2Line where
  dirty : Bool
  hint : Nat
  deriving DecidableEq, Repr

/-- A replica of a line in a slice, with the launch whose load made it (04 R122, R123). DEDUCED, log 8. -/
structure Replica where
  line : Nat
  slice : Nat
  launch : Nat
  hint : Nat
  deriving DecidableEq, Repr

/-- An error that ECC has corrected (20 R505): when, the 64-byte block, and the pin of its channel. -/
structure Corrected where
  time : W64
  block : Nat
  pin : Nat
  deriving DecidableEq, Repr

/-- What EOL is computed from (20 R507): AGE and CEHOUR at a time. -/
structure HealthSample where
  time : W64
  age : Nat
  cehour : Nat
  deriving DecidableEq, Repr

/-- A die: timebase copy (19 R474), event numbering (R471), control word (20 R502), health block (R506) with the errors of the last hour, the blocks that have failed (R505), the time of its latest update and the
history of R507, when the parking of its ports began (R503), last-level TLB and
walk cache (16 R422), steal request in flight, its launch and the die it is at (15 R408), L2 metadata: lines held, dirty lines and replicas (04 R520, R122). -/
structure Die where
  time : W64
  seq : BitVec 43
  cores : List Core
  spares : Nat
  err : Bool
  slot : Bool
  state : DieState
  cmd : Nat
  eol : Nat
  age : Nat
  tmax : Nat
  tnow : Nat
  vcore : Nat
  power : Nat
  cehour : Nat
  uecount : Nat
  rows : Nat
  pending : Nat
  corrected : List Corrected
  failedBlocks : List Nat
  healthAt : Option W64
  history : List HealthSample
  dcpSlot : Bool
  dcpTries : Nat
  restartAt : W64
  tlb : List (Nat × Leaf)
  ptrs : List WalkPtr
  steal : Option (Nat × Nat)
  held : Sparse L2Line
  replicas : List Replica
  parking : Option W64
  parkedPorts : Bool
  deriving DecidableEq, Repr

/-! Memory (04). -/

/-- HBM bytes by physical address; a byte not listed reads 0 (DESIGN CHOICE, log 2). -/
abbrev Memory := List Host.Cell

/-- The form every memory keeps: addresses strictly rising and no entry equal to what an unlisted address reads as. -/
def Memory.wf (m : Memory) : Bool := Sparse.wf (0 : Byte) m

/-- The stored bits of a 32-byte sector (17 R450): the key it was written under (none: plain text), and whether ECC finds an error in
it, one that it corrects or one that it cannot. DESIGN CHOICE, log 135. -/
structure SectorTag where
  key : Option (Nat × Nat)
  flipped : Bool
  bad : Bool
  deriving DecidableEq, Repr

/-- What stands over one 64-byte block besides its bytes: its two sectors (16 R421) and the mark of a block that failed (17 R451), with its
DETAIL bits. DESIGN CHOICE, log 135. -/
structure BlockTag where
  low : SectorTag
  high : SectorTag
  mark : Option (Cause × Nat)
  deriving DecidableEq, Repr

/-! Events (19). -/

/-- An event record of 32 bytes (19 R471) as its four words, whether its type is lossless, and, until it is written, the recorded launch whose log it is of
(19 R495). -/
structure EvRec where
  w0 : W64
  w1 : W64
  w2 : W64
  w3 : W64
  lossless : Bool
  launch : Option Nat := none
  deriving DecidableEq, Repr

structure UnitBuffer where
  unit : UnitId
  recs : List EvRec
  drops : Nat
  deriving DecidableEq, Repr

/-! Requests of this device towards peers (18 R463 to R465), each with the kernel of its launch (19 R492). -/
structure Request where
  pkt : Packet
  part : Nat
  group : Nat
  kern : Nat
  sent : W64
  resent : Nat
  deriving DecidableEq, Repr

/-- A slot of the key table (20 R509); `gen` counts the keys the slot has held. -/
structure KeySlot where
  keyid : W32
  loaded : Bool
  part : Nat
  gen : Nat
  deriving DecidableEq, Repr

/-- A count-min sketch (19 R492): how often its seeds were drawn, and the sum added under each key since. -/
structure Sketch where
  unit : UnitId
  seed : Nat
  sums : Sparse Nat
  deriving DecidableEq, Repr

/-- What executes. `ready` has the fragments that may issue, by group and split-table entry, in the order in which they became candidates: the
first 64 of an issue slot are its ready window (15 R413). `accPc` and `accHint` are the address and the retention hint (08 R242) of the instruction whose accesses are being made; `issuing` names the group and the split-table entry whose instruction is executing; `fresh` counts
the uses of Config's free values (DESIGN CHOICE, log 6). -/
structure Run where
  groups : Sparse Grp
  teams : Sparse Team
  clusters : Sparse Cluster
  launches : Sparse Launch
  ops : Sparse Op
  steps : List LxStep
  parts : List Partition
  dies : List Die
  mem : Memory
  late : List LateStore
  tags : Sparse BlockTag
  pinned : List PinnedFrame
  units : List UnitBuffer
  reqs : List Request
  nextTag : Sparse Nat
  outbox : List Packet
  keys : List KeySlot
  keySeed : Nat
  incarn : BitVec 8
  devid : BitVec 8
  evTimes : Sparse W64
  sketches : List Sketch
  accPc : W64
  accHint : Nat
  issuing : Option (Nat × Nat)
  ready : List (Nat × Nat)
  nextId : Nat
  fresh : Nat
  tick : Nat
  deriving DecidableEq, Repr

/-! The management plane and the links. -/

inductive PortState where
  | down | training | up | isolated
  deriving DecidableEq, Repr

/-- A flit (18 R456, R458): sequence number, class and slots, whether a packet begins with it, whether it carries a NAK, and the slots that it
returns as credits of a class. -/
structure Flit where
  seq : Nat
  cls : Nat
  slots : List (List Byte)
  first : Bool
  nak : Bool
  crclass : Nat := 0
  credits : Nat := 0
  deriving DecidableEq, Repr

/-- A Strait port (18 R456 to R462): its status pair; sequence numbers of the next flit sent and of the last one received in order; the replay
buffer, the flits not yet sent, and what the port has sent in the latest step; by class the slots of a packet that spans flits, and how many
flits were accepted since its first; the packets received and not yet acted on, with their times; when a retraining began, and whether what the buffer
holds must be sent again; the times of the last flits received and sent; how many flits in a row have failed (R459); by class the slots freed and
not yet returned, and the credits that have come back (R456); when a JOIN was refused (R470). -/
structure Port where
  laneok : Byte
  state : PortState
  width : Nat
  reqw : Nat
  replays : Nat
  stalerep : Nat
  nextSeq : Nat
  lastSeq : Nat
  nakSent : Bool
  buffer : List Flit
  unsent : List Flit
  wire : List Flit
  partial_ : Sparse (List (List Byte))
  partialFlits : Sparse Nat
  inbox : List (Packet × W64)
  wantWidth : Option Nat
  retraining : Option W64
  mustReplay : Bool
  lastRx : W64
  lastTx : W64
  badRun : Nat
  freed : Sparse Nat
  credits : Sparse Nat
  refused : Option W64
  deriving DecidableEq, Repr

/-- One port of an Atoll (18 R466 to R470): `isolated` has the Atolls that are known to have isolated the port's device, `queue` what waits
to go to it, with the time since when. -/
structure AtollPort where
  up : Bool
  dead : Bool
  incarn : Nat
  drops : Nat
  isolated : List Nat
  queue : List (Packet × W64)
  deriving DecidableEq, Repr

/-- A reduction held in an Atoll (18 R467), with the bytes of its accumulators, or, with `forward`, an attempt for which its store had no room. `got` has
the packets taken, by 256 · rank + place. -/
structure Reduction where
  stepid : Nat
  dest : Nat
  chunk : Nat
  attempt : Nat
  got : Sparse (List Byte)
  size : Nat
  forward : Bool
  deriving DecidableEq, Repr

/-- An Atoll (18 R466 to R470): the requests it has forwarded and seen no reply to, the packets of an exchange that this device has sent to it, the notices it has seen, its reductions, and what it has
sent to other devices than this one, by device; 255 stands for every UP port. -/
structure Atoll where
  ports : List AtollPort
  forwarded : List Packet
  inbound : List Packet
  seen : List (Nat × Nat × Nat × Nat)
  reductions : List Reduction
  nseq : Nat
  out : List (Nat × Packet)
  deriving DecidableEq, Repr

inductive FwState where
  | empty | pending | active | invalid
  deriving DecidableEq, Repr

structure FwSlot where
  svn : Nat
  state : FwState
  digest : List Byte
  good : Bool
  deriving DecidableEq, Repr

/-- A Ferry port (20 R498): whether it is trained, and when it last received. -/
structure Ferry where
  trained : Bool
  lastRx : W64
  deriving DecidableEq, Repr

/-- An answer that the machine has given the control node, or a notice that it has passed to it (18 R468). The descriptors of a wait graph come with the
team of every semaphore tag that they name (19 R481): tag, device, die, `%teamid`. -/
inductive Reply where
  | data (bytes : List Byte)
  | old (value : W64)
  | done
  | word (value : W64)
  | fault (kind : Nat)
  | dataError (cause : Nat)
  | refused
  | notice (p : Packet)
  | waits (words : List W64) (tags : List (Nat × Nat × Nat × Nat))
  | sketch (rows : List (List Nat))
  | report (body : List Byte) (sig : List Byte)
  deriving DecidableEq, Repr

inductive ModState where
  | booting | ready | recovery
  deriving DecidableEq, Repr

/-- The management plane. `booting` while a bring-up waits for its Straits (20 R514); `remaps` the repairs in use (R505); `ferries` the Ferry ports and
`asked` the one by which the act that takes place has come (R498); `failing` the cores (die, core) of which the self-test of a bring-up fails (R514); `replies` the answers of the latest step, each with its port. -/
structure Mgmt where
  state : ModState
  booting : Bool
  serial : W64
  ports : List Port
  atolls : List Atoll
  wptr : W64
  filter : W32
  dropped : W64
  protect : W64
  shoal : Sparse EvRec
  holdover : Bool
  locked : Bool
  mmpSlots : List FwSlot
  dcpSlots : List FwSlot
  mmpFloor : Nat
  dcpFloor : Nat
  mmpRuns : Bool
  pending : List (Nat × Repair)
  remaps : List (Nat × Repair)
  hardRepairs : Nat
  kept : List (Nat × Nat × Packet)
  seen : List (Nat × Nat × Nat × Nat)
  deadDevs : List Nat
  parked : List (Nat × Nat)
  portsDown : List (Nat × Nat)
  nseq : Nat
  ferries : List Ferry
  asked : Option Nat
  failing : List (Nat × Nat)
  replies : List (Nat × Reply)
  powered : Bool
  deriving DecidableEq, Repr

/-- What an agenda entry says happens next: the turn of a fragment, a row of a unit, a piece of a store that is performed (05 R147), or a word of the
configuration space that is read (20 R499). DESIGN CHOICE, log 4. -/
inductive Act where
  | issue (group frag : Nat)
  | event (i : Instr)
  | store (index piece : Nat)
  | configRead (ofs : Nat)
  deriving DecidableEq, Repr

/-- One entry of the agenda: the ticks of 0.25 ns that elapse, the act, the Ferry port by which it comes, where the control node asks for it, and the
cores whose self-test fails, where it is a reset. DESIGN CHOICE, log 4. -/
structure Entry where
  elapsed : Nat
  act : Act
  ferry : Option Nat := none
  failing : List (Nat × Nat) := []
  deriving DecidableEq, Repr

structure State where
  run : Run
  mgmt : Mgmt
  agenda : List Entry
  turn : Nat
  deriving DecidableEq, Repr

/-- Why a step stops. -/
inductive Fault where
  /-- Raised by every instruction of the opcode map when no fragment is issuing it: it is no step of the machine. Safe. -/
  | noIssuer
  /-- Raised by a row of an engine, launcher, link or management unit when what it acts on does not exist or its
  condition does not hold, so that the row cannot occur in that state (DESIGN CHOICE, log 5). Safe. -/
  | notPending
  deriving DecidableEq, Repr

/-- Why an instruction has no meaning. -/
inductive Refusal where
  /-- Raised by the arms of `exec` that are not modelled. Safe. -/
  | notModelled (mnemonic : String)
  deriving DecidableEq, Repr

/-! Reset (INVENTORY.md; 00 R11, 20 R513). -/

def Core.reset : Core :=
  { fenced := false, inject := none, throttled := 0, lastSample := 0, sampled := 0, spare := none, matrix := [], icache := [], tlb := [] }

def Die.reset : Die :=
  { time := 0, seq := 0, cores := List.replicate Config.coresPerDie Core.reset, spares := Config.spareSites
    err := false, slot := false, state := .running, cmd := 0, eol := 255, age := 0, tmax := 0, tnow := 0, vcore := 0
    power := 0, cehour := 0, uecount := 0, rows := 0, pending := 0, corrected := [], failedBlocks := [], healthAt := none, history := [], dcpSlot := false, dcpTries := 0, restartAt := 0, tlb := [], ptrs := []
    steal := none, held := [], replicas := [], parking := none, parkedPorts := false }

def Partition.reset (n : Nat) : Partition :=
  { partid := n, devid := 0, pdies := 0, pframe := [0, 0, 0], pwin := [0, 0, 0, 0], scbase := 0, scsize := 0, stvec := 0
    pdeleg := 0, capbase := 0, capsize := 0, winbase := 0, ptroot := 0, queueTable := 0
    queueEnable := false, cb := none, windows := [], queues := [], served := [], graphs := [], faults := []
    nextTag := 0, banks := List.replicate 6 (List.replicate 16 0), areas := [], sampleLog := none, modes := [] }

/-- The first numbered flit has SEQ 1. DESIGN CHOICE, log 168. -/
def Port.reset : Port :=
  { laneok := 0, state := .down, width := 3, reqw := 0, replays := 0, stalerep := 0, nextSeq := 1, lastSeq := 0
    nakSent := false, buffer := [], unsent := [], wire := [], partial_ := [], partialFlits := [], inbox := []
    wantWidth := none, retraining := none, mustReplay := false, lastRx := 0, lastTx := 0, badRun := 0, freed := [], credits := [], refused := none }

def AtollPort.reset : AtollPort := { up := false, dead := true, incarn := 0, drops := 0, isolated := [], queue := [] }

def Atoll.reset : Atoll :=
  { ports := List.replicate Config.devices AtollPort.reset, forwarded := [], inbound := [], seen := [], reductions := [], nseq := 0, out := [] }

/-- DESIGN CHOICE, log 1. -/
def Run.reset : Run :=
  { groups := [], teams := [], clusters := [], launches := [], ops := [], steps := []
    parts := (List.range Config.partitions).map Partition.reset
    dies := List.replicate Config.dies Die.reset, mem := [], late := [], tags := [], pinned := [], units := [], reqs := []
    nextTag := [], outbox := []
    keys := List.replicate Config.keySlots { keyid := 0, loaded := false, part := 0, gen := 0 }, keySeed := 0
    incarn := 0, devid := 0, evTimes := [], sketches := [], accPc := 0, accHint := 0, issuing := none, ready := [], nextId := 0, fresh := 0, tick := 0 }

def FwSlot.reset : FwSlot := { svn := 0, state := .empty, digest := [], good := false }

/-- DESIGN CHOICE, log 1. -/
def Mgmt.reset : Mgmt :=
  { state := .booting, booting := false, serial := 0, ports := List.replicate Config.ports Port.reset
    atolls := List.replicate Config.ports Atoll.reset
    wptr := 0, filter := 0xFFFFFFFF, dropped := 0, protect := 0xFFFFFFFFFFFFFFFF, shoal := [], holdover := false
    locked := false, mmpSlots := [FwSlot.reset, FwSlot.reset], dcpSlots := [FwSlot.reset, FwSlot.reset]
    mmpFloor := 0, dcpFloor := 0, mmpRuns := false, pending := [], remaps := [], hardRepairs := 0, kept := [], seen := []
    deadDevs := [], parked := [], portsDown := [], nseq := 0
    ferries := List.replicate 2 { trained := true, lastRx := 0 }, asked := none, failing := [], replies := [], powered := true }

/-- The machine right after reset. DESIGN CHOICE, log 1. -/
def State.reset : State := { run := Run.reset, mgmt := Mgmt.reset, agenda := [], turn := 0 }

end Sys2Proof.Machine
end

