-- ==== Sys2Proof/Machine/Bits.lean ====
section
/-! DEFINITION. Bit fields, byte order and lane masks (00 R4 to R6, R12). -/
namespace Sys2Proof.Machine

/-- Bits hi to lo of a word as a number. -/
def fld (w : W64) (hi lo : Nat) : Nat := (w.toNat >>> lo) % 2 ^ (hi - lo + 1)

/-- Bits hi to lo of a number. -/
def nfld (w hi lo : Nat) : Nat := (w >>> lo) % 2 ^ (hi - lo + 1)

def w64 (n : Nat) : W64 := BitVec.ofNat 64 n
def w32 (n : Nat) : W32 := BitVec.ofNat 32 n
def bit (b : Bool) : Nat := if b then 1 else 0

/-- The `n` low bytes of a number, least significant first (00 R4). -/
def leBytes (n v : Nat) : List Byte := (List.range n).map fun i => BitVec.ofNat 8 (v >>> (8 * i))

/-- The number that bytes hold, least significant first (00 R4). -/
def leNat (bs : List Byte) : Nat := bs.foldr (fun b acc => b.toNat + 256 * acc) 0

/-- A number of `bits` bits read as signed. -/
def sext (bits v : Nat) : Int :=
  let u := v % 2 ^ bits
  if 2 ^ (bits - 1) ≤ u then (u : Int) - 2 ^ bits else u

/-- The low `bits` bits of an integer. -/
def lowBits (bits : Nat) (v : Int) : Nat := (v % (2 ^ bits : Nat)).toNat

/-- Lanes of a mask, ascending, below `n`. -/
def lanesOf (m : W128) (n : Nat) : List Nat := (List.range n).filter fun l => m.getLsbD l

def maskOf (ls : List Nat) : W128 := ls.foldl (fun acc l => acc ||| (1#128 <<< l)) 0

/-- The four lane bits of slice s at their places in a group mask. -/
def sliceBits (s : Nat) (m : BitVec 4) : W128 := m.zeroExtend 128 <<< (4 * s)

/-- The four bits of slice s in a group mask. -/
def nibble (m : W128) (s : Nat) : BitVec 4 := m.extractLsb' (4 * s) 4

def lowest (m : W128) (n : Nat) : Option Nat := (lanesOf m n).head?

def nthD {α : Type} (d : α) (l : List α) (n : Nat) : α := (l[n]?).getD d

/-- Changes entry n of a list; a list without it stays as it is. -/
def updAt {α : Type} (l : List α) (n : Nat) (f : α → α) : List α :=
  match l, n with
  | [], _ => []
  | a :: t, 0 => f a :: t
  | a :: t, n + 1 => a :: updAt t n f

def ceilDiv (a b : Nat) : Nat := (a + b - 1) / b

/-- Splits `n` items from the front into chunks, at most `fuel` of them. -/
def chunksOf {α : Type} (fuel n : Nat) (l : List α) : List (List α) :=
  match fuel with
  | 0 => []
  | fuel + 1 => if l.isEmpty then [] else l.take n :: chunksOf fuel n (l.drop n)

def Cause.code : Cause → Nat
  | .illegalOpcode => 0x01 | .illegalOperand => 0x02 | .latchLost => 0x03 | .formatDivergence => 0x04
  | .formatReserved => 0x05 | .accToken => 0x06 | .scratchBound => 0x07 | .misaligned => 0x08
  | .pageFault => 0x09 | .ownerFault => 0x0A | .poison => 0x0B | .integrity => 0x0C | .queueUnbound => 0x0D
  | .remoteError => 0x0E | .peerDead => 0x0F | .handlerViolation => 0x10 | .privilege => 0x11
  | .tmaskDeferred => 0x12 | .capability => 0x13 | .breakpoint => 0x14 | .software => 0x15 | .arith => 0x16
  | .spawnEntry => 0x17 | .pairMismatch => 0x18 | .watchdog => 0x19

/-- The causes that a partition may delegate (14 R367). -/
def Cause.delegable : Cause → Bool
  | .illegalOpcode | .illegalOperand | .formatDivergence | .formatReserved | .accToken | .scratchBound | .misaligned
  | .queueUnbound | .remoteError | .peerDead | .handlerViolation | .capability | .breakpoint | .software | .arith
  | .spawnEntry => true
  | _ => false

end Sys2Proof.Machine
end

