-- ==== Sys2Proof/Machine/OpTable.lean ====
section
/-! DEFINITION. The tables of the manual's instruction forms, one row per opcode: opcode number, second word,
guard, accepted types, what each operand field names, the X and second-word checks (06 R168 to R187,
07 R204 to R238, 08 R239 to R242, 09 R266, R267, 10 R297, R298, 11 R320 to R322, 14 R373), and the handler,
switch-point and region columns (01 R43, R46, R50; 08 R245). -/
namespace Sys2Proof.Machine

/-- Element formats in which an operand is read (02 R64, 03 R79). -/
inductive Elt where
  | i8 | n8 | i16 | n16 | i32 | n32 | i64 | n64 | f16 | bf16 | f32 | f64 | e4m3 | e5m2 | l6
  deriving DecidableEq, Repr

/-- Whether an operand of this format is a 64-bit operand (07 R203). -/
def Elt.wide : Elt → Bool
  | .i64 | .n64 | .f64 => true
  | _ => false

/-- Bits of the format itself (03 R79, R80). -/
def Elt.bits : Elt → Nat
  | .i8 | .n8 | .e4m3 | .e5m2 | .l6 => 8
  | .i16 | .n16 | .f16 | .bf16 => 16
  | .i32 | .n32 | .f32 => 32
  | .i64 | .n64 | .f64 => 64

/-- The format of an element type (06 R172). -/
def tyElt : Ty → Elt
  | .i32 => .i32 | .n32 => .n32 | .i64 => .i64 | .n64 => .n64
  | .f32 => .f32 | .f64 => .f64 | .f16 => .f16 | .bf16 => .bf16

/-- Width in bits of an element type. -/
def tyBits (t : Ty) : Nat := (tyElt t).bits

def tyFloat : Ty → Bool
  | .f32 | .f64 | .f16 | .bf16 => true
  | _ => false

/-- Signed integer types (03 R80). -/
def tySigned : Ty → Bool
  | .i32 | .i64 => true
  | _ => false

/-- The 3-bit code of a type (06 R172). -/
def tyCode : Ty → BitVec 3
  | .i32 => 0 | .n32 => 1 | .i64 => 2 | .n64 => 3 | .f32 => 4 | .f64 => 5 | .f16 => 6 | .bf16 => 7

def tyOfCode (c : BitVec 3) : Ty :=
  match c.toNat with
  | 0 => .i32 | 1 => .n32 | 2 => .i64 | 3 => .n64 | 4 => .f32 | 5 => .f64 | 6 => .f16 | _ => .bf16

/-- The float format of a format code 0 to 6 (03 R79). -/
def fmtElt (c : Nat) : Elt :=
  match c with
  | 0 => .f64 | 1 => .f32 | 2 => .f16 | 3 => .bf16 | 4 => .e4m3 | 5 => .e5m2 | _ => .l6

/-- The integer format of a CVTII source code (07 R226). -/
def intElt (c : Nat) : Elt :=
  match c with
  | 0 => .i8 | 1 => .n8 | 2 => .i16 | 3 => .n16 | 4 => .i32 | 5 => .n32 | 6 => .i64 | _ => .n64

/-- How a result is placed (02 R59, R60, 07 R202, 08 R241): `i32` sign-extends into a g register, `n32` and
`h16` clear the bits above. -/
inductive ResW where
  | h16 | i32 | n32 | w64 | w128
  deriving DecidableEq, Repr

/-- 32-bit words of a result (02 R69). -/
def ResW.words : ResW → Nat
  | .h16 | .i32 | .n32 => 1
  | .w64 => 2
  | .w128 => 4

/-- The placement of a result of a format (02 R60, 07 Conversions). -/
def eltRes : Elt → ResW
  | .i8 | .i16 | .i32 => .i32
  | .i64 | .n64 | .f64 => .w64
  | .f16 | .bf16 => .h16
  | _ => .n32

/-- What a source field names. -/
inductive SField where
  | none
  | val (e : Elt)
  | pred
  | mask
  | tile
  | gonly
  | quad
  | fw
  deriving DecidableEq, Repr

/-- What a destination field names. `cas` is read as the compare value before it is written (08 R254); `after` is `SPAWN`'s, which must be a `g`
register and is held to it after the entry index (09 R281). -/
inductive DField where
  | none
  | res (w : ResW)
  | cas (e : Elt)
  | casQ (e : Elt)
  | link
  | pred
  | mask
  | tile
  | gonly
  | after
  deriving DecidableEq, Repr

/-- Layouts of the second word (06 R170). -/
inductive Word2 where
  | short | imm | lut | mem | br | desc
  deriving DecidableEq, Repr

/-- One row of the tables of instruction forms. -/
structure OpShape where
  code : Nat
  word2 : Word2 := .short
  guarded : Bool := true
  super : Bool := false
  types : List Ty := [.i32]
  d : DField := .none
  a : SField := .none
  b : SField := .none
  c : SField := .none
  immC : Bool := false
  wOk : Bool := false
  xOk : Bool := true
  w2Ok : Bool := true
  formOk : Bool := true
  handler : Bool := true
  switch : Bool := false
  region : Bool := false
  collective : Bool := false
  deriving DecidableEq, Repr

/-! The X field (06 R179 to R183). -/

/-- Bits hi to lo of the X field as a number. -/
def xbits (f : Fields) (hi lo : Nat) : Nat := (f.x.toNat >>> lo) % 2 ^ (hi - lo + 1)
def xbit (f : Fields) (n : Nat) : Bool := f.x.getLsbD n
/-- FN of R179. -/
def fnOf (f : Fields) : Nat := xbits f 11 5
def imfOf (f : Fields) : Bool := xbit f 4
def rmOf (f : Fields) : Nat := xbits f 3 2
def satOf (f : Fields) : Bool := xbit f 1
def auxOf (f : Fields) : Bool := xbit f 0
/-- IMM16 of R180: bits [20:5] of the word, that is, C above X[11:5]. DEDUCED, log 19. -/
def imm16Of (f : Fields) : W16 := f.c.bits ++ f.x.extractLsb' 5 7
/-- SIZE, KIND, SCOPE and SUB of R181. -/
def sizeOf (f : Fields) : Nat := xbits f 11 9
def kindOf (f : Fields) : Nat := xbits f 8 6
def scopeOf (f : Fields) : Nat := xbits f 5 3
def subOf (f : Fields) : Nat := xbits f 2 0
/-- Bits hi to lo of the second word as a number. -/
def w2bits (f : Fields) (hi lo : Nat) : Nat := (f.w2.toNat >>> lo) % 2 ^ (hi - lo + 1)
/-- MEM word fields (06 R170). -/
def ofsOf (f : Fields) : BitVec 32 := f.w2.extractLsb' 32 32
def aopOf (f : Fields) : Nat := w2bits f 15 8
def hintOf (f : Fields) : Nat := w2bits f 7 0
/-- BR word fields. -/
def tofsOf (f : Fields) : BitVec 32 := f.w2.extractLsb' 32 32
def rcofsOf (f : Fields) : BitVec 16 := f.w2.extractLsb' 16 16

/-! Shapes by class. -/

def intTys : List Ty := [.i32, .n32, .i64, .n64]
def floatTys : List Ty := [.f32, .f64, .f16, .bf16]
def allTys : List Ty := [.i32, .n32, .i64, .n64, .f32, .f64, .f16, .bf16]
def halfTys : List Ty := [.f16, .bf16]
def trigTys : List Ty := [.f32, .f16, .bf16]
/-- Types of the atomics, `ACAS` and `RATOM.CAS` among them, for which no rule lists any (06 R172, 08 R239, R254). DEDUCED, log 32. -/
def atomTys : List Ty := [.i32, .n32, .i64, .n64, .f32, .f64]

/-- The X check of a register form of classes 0 to 2 (06 R179): FN allowed, and whether RM, SAT and AUX may be set. -/
def aluX (f : Fields) (fn rm sat aux : Bool) : Bool :=
  !imfOf f && fn && (rm || rmOf f == 0) && (sat || !satOf f) && (aux || !auxOf f)

/-- The X check of an immediate form (06 R180). -/
def immX (f : Fields) (rm sat aux : Bool) : Bool :=
  imfOf f && (rm || rmOf f == 0) && (sat || !satOf f) && (aux || !auxOf f)

def srcT (f : Fields) : SField := .val (tyElt f.t)
def resT (f : Fields) : DField := .res (eltRes (tyElt f.t))

/-- D A B (and C) of type T, with FN = 0 (07 R206, R210, R215). -/
def alu1 (code : Nat) (f : Fields) (ts : List Ty) (rm sat aux : Bool) : OpShape :=
  { code, types := ts, d := resT f, a := srcT f, wOk := true, xOk := aluX f (fnOf f == 0) rm sat aux }
def alu2 (code : Nat) (f : Fields) (ts : List Ty) (rm sat aux : Bool) : OpShape :=
  { alu1 code f ts rm sat aux with b := srcT f }
def alu3 (code : Nat) (f : Fields) (ts : List Ty) (rm sat aux : Bool) : OpShape :=
  { alu2 code f ts rm sat aux with c := srcT f }
/-- A shift: B is a 32-bit count (07 R203, R210). -/
def shift2 (code : Nat) (f : Fields) : OpShape :=
  { alu1 code f intTys false false false with b := .val .n32 }
/-- D A and an immediate of type T (06 R180). -/
def alui (code : Nat) (f : Fields) (ts : List Ty) (rm sat : Bool) : OpShape :=
  { code, types := ts, d := resT f, a := srcT f, wOk := true, immC := true, xOk := immX f rm sat false }
/-- A comparison: D and C name predicates (07 R205, R212, R218). -/
def cmp2 (code : Nat) (f : Fields) (ts : List Ty) (n : Nat) : OpShape :=
  { code, types := ts, d := .pred, a := srcT f, b := srcT f, c := .pred, xOk := aluX f (fnOf f < n) false false true }

/-- Bits that MOVI may read of its IMM word (06 R171). -/
def moviBits : Ty → Nat
  | .i32 | .n32 | .f32 => 32
  | .f16 | .bf16 => 16
  | .i64 | .n64 | .f64 => 48

/-- Reserved values of the class 3 X fields and MEM word (06 R170, R181, 08 R239, R242). -/
def memX (f : Fields) (subs : List Nat) : Bool :=
  decide (sizeOf f ≤ 4) && decide (kindOf f ≤ 4) && decide (scopeOf f ≤ 5) && subs.contains (subOf f)
def memW2 (f : Fields) (aop hint : Bool) : Bool :=
  w2bits f 31 16 == 0 && (aop || aopOf f == 0) &&
    (if hint then w2bits f 7 2 == 0 && decide (hintOf f % 4 ≠ 3) else hintOf f == 0)

/-- SIZE and T combinations that R241 accepts. -/
def sizeTyOk (size : Nat) (t : Ty) : Bool :=
  match size with
  | 0 => intTys.contains t
  | 1 => (intTys ++ halfTys).contains t
  | 2 => (intTys ++ [Ty.f32]).contains t
  | 3 => [Ty.i64, .n64, .f64].contains t
  | 4 => t == .n64
  | _ => false

/-- Bytes of a SIZE code (06 R181). -/
def sizeBytes (size : Nat) : Nat := 2 ^ size

/-- SIZE equals the width of T (08 R239, the atomics). -/
def sizeIsT (f : Fields) : Bool := sizeBytes (sizeOf f) * 8 == tyBits f.t

def fixedZero (f : Fields) : Bool := sizeOf f == 0 && kindOf f == 0 && scopeOf f == 0

/-- T of an atomic sub-operation (08 R252). -/
def aopTys (aop : Nat) : List Ty :=
  match aop with
  | 0 | 5 | 6 | 7 | 10 => atomTys
  | 1 | 2 | 3 | 4 => intTys
  | 8 | 9 => [.n32, .n64]
  | _ => []

/-- Index operand of a global access: 32-bit and sign-extended, or 64-bit with .X64 (08 R240). -/
def indexField (f : Fields) : SField := .val (if xbit f 1 then .n64 else .i32)

/-- The value side of a class 3 access (08 R241). -/
def memVal (f : Fields) : SField := if sizeOf f == 4 then .quad else srcT f
def memRes (f : Fields) : DField := if sizeOf f == 4 then .res .w128 else resT f

/-- Kinds of the loads and stores (05 R140): .STR and .ACQ on loads, .STR and .REL on stores. -/
def loadKind (f : Fields) : Bool := decide (kindOf f ≤ 2)
def storeKind (f : Fields) : Bool := kindOf f == 0 || kindOf f == 1 || kindOf f == 3

def atomShape (code : Nat) (f : Fields) (global : Bool) : OpShape :=
  { code, word2 := .mem, types := atomTys, d := resT f, wOk := true
    a := .val (if global then .n64 else .n32), b := if global then indexField f else .val .n32, c := srcT f
    xOk := memX f (if global then [0, 2] else [0])
    w2Ok := memW2 f true false && decide (aopOf f ≤ 9) && (aopTys (aopOf f)).contains f.t
    formOk := sizeIsT f, switch := true, region := true }

/-- The X check of a class 4 to 7 instruction: bits outside the mask must be zero (06 R183). -/
def xOnly (f : Fields) (mask : Nat) : Bool := f.x &&& ~~~(BitVec.ofNat 12 mask) == 0

/-- An unguarded class 4 or 7 instruction without operands. -/
def plain (code : Nat) (guarded : Bool) (f : Fields) (mask : Nat) : OpShape :=
  { code, guarded, xOk := xOnly f mask }

/-- GRED and GSCAN modifiers (09 R276). -/
def redX (f : Fields) : Bool :=
  let op := xbits f 2 0
  let sat := xbit f 3
  let rm := xbits f 6 5
  decide (op < 6) && (!tyFloat f.t || decide (op < 3)) && (!sat || (!tyFloat f.t && op == 0)) &&
    (rm == 0 || (tyFloat f.t && op == 0))

/-- Assigned system registers (14 R382). -/
def sysRegs : List Nat :=
  [0x000, 0x001, 0x002, 0x003, 0x004, 0x005, 0x006, 0x007, 0x008, 0x010, 0x011, 0x012, 0x013, 0x014,
   0x018, 0x019, 0x01A, 0x020, 0x021, 0x028, 0x030, 0x031]

/-- The row of an opcode; none for the rows without an encoding. `RFENCE` with another defined SCOPE than 0b101 raises `ILLEGAL_OPERAND` (06 R182,
08 R265; DEDUCED, log 149), and the register form of `UNPK8` takes any RM (06 R179, 07 R231; DEDUCED, log 150). An operand that the manual calls one of
32 or 64 bits, with no type (07 R203, 08 R240, 09 R266), reads constants 345 and 346 as N32 or N64 does (02 R64). DESIGN CHOICE, log 161. -/
def shape : Instr → Option OpShape
  | .iadd f => some (alu2 0x00 f intTys false true false)
  | .isub f => some (alu2 0x01 f intTys false true false)
  | .imul f => some (alu2 0x02 f intTys false true false)
  | .imulh f => some (alu2 0x03 f intTys false false false)
  | .imad f => some (alu3 0x04 f intTys false true false)
  | .idiv f => some (alu2 0x05 f intTys false true true)
  | .irem f => some (alu2 0x06 f intTys false false true)
  | .imin f => some (alu2 0x07 f intTys false false false)
  | .imax f => some (alu2 0x08 f intTys false false false)
  | .iabs f => some (alu1 0x09 f [.i32, .i64] false true false)
  | .ineg f => some (alu1 0x0A f [.i32, .i64] false true false)
  | .iaddx f => some { alu2 0x0B f intTys false false true with c := .pred, xOk := aluX f (fnOf f < 2) false false true }
  | .land f => some (alu2 0x0C f intTys false false false)
  | .lor f => some (alu2 0x0D f intTys false false false)
  | .lxor f => some (alu2 0x0E f intTys false false false)
  | .lop3 f => some { alu3 0x0F f intTys false false false with word2 := .lut, w2Ok := w2bits f 63 8 == 0 }
  | .shl f => some (shift2 0x10 f)
  | .shrl f => some (shift2 0x11 f)
  | .shra f => some (shift2 0x12 f)
  | .rotl f => some (shift2 0x13 f)
  | .fshl f => some { alu2 0x14 f intTys false false false with c := .val .n32 }
  | .bfx f => some (shift2 0x15 f)
  | .bfi f => some { alu2 0x16 f intTys false false false with c := .val .n32 }
  | .popc f => some (alu1 0x17 f intTys false false false)
  | .clz f => some (alu1 0x18 f intTys false false false)
  | .brev f => some (alu1 0x19 f intTys false false false)
  | .icmp f => some (cmp2 0x1A f intTys 6)
  | .sel f => some { alu2 0x1B f allTys false false false with c := .pred }
  | .iaddi f => some (alui 0x1C f intTys false true)
  | .movi f => some { code := 0x1D, word2 := .imm, types := allTys, d := resT f, wOk := true,
                      xOk := f.x == 0, w2Ok := decide (f.w2.toNat < 2 ^ moviBits f.t) }
  | .mov f => some (alu1 0x1E f allTys false false false)
  | .idot4 f => some { alu1 0x1F f [.i32, .n32] false true false with
      a := .val .n32, b := .val .n32, c := srcT f, xOk := aluX f (fnOf f < 4) false true false }
  | .fadd f => some (alu2 0x20 f floatTys true false false)
  | .fsub f => some (alu2 0x21 f floatTys true false false)
  | .fmul f => some (alu2 0x22 f floatTys true false false)
  | .ffma f => some (alu3 0x23 f floatTys true false false)
  | .fmin f => some (alu2 0x24 f floatTys false false false)
  | .fmax f => some (alu2 0x25 f floatTys false false false)
  | .fabs f => some { alu1 0x26 f floatTys false false false with
      b := if fnOf f == 3 then srcT f else .none, xOk := aluX f (fnOf f < 4) false false false }
  | .fcmp f => some (cmp2 0x27 f floatTys 8)
  | .fclass f => some { alu1 0x28 f floatTys false false false with d := .res .n32 }
  | .fdiv f => some (alu2 0x29 f floatTys true false false)
  | .fsqrt f => some (alu1 0x2A f floatTys true false false)
  | .frcp f => some (alu1 0x2B f floatTys false false false)
  | .frsq f => some (alu1 0x2C f floatTys false false false)
  | .fexp2 f => some (alu1 0x2D f trigTys false false false)
  | .flog2 f => some (alu1 0x2E f trigTys false false false)
  | .fsin f => some (alu1 0x2F f trigTys false false false)
  | .fcos f => some (alu1 0x30 f trigTys false false false)
  | .faddi f => some (alui 0x31 f floatTys true false)
  | .fmuli f => some (alui 0x32 f floatTys true false)
  | .ffmai f => some { alui 0x33 f floatTys true false with b := srcT f }
  | .fscale f => some { alu1 0x34 f floatTys true false false with b := .val .i32 }
  | .fround f => some (alu1 0x35 f floatTys true false true)
  | .fdot2 f => some { alu1 0x36 f halfTys true false false with
      d := .res .n32, a := .val .n32, b := .val .n32, c := .val .f32 }
  | .cvtif f => some { code := 0x40, types := intTys, d := .res (eltRes (fmtElt (fnOf f % 8))), a := srcT f,
                       wOk := true, xOk := aluX f (fnOf f ≤ 6) true true false }
  | .cvtfi f => some { code := 0x41, types := intTys, d := resT f, a := .val (fmtElt (fnOf f % 8)), wOk := true,
                       xOk := aluX f (decide (fnOf f % 8 ≤ 6) && decide (fnOf f < 24) &&
                         (decide (fnOf f < 8) || tyBits f.t == 32)) true true false }
  | .cvtff f => some { code := 0x42, d := .res (eltRes (fmtElt (fnOf f / 8))), a := .val (fmtElt (fnOf f % 8)),
                       wOk := true, xOk := aluX f (decide (fnOf f % 8 ≤ 6) && decide (fnOf f / 8 ≤ 6)) true true false }
  | .cvtii f => some { code := 0x43, types := intTys, d := resT f, a := .val (intElt (fnOf f % 8)), wOk := true,
                       xOk := aluX f (fnOf f < 8) false true false }
  | .pk8 f => some { code := 0x44, types := floatTys, d := .res .n32, a := srcT f, b := srcT f, wOk := true,
                     immC := imfOf f, xOk := imfOf f || fnOf f == 0 }
  | .unpk8 f => some { code := 0x45, types := floatTys, d := resT f, a := .val .n32, b := .val .n32, wOk := true,
                       immC := imfOf f, xOk := (imfOf f || fnOf f == 0) && !satOf f }
  | .pkl6 f => some { alu2 0x46 f floatTys true false false with d := .res .n32 }
  | .unpkl6 f => some { alu1 0x47 f floatTys true false false with a := .val .n32, b := .val .n32 }
  | .l6mul f => some { alu1 0x48 f [.i32] true false false with d := .res .n32, a := .val .n32, b := .val .n32 }
  | .l6lin f => some { alu1 0x49 f [.i64] false false false with a := .val .n32, b := .val .n32, c := .val .i64 }
  | .sclx f => some { alu1 0x4A f floatTys false false false with
      d := .res .n32, xOk := aluX f (fnOf f < 4) false false false }
  | .fmtw f => some { code := 0x4B, d := .res .n32, a := .val .n32, b := .val .n32, c := .val .n32, wOk := true,
                      xOk := aluX f (fnOf f < 16) false false false }
  | .pkh f => some { alu1 0x4C f halfTys true true false with d := .res .n32, a := .val .f32, b := .val .f32 }
  | .unpkh f => some { alu1 0x4D f halfTys false false true with d := .res .n32, a := .val .n32 }
  | .fflag f => some { code := 0x4E, d := .res .n32, a := if fnOf f == 0 then .none else .val .n32, wOk := true,
                       xOk := aluX f (fnOf f < 3) false false false }
  | .ld f => some { code := 0x60, word2 := .mem, types := allTys, d := memRes f, a := .val .n64, b := indexField f,
                    wOk := true, xOk := memX f [0, 1, 2, 3], w2Ok := memW2 f false true,
                    formOk := sizeTyOk (sizeOf f) f.t && loadKind f, switch := true }
  | .st f => some { code := 0x61, word2 := .mem, types := allTys, a := .val .n64, b := indexField f, c := memVal f,
                    xOk := memX f [0, 2], w2Ok := memW2 f false true,
                    formOk := sizeTyOk (sizeOf f) f.t && storeKind f }
  | .lds f => some { code := 0x62, word2 := .mem, types := allTys, d := memRes f, a := .val .n32, b := .val .n32,
                     wOk := true, xOk := memX f [0, 1, 2], w2Ok := memW2 f false false,
                     formOk := sizeTyOk (sizeOf f) f.t && (if subOf f == 0 then loadKind f else kindOf f == 0 && scopeOf f == 0),
                     switch := true, region := subOf f == 2 }
  | .sts f => some { code := 0x63, word2 := .mem, types := allTys, a := .val .n32, b := .val .n32, c := memVal f,
                     xOk := memX f [0, 1, 2], w2Ok := memW2 f false false,
                     formOk := sizeTyOk (sizeOf f) f.t && (if subOf f == 0 then storeKind f else kindOf f == 0 && scopeOf f == 0),
                     switch := subOf f == 2, region := subOf f == 2 }
  | .ldg f => some { code := 0x64, word2 := .mem, types := allTys, d := memRes f, a := .val .n64, b := indexField f,
                     wOk := true, xOk := memX f [0, 1, 2, 3], w2Ok := memW2 f false true,
                     formOk := sizeTyOk (sizeOf f) f.t && loadKind f, switch := true }
  | .atom f => some (atomShape 0x65 f true)
  | .acas f => some { atomShape 0x66 f true with
      d := .cas (tyElt f.t), wOk := false, w2Ok := memW2 f false false }
  | .atoms f => some (atomShape 0x67 f false)
  | .red f => some { atomShape 0x68 f true with d := .none, wOk := false }
  | .fence f => some { code := 0x69, xOk := xOnly f 0x38 && decide (scopeOf f ≤ 5) }
  | .xfence f => some { code := 0x6A, xOk := decide (sizeOf f ≤ 5) && decide (kindOf f ≤ 5) && decide (scopeOf f ≤ 5) && subOf f == 0 }
  | .pref f => some { code := 0x6B, word2 := .mem, a := .val .n64, b := indexField f,
                      xOk := memX f [0, 1, 2, 3], w2Ok := memW2 f false true, formOk := fixedZero f }
  | .cinv f => some { code := 0x6C, word2 := .mem, a := .val .n64, b := indexField f, c := .val .n32,
                      xOk := memX f [0, 2], w2Ok := memW2 f false false, formOk := fixedZero f }
  | .cwb f => some { code := 0x6D, word2 := .mem, a := .val .n64, b := indexField f, c := .val .n32,
                     xOk := memX f [0, 2], w2Ok := memW2 f false false, formOk := fixedZero f }
  | .sfill f => some { code := 0x6E, word2 := .mem, a := .val .n32, b := .val .n32,
                       xOk := memX f [1, 2], w2Ok := memW2 f false false, formOk := fixedZero f, region := true }
  | .sstat f => some { code := 0x6F, word2 := .mem, types := [.n32], d := .res .n32, a := .val .n32, b := .val .n32,
                       wOk := true, xOk := memX f [0], w2Ok := memW2 f false false, formOk := fixedZero f, switch := true }
  | .rld f => some { code := 0x70, word2 := .mem, types := allTys, d := memRes f, a := .val .n32, b := .val .n64,
                     wOk := true, xOk := memX f [0], w2Ok := memW2 f false false,
                     formOk := sizeTyOk (sizeOf f) f.t && kindOf f == 0 && scopeOf f == 5, switch := true }
  | .rst f => some { code := 0x71, word2 := .mem, types := allTys, a := .val .n32, b := .val .n64, c := memVal f,
                     xOk := memX f [0], w2Ok := memW2 f false false,
                     formOk := sizeTyOk (sizeOf f) f.t && kindOf f == 0 && scopeOf f == 5 }
  | .ratom f => some { code := 0x72, word2 := .mem, types := atomTys,
                       d := if aopOf f == 10 then .casQ (tyElt f.t) else resT f, a := .val .n32, b := .val .n64, c := srcT f,
                       wOk := aopOf f != 10, xOk := memX f [0],
                       w2Ok := memW2 f true false && (aopTys (aopOf f)).contains f.t,
                       formOk := sizeIsT f && kindOf f == 0 && scopeOf f == 5, switch := true, region := true }
  | .rfence f => some { code := 0x73, a := if subOf f == 1 then .val .n32 else .none,
                        xOk := sizeOf f == 0 && kindOf f == 0 && decide (scopeOf f ≤ 5) && decide (subOf f ≤ 1),
                        formOk := scopeOf f == 5 }
  | .bra f => some { code := 0x80, word2 := .br, xOk := f.x == 0, w2Ok := w2bits f 15 0 == 0 }
  | .brx f => some { code := 0x81, word2 := .br, a := .val .n32, xOk := f.x == 0,
                     w2Ok := w2bits f 15 0 == 0 && w2bits f 63 32 == 0 }
  | .call f => some { code := 0x82, word2 := .br, d := .link, wOk := true, xOk := f.x == 0, w2Ok := w2bits f 15 0 == 0 }
  | .ret f => some { code := 0x83, a := .val .n32, xOk := f.x == 0 }
  | .regang f => some { code := 0x84, guarded := false, a := .mask, xOk := f.x == 0, handler := false, switch := true, region := true }
  | .splits f => some { code := 0x85, guarded := false, d := .mask, xOk := xOnly f 1, handler := false }
  | .backoff f => some { plain 0x86 false f 0 with switch := true, region := true }
  | .vote f => some { code := 0x87, d := .pred, a := .pred, xOk := xOnly f 3 && decide (f.x ≠ 3), handler := false }
  | .ballot f => some { code := 0x88, types := if xbit f 3 then [.i32] else [.n32, .n64],
                        d := if xbit f 3 then .mask else resT f, a := .val .n32, b := .val .n32, wOk := !xbit f 3,
                        xOk := xOnly f 0xB && (if xbit f 3 then xbits f 1 0 == 0 else f.t != .n64 || !xbit f 1),
                        handler := false }
  | .shfl f => some { code := 0x89, types := allTys, d := resT f, a := srcT f, b := .val .n32, wOk := true,
                      xOk := xOnly f 0x1F && xbits f 4 2 != 7, handler := false }
  | .gred f => some { code := 0x8A, types := allTys, d := resT f, a := srcT f, wOk := true,
                      xOk := xOnly f 0x6F && redX f, handler := false }
  | .gscan f => some { code := 0x8B, types := allTys, d := resT f, a := srcT f, wOk := true,
                       xOk := xOnly f 0x7F && redX f, handler := false }
  | .bar f => some { plain 0x8C false f 0x1F with handler := false, switch := true, region := true }
  | .bara f => some { plain 0x8D false f 0x1F with handler := false, switch := true, region := true }
  | .exit f => some { plain 0x8E true f 0 with handler := false, switch := true }
  | .region f => some { plain 0x8F false f 0 with switch := true, region := true }
  | .spawn f => some { code := 0x90, d := .after, a := .val .n64, wOk := true, xOk := xOnly f 0x3F,
                       handler := false, switch := true, region := true }
  | .live f => some { code := 0x91, word2 := .desc, guarded := false, xOk := xOnly f 3, handler := false, collective := true }
  | .yield f => some { plain 0x92 false f 0 with switch := true }
  | .nop f => some (plain 0x93 false f 0)
  | .mmov f =>
    let op := xbits f 2 0
    some { code := 0x94, guarded := false, d := if op == 2 then .gonly else .mask,
           a := if op == 1 then .gonly else .mask,
           b := if op == 1 then .gonly else if op == 0 || op == 2 then .none else .mask,
           wOk := op == 2, xOk := xOnly f 0xF && decide (op < 6) && (!xbit f 3 || op == 2), handler := false }
  | .tcfg f => some { code := 0xA0, a := .val .n64, b := .val .n64, xOk := f.x == 0, handler := false, region := true, collective := true }
  | .tmma f => some { code := 0xA1, d := .tile, a := .val .n64, b := .val .n64, c := .fw, xOk := f.x == 0, handler := false, collective := true }
  | .tmmaz f => some { code := 0xA2, d := .tile, a := .val .n64, b := .val .n64, c := .fw, xOk := f.x == 0, handler := false, collective := true }
  | .tacq f => some { code := 0xA3, a := .tile, xOk := f.x == 0, handler := false, collective := true }
  | .trel f => some { code := 0xA4, a := .tile, xOk := f.x == 0, handler := false, collective := true }
  | .trd f => some { code := 0xA5, types := [.n32, .n64], d := resT f, a := .tile, b := .val .n32, c := .val .n32,
                     wOk := true, xOk := f.x == 0, handler := false, collective := true }
  | .twr f => some { code := 0xA6, types := [.n32, .n64], d := .tile, a := .val .n32, b := .val .n32, c := srcT f,
                     xOk := f.x == 0, handler := false, collective := true }
  | .tzero f => some { code := 0xA7, d := .tile, xOk := xOnly f 1, handler := false, collective := true }
  | .tstore f => some { code := 0xA8, d := .tile, a := .val .n64, b := .val .n32, c := .fw, xOk := f.x == 0, handler := false, collective := true }
  | .tload f => some { code := 0xA9, d := .tile, a := .val .n64, b := .val .n32, c := .fw, xOk := f.x == 0, handler := false,
                       collective := true, switch := true }
  | .tcnt f => some { code := 0xAA, types := [.n32], d := .res .n32, a := .tile, wOk := true,
                      xOk := xOnly f 3 && decide (f.x ≠ 3), handler := false }
  | .twait f => some { code := 0xAB, a := if xbit f 0 then .none else .tile, xOk := xOnly f 1, handler := false, switch := true }
  | .tpin f => some { code := 0xAC, types := [.n32], d := .res .n32, a := .val .n64, b := .val .n32, wOk := true,
                      xOk := xOnly f 1, handler := false }
  | .qbind f => some { code := 0xC0, a := .val (if xbits f 2 0 == 4 then .n64 else .n32),
                       b := if xbit f 4 then .val .n32 else .none, xOk := xOnly f 0xFF && decide (xbits f 2 0 ≤ 4),
                       handler := false, switch := true, region := true }
  | .qunbind f => some { plain 0xC1 true f 0x1E0 with handler := false, region := true }
  | .qstat f => some { code := 0xC2, types := [.n32], d := .res .n32, wOk := true, xOk := xOnly f 0xE0, handler := false, region := true }
  | .copy f => some { code := 0xC3, word2 := .desc, a := .val .n64, b := .val .n64, c := .val .n64, xOk := f.x == 0,
                      w2Ok := w2bits f 4 2 == 0, handler := false, region := true }
  | .copym f => some { code := 0xC4, word2 := .desc, a := .val .n64, b := .val .n32, c := .val .n64, xOk := xOnly f 0xF,
                       w2Ok := w2bits f 43 1 == 0, handler := false, switch := true, region := true }
  | .cdrain f => some { code := 0xC5, types := [.n32], d := .res .n32, a := .val .n32, b := .val .n32, wOk := true,
                        xOk := xOnly f 0x3F, handler := false, switch := true, region := true }
  | .hread f => some { code := 0xC6, word2 := .desc, a := .val .n64, b := .val .n64, c := .val .n64, xOk := f.x == 0,
                       w2Ok := w2bits f 25 24 == 0 && w2bits f 4 0 == 0 && w2bits f 6 5 != 2, handler := false, region := true }
  | .hend f => some { plain 0xC7 false f 0 with region := true }
  | .abinit f => some { code := 0xC8, a := .val .n32, b := .val .n64, xOk := f.x == 0, handler := false, region := true }
  | .abwait f => some { code := 0xC9, types := [.n32], d := .res .n32, a := .val .n32,
                        b := if xbit f 0 then .val .n32 else .none, wOk := true, xOk := xOnly f 1,
                        handler := false, switch := true, region := true }
  | .abadd f => some { code := 0xCA, a := .val .n32, b := .val .n64, xOk := f.x == 0, region := true }
  | .lxchg f => some { code := 0xCB, word2 := .desc, a := .val .n64, b := .val .n64, c := .val .n64, xOk := f.x == 0,
                       w2Ok := w2bits f 63 25 == 0 && w2bits f 4 4 == 0 && decide (w2bits f 3 0 ≤ 3) && w2bits f 6 5 != 2,
                       handler := false, switch := true, region := true }
  | .lxstat f => some { code := 0xCC, types := [.n64], d := .res .w64, a := .val .n64, wOk := true, xOk := f.x == 0,
                        handler := false, switch := true, region := true }
  | .lxresume f => some { code := 0xCD, a := .val .n64, b := .val .n32, xOk := xOnly f 3 && xbits f 1 0 != 2,
                          handler := false, switch := true, region := true }
  | .sempost f => some { code := 0xCE, types := [.n32], a := .val .n64, b := .val .n32, c := .val .n32, xOk := xOnly f 1,
                         handler := false, switch := true, region := true }
  | .semwait f => some { code := 0xCF, types := [.n32], d := .res .n32, a := .val .n64, wOk := true, xOk := xOnly f 1,
                         handler := false, switch := true, region := true }
  | .tret f => some { plain 0xE0 false f 0 with super := true, switch := true }
  | .tmask f => some { plain 0xE1 false f 1 with super := true }
  | .sysr f => some { code := 0xE2, super := true, types := [.n64], d := .res .w64, wOk := true,
                      xOk := sysRegs.contains f.x.toNat }
  | .sysw f => some { code := 0xE3, super := true, types := [.n64], a := .val .n64, xOk := sysRegs.contains f.x.toNat }
  | .halt f => some { plain 0xE4 false f 0xFFF with super := true, switch := true }
  | .ctxfl f => some { plain 0xE5 false f 0 with super := true }
  | .trap f => some { plain 0xE6 true f 0xFFF with region := true }
  | .event _ => some { code := 0xE7, a := .val .n32, xOk := true }
  | .mark f => some { code := 0xE8, a := .val .n32, xOk := xOnly f 3 && decide (f.x ≠ 3) }
  | .rdcnt f => some { code := 0xE9, types := [.n64], d := .res .w64, a := .val .n32, b := .val .n64, wOk := true, xOk := f.x == 0 }
  | .rdtime f => some { code := 0xEA, types := [.n64], d := .res .w64, wOk := true, xOk := xOnly f 1 }
  | .brk f => some { plain 0xEB true f 0xFFF with region := true }
  | .icinv f => some { plain 0xEC false f 0x38 with xOk := xOnly f 0x38 && decide (scopeOf f ≤ 5), formOk := scopeOf f == 3 || scopeOf f == 4, handler := false }
  | .isync f => some (plain 0xED false f 0)
  | .tcommit f => some { plain 0xEE false f 0 with handler := false, region := true }
  | .capchk f => some { code := 0xEF, types := [.n32], d := .res .n32, a := .val .n64, b := .val .n32, wOk := true, xOk := xOnly f 1 }
  | .ptroot _ _ => none
  | .caprevoke _ _ => none
  | .winsync _ _ => none
  | .configWrite _ _ => none
  | .preemptLimit _ => none
  | .committedStorePerform _ => none
  | .matrixPerform _ _ _ => none
  | .copyPiece _ _ => none
  | .copyPieceFail _ _ => none
  | .drainLand _ => none
  | .burstReturn _ _ => none
  | .heldBurstStart _ _ => none
  | .heldRecordPush _ _ => none
  | .lxDigest _ _ _ _ _ _ => none
  | .lxChunkDone _ _ _ => none
  | .lxStepDone _ _ => none
  | .lxFault _ _ _ => none
  | .stepOverdue _ _ => none
  | .launcherTake _ _ => none
  | .launchRecord _ => none
  | .graphRecord _ => none
  | .lxRecord _ => none
  | .signal _ => none
  | .waitev _ => none
  | .waitevComplete _ => none
  | .cstart _ => none
  | .cstop _ => none
  | .fenceRecord _ => none
  | .graphNodeComplete _ => none
  | .launchComplete _ => none
  | .run _ _ => none
  | .suspend _ _ => none
  | .skip _ _ => none
  | .retry _ _ => none
  | .clusterPlace _ => none
  | .stealRequest _ _ => none
  | .preempt _ => none
  | .groupResume _ => none
  | .inval _ => none
  | .resolve _ => none
  | .pin _ => none
  | .unpin _ => none
  | .faultRecordWrite _ => none
  | .flitReceive _ _ => none
  | .replay _ => none
  | .heartbeat _ => none
  | .laneFail _ _ => none
  | .retrainTimeout _ => none
  | .reqw _ _ => none
  | .widthChange _ => none
  | .portSilent _ => none
  | .atollDiscard _ _ => none
  | .retransmit _ _ => none
  | .rdReq _ _ => none
  | .wrReq _ _ => none
  | .atReq _ _ => none
  | .rdrep _ _ => none
  | .wrack _ _ => none
  | .atrep _ _ => none
  | .lxpull _ _ => none
  | .lxdata _ _ => none
  | .lxres _ _ => none
  | .join _ _ _ => none
  | .joinack _ _ => none
  | .joinrefuse _ _ => none
  | .down _ _ _ => none
  | .portdown _ _ => none
  | .death _ _ => none
  | .alive _ _ => none
  | .park _ _ => none
  | .unpark _ _ => none
  | .powerReset => none
  | .moduleReset => none
  | .mmpReset => none
  | .holdover => none
  | .timesync _ => none
  | .loss _ => none
  | .hostmemRead _ _ _ _ _ => none
  | .hostmemWrite _ _ _ _ _ => none
  | .add64 _ _ _ _ => none
  | .cas64 _ _ _ _ _ => none
  | .drain _ => none
  | .quarantine _ => none
  | .restart _ _ _ => none
  | .release _ => none
  | .dcpReadyTimeout _ => none
  | .coreFence _ _ => none
  | .dramRepair _ _ => none
  | .healthUpdate _ _ => none
  | .eolUpdate _ _ _ => none
  | .keyLoad _ _ _ => none
  | .keyClear _ => none
  | .firmwareWrite _ _ _ => none
  | .firmwareCommit _ => none
  | .attestation _ => none
  | .waitDescriptorRead _ _ => none
  | .sketchRead _ => none
  | .sampleInterval _ _ _ => none
  | .sample _ _ => none
  | .replayMode _ _ _ _ => none
  | .haltRelease _ => none
  | .watchdogKill _ => none
  | .injectionArm _ _ _ _ _ _ => none
  | .powerLoss => none
  | .powerThrottle _ _ _ _ => none
  | .retrainComplete _ _ => none

/-- The fields of an opcode's word; none for the rows without an encoding. -/
def fieldsOf : Instr → Option Fields
  | .iadd f => some f
  | .isub f => some f
  | .imul f => some f
  | .imulh f => some f
  | .imad f => some f
  | .idiv f => some f
  | .irem f => some f
  | .imin f => some f
  | .imax f => some f
  | .iabs f => some f
  | .ineg f => some f
  | .iaddx f => some f
  | .land f => some f
  | .lor f => some f
  | .lxor f => some f
  | .lop3 f => some f
  | .shl f => some f
  | .shrl f => some f
  | .shra f => some f
  | .rotl f => some f
  | .fshl f => some f
  | .bfx f => some f
  | .bfi f => some f
  | .popc f => some f
  | .clz f => some f
  | .brev f => some f
  | .icmp f => some f
  | .sel f => some f
  | .iaddi f => some f
  | .movi f => some f
  | .mov f => some f
  | .idot4 f => some f
  | .fadd f => some f
  | .fsub f => some f
  | .fmul f => some f
  | .ffma f => some f
  | .fmin f => some f
  | .fmax f => some f
  | .fabs f => some f
  | .fcmp f => some f
  | .fclass f => some f
  | .fdiv f => some f
  | .fsqrt f => some f
  | .frcp f => some f
  | .frsq f => some f
  | .fexp2 f => some f
  | .flog2 f => some f
  | .fsin f => some f
  | .fcos f => some f
  | .faddi f => some f
  | .fmuli f => some f
  | .ffmai f => some f
  | .fscale f => some f
  | .fround f => some f
  | .fdot2 f => some f
  | .cvtif f => some f
  | .cvtfi f => some f
  | .cvtff f => some f
  | .cvtii f => some f
  | .pk8 f => some f
  | .unpk8 f => some f
  | .pkl6 f => some f
  | .unpkl6 f => some f
  | .l6mul f => some f
  | .l6lin f => some f
  | .sclx f => some f
  | .fmtw f => some f
  | .pkh f => some f
  | .unpkh f => some f
  | .fflag f => some f
  | .ld f => some f
  | .st f => some f
  | .lds f => some f
  | .sts f => some f
  | .ldg f => some f
  | .atom f => some f
  | .acas f => some f
  | .atoms f => some f
  | .red f => some f
  | .fence f => some f
  | .xfence f => some f
  | .pref f => some f
  | .cinv f => some f
  | .cwb f => some f
  | .sfill f => some f
  | .sstat f => some f
  | .rld f => some f
  | .rst f => some f
  | .ratom f => some f
  | .rfence f => some f
  | .bra f => some f
  | .brx f => some f
  | .call f => some f
  | .ret f => some f
  | .regang f => some f
  | .splits f => some f
  | .backoff f => some f
  | .vote f => some f
  | .ballot f => some f
  | .shfl f => some f
  | .gred f => some f
  | .gscan f => some f
  | .bar f => some f
  | .bara f => some f
  | .exit f => some f
  | .region f => some f
  | .spawn f => some f
  | .live f => some f
  | .yield f => some f
  | .nop f => some f
  | .mmov f => some f
  | .tcfg f => some f
  | .tmma f => some f
  | .tmmaz f => some f
  | .tacq f => some f
  | .trel f => some f
  | .trd f => some f
  | .twr f => some f
  | .tzero f => some f
  | .tstore f => some f
  | .tload f => some f
  | .tcnt f => some f
  | .twait f => some f
  | .tpin f => some f
  | .qbind f => some f
  | .qunbind f => some f
  | .qstat f => some f
  | .copy f => some f
  | .copym f => some f
  | .cdrain f => some f
  | .hread f => some f
  | .hend f => some f
  | .abinit f => some f
  | .abwait f => some f
  | .abadd f => some f
  | .lxchg f => some f
  | .lxstat f => some f
  | .lxresume f => some f
  | .sempost f => some f
  | .semwait f => some f
  | .tret f => some f
  | .tmask f => some f
  | .sysr f => some f
  | .sysw f => some f
  | .halt f => some f
  | .ctxfl f => some f
  | .trap f => some f
  | .event f => some f
  | .mark f => some f
  | .rdcnt f => some f
  | .rdtime f => some f
  | .brk f => some f
  | .icinv f => some f
  | .isync f => some f
  | .tcommit f => some f
  | .capchk f => some f
  | .ptroot _ _ => none
  | .caprevoke _ _ => none
  | .winsync _ _ => none
  | .configWrite _ _ => none
  | .preemptLimit _ => none
  | .committedStorePerform _ => none
  | .matrixPerform _ _ _ => none
  | .copyPiece _ _ => none
  | .copyPieceFail _ _ => none
  | .drainLand _ => none
  | .burstReturn _ _ => none
  | .heldBurstStart _ _ => none
  | .heldRecordPush _ _ => none
  | .lxDigest _ _ _ _ _ _ => none
  | .lxChunkDone _ _ _ => none
  | .lxStepDone _ _ => none
  | .lxFault _ _ _ => none
  | .stepOverdue _ _ => none
  | .launcherTake _ _ => none
  | .launchRecord _ => none
  | .graphRecord _ => none
  | .lxRecord _ => none
  | .signal _ => none
  | .waitev _ => none
  | .waitevComplete _ => none
  | .cstart _ => none
  | .cstop _ => none
  | .fenceRecord _ => none
  | .graphNodeComplete _ => none
  | .launchComplete _ => none
  | .run _ _ => none
  | .suspend _ _ => none
  | .skip _ _ => none
  | .retry _ _ => none
  | .clusterPlace _ => none
  | .stealRequest _ _ => none
  | .preempt _ => none
  | .groupResume _ => none
  | .inval _ => none
  | .resolve _ => none
  | .pin _ => none
  | .unpin _ => none
  | .faultRecordWrite _ => none
  | .flitReceive _ _ => none
  | .replay _ => none
  | .heartbeat _ => none
  | .laneFail _ _ => none
  | .retrainTimeout _ => none
  | .reqw _ _ => none
  | .widthChange _ => none
  | .portSilent _ => none
  | .atollDiscard _ _ => none
  | .retransmit _ _ => none
  | .rdReq _ _ => none
  | .wrReq _ _ => none
  | .atReq _ _ => none
  | .rdrep _ _ => none
  | .wrack _ _ => none
  | .atrep _ _ => none
  | .lxpull _ _ => none
  | .lxdata _ _ => none
  | .lxres _ _ => none
  | .join _ _ _ => none
  | .joinack _ _ => none
  | .joinrefuse _ _ => none
  | .down _ _ _ => none
  | .portdown _ _ => none
  | .death _ _ => none
  | .alive _ _ => none
  | .park _ _ => none
  | .unpark _ _ => none
  | .powerReset => none
  | .moduleReset => none
  | .mmpReset => none
  | .holdover => none
  | .timesync _ => none
  | .loss _ => none
  | .hostmemRead _ _ _ _ _ => none
  | .hostmemWrite _ _ _ _ _ => none
  | .add64 _ _ _ _ => none
  | .cas64 _ _ _ _ _ => none
  | .drain _ => none
  | .quarantine _ => none
  | .restart _ _ _ => none
  | .release _ => none
  | .dcpReadyTimeout _ => none
  | .coreFence _ _ => none
  | .dramRepair _ _ => none
  | .healthUpdate _ _ => none
  | .eolUpdate _ _ _ => none
  | .keyLoad _ _ _ => none
  | .keyClear _ => none
  | .firmwareWrite _ _ _ => none
  | .firmwareCommit _ => none
  | .attestation _ => none
  | .waitDescriptorRead _ _ => none
  | .sketchRead _ => none
  | .sampleInterval _ _ _ => none
  | .sample _ _ => none
  | .replayMode _ _ _ _ => none
  | .haltRelease _ => none
  | .watchdogKill _ => none
  | .injectionArm _ _ _ _ _ _ => none
  | .powerLoss => none
  | .powerThrottle _ _ _ _ => none
  | .retrainComplete _ _ => none

/-- The instruction of an opcode (06 R185); none where the map is reserved. -/
def ofCode (code : Nat) (f : Fields) : Option Instr :=
  match code with
  | 0x00 => some (.iadd f)
  | 0x01 => some (.isub f)
  | 0x02 => some (.imul f)
  | 0x03 => some (.imulh f)
  | 0x04 => some (.imad f)
  | 0x05 => some (.idiv f)
  | 0x06 => some (.irem f)
  | 0x07 => some (.imin f)
  | 0x08 => some (.imax f)
  | 0x09 => some (.iabs f)
  | 0x0A => some (.ineg f)
  | 0x0B => some (.iaddx f)
  | 0x0C => some (.land f)
  | 0x0D => some (.lor f)
  | 0x0E => some (.lxor f)
  | 0x0F => some (.lop3 f)
  | 0x10 => some (.shl f)
  | 0x11 => some (.shrl f)
  | 0x12 => some (.shra f)
  | 0x13 => some (.rotl f)
  | 0x14 => some (.fshl f)
  | 0x15 => some (.bfx f)
  | 0x16 => some (.bfi f)
  | 0x17 => some (.popc f)
  | 0x18 => some (.clz f)
  | 0x19 => some (.brev f)
  | 0x1A => some (.icmp f)
  | 0x1B => some (.sel f)
  | 0x1C => some (.iaddi f)
  | 0x1D => some (.movi f)
  | 0x1E => some (.mov f)
  | 0x1F => some (.idot4 f)
  | 0x20 => some (.fadd f)
  | 0x21 => some (.fsub f)
  | 0x22 => some (.fmul f)
  | 0x23 => some (.ffma f)
  | 0x24 => some (.fmin f)
  | 0x25 => some (.fmax f)
  | 0x26 => some (.fabs f)
  | 0x27 => some (.fcmp f)
  | 0x28 => some (.fclass f)
  | 0x29 => some (.fdiv f)
  | 0x2A => some (.fsqrt f)
  | 0x2B => some (.frcp f)
  | 0x2C => some (.frsq f)
  | 0x2D => some (.fexp2 f)
  | 0x2E => some (.flog2 f)
  | 0x2F => some (.fsin f)
  | 0x30 => some (.fcos f)
  | 0x31 => some (.faddi f)
  | 0x32 => some (.fmuli f)
  | 0x33 => some (.ffmai f)
  | 0x34 => some (.fscale f)
  | 0x35 => some (.fround f)
  | 0x36 => some (.fdot2 f)
  | 0x40 => some (.cvtif f)
  | 0x41 => some (.cvtfi f)
  | 0x42 => some (.cvtff f)
  | 0x43 => some (.cvtii f)
  | 0x44 => some (.pk8 f)
  | 0x45 => some (.unpk8 f)
  | 0x46 => some (.pkl6 f)
  | 0x47 => some (.unpkl6 f)
  | 0x48 => some (.l6mul f)
  | 0x49 => some (.l6lin f)
  | 0x4A => some (.sclx f)
  | 0x4B => some (.fmtw f)
  | 0x4C => some (.pkh f)
  | 0x4D => some (.unpkh f)
  | 0x4E => some (.fflag f)
  | 0x60 => some (.ld f)
  | 0x61 => some (.st f)
  | 0x62 => some (.lds f)
  | 0x63 => some (.sts f)
  | 0x64 => some (.ldg f)
  | 0x65 => some (.atom f)
  | 0x66 => some (.acas f)
  | 0x67 => some (.atoms f)
  | 0x68 => some (.red f)
  | 0x69 => some (.fence f)
  | 0x6A => some (.xfence f)
  | 0x6B => some (.pref f)
  | 0x6C => some (.cinv f)
  | 0x6D => some (.cwb f)
  | 0x6E => some (.sfill f)
  | 0x6F => some (.sstat f)
  | 0x70 => some (.rld f)
  | 0x71 => some (.rst f)
  | 0x72 => some (.ratom f)
  | 0x73 => some (.rfence f)
  | 0x80 => some (.bra f)
  | 0x81 => some (.brx f)
  | 0x82 => some (.call f)
  | 0x83 => some (.ret f)
  | 0x84 => some (.regang f)
  | 0x85 => some (.splits f)
  | 0x86 => some (.backoff f)
  | 0x87 => some (.vote f)
  | 0x88 => some (.ballot f)
  | 0x89 => some (.shfl f)
  | 0x8A => some (.gred f)
  | 0x8B => some (.gscan f)
  | 0x8C => some (.bar f)
  | 0x8D => some (.bara f)
  | 0x8E => some (.exit f)
  | 0x8F => some (.region f)
  | 0x90 => some (.spawn f)
  | 0x91 => some (.live f)
  | 0x92 => some (.yield f)
  | 0x93 => some (.nop f)
  | 0x94 => some (.mmov f)
  | 0xA0 => some (.tcfg f)
  | 0xA1 => some (.tmma f)
  | 0xA2 => some (.tmmaz f)
  | 0xA3 => some (.tacq f)
  | 0xA4 => some (.trel f)
  | 0xA5 => some (.trd f)
  | 0xA6 => some (.twr f)
  | 0xA7 => some (.tzero f)
  | 0xA8 => some (.tstore f)
  | 0xA9 => some (.tload f)
  | 0xAA => some (.tcnt f)
  | 0xAB => some (.twait f)
  | 0xAC => some (.tpin f)
  | 0xC0 => some (.qbind f)
  | 0xC1 => some (.qunbind f)
  | 0xC2 => some (.qstat f)
  | 0xC3 => some (.copy f)
  | 0xC4 => some (.copym f)
  | 0xC5 => some (.cdrain f)
  | 0xC6 => some (.hread f)
  | 0xC7 => some (.hend f)
  | 0xC8 => some (.abinit f)
  | 0xC9 => some (.abwait f)
  | 0xCA => some (.abadd f)
  | 0xCB => some (.lxchg f)
  | 0xCC => some (.lxstat f)
  | 0xCD => some (.lxresume f)
  | 0xCE => some (.sempost f)
  | 0xCF => some (.semwait f)
  | 0xE0 => some (.tret f)
  | 0xE1 => some (.tmask f)
  | 0xE2 => some (.sysr f)
  | 0xE3 => some (.sysw f)
  | 0xE4 => some (.halt f)
  | 0xE5 => some (.ctxfl f)
  | 0xE6 => some (.trap f)
  | 0xE7 => some (.event f)
  | 0xE8 => some (.mark f)
  | 0xE9 => some (.rdcnt f)
  | 0xEA => some (.rdtime f)
  | 0xEB => some (.brk f)
  | 0xEC => some (.icinv f)
  | 0xED => some (.isync f)
  | 0xEE => some (.tcommit f)
  | 0xEF => some (.capchk f)
  | _ => none

end Sys2Proof.Machine
end

