-- ==== Sys2Proof/Machine/Num.lean ====
section
/-! DEFINITION. Number formats, rounding and conversion (03 R79 to R95, R108 to R110). A number is read exactly, results are
formed exactly as integers times powers of two, and rounding happens once. -/
namespace Sys2Proof.Machine

/-- An exact number m × 2^e. -/
structure Dy where
  m : Int
  e : Int
  deriving DecidableEq, Repr

/-- A value read from a format. A zero is `fin` with m = 0 and keeps its sign; a NaN keeps its bits elsewhere. -/
inductive FVal where
  | nan (signalling : Bool)
  | inf (neg : Bool)
  | fin (neg : Bool) (m : Nat) (e : Int)
  deriving DecidableEq, Repr

/-- Exponent and fraction widths of a floating format (03 R81). -/
structure Fmt where
  ebits : Nat
  fbits : Nat
  deriving DecidableEq, Repr

def fmtOf : Elt → Fmt
  | .f64 => ⟨11, 52⟩ | .f32 => ⟨8, 23⟩ | .f16 => ⟨5, 10⟩ | .bf16 => ⟨8, 7⟩ | .e5m2 => ⟨5, 2⟩ | _ => ⟨4, 3⟩

def Fmt.bias (f : Fmt) : Nat := 2 ^ (f.ebits - 1) - 1
/-- Exponent of the smallest normal. -/
def Fmt.emin (f : Fmt) : Int := 1 - (f.bias : Int)
def Fmt.width (f : Fmt) : Nat := 1 + f.ebits + f.fbits

/-- Flag bits (02 R67). -/
def flagNV : BitVec 5 := 0b10000
def flagDZ : BitVec 5 := 0b01000
def flagOF : BitVec 5 := 0b00100
def flagUF : BitVec 5 := 0b00010
def flagNX : BitVec 5 := 0b00001

def fl (b : Bool) (f : BitVec 5) : BitVec 5 := if b then f else 0

/-! Reading. -/

/-- T of 03 R89. -/
def l6T (f : Nat) : Nat := match f with | 0 => 4096 | 1 => 4871 | 2 => 5793 | _ => 6889

/-- The value of an L6 pattern (03 R87). -/
def l6Val (b : Nat) : FVal :=
  let e := b % 32
  let neg := b / 32 % 2 == 1
  if e = 0 then (if neg then .nan false else .fin false 0 0) else .fin neg (l6T (e % 4)) (((e / 4 : Nat) : Int) - 16)

/-- Reads a float pattern (03 R81 to R85, R87). -/
def readF (t : Elt) (b : Nat) : FVal :=
  if t = .l6 then l6Val b
  else
    let f := fmtOf t
    let frac := b % 2 ^ f.fbits
    let ex := b / 2 ^ f.fbits % 2 ^ f.ebits
    let neg := b / 2 ^ (f.ebits + f.fbits) % 2 == 1
    let top := ex == 2 ^ f.ebits - 1
    if t = .e4m3 then
      if top && frac == 7 then .nan false
      else if ex = 0 then .fin neg frac (f.emin - f.fbits) else .fin neg (frac + 8) ((ex : Int) - f.bias - f.fbits)
    else if top then (if frac = 0 then .inf neg else .nan (decide (frac < 2 ^ (f.fbits - 1))))
    else if ex = 0 then .fin neg frac (f.emin - f.fbits)
    else .fin neg (frac + 2 ^ f.fbits) ((ex : Int) - f.bias - f.fbits)

def FVal.isNan : FVal → Bool
  | .nan _ => true
  | _ => false
def FVal.isSnan : FVal → Bool
  | .nan s => s
  | _ => false
def FVal.isZero : FVal → Bool
  | .fin _ 0 _ => true
  | _ => false
def FVal.neg : FVal → Bool
  | .nan _ => false
  | .inf n => n
  | .fin n _ _ => n

def isFloatElt : Elt → Bool
  | .f16 | .bf16 | .f32 | .f64 | .e4m3 | .e5m2 | .l6 => true
  | _ => false

def signBit (t : Elt) (neg : Bool) : Nat := if neg then (if t = .l6 then 32 else 2 ^ ((fmtOf t).width - 1)) else 0

/-- Special patterns of a format (03 R81, R84, R87). -/
def defaultNan (t : Elt) : Nat :=
  match t with
  | .l6 => 0x20
  | .e4m3 => 0x7F
  | _ => (2 ^ (fmtOf t).ebits * 2 - 1) * 2 ^ ((fmtOf t).fbits - 1)
def infBits (t : Elt) (neg : Bool) : Nat := signBit t neg + (2 ^ (fmtOf t).ebits - 1) * 2 ^ (fmtOf t).fbits
def maxBits (t : Elt) (neg : Bool) : Nat :=
  signBit t neg + (match t with
    | .l6 => 31
    | .e4m3 => 0x7E
    | _ => (2 ^ (fmtOf t).ebits - 1) * 2 ^ (fmtOf t).fbits - 1)
def quietBit (t : Elt) : Nat := 2 ^ ((fmtOf t).fbits - 1)

/-- A NaN source made quiet (03 R83). -/
def quiet (t : Elt) (b : Nat) : Nat := if t = .l6 || t = .e4m3 then b else b ||| quietBit t

/-- The conversion of a NaN (03 R83). From L6 it is the positive default NaN, as 07 R232 says of `UNPKL6`; that `CVTFF` and `TLOAD` do the same is a
DESIGN CHOICE, log 162. -/
def convNan (src : Elt) (b : Nat) (dst : Elt) : Nat :=
  if dst = .l6 then 0x20
  else if src = .l6 then defaultNan dst
  else
    let fs := (fmtOf src).fbits
    let fd := (fmtOf dst).fbits
    let neg := b / 2 ^ ((fmtOf src).width - 1) % 2 == 1
    if dst = .e4m3 then signBit dst neg + 0x7F
    else
      let frac := b % 2 ^ fs
      let fr := if fs ≤ fd then frac * 2 ^ (fd - fs) else frac / 2 ^ (fs - fd)
      infBits dst neg + (fr ||| quietBit dst)

/-! Rounding. -/

/-- Bits of a number, 0 for 0. -/
def bitLen (n : Nat) : Nat := if n = 0 then 0 else Nat.log2 n + 1

/-- Whether the magnitude is rounded up, given the lower neighbour's parity, the remainder against `2^k`
and the mode (03 R91). -/
def roundsUp (rm : Nat) (neg odd : Bool) (rem full : Nat) : Bool :=
  match rm with
  | 0 => decide (full < 2 * rem) || (2 * rem == full && odd)
  | 1 => false
  | 2 => !neg && rem != 0
  | _ => neg && rem != 0

/-- m × 2^e in units of 2^q, rounded: the count and whether it is exact. -/
def roundAt (rm : Nat) (neg : Bool) (m : Nat) (e q : Int) : Nat × Bool :=
  if q ≤ e then (m * 2 ^ (e - q).toNat, true)
  else
    let k := (q - e).toNat
    let n := m / 2 ^ k
    let rem := m % 2 ^ k
    (if roundsUp rm neg (n % 2 == 1) rem (2 ^ k) then n + 1 else n, rem == 0)

/-- The overflow result of a mode (03 R92). -/
def overflowBits (t : Elt) (rm : Nat) (neg sat : Bool) : Nat :=
  if sat || rm = 1 || (rm = 2 && neg) || (rm = 3 && !neg) then maxBits t neg
  else if t = .e4m3 then signBit t neg + 0x7F else infBits t neg

/-- Rounds a non-zero magnitude m × 2^e into L6 (03 R88). -/
def roundL6 (rm : Nat) (neg : Bool) (m : Nat) (e : Int) : Nat × BitVec 5 :=
  -- everything in units of 2^u below both the source and the table
  let u := min e (-40)
  let x := m * 2 ^ (e - u).toNat
  let val := fun (c : Nat) => if c = 0 then 0 else l6T (c % 4) * 2 ^ (((c / 4 : Nat) : Int) - 16 - u).toNat
  if val 31 < x then (signBit .l6 neg + 31, flagOF ||| flagNX)
  else
    let lo := (List.range 32).foldl (fun b c => if val c ≤ x then c else b) 0
    if val lo = x then (if lo = 0 then 0 else signBit .l6 neg + lo, 0)
    else
      let up := match rm with
        | 0 => decide (val (lo + 1) - x < x - val lo) || (val (lo + 1) - x == x - val lo && lo % 2 == 1)
        | 1 => false
        | 2 => !neg
        | _ => neg
      let c := if up then lo + 1 else lo
      (if c = 0 then 0 else signBit .l6 neg + c, if lo = 0 then flagUF ||| flagNX else flagNX)

/-- Rounds a non-zero magnitude m × 2^e into a format (03 R88, R92, R94). -/
def roundF (t : Elt) (rm : Nat) (sat neg : Bool) (m : Nat) (e : Int) : Nat × BitVec 5 :=
  if t = .l6 then roundL6 rm neg m e
  else
    let f := fmtOf t
    let qmin := f.emin - f.fbits
    let top : Int := (bitLen m : Int) - 1 + e
    let q := max (top - f.fbits) qmin
    let (n, exact) := roundAt rm neg m e q
    let bits := ((q - qmin).toNat) * 2 ^ f.fbits + n
    let limit := if t = .e4m3 then 0x7E else (2 ^ f.ebits - 1) * 2 ^ f.fbits - 1
    if limit < bits then (overflowBits t rm neg sat, flagOF ||| flagNX)
    else
      let tiny := decide (top < f.emin) && (let (n', _) := roundAt rm neg m e (top - f.fbits)
                                            decide (top + 1 < f.emin) || decide (n' < 2 ^ (f.fbits + 1)))
      (signBit t neg + bits, fl (!exact) flagNX ||| fl (!exact && tiny) flagUF)

def zeroBits (t : Elt) (neg : Bool) : Nat := if t = .l6 then 0 else signBit t neg

/-- Rounds an exact number whose zero has the given sign. -/
def roundDy (t : Elt) (rm : Nat) (sat zneg : Bool) (x : Dy) : Nat × BitVec 5 :=
  if x.m = 0 then (zeroBits t zneg, 0) else roundF t rm sat (decide (x.m < 0)) x.m.natAbs x.e

/-- Infinity in a format that may have none (03 R88, R94). -/
def infTo (t : Elt) (neg sat : Bool) : Nat × BitVec 5 :=
  match t with
  | .l6 => (if sat then signBit .l6 neg + 31 else 0x20, flagNV)
  | .e4m3 => (if sat then maxBits .e4m3 neg else signBit .e4m3 neg + 0x7F, flagNV)
  | _ => (infBits t neg, 0)

/-- Conversion between floating formats (03 R83, R88, R92, R94). -/
def convF (src dst : Elt) (rm : Nat) (sat : Bool) (b : Nat) : Nat × BitVec 5 :=
  match readF src b with
  | .nan s => (convNan src b dst, fl s flagNV)
  | .inf n => infTo dst n sat
  | .fin n m e => if m = 0 then (zeroBits dst n, 0) else roundF dst rm sat n m e

/-! Exact arithmetic. -/

def Dy.add (a b : Dy) : Dy :=
  let e := min a.e b.e
  ⟨a.m * 2 ^ (a.e - e).toNat + b.m * 2 ^ (b.e - e).toNat, e⟩
def Dy.mul (a b : Dy) : Dy := ⟨a.m * b.m, a.e + b.e⟩
def Dy.zero : Dy := ⟨0, 0⟩
def Dy.scale (a : Dy) (k : Int) : Dy := ⟨a.m, a.e + k⟩
/-- Compares two exact numbers: whether the first is less. -/
def Dy.lt (a b : Dy) : Bool := decide ((Dy.add a ⟨-b.m, b.e⟩).m < 0)
def FVal.dy : FVal → Dy
  | .fin n m e => ⟨if n then -(m : Int) else m, e⟩
  | _ => Dy.zero

/-- The integer nearest to an exact number under a mode, and whether it is exact (03 R94). -/
def roundInt (rm : Nat) (x : Dy) : Int × Bool :=
  let neg := decide (x.m < 0)
  let (n, ex) := roundAt rm neg x.m.natAbs x.e 0
  (if neg then -(n : Int) else n, ex)

/-- The range of an integer format (03 R80). -/
def intMin (t : Elt) : Int := match t with | .i8 | .i16 | .i32 | .i64 => -(2 ^ (t.bits - 1) : Int) | _ => 0
def intMax (t : Elt) : Int := match t with | .i8 | .i16 | .i32 | .i64 => 2 ^ (t.bits - 1) - 1 | _ => 2 ^ t.bits - 1
/-- Sat(x, T) of 00 R12. -/
def satInt (t : Elt) (x : Int) : Int := max (intMin t) (min (intMax t) x)
/-- Reads an integer pattern. -/
def readI (t : Elt) (b : Nat) : Int :=
  match t with
  | .i8 | .i16 | .i32 | .i64 => sext t.bits b
  | _ => (b % 2 ^ t.bits : Nat)

/-- A float or L6 value to an integer, always saturating (03 R94). -/
def floatToInt (src dst : Elt) (rm : Nat) (b : Nat) : Nat × BitVec 5 :=
  match readF src b with
  | .nan _ => (0, flagNV)
  | .inf n => (lowBits dst.bits (if n then intMin dst else intMax dst), flagNV)
  | v =>
    let (n, ex) := roundInt rm v.dy
    if intMin dst ≤ n ∧ n ≤ intMax dst then (lowBits dst.bits n, fl (!ex) flagNX)
    else (lowBits dst.bits (satInt dst n), flagNV)

/-- An integer to a float, FP8 or L6 format (03 R94). -/
def intToFloat (src dst : Elt) (rm : Nat) (sat : Bool) (b : Nat) : Nat × BitVec 5 := roundDy dst rm sat false ⟨readI src b, 0⟩

/-! Products of L6 values. -/

/-- The exact product of two L6 operands in units of 2^-20; none for a NaN (03 R89). -/
def l6Product (a b : Nat) : Option Int :=
  let e1 := a % 32
  let e2 := b % 32
  let neg := (a / 32 % 2 == 1) != (b / 32 % 2 == 1)
  if a % 64 = 0x20 || b % 64 = 0x20 then none
  else if e1 = 0 || e2 = 0 then some 0
  else
    let p : Int := l6T ((e1 + e2) % 4) * 2 ^ ((e1 + e2) / 4)
    some (if neg then -p else p)

/-- Sat(x, X48) (03 R90). DEDUCED, log 62. -/
def satX48 (x : Int) : Int := max (-(2 ^ 47)) (min (2 ^ 47 - 1) x)

/-! Integer root, by binary digits. -/

def isqrtFrom (k : Nat) (n r : Nat) : Nat :=
  match k with
  | 0 => r
  | k + 1 =>
    let c := r + 2 ^ k
    isqrtFrom k n (if c * c ≤ n then c else r)

/-- The largest r with r × r ≤ n. -/
def isqrt (n : Nat) : Nat := isqrtFrom (bitLen n / 2 + 1) n 0

/-! Sums for reductions (03 R108 to R110). -/

def sumDy (xs : List Dy) : Dy := xs.foldl Dy.add Dy.zero

/-- The flags of a reduction: NX, OF, NV. -/
structure RedFlags where
  nx : Bool
  of_ : Bool
  nv : Bool
  deriving DecidableEq, Repr

/-- SUM of float contributions, rounded once (03 R108, R110). -/
def redSum (t : Elt) (xs : List Nat) : Nat × RedFlags :=
  let vs := xs.map (readF t)
  let snan := vs.any FVal.isSnan
  let pinf := vs.any fun v => v == .inf false
  let ninf := vs.any fun v => v == .inf true
  if vs.any FVal.isNan then (defaultNan t, ⟨false, false, snan || (pinf && ninf)⟩)
  else if pinf && ninf then (defaultNan t, ⟨false, false, true⟩)
  else if pinf then (infBits t false, ⟨false, false, false⟩)
  else if ninf then (infBits t true, ⟨false, false, false⟩)
  else
    let allNegZero := vs.all fun v => v.isZero && v.neg
    let (b, fl) := roundDy t 0 false allNegZero (sumDy (vs.map FVal.dy))
    (b, ⟨fl.getLsbD 0, fl.getLsbD 2, false⟩)

/-- The chain of an F64 SUM, in ascending source rank (03 R108). Contributions with an infinity or a NaN are not rounded in a chain, so no NX or OF of
earlier ones is reported (R110). DEDUCED, log 147. -/
def redChain (xs : List Nat) : Nat × RedFlags :=
  match xs with
  | [] => (0, ⟨false, false, false⟩)
  | x :: t =>
    if xs.any fun b => (readF .f64 b).isNan || (match readF .f64 b with | .inf _ => true | _ => false) then redSum .f64 xs
    else t.foldl (fun (acc : Nat × RedFlags) y =>
      let (b, f) := redSum .f64 [acc.1, y]
      (b, ⟨acc.2.nx || f.nx, acc.2.of_ || f.of_, acc.2.nv || f.nv⟩)) (x, ⟨false, false, false⟩)

/-- Order of float patterns for MIN and MAX: −0 below +0 (03 R109). -/
def ltF (a b : FVal) : Bool :=
  match a, b with
  | .nan _, _ => false
  | _, .nan _ => false
  | .inf x, .inf y => x && !y
  | .inf x, _ => x
  | _, .inf y => !y
  | .fin x 0 _, .fin y 0 _ => x && !y
  | .fin .., .fin .. => Dy.lt a.dy b.dy

/-- MIN or MAX of contributions (03 R109). -/
def redMinMax (t : Elt) (isMax : Bool) (xs : List Nat) : Nat × RedFlags :=
  match t with
  | .f64 | .f32 | .f16 | .bf16 =>
    let snan := xs.any fun b => (readF t b).isSnan
    let nums := xs.filter fun b => !(readF t b).isNan
    let pick := fun a b => let less := ltF (readF t b) (readF t a)
                           let more := ltF (readF t a) (readF t b)
                           if (if isMax then more else less) then b else a
    match nums with
    | [] => (defaultNan t, ⟨false, false, snan⟩)
    | a :: r => (r.foldl pick a, ⟨false, false, snan⟩)
  | _ =>
    match xs with
    | [] => (0, ⟨false, false, false⟩)
    | a :: r =>
      (r.foldl (fun a b => if (if isMax then decide (readI t a < readI t b) else decide (readI t b < readI t a)) then b else a) a,
       ⟨false, false, false⟩)

end Sys2Proof.Machine
end

