-- ==== Sys2Proof/Machine/Mem.lean ====
section
/-! DEFINITION. Parts of the state by number, event records (19 R471 to R475), physical memory with the keys and
marks of its blocks (04 R115, R116, 16 R421, 17 R450, R451), translation (16 R415 to R422) and fault records
(16 R424 to R426, R521). -/
namespace Sys2Proof.Machine

/-! Parts of the state. -/

def Run.part (r : Run) (n : Nat) : Partition := nthD (Partition.reset n) r.parts n
def Run.updPart (r : Run) (n : Nat) (f : Partition → Partition) : Run := { r with parts := updAt r.parts n f }
def Run.die (r : Run) (n : Nat) : Die := nthD Die.reset r.dies n
def Run.updDie (r : Run) (n : Nat) (f : Die → Die) : Run := { r with dies := updAt r.dies n f }
def Run.core (r : Run) (d c : Nat) : Core := nthD Core.reset (r.die d).cores c
def Run.updCore (r : Run) (d c : Nat) (f : Core → Core) : Run :=
  r.updDie d fun x => { x with cores := updAt x.cores c f }
def Run.grp (r : Run) (n : Nat) : Option Grp := r.groups.find n
def Run.updGrp (r : Run) (n : Nat) (f : Grp → Grp) : Run := { r with groups := r.groups.upd n f }
def Run.team (r : Run) (n : Nat) : Option Team := r.teams.find n
def Run.updTeam (r : Run) (n : Nat) (f : Team → Team) : Run := { r with teams := r.teams.upd n f }
def Run.updCluster (r : Run) (n : Nat) (f : Cluster → Cluster) : Run := { r with clusters := r.clusters.upd n f }
def Run.launch (r : Run) (n : Nat) : Option Launch := r.launches.find n
def Run.updLaunch (r : Run) (n : Nat) (f : Launch → Launch) : Run := { r with launches := r.launches.upd n f }
def Run.updOp (r : Run) (n : Nat) (f : Op → Op) : Run := { r with ops := r.ops.upd n f }
/-- The timebase copy of a die (19 R474). -/
def Run.now (r : Run) (d : Nat) : W64 := (r.die d).time
/-- Adds to a counter of a partition's banks (19 R489). -/
def Run.count (r : Run) (part bank ctr n : Nat) : Run :=
  r.updPart part fun p => { p with banks := updAt p.banks bank fun b => updAt b ctr fun c => c + w64 n }
/-- A fresh identifier of a group, team, cluster, launch or operation (DESIGN CHOICE, log 4). -/
def Run.newId (r : Run) : Nat × Run := (r.nextId, { r with nextId := r.nextId + 1 })
/-- The next use of a free value (DESIGN CHOICE, log 6). -/
def Run.newFree (r : Run) : Nat × Run := (r.fresh, { r with fresh := r.fresh + 1 })

/-! Events. -/

/-- Types that are never dropped (19 R473). -/
def losslessType (t : Nat) : Bool :=
  [0x0001, 0x0002, 0x0003, 0x0004, 0x0005, 0x0006, 0x0012, 0x0013, 0x0019, 0x0021, 0x0022, 0x0023, 0x0032, 0x0033,
   0x0041, 0x0042, 0x0043, 0x0050, 0x0051, 0x0052, 0x0053].contains t || decide (0xD000 ≤ t)

/-- Appends a record to its unit's buffer, or drops and counts a lossy one that finds the buffer full (19 R475). DEDUCED, log 36. -/
def pushRec (us : List UnitBuffer) (u : UnitId) (e : EvRec) : List UnitBuffer :=
  match us with
  | [] => [{ unit := u, recs := [e], drops := 0 }]
  | b :: t =>
    if b.unit = u then
      (if e.lossless || decide (b.recs.length < Config.eventBuffer) then { b with recs := b.recs ++ [e] }
       else { b with drops := b.drops + 1 }) :: t
    else b :: pushRec t u e

/-- Whether a unit's buffer has room for one more record. DEDUCED, log 36. -/
def unitHasRoom (us : List UnitBuffer) (u : UnitId) : Bool :=
  us.all fun b => decide (b.unit ≠ u) || decide (b.recs.length < Config.eventBuffer)

/-- The causal ID of the next event of a die (19 R471). -/
def nextCausal (r : Run) (d : Nat) : W64 :=
  w64 (r.incarn.toNat * 2 ^ 56 + r.devid.toNat * 2 ^ 48 + d * 2 ^ 43 + (r.die d).seq.toNat)

/-- TIME of a record: its die's copy, raised above its parent's (19 R474). -/
def eventTime (r : Run) (d : Nat) (parent : W64) : W64 :=
  let now := (r.now d).toNat
  match r.evTimes.find parent.toNat with
  | some t => w64 (max now (if parent = 0 then 0 else t.toNat + 1))
  | none => w64 now

/-- Emits one event record with payload and parent; answers its causal ID (19 R471). DEDUCED, log 31. -/
def emit (r : Run) (u : UnitId) (type payload : Nat) (parent : W64) : W64 × Run :=
  let id := nextCausal r u.die
  let t := eventTime r u.die parent
  let e : EvRec :=
    { w0 := t, w1 := id, w2 := parent
      w3 := w64 (type * 2 ^ 48 + u.kind * 2 ^ 44 + u.index * 2 ^ 32 + payload % 2 ^ 32), lossless := losslessType type }
  (id, { r.updDie u.die (fun d => { d with seq := d.seq + 1 }) with
         units := pushRec r.units u e, evTimes := r.evTimes.put id.toNat t })

def emit' (r : Run) (u : UnitId) (type payload : Nat) (parent : W64) : Run := (emit r u type payload parent).2

/-- Emits a record whose W1 and W2 are given (19 R493, R495). -/
def emitRaw (r : Run) (u : UnitId) (type payload : Nat) (w1 w2 : W64) (launch : Option Nat := none) : Run :=
  let e : EvRec :=
    { w0 := r.now u.die, w1, w2, w3 := w64 (type * 2 ^ 48 + u.kind * 2 ^ 44 + u.index * 2 ^ 32 + payload % 2 ^ 32)
      lossless := losslessType type, launch }
  { r with units := pushRec r.units u e }

def coreUnit (d c : Nat) : UnitId := { kind := 0, die := d, index := c }
def copyUnit (d c : Nat) : UnitId := { kind := 2, die := d, index := c }
def lxeUnit (d : Nat) : UnitId := { kind := 3, die := d, index := 0 }
def gdUnit (d : Nat) : UnitId := { kind := 5, die := d, index := 0 }
/-- The die that owns a physical address, and its stack (04 R116). -/
def dieOf (pa : Nat) : Nat := pa / Config.dieBlock
def stackOf (pa : Nat) : Nat := pa / Config.stackPiece % Config.hbmStacks
/-- The memory controller of an address: one for each stack. DEDUCED, log 141. -/
def mcUnit (pa : Nat) : UnitId := { kind := 6, die := dieOf pa, index := stackOf pa }
def dcpUnit (d : Nat) : UnitId := { kind := 7, die := d, index := 0 }
def mmpUnit : UnitId := { kind := 8, die := 0, index := 0 }
def portUnit (p : Nat) : UnitId := { kind := 4, die := p / 3, index := p % 3 }

/-- The causal context of a group (19 R472): the event has it as PARENT and becomes it. DEDUCED, log 31. -/
def emitGrp (r : Run) (gid : Nat) (u : UnitId) (type payload : Nat) : W64 × Run :=
  let parent := ((r.grp gid).map (·.causal)).getD 0
  let (id, r) := emit r u type payload parent
  (id, r.updGrp gid fun g => { g with causal := id })

/-! Physical memory. -/

/-- DESIGN CHOICE, log 2. -/
def memByte (m : Memory) (a : Nat) : Byte := Sparse.get (0 : Byte) m a
/-- DESIGN CHOICE, log 2. -/
def memRead (m : Memory) (a n : Nat) : List Byte := (List.range n).map fun i => memByte m (a + i)
def memWrite (m : Memory) (a : Nat) (bs : List Byte) : Memory :=
  match bs with
  | [] => m
  | b :: t => memWrite (Sparse.set (0 : Byte) m a b) (a + 1) t

/-- The key under which an entry reads and writes (16 R421, 20 R508): none in plain text; a slot and the count of keys
it has held; or a random key, which no slot index names. DEDUCED, log 7. -/
def keyOf (r : Run) (part : Nat) (l : Leaf) : Option (Nat × Nat) :=
  if l.enc then
    let k := nthD { keyid := 0, loaded := false, part := 0, gen := 0 } r.keys l.key
    if k.loaded && k.part == part then some (l.key, k.gen) else some (1000 + l.key, r.keySeed)
  else none

def randomKey (k : Option (Nat × Nat)) : Bool :=
  match k with
  | some (n, _) => decide (1000 ≤ n)
  | none => false

/-- Whether a physical address lies in a frame that a unit holds pinned (16 R421). -/
def framePinned (r : Run) (pa : Nat) : Bool := r.pinned.any fun p => decide (p.frame ≤ pa) && decide (pa < p.frame + p.size)

/-- Whether a block lies on the die: in a unit that pins its frame, or in a line that its home slice holds (17 R436, R451). -/
def onChip (r : Run) (block : Nat) : Bool :=
  framePinned r (64 * block) || ((r.die (dieOf (64 * block))).held.find (block / 2)).isSome

def SectorTag.clean (key : Option (Nat × Nat)) : SectorTag := { key, flipped := false, bad := false }
/-- A block that nothing has written. DESIGN CHOICE, log 2. -/
def BlockTag.clean : BlockTag := { low := .clean none, high := .clean none, mark := none }
def blockTag (r : Run) (block : Nat) : Option BlockTag := r.tags.find block

/-- The sectors of a block that an access to `n` bytes at an address reads: those it touches, and both where decryption acts on the whole
block (17 R450). -/
def BlockTag.sectors (t : BlockTag) (key : Option (Nat × Nat)) (block a n : Nat) : List SectorTag :=
  if key.isSome then [t.low, t.high]
  else (if a < 64 * block + 32 then [t.low] else []) ++ (if 64 * block + 32 < a + n then [t.high] else [])

/-- What sectors that are read under a key report (17 R450, R436). DEDUCED, log 7. -/
def sectorFail (r : Run) (key : Option (Nat × Nat)) (block : Nat) (ss : List SectorTag) : Option (Cause × Nat) :=
  if ss.any (·.bad) then some (.poison, bit key.isSome + 2 * bit (onChip r block))
  else if randomKey key || ss.any (·.key ≠ key) then some (.integrity, bit (ss.any (·.flipped)))
  else none

/-- What a read of `n` bytes at an address meets in a block (17 R450, R451): the cause and DETAIL of a block that fails. DEDUCED, log 7.
DESIGN CHOICE, log 135. -/
def blockFail (r : Run) (key : Option (Nat × Nat)) (block a n : Nat) : Option (Cause × Nat) :=
  match blockTag r block with
  | some t => if t.mark.isSome then t.mark else sectorFail r key block (t.sectors key block a n)
  | none => if randomKey key then some (.integrity, 0) else none

/-- Marks a block that failed (17 R451), with the event of 19 R473 and the count of 20 R506 where it was not marked yet. DESIGN CHOICE, log 135. -/
def markBlock (r : Run) (block : Nat) (m : Cause × Nat) : Run :=
  let t := (blockTag r block).getD BlockTag.clean
  if t.mark.isSome then r
  else
    let r := emit' r (mcUnit (64 * block)) 0x0021 (m.1.code + m.2 * 256) 0
    let r := if m.1 = .poison then r.updDie (dieOf (64 * block)) fun x =>
        { x with uecount := x.uecount + 1, failedBlocks := if x.failedBlocks.contains block then x.failedBlocks else x.failedBlocks ++ [block] } else r
    { r with tags := r.tags.put block { t with mark := some m } }

/-- A read writes back the bits of a block that ECC corrected (17 R450), with the event and the counts of 19 R473, R489 and 20 R506. -/
def correctBlock (part : Nat) (key : Option (Nat × Nat)) (a n : Nat) (r : Run) (block : Nat) : Run :=
  match blockTag r block with
  | none => r
  | some t =>
    if (t.sectors key block a n).any (·.flipped) then
      let r := (emit' r (mcUnit (64 * block)) 0x0020 0 0).count part 5 0 1
      let d := dieOf (64 * block)
      let e : Corrected := { time := r.now d, block, pin := Config.freeChoice r.fresh }
      let r := r.newFree.2.updDie d fun x => { x with corrected := x.corrected ++ [e] }
      { r with tags := r.tags.put block { t with low := { t.low with flipped := false }, high := { t.high with flipped := false } } }
    else r

/-- Drops every replica of a line: a write reaches its home slice (04 R123). DEDUCED, log 8. -/
def dropReplicas (r : Run) (line : Nat) : Run :=
  if r.dies.all fun d => d.replicas.all fun e => e.line != line then r
  else { r with dies := r.dies.map fun d => { d with replicas := d.replicas.filter fun e => e.line != line } }

/-- The tag of a block after a write of `n` bytes at an address under a key (16 R421): decryption acts on whole blocks, a plain write on the
sectors that it touches. -/
def BlockTag.written (t : BlockTag) (key : Option (Nat × Nat)) (block a n : Nat) : BlockTag :=
  let new := SectorTag.clean key
  if key.isSome then { low := new, high := new, mark := none }
  else { low := if a < 64 * block + 32 then new else t.low, high := if 64 * block + 32 < a + n then new else t.high, mark := none }

/-- The sectors of a block that a write must read, since it does not cover them (16 R421, 17 R448). -/
def BlockTag.partly (t : BlockTag) (key : Option (Nat × Nat)) (block a n : Nat) : List SectorTag :=
  if key.isSome then [t.low, t.high]
  else (if a < 64 * block + 32 && !(a == 64 * block && decide (32 ≤ n)) then [t.low] else []) ++
    (if 64 * block + 32 < a + n && !(decide (a ≤ 64 * block + 32) && a + n == 64 * block + 64) then [t.high] else [])

/-- Writes the bytes of one block, or discards them when the block fails and is not covered whole (17 R451). DEDUCED, log 7. -/
def writeBlock (r : Run) (key : Option (Nat × Nat)) (a : Nat) (bs : List Byte) : Run :=
  let block := a / 64
  let t := (blockTag r block).getD BlockTag.clean
  let fails : Option (Cause × Nat) :=
    if bs.length = 64 || (blockTag r block).isNone then none
    else if t.mark.isSome then t.mark
    else
      let ss := t.partly key block a bs.length
      if ss.any (·.bad) || ss.any (·.key ≠ key) then sectorFail r key block ss else none
  match fails with
  | some m => emit' (markBlock r block m) (mcUnit a) 0x0022 0 0
  | none => { dropReplicas r (a / 128) with mem := memWrite r.mem a bs, tags := r.tags.put block (t.written key block a bs.length) }

/-- Cuts bytes at 64-byte block boundaries. -/
def blockPieces (fuel a : Nat) (bs : List Byte) : List (Nat × List Byte) :=
  match fuel with
  | 0 => []
  | fuel + 1 =>
    if bs.isEmpty then []
    else
      let n := 64 - a % 64
      (a, bs.take n) :: blockPieces fuel (a + n) (bs.drop n)

def writeKeyed (r : Run) (key : Option (Nat × Nat)) (a : Nat) (bs : List Byte) : Run :=
  (blockPieces (bs.length / 64 + 2) a bs).foldl (fun r p => writeBlock r key p.1 p.2) r

/-- The first failing block of a range read under a key: its cause and DETAIL. -/
def rangeFail (r : Run) (key : Option (Nat × Nat)) (a n : Nat) : Option (Nat × Cause × Nat) :=
  ((List.range (if n = 0 then 0 else (a + n - 1) / 64 - a / 64 + 1)).map (a / 64 + ·)).findSome? fun b =>
    (blockFail r key b a n).map fun m => (b, m.1, m.2)

/-- The corrections of a read of a range. -/
def correctRange (r : Run) (part : Nat) (key : Option (Nat × Nat)) (a n : Nat) : Run :=
  ((List.range (if n = 0 then 0 else (a + n - 1) / 64 - a / 64 + 1)).map (a / 64 + ·)).foldl (correctBlock part key a n) r

/-- What a read of a range leaves of its blocks: those it corrects, and the mark of the first that fails (17 R450, R451). -/
def readMarks (r : Run) (part : Nat) (key : Option (Nat × Nat)) (a n : Nat) : Run :=
  match rangeFail r key a n with
  | none => correctRange r part key a n
  | some (b, m) => markBlock (correctRange r part key a (64 * b - a)) b m

/-- Words of memory in plain text by physical address. -/
def readWord (r : Run) (pa : Nat) : W64 := w64 (leNat (memRead r.mem pa 8))
def writeWord (r : Run) (pa : Nat) (w : W64) : Run := writeKeyed r none pa (leBytes 8 w.toNat)

/-- Adds to a unit's sketch under a key (19 R492). DEDUCED, log 90. -/
def sketchAdd (r : Run) (u : UnitId) (key n : Nat) : Run :=
  let add := fun (k : Sketch) => { k with sums := k.sums.put key (Sparse.get 0 k.sums key + n) }
  if r.sketches.any fun k => k.unit == u then { r with sketches := r.sketches.map fun k => if k.unit = u then add k else k }
  else { r with sketches := r.sketches ++ [add { unit := u, seed := 0, sums := [] }] }

/-- The hashed home slice of a line (04 R119). -/
def homeSliceOf (line : Nat) : Nat := (nfld line 14 0 ^^^ nfld line 29 15 ^^^ nfld line 44 30) % Config.slices

/-! L2 metadata (04 R115, R118, R520). DEDUCED, log 8. -/

/-- Lines of a slice that its SLICE-homed pages take, and those that a team holds pinned for its matrix unit (04 R137). -/
def slicePageLines (r : Run) (d s : Nat) : Nat :=
  ((r.pinned.filter fun p => !p.core && p.die == d && p.unit == s).map fun p => p.size / 128).foldl (· + ·) 0
def tilePinned (r : Run) (line : Nat) : Bool := r.teams.any fun e => e.2.pins.any fun p => p.1 == line

/-- Lines and replicas that a slice of a die holds. -/
def sliceHeld (r : Run) (d s : Nat) : List (Nat × L2Line) := (r.die d).held.filter fun e => homeSliceOf e.1 == s
def sliceReplicas (r : Run) (d s : Nat) : List Replica := (r.die d).replicas.filter fun e => e.slice == s

/-- Whether a slice has no place for one more line. -/
def sliceFull (r : Run) (d s : Nat) : Bool :=
  let free := Config.sliceLines - slicePageLines r d s
  decide (free ≤ (r.die d).held.length + (r.die d).replicas.length) && decide (free ≤ (sliceHeld r d s).length + (sliceReplicas r d s).length)

/-- What a slice may evict, with its rank: `.STRM` lines, lines without a hint, `.KEEP` lines (04 R520, 08 R242). -/
def hintRank (hint : Nat) : Nat := match hint with | 1 => 0 | 2 => 2 | _ => 1
def evictables (r : Run) (d s : Nat) : List (Nat × (Nat ⊕ Replica)) :=
  ((sliceHeld r d s).filter fun e => !tilePinned r e.1).map (fun e => (hintRank e.2.hint, Sum.inl e.1)) ++
    (sliceReplicas r d s).map fun e => (hintRank e.hint, Sum.inr e)

/-- A slice evicts one line (04 R520): which one within the bounds is free; a dirty one is written to HBM. DESIGN CHOICE, log 6. -/
def evictLine (r : Run) (part d s : Nat) : Run :=
  let all := evictables r d s
  let rank := (all.map (·.1)).foldl min 3
  let best := all.filter fun e => e.1 == rank
  match best[Config.freeChoice r.fresh % max best.length 1]? with
  | none => r
  | some (_, .inl line) =>
    let r := if ((r.die d).held.find line).any (·.dirty) then r.count part 2 3 128 else r
    r.newFree.2.updDie d fun x => { x with held := x.held.del line }
  | some (_, .inr x) => r.newFree.2.updDie d fun y => { y with replicas := y.replicas.filter (· != x) }

/-- Evicts lines until the slice has a place, at most `fuel` of them. -/
def sliceRoom (fuel : Nat) (r : Run) (part d s : Nat) : Run :=
  match fuel with
  | 0 => r
  | fuel + 1 => if sliceFull r d s then sliceRoom fuel (evictLine r part d s) part d s else r

/-- A CACHED access to a line (04 R520): the line is held in its home slice from its first access; a line that is not held is read
from HBM. DEDUCED, log 8. -/
def touchOne (r : Run) (part : Nat) (dirty : Bool) (line : Nat) : Run :=
  let d := dieOf (128 * line)
  let keep := fun (x : L2Line) => { x with dirty := x.dirty || dirty, hint := if r.accHint = 0 then x.hint else r.accHint }
  match (r.die d).held.find line with
  | some x => (r.count part 2 0 1).updDie d fun y => { y with held := y.held.put line (keep x) }
  | none =>
    let s := homeSliceOf line
    let r := sketchAdd ((r.count part 2 1 1).count part 2 2 128) { kind := 1, die := d, index := s } (fld r.accPc 55 3) 1
    (sliceRoom 1 r part d s).updDie d fun y => { y with held := y.held.put line (keep { dirty := false, hint := 0 }) }

/-- An UNCACHED access to a part of a line: at the memory controller, or at the copy of the line that is present (16 R421). DEDUCED, log 8. -/
def touchUncached (r : Run) (part : Nat) (dirty : Bool) (n line : Nat) : Run :=
  let d := dieOf (128 * line)
  match (r.die d).held.find line with
  | some x => (r.count part 2 0 1).updDie d fun y => { y with held := y.held.put line { x with dirty := x.dirty || dirty } }
  | none => r.count part 2 (if dirty then 3 else 2) n

/-- The metadata and counts of an access of `n` bytes (04 R118, R120, R520, 19 R489): one to a pinned frame is performed on the pinned copy,
whatever the HOME of its entry (16 R421). DEDUCED, log 8. -/
def touchHome (r : Run) (part home pa n : Nat) (dirty : Bool) : Run :=
  if n = 0 || framePinned r pa then r
  else
    let lines := (List.range ((pa + n - 1) / 128 - pa / 128 + 1)).map (pa / 128 + ·)
    if home = 0 then lines.foldl (fun r k => touchOne r part dirty k) r
    else if home = 1 then lines.foldl (fun r k => touchUncached r part dirty (min (pa + n) (128 * k + 128) - max pa (128 * k)) k) r
    else r

def touchLine (r : Run) (part : Nat) (l : Leaf) (pa n : Nat) (dirty : Bool) : Run := touchHome r part l.home pa n dirty

/-! The machine's own accesses by physical address, in plain text, through the home slice (04 R520, 17 R450). DESIGN CHOICE, log 152. -/

def ownRead (r : Run) (part pa n : Nat) : Run := touchHome (readMarks r part none pa n) part 0 pa n false
def ownWrite (r : Run) (part pa : Nat) (w : W64) : Run := touchHome (writeWord r pa w) part 0 pa 8 true

/-! Translation. -/

/-- Who translates, for the checks and for the fault record (16 R420, R424, R521). `kind` is 0 read, 1 write, 2 atomic,
3 fetch; `src` the path code; `core` 127 for an engine that is not on a core; `recDie` and `recCore` are what its fault record names (01 R44). -/
structure Req where
  part : Nat
  die : Nat
  core : Nat
  ctx : Nat
  launchid : W32
  pc : W64
  super : Bool
  src : Nat
  kind : Nat
  recDie : Nat := die
  recCore : Nat := core
  deriving DecidableEq, Repr

/-- A fault of R420: its KIND (16 R425), address and the level of the walk; `table` where the access that faults is the walk's own read of a
table (16 R521). -/
structure FaultInfo where
  kind : Nat
  va : W64
  level : Nat
  table : Bool := false
  deriving DecidableEq, Repr

/-- Whether a frame of physical memory is in a partition's share (14 R380). -/
def inShare (p : Partition) (pa : Nat) : Bool :=
  let f := pa / Config.frameBytes
  decide (f < 192) && (nthD 0 p.pframe (f / 64)).getLsbD (f % 64)

/-- Shift of the VA bits that index a level, the number of index bits, and leaf sizes (16 R417). -/
def levelShift (lv : Nat) : Nat := match lv with | 0 => 43 | 1 => 34 | 2 => 25 | _ => 16
def levelBits (lv : Nat) : Nat := if lv = 0 then 13 else 9
/-- Bytes of a SIZE code, the level at which it may stand, and table entries of one leaf (16 R417, R419). -/
def pageBytes (size : Nat) : Nat := match size with | 0 => 0x10000 | 1 => 0x200000 | 2 => 0x2000000 | 3 => 0x20000000 | _ => 0x400000000
/-- DEDUCED, log 27. -/
def pageLevel (size : Nat) : Nat := match size with | 0 => 3 | 1 => 3 | 2 => 2 | 3 => 2 | _ => 1
def pageEntries (size : Nat) : Nat := match size with | 1 => 32 | 3 => 16 | _ => 1

def readEntry (r : Run) (table index : Nat) : W64 × W64 := (readWord r (table + 16 * index), readWord r (table + 16 * index + 8))

/-- Reserved bits of a leaf entry (16 R419). -/
def leafReserved (e : W64 × W64) : Bool :=
  fld e.1 58 56 != 0 || fld e.1 15 0 != 0 || fld e.2 61 57 != 0 || fld e.2 30 0 != 0 || decide (4 < fld e.1 61 59)

/-- The checks of R420 on a leaf entry, up to OWNER, and the leaf. -/
def leafOf (p : Partition) (lv va : Nat) (e : W64 × W64) : Except Nat Leaf :=
  let size := fld e.1 61 59
  let pbase := fld e.1 51 16 * 0x10000
  let home := fld e.2 63 62
  let hdie := fld e.2 42 38
  let hunit := fld e.2 37 31
  if leafReserved e then .error 4
  else if pageLevel size != lv || pbase % pageBytes size != 0 || (decide (home < 2) && (hdie != 0 || hunit != 0)) then .error 4
  else if (home == 3 && size != 0) || (home == 2 && decide (1 < size)) then .error 6
  else if decide (2 ≤ home) && (!(p.pdies.getLsbD hdie && decide (hdie < 24)) ||
      decide ((if home == 2 then 48 else 96) ≤ hunit)) then .error 4
  else if decide (Config.storageEnd ≤ pbase) then .error 5
  else if fld e.2 56 52 != p.partid || !inShare p pbase then .error 8
  else .ok { vbase := va / pageBytes size * pageBytes size, size := pageBytes size, pbase
             u := e.1.getLsbD 55, x := e.1.getLsbD 54, w := e.1.getLsbD 53, r := e.1.getLsbD 52, home
             enc := e.2.getLsbD 43, key := fld e.2 51 44, hdie, hunit }

/-- How many entries alike stand next to one on one side of it, at most `n`. -/
def alikeRun (r : Run) (table : Nat) (e : W64 × W64) (next : Nat → Option Nat) (n idx : Nat) : Nat :=
  match n with
  | 0 => 0
  | n + 1 =>
    match next idx with
    | none => 0
    | some i => if readEntry r table i = e then alikeRun r table e next n i + 1 else 0

/-- The entry that a walk uses of the group of a leaf (16 R417, R420). A whole group of entries alike that does not fill its aligned place is
misaligned, which answers none. Where entries of the place differ otherwise, one of them is used, which is free. DESIGN CHOICE, log 9.
DEDUCED, log 142. -/
def groupEntry (r : Run) (table idx : Nat) (e : W64 × W64) : Option (W64 × W64) :=
  let n := pageEntries (fld e.1 61 59)
  let group := (List.range n).map fun i => readEntry r table (idx / n * n + i)
  let below := alikeRun r table e (fun i => if i = 0 then none else some (i - 1)) n idx
  let above := alikeRun r table e (fun i => if i = 511 then none else some (i + 1)) n idx
  if group.all (· == e) then some e
  else if n ≤ below + above + 1 then none
  else some (nthD e group (Config.freeChoice r.fresh % n))

/-- A walk: how it ends, the pointers that it has passed, and the places of the entries that it has read. -/
structure Walk where
  got : Except (Nat × Nat × Bool) Leaf
  ptrs : List WalkPtr
  reads : List Nat

/-- What an entry of a table answers (R420): an error is its KIND, and whether the next table's place is at fault; a leaf, or the table to go on at. -/
def entryOf (p : Partition) (lv va : Nat) (e : W64 × W64) : Except (Nat × Bool) (Leaf ⊕ Nat) :=
  if !e.1.getLsbD 63 then .error (1, false)
  else if e.1.getLsbD 62 then
    if lv = 0 then .error (4, false)
    else
      match leafOf p lv va e with
      | .ok l => .ok (.inl l)
      | .error k => .error (k, false)
  else if lv = 3 || fld e.1 61 52 != 0 || fld e.1 12 0 != 0 || e.2 != 0 then .error (4, false)
  else
    let next := fld e.1 51 13 * 0x2000
    if !inShare p next then .error (8, true) else .ok (.inr next)

/-- The walk of R420 from a table at a level; an error is the KIND and the level. An entry whose block fails is BADENTRY, of a table read. DESIGN CHOICE, log 9. DEDUCED, log 27. DESIGN CHOICE, log 152. -/
def walkFrom (fuel : Nat) (r : Run) (part table lv va : Nat) : Walk :=
  match fuel with
  | 0 => { got := .error (4, 3, false), ptrs := [], reads := [] }
  | fuel + 1 =>
    let p := r.part part
    let idx := va / 2 ^ levelShift lv % 2 ^ levelBits lv
    let e := readEntry r table idx
    let place := table + 16 * idx
    let ends := fun (got : Except (Nat × Nat × Bool) Leaf) => ({ got, ptrs := [], reads := [place] } : Walk)
    if (rangeFail r none place 16).isSome then ends (.error (4, lv, true))
    else
      match (if e.1.getLsbD 63 && e.1.getLsbD 62 then groupEntry r table idx e else some e) with
      | none => ends (.error (4, lv, false))
      | some e =>
        match entryOf p lv va e with
        | .error (k, t) => ends (.error (k, lv, t))
        | .ok (.inl l) => ends (.ok l)
        | .ok (.inr next) =>
          let w := walkFrom fuel r part next (lv + 1) va
          { w with ptrs := { part, level := lv, index := va / 2 ^ levelShift lv, next } :: w.ptrs, reads := place :: w.reads }

/-- The walks that an address may take on a die: from the root, and from the tables that its walk cache names (16 R422). With translation
disabled every one is BADENTRY (16 R416). -/
def walks (r : Run) (die part va : Nat) : List Walk :=
  match (r.part part).cb with
  | none => [{ got := .error (4, 0, false), ptrs := [], reads := [] }]
  | some cb =>
    walkFrom 4 r part cb.l0base 0 va ::
      ((r.die die).ptrs.filter fun x => x.part == part && x.index == va / 2 ^ levelShift x.level).map fun x =>
        walkFrom (3 - x.level) r part x.next (x.level + 1) va

/-- A walk from the root. -/
def walk (r : Run) (part va : Nat) : Except (Nat × Nat × Bool) Leaf :=
  match (r.part part).cb with
  | none => .error (4, 0, false)
  | some cb => (walkFrom 4 r part cb.l0base 0 va).got

/-- Whether a unit holds the frame pinned (16 R420, R430). -/
def isPinned (r : Run) (l : Leaf) : Bool :=
  r.pinned.any fun p => decide (p.frame ≤ l.pbase) && decide (l.pbase + l.size ≤ p.frame + p.size) &&
    p.core == (l.home == 3) && p.die == l.hdie && p.unit == l.hunit

/-- The last checks of R420: the pin of a homed page and the permission. -/
def leafFault (r : Run) (q : Req) (l : Leaf) : Option Nat :=
  if decide (2 ≤ l.home) && !isPinned r l then some 7
  else if (!q.super && !l.u) || ((q.kind == 0 || q.kind == 2) && !l.r) || ((q.kind == 1 || q.kind == 2) && !l.w) ||
      (q.kind == 3 && !l.x) then some 2
  else none

/-- The fault of an address that is not canonical (04 R111); with translation disabled every fault is BADENTRY (16 R416). -/
def nonCanonical (r : Run) (part : Nat) (va : W64) : FaultInfo :=
  { kind := if (r.part part).cb.isNone then 4 else 3, va, level := 0 }

/-- The SIZE code of a page's bytes (16 R419). -/
def sizeCode (bytes : Nat) : Nat := ((List.range 4).find? fun k => pageBytes k == bytes).getD 4

/-- A TLB's entry for an address (16 R422). DESIGN CHOICE, log 9. -/
def tlbFind (tlb : List (Nat × Leaf)) (part va : Nat) : Option Leaf :=
  (tlb.find? fun e => e.1 == part && decide (e.2.vbase ≤ va) && decide (va < e.2.vbase + e.2.size)).map (·.2)

/-- A cache of `n` entries with one more: a full one loses another, which is free. DESIGN CHOICE, log 6. -/
def cachePut {α : Type} [BEq α] (n pick : Nat) (xs : List α) (x : α) : List α :=
  if xs.contains x then xs else x :: (if xs.length < n then xs else xs.eraseIdx (pick % xs.length))

/-- Whether a page goes to the large-page TLB (16 R422). -/
def largePage (l : Leaf) : Bool := decide (pageBytes 3 < l.size)

/-- The TLBs of a core and a die with a leaf (16 R422). -/
def tlbPut (q : Req) (l : Leaf) (r : Run) : Run :=
  let pick := Config.freeChoice r.fresh
  let die := r.die q.die
  let kept := die.tlb.filter fun e => largePage e.2 != largePage l
  let same := die.tlb.filter fun e => largePage e.2 == largePage l
  let size := if largePage l then Config.largeTlb else Config.dieTlb
  let near := (r.core q.die q.core).tlb
  let has := fun (xs : List (Nat × Leaf)) => xs.contains (q.part, l)
  if has die.tlb && (has near || decide (Config.coresPerDie ≤ q.core)) then r
  else
    let r := if Config.coreTlb ≤ near.length || size ≤ same.length then r.newFree.2 else r
    (r.updDie q.die fun d => { d with tlb := cachePut size pick same (q.part, l) ++ kept }).updCore
      q.die q.core fun k => { k with tlb := cachePut Config.coreTlb pick k.tlb (q.part, l) }

/-- What a walk leaves: its counts (19 R489), the lines it has read, and the pointers that the die's walk cache then holds (16 R422). -/
def walked (q : Req) (w : Walk) (r : Run) : Run :=
  let r := w.reads.foldl (fun r a => ownRead r q.part a 16) ((r.count q.part 2 5 1).count q.part 2 6 1)
  let pick := Config.freeChoice r.fresh
  let r := if Config.walkCache < (r.die q.die).ptrs.length + w.ptrs.length then r.newFree.2 else r
  r.updDie q.die fun d => { d with ptrs := w.ptrs.foldl (cachePut Config.walkCache pick) d.ptrs }

/-- A walk on a die: where the tables that its cache names lead elsewhere than the root does, which of the walks it is, is free (16 R428).
DESIGN CHOICE, log 9. -/
def walkNow (r : Run) (q : Req) (va : Nat) : Walk × Run :=
  let all := walks r q.die q.part va
  let root := nthD { got := .error (4, 0, false), ptrs := [], reads := [] } all 0
  let same := fun (w : Walk) => match w.got, root.got with | .ok a, .ok b => a == b | .error a, .error b => a == b | _, _ => false
  if all.all same then (root, r) else (nthD root all (Config.freeChoice r.fresh % all.length), r.newFree.2)

/-- The cached translation of an address, of the core's TLB or the die's. A cached entry that differs from the tables may be used or not;
which one is free (16 R428, DESIGN CHOICE, log 9). -/
def cachedLeaf (r : Run) (q : Req) (va : Nat) : Option Leaf × Run :=
  match (tlbFind (r.core q.die q.core).tlb q.part va).orElse fun _ => tlbFind (r.die q.die).tlb q.part va with
  | none => (none, r)
  | some l =>
    let stale := match walk r q.part va with | .ok l' => decide (l ≠ l') | .error _ => true
    if stale then ((if Config.freeChoice r.fresh % 2 = 0 then some l else none), r.newFree.2) else (some l, r)

/-- Translates an address (16 R420). Nothing is cached of a translation that faults (16 R422). DEDUCED, log 27. -/
def translate (r : Run) (q : Req) (va : W64) : Except FaultInfo Leaf × Run :=
  let a := va.toNat
  if 2 ^ 56 ≤ a then (.error (nonCanonical r q.part va), r)
  else
    let (got, r) : Except (Nat × Nat × Bool) Leaf × Run :=
      match cachedLeaf r q a with
      | (some l, r) => (.ok l, r)
      | (none, r) =>
        let (w, r) := walkNow r q a
        (w.got, walked q w r)
    match got with
    | .error (k, lv, table) => (.error { kind := k, va, level := lv, table }, r)
    | .ok l =>
      match leafFault r q l with
      | some k => (.error { kind := k, va, level := pageLevel (sizeCode l.size) }, r)
      | none => (.ok l, tlbPut q l r)

def Leaf.pa (l : Leaf) (va : W64) : Nat := l.pbase + (va.toNat - l.vbase)

/-- The cause of a fault KIND (16 R425). -/
def faultCause (k : Nat) : Cause := if k = 8 then .ownerFault else .pageFault

/-! Fault records (16 R424, R426). -/

/-- DEDUCED, log 27. -/
def recordWords (q : Req) (f : FaultInfo) (need : Bool) (tag : Nat) : List W64 :=
  [f.va,
   w64 (f.kind * 2 ^ 56 + (if f.table then 0 else q.kind) * 2 ^ 52 + (if f.table then 8 else q.src) * 2 ^ 48 + q.recDie * 2 ^ 43 + q.recCore * 2 ^ 36 + q.ctx * 2 ^ 30 +
     bit need * 2 ^ 29 + f.level * 2 ^ 27),
   w64 (q.launchid.toNat * 2 ^ 32 + tag), q.pc]

/-- Changes what the hardware keeps of the control block's index words. -/
def Run.updCb (r : Run) (part : Nat) (f : ControlBlock → ControlBlock) : Run := r.updPart part fun p => { p with cb := p.cb.map f }

/-- Writes a record at FQTAIL when the queue has room (16 R426); answers whether it was written. DEDUCED, log 140. DEDUCED, log 141. -/
def putRecord (r : Run) (part : Nat) (words : List W64) : Bool × Run :=
  match (r.part part).cb with
  | none => (false, r)
  | some cb =>
    let head := readWord r (cb.addr + 24)
    let r := ownRead r part (cb.addr + 24) 8
    if (cb.fqtail - head).toNat < 2 ^ cb.fqlog then
      let a := cb.fqbase + 32 * (cb.fqtail.toNat % 2 ^ cb.fqlog)
      let r := (List.range 4).foldl (fun r i => ownWrite r part (a + 8 * i) (nthD 0 words i)) r
      let r := ownWrite r part (cb.addr + 16) (cb.fqtail + 1)
      (true, (r.updCb part fun c => { c with fqtail := cb.fqtail + 1 }).count part 2 7 1)
    else (false, r)

/-- The record of a fault whose requester does not wait. DEDUCED, log 141. -/
def faultRecord (r : Run) (q : Req) (f : FaultInfo) : Run :=
  match (r.part q.part).cb with
  | none => r
  | some cb =>
    match putRecord r q.part (recordWords q f false 0) with
    | (true, r) => r
    | (false, r) =>
      let r := ownWrite r q.part (cb.addr + 56) (cb.dropped + 1)
      (r.updCb q.part fun c => { c with dropped := cb.dropped + 1 }).count q.part 2 8 1

/-- The next tag that no outstanding record has (16 R424). -/
def freeTag (p : Partition) : Nat :=
  ((List.range (p.faults.length + 1)).map fun i => (p.nextTag + i) % 2 ^ 32).find? (fun t => p.faults.all (·.tag != t)) |>.getD p.nextTag

/-- The record of a fault whose requester waits (NEEDRESP = 1); answers its tag. A record that finds the queue full is
held, in order (R426). With translation disabled no record is written (R416), and the requester waits all the same. DEDUCED, log 140. -/
def faultHeld (r : Run) (q : Req) (f : FaultInfo) (w : Waiter) : Nat × Run :=
  let p := r.part q.part
  let tag := freeTag p
  let words := recordWords q f true tag
  let (wrote, r) := if p.faults.any (fun x => !x.written) then (false, r) else putRecord r q.part words
  (tag, r.updPart q.part fun p =>
    { p with nextTag := (tag + 1) % 2 ^ 32, faults := p.faults ++ [{ words, waiter := some w, tag, since := r.now q.die, written := wrote }] })

/-! Virtual access. -/

/-- A fill of a line that consumes nothing marks its blocks that fail (17 R448): a prefetch, a replica fill, a tile pin. -/
def markLine (r : Run) (part : Nat) (l : Leaf) (pa : Nat) : Run :=
  let line := pa / 128
  [2 * line, 2 * line + 1].foldl (fun r b =>
    match blockFail r (keyOf r part l) b (64 * b) 64 with
    | some m => markBlock r b m
    | none => r) r

/-- What a read through a leaf leaves besides its data: the lines it touches, and what it corrects and marks (17 R450, R451). -/
def leafRead (r : Run) (part : Nat) (l : Leaf) (va : W64) (n : Nat) : Run :=
  touchLine (readMarks r part (keyOf r part l) (l.pa va) n) part l (l.pa va) n false

/-- Reads through a leaf; an error is the cause and DETAIL of the first block that fails (17 R450), with what the read leaves. -/
def readLeaf (r : Run) (part : Nat) (l : Leaf) (va : W64) (n : Nat) : Except ((Cause × Nat) × Run) (List Byte × Run) :=
  match rangeFail r (keyOf r part l) (l.pa va) n with
  | some (_, m) => .error (m, leafRead r part l va n)
  | none => .ok (memRead r.mem (l.pa va) n, leafRead r part l va n)

def writeLeaf (r : Run) (part : Nat) (l : Leaf) (va : W64) (bs : List Byte) : Run :=
  let pa := l.pa va
  touchLine (writeKeyed r (keyOf r part l) pa bs) part l pa bs.length true

/-- What an access of a range by address meets. DEDUCED, log 39. -/
inductive AccFail where
  | fault (f : FaultInfo)
  | data (c : Cause) (detail : Nat) (va : W64)
  deriving DecidableEq, Repr

/-- The parts of a range that lie in one 64 KiB region each. -/
def regions (va n : Nat) : List (Nat × Nat) :=
  (List.range (if n = 0 then 0 else (va + n - 1) / 0x10000 - va / 0x10000 + 1)).map fun i =>
    let lo := max va ((va / 0x10000 + i) * 0x10000)
    let hi := min (va + n) ((va / 0x10000 + i + 1) * 0x10000)
    (lo, hi - lo)

/-- Reads a range of virtual memory, region by region. -/
def readVirt (r : Run) (q : Req) (va : W64) (n : Nat) : Except (AccFail × Run) (List Byte × Run) :=
  (regions va.toNat n).foldlM (init := ([], r)) fun (acc : List Byte × Run) (p : Nat × Nat) =>
    match translate acc.2 q (w64 p.1) with
    | (.error f, r) => .error (.fault f, r)
    | (.ok l, r) =>
      match readLeaf r q.part l (w64 p.1) p.2 with
      | .error ((c, d), r) => .error (.data c d (w64 p.1), r)
      | .ok (bs, r) => .ok (acc.1 ++ bs, r)

/-- What a read of a range leaves besides its data, whether it fails or not. -/
def virtRead (r : Run) (q : Req) (va : W64) (n : Nat) : Run :=
  match readVirt r q va n with
  | .ok (_, r) => r
  | .error (_, r) => r

/-- Counts data that a consumer finds failing (19 R489). -/
def countData (part : Nat) (c : Cause) (r : Run) : Run := r.count part 5 (if c = .poison then 1 else 2) 1

/-- Translates every region of a range for a request. -/
def checkVirt (r : Run) (q : Req) (va : W64) (n : Nat) : Except (AccFail × Run) Run :=
  (regions va.toNat n).foldlM (init := r) fun r p =>
    match translate r q (w64 p.1) with
    | (.error f, r) => .error (.fault f, r)
    | (.ok _, r) => .ok r

/-- Writes a range of virtual memory; all of it is translated first. -/
def writeVirt (r : Run) (q : Req) (va : W64) (bs : List Byte) : Except (AccFail × Run) Run :=
  match checkVirt r q va bs.length with
  | .error e => .error e
  | .ok r =>
    (regions va.toNat bs.length).foldlM (init := r) fun r p =>
      match translate r q (w64 p.1) with
      | (.error f, r) => .error (.fault f, r)
      | (.ok l, r) => .ok (writeLeaf r q.part l (w64 p.1) ((bs.drop (p.1 - va.toNat)).take p.2))

/-- A request of the machine's own units on behalf of a partition, with privilege. -/
def unitReq (part die : Nat) (src kind : Nat) : Req :=
  { part, die, core := 127, ctx := 0, launchid := 0, pc := 0, super := true, src, kind }

def readVirtWord (r : Run) (q : Req) (va : W64) : Except (AccFail × Run) (W64 × Run) :=
  match readVirt r q va 8 with
  | .ok (bs, r) => .ok (w64 (leNat bs), r)
  | .error e => .error e

/-- The word that a read with privilege answers; faults and failing data read as none. -/
def peekWord (r : Run) (part die : Nat) (va : Nat) : Option W64 :=
  match readVirtWord r (unitReq part die 0 0) (w64 va) with
  | .ok (w, _) => some w
  | .error _ => none

/-- An access of a unit of the machine that fails: a fault has its record (16 R424), and data that fails is counted. DEDUCED, log 146. -/
def unitFail (q : Req) (e : AccFail × Run) : Run :=
  match e with
  | (.fault f, r) => faultRecord r q f
  | (.data c _ _, r) => countData q.part c r

/-- What such a read of bytes leaves besides its data. DEDUCED, log 146. -/
def unitRead (r : Run) (part die va n : Nat) : Run :=
  match readVirt r (unitReq part die 0 0) (w64 va) n with
  | .ok (_, r) => r
  | .error e => unitFail (unitReq part die 0 0) e

/-- The word of such a read, with what the read leaves. DEDUCED, log 146. -/
def unitWord (r : Run) (part die va : Nat) : Option W64 × Run := (peekWord r part die va, unitRead r part die va 8)

/-- Writes words with privilege; a fault leaves memory as it was. DEDUCED, log 146. -/
def pokeWords (r : Run) (part die va : Nat) (ws : List W64) : Run :=
  match writeVirt r (unitReq part die 0 1) (w64 va) (ws.flatMap fun w => leBytes 8 w.toNat) with
  | .ok r => r
  | .error e => unitFail (unitReq part die 0 1) e

/-! Stores that are not performed yet (05 R141, R147, R160, 12 R352). DESIGN CHOICE, log 3. -/

/-- Cuts bytes at the boundaries of a size. -/
def cutsAt (fuel size a : Nat) (bs : List Byte) : List (Nat × List Byte) :=
  match fuel with
  | 0 => []
  | fuel + 1 =>
    if bs.isEmpty then []
    else
      let n := size - a % size
      (a, bs.take n) :: cutsAt fuel size (a + n) (bs.drop n)

/-- The separate writes of a store: the naturally aligned 4-byte words of a weak one, the pieces by sector of a strong one (05 R141, R160, 12 R352). -/
def storePieces (strong : Bool) (a : Nat) (bs : List Byte) : List (Nat × List Byte) := cutsAt (bs.length + 1) (if strong then 32 else 4) a bs

def LatePiece.pa (p : LatePiece) : Nat := p.leaf.pa p.va

/-- Performs one piece of a store. -/
def performPiece (b : LateStore) (r : Run) (p : LatePiece) : Run :=
  { writeLeaf { r with accPc := b.pc, accHint := b.hint } b.part p.leaf p.va p.bytes with accPc := r.accPc, accHint := r.accHint }

/-- Performs, in their order, what is left of the late stores that a condition names. -/
def settleLate (r : Run) (which : LateStore → Bool) : Run :=
  if r.late.any which then
    { (r.late.filter which).foldl (fun r b => b.pieces.foldl (performPiece b) r) r with late := r.late.filter fun b => !which b }
  else r

/-- The late stores of a group. -/
def settleGroup (r : Run) (gid : Nat) : Run := settleLate r fun b => b.group == gid

/-- The byte that a piece writes at a physical address. -/
def LatePiece.byteAt (p : LatePiece) (a : Nat) : Option Byte := if p.pa ≤ a ∧ a < p.pa + p.bytes.length then p.bytes[a - p.pa]? else none

def LatePiece.meets (p q : LatePiece) : Bool := decide (p.pa < q.pa + q.bytes.length) && decide (q.pa < p.pa + p.bytes.length)

/-- Bytes of memory from an address on, with some pieces over them. -/
def piecesOver (ps : List LatePiece) (pa : Nat) (data : List Byte) : List Byte :=
  ((List.range data.length).zip data).map fun x => ps.foldl (fun b p => (p.byteAt (pa + x.1)).getD b) x.2

/-- Whether the `j`-th piece of the `i`-th late store may be performed: after every earlier store of its lane that writes one of its bytes, after the strong
ones where it is strong (05 R145, R160), and after all of them where it is a release. -/
def lateDue (r : Run) (i j : Nat) : Bool :=
  (r.late[i]?).any fun b => (b.pieces[j]?).any fun p =>
    (r.late.take i).all fun e => !(e.group == b.group && e.lane == b.lane) || (!b.release && !(b.strong && e.strong) && e.pieces.all fun q => !q.meets p)

/-- Performs it. -/
def lateAct (i j : Nat) (r : Run) : Run :=
  match r.late[i]? with
  | none => r
  | some b =>
    match b.pieces[j]? with
    | none => r
    | some p =>
      let rest := b.pieces.eraseIdx j
      { performPiece b r p with
        late := if rest.isEmpty then r.late.eraseIdx i else updAt r.late i fun b => { b with pieces := rest } }

end Sys2Proof.Machine
end

