-- ==== Sys2Proof/Machine/ScratchMem.lean ====
section
/-! DEFINITION. Bytes of team scratch (04 R112), the fields of an arrival barrier (04 R130), rings (11 R324), words that go back to their queue (06 R184), and the end of waits that an object
counts (11 R337, R340). -/
namespace Sys2Proof.Machine

def scrRead (t : Team) (a n : Nat) : List Byte := (List.range n).map fun i => Sparse.get (0 : Byte) t.scratch (a + i)
/-- Stores bytes in team scratch: also those of an object that are read-only fields, as the WAITERS and the reserved bits of an arrival barrier
(04 R130, R132). DEDUCED, log 148. -/
def scrWrite (t : Team) (a : Nat) (bs : List Byte) : Team :=
  { t with scratch := Sparse.setAll (0 : Byte) t.scratch ((List.range bs.length).map fun i => (a + i, nthD 0 bs i)) }
def scrNat (t : Team) (a n : Nat) : Nat := leNat (scrRead t a n)
def scrPut (t : Team) (a n v : Nat) : Team := scrWrite t a (leBytes n v)

/-- Whether `n` bytes at an offset lie within the team's allocation (04 R112). -/
def scrIn (t : Team) (a n : Nat) : Bool := decide (a + n ≤ t.size)

/-- The 128-byte lines that a range touches. -/
def linesOf (a n : Nat) : List Nat :=
  if n = 0 then [] else (List.range ((a + n - 1) / 128 - a / 128 + 1)).map (a / 128 + ·)

def lineState (t : Team) (n : Nat) : LineState := Sparse.get LineState.full t.lines n
def setLines (t : Team) (ns : List Nat) (f : LineState → LineState) : Team :=
  { t with lines := ns.foldl (fun ls n => Sparse.set LineState.full ls n (f (Sparse.get LineState.full ls n))) t.lines }
/-- What a store of full or empty state makes of a line: FILLING stays (04 R125, R126). -/
def fillLine (s : LineState) : LineState := if s = .filling then .filling else .full
def emptyLine (s : LineState) : LineState := if s = .filling then .filling else .empty

/-! Fields of an arrival barrier (04 R130). -/

def barRemain (t : Team) (a : Nat) : Nat := scrNat t a 6
def barPhase (t : Team) (a : Nat) : W32 := w32 (scrNat t (a + 8) 4)
def barWaiters (t : Team) (a : Nat) : Nat := scrNat t (a + 12) 2
def setWaiters (t : Team) (a n : Nat) : Team := scrPut t (a + 12) 2 n

/-! Rings. -/

def ringHead (t : Team) (a : Nat) : Nat := scrNat t a 4
def ringTail (t : Team) (a : Nat) : Nat := scrNat t (a + 4) 4
def ringCapLog (t : Team) (a : Nat) : Nat := scrNat t (a + 8) 1 % 16
def ringKind (t : Team) (a : Nat) : Nat := scrNat t (a + 8) 1 / 16
def ringCount (t : Team) (a : Nat) : Nat := (ringTail t a + 2 ^ 32 - ringHead t a) % 2 ^ 32
def ringRoom (t : Team) (a : Nat) : Nat := 2 ^ ringCapLog t a - ringCount t a

/-- Pushes words at TAIL (11 R324). -/
def ringPush (t : Team) (a : Nat) (ws : List W32) : Team :=
  ws.foldl (fun t w =>
    let tail := ringTail t a
    scrPut (scrPut t (a + 16 + 4 * (tail % 2 ^ ringCapLog t a)) 4 w.toNat) (a + 4) 4 (tail + 1)) t

/-- Pops n words at HEAD. -/
def ringPop (t : Team) (a n : Nat) : List W32 × Team :=
  let head := ringHead t a
  ((List.range n).map fun i => w32 (scrNat t (a + 16 + 4 * ((head + i) % 2 ^ ringCapLog t a)) 4), scrPut t a 4 (head + n))

/-- The words of a semaphore by its first header word (11 R339). -/
def semCount (w0 : W64) : Nat := (fld w0 63 32 + 2 ^ 32 - fld w0 31 0) % 2 ^ 32

/-! Waits that objects count. -/

/-- Where the unit accesses of a group's team are made: its partition and die. -/
def teamWhere (r : Run) (tid : Nat) : Nat × Nat :=
  ((((r.team tid).bind fun t => r.launch t.launch).map (·.part)).getD 0, ((r.team tid).map (·.die)).getD 0)

/-- Objects of the waits of one kind in some slices that no other slice of the group waits on. -/
def waitObjects (g : Grp) (ns : List Nat) (f : Wait → Bool) : List Nat :=
  let of_ := fun (inside : Bool) => (List.range g.slices.length).filterMap fun n =>
    if ns.contains n == inside then
      ((g.slices[n]?).bind fun s => s.wait.bind fun w => if f w then some w.object.toNat else none) else none
  (of_ true).eraseDups.filter fun a => !(of_ false).contains a

/-- Ends the waits of some slices: a barrier's and a semaphore's WAITERS count the group no longer (11 R337, R340), and the slices leave
the order of waiters for a line (04 R127). A slice at a join or a barrier goes on waiting there (01 R51). DEDUCED, log 16. DEDUCED, log 21. -/
def endWaits (r : Run) (gid : Nat) (ns : List Nat) : Run :=
  match r.groups.find gid with
  | none => r
  | some g =>
    let (part, die) := teamWhere r g.team
    let r := (waitObjects g ns fun w => w.kind == 3 && w.aux == 0).foldl
      (fun r a => r.updTeam g.team fun t => setWaiters t a (barWaiters t a - 1)) r
    let r := (waitObjects g ns fun w => w.kind == 7 && w.reason == 8).foldl (fun r a =>
      match unitWord r part die (a + 8) with
      | (some w, r) => pokeWords r part die (a + 8) [w - w64 (2 ^ 32)]
      | (none, r) => r) r
    let r := r.updTeam g.team fun t => { t with lineWaiters := t.lineWaiters.filter fun w => w.group != gid || !ns.contains w.slice }
    let clear := fun (e : Nat × Slice) => if ns.contains e.1 && !e.2.arrived.isSome && !e.2.bar.isSome then { e.2 with wait := none } else e.2
    r.updGrp gid fun g => { g with slices := ((List.range g.slices.length).zip g.slices).map clear }

/-- DEDUCED, log 21. -/
def dropWaits (r : Run) (gid : Nat) : Run :=
  endWaits r gid (List.range (((r.groups.find gid).map (·.slices.length)).getD 0))

/-! Words that go back. -/

/-- Words that a group had popped from a queue stand at its head again: an instruction that is interrupted has popped nothing (06 R184, step 9, 01 R51).
Where the words that others have pushed meanwhile leave no room, they go to the group's next pop. DEDUCED, log 48. -/
def unpop (gid : Nat) (r : Run) (e : Nat × List W32) : Run :=
  match r.groups.find gid with
  | none => r
  | some g =>
    match g.q.find e.1, r.team g.team with
    | some b, some t =>
      let n := e.2.length
      let a := b.obj.toNat
      let back := fun (r : Run) => r.updGrp gid fun g => { g with returned := g.returned.put a (e.2 ++ Sparse.get [] g.returned a) }
      if b.kind < 4 then
        if ringRoom t a < n || (g.returned.find a).isSome then back r
        else
          let head := (ringHead t a + 2 ^ 32 - n) % 2 ^ 32
          r.updTeam g.team fun t => scrPut (((List.range n).zip e.2).foldl
            (fun t x => scrPut t (a + 16 + 4 * ((head + x.1) % 2 ^ ringCapLog t a)) 4 x.2.toNat) t) a 4 head
      else
        let (part, die) := teamWhere r g.team
        match unitWord r part die a with
        | (none, r) => back r
        | (some w0, r) =>
          match unitWord r part die (a + 8) with
          | (none, r) => back r
          | (some w1, r) =>
            let cap := fld w1 3 0
            let head := (fld w0 31 0 + 2 ^ 32 - n) % 2 ^ 32
            if 2 ^ cap < semCount w0 + n || (g.returned.find a).isSome then back r
            else
              let put := fun (r : Run) (x : Nat × W32) =>
                match writeVirt r (unitReq part die 0 1) (w64 (a + 64 + 4 * ((head + x.1) % 2 ^ cap))) (leBytes 4 x.2.toNat) with
                | .ok r => r
                | .error e => unitFail (unitReq part die 0 1) e
              pokeWords (((List.range n).zip e.2).foldl put r) part die a [w64 (fld w0 63 32 * 2 ^ 32 + head)]
    | _, _ => r

/-- Remote instructions of a group that are in flight are given up, but for those that `keep` names; the words that they popped go back. -/
def dropRemotes (r : Run) (gid : Nat) (keep : Remote → Bool) : Run :=
  let lost := ((r.groups.find gid).map (·.remotes)).getD [] |>.filter fun x => !keep x
  ((lost.flatMap (·.pops)).foldl (unpop gid) r).updGrp gid fun g => { g with remotes := g.remotes.filter keep }

end Sys2Proof.Machine
end

