-- ==== Sys2Proof/Machine/Requests.lean ====
section
/-! DEFINITION. Requests to peers: windows (14 R387 to R390, 08 R260, R261), tags (18 R464) and what a group holds of a remote instruction
(08 R262, R264). -/
namespace Sys2Proof.Machine

/-! Windows. -/

/-- The partition that owns a window, by its place (14 R387). -/
def windowOwner (r : Run) (w : Nat) : Option Nat :=
  let own := (List.range r.parts.length).filter fun n => (nthD 0 (r.part n).pwin (w / 64)).getLsbD (w % 64)
  own.foldl (fun acc n => some (acc.elim n fun m => if (r.part n).partid < (r.part m).partid then n else m)) none

/-- The entry of a window as it stands in memory (14 R388). A word that cannot be read, because of a fault or failing data, counts as zeros, so that
the window is closed. DESIGN CHOICE, log 153. -/
def windowInMemory (r : Run) (part die w : Nat) : List W64 :=
  (List.range 8).map fun i => (peekWord r part die ((r.part part).winbase.toNat + 64 * w + 8 * i)).getD 0

/-- The entry by which a check goes (14 R390): none before a WINSYNC has named the window; where memory has changed since, the old or
the new one, which is free. -/
def windowEntry (r : Run) (part die w : Nat) : Option (List W64) × Run :=
  match (r.part part).windows.find w with
  | none => (none, r)
  | some old =>
    let now := windowInMemory r part die w
    let r := unitRead r part die ((r.part part).winbase.toNat + 64 * w) 64
    if now = old then (some old, r)
    else (some (if Config.freeChoice r.fresh % 2 = 0 then old else now), r.newFree.2)

/-- Reserved bits of an entry (14 R388). -/
def windowReserved (e : List W64) : Bool :=
  fld (nthD 0 e 0) 55 0 != 0 || fld (nthD 0 e 1) 63 48 != 0 || fld (nthD 0 e 1) 15 0 != 0 || nthD 0 e 3 != 0

def windowSize (e : List W64) : Nat := fld (nthD 0 e 1) 47 16 * 65536
def windowAdmits (e : List W64) (dev : Nat) : Bool := (nthD 0 e (4 + dev / 64)).getLsbD (dev % 64)
/-- Whether one half of an entry is open: bit 63 for requests issued, bit 62 for requests arriving. -/
def windowOpen (e : List W64) (half : Nat) : Bool :=
  (nthD 0 e 0).getLsbD half && !windowReserved e && windowSize e != 0
/-- A right of a half: 0 read, 1 write, 2 atomic; the rights stand below bit 61 or below bit 58. -/
def windowRight (e : List W64) (top right : Nat) : Bool := (nthD 0 e 0).getLsbD (top - right)

/-- Fields of a peer word (08 R260). -/
def peerWin (w : W32) : Nat := nfld w.toNat 23 16
def peerDev (w : W32) : Nat := nfld w.toNat 7 0

/-- The checks at issue (08 R261): DETAIL of the first that fails (17 R436). -/
def issueCheck (r : Run) (part die : Nat) (w : W32) (ofs : W64) (size right : Nat) : Option Nat × Run :=
  let dev := peerDev w
  if nfld w.toNat 31 24 != 0 || nfld w.toNat 15 8 != 0 || decide (216 ≤ dev) then (some 1, r)
  else
    let (entry, r) := windowEntry r part die (peerWin w)
    match entry with
    | none => (some 2, r)
    | some e =>
      (if windowOwner r (peerWin w) ≠ some part || !windowOpen e 63 then some 2
       else if !windowAdmits e dev then some 3
       else if windowSize e < ofs.toNat + size then some 4
       else if !windowRight e 61 right then some 5
       else none, r)

/-! Requests. -/

/-- A 32-byte data slot with bytes at their offsets within it (18 R461). DEDUCED, log 47. -/
def slotBytes (ofs : Nat) (bs : List Byte) : List Byte :=
  (List.range 32).map fun i => let k := (i + 32 - ofs % 32) % 32
                               if k < bs.length then nthD 0 bs k else 0

/-- Bytes of a slot from an offset. DEDUCED, log 47. -/
def fromSlot (ofs n : Nat) (slot : List Byte) : List Byte := (List.range n).map fun i => nthD 0 slot ((ofs + i) % 32)

/-- Requests that await their replies, towards one destination (18 R464). -/
def awaited (r : Run) (dev : Nat) : List Request := r.reqs.filter fun q => q.pkt.dst == dev

/-- The ACKTAG of a packet towards a destination: the oldest tag that this device still awaits from it (18 R460), and the next one where it awaits none. DEDUCED, log 115. -/
def oldestTag (r : Run) (dev : Nat) : Nat := ((awaited r dev).head?.map (·.pkt.tag)).getD (Sparse.get 0 r.nextTag dev)

/-- Sends one request, numbered in its destination's sequence (18 R460, R464); answers its tag. -/
def sendReq (r : Run) (part gid : Nat) (causal now : W64) (p : Packet) : Nat × Run :=
  let tag := Sparse.get 0 r.nextTag p.dst
  let pkt := { p with src := r.devid.toNat, inc := r.incarn.toNat, causal, tag, acktag := oldestTag r p.dst }
  let r := r.count part 4 0 1
  let kern := (((r.grp gid).bind fun g => (r.team g.team).bind fun t => r.launch t.launch).map (·.kernid.toNat)).getD 0
  (tag, { r with nextTag := r.nextTag.put p.dst ((tag + 1) % 65536), outbox := r.outbox ++ [pkt]
                 reqs := r.reqs ++ [{ pkt, part, group := gid, kern, sent := now, resent := 0 }] })

/-- One lane's access of a remote instruction. -/
structure LaneReq where
  lane : Nat
  peer : W32
  ofs : W64
  size : Nat
  data : List Byte
  deriving DecidableEq, Repr

/-- Puts a peer word in its place among rising ones, once. -/
def insertWord (w : W32) : List W32 → List W32
  | [] => [w]
  | x :: t => if w = x then x :: t else if w.toNat < x.toNat then w :: x :: t else x :: insertWord w t

/-- The instances of a remote instruction: one for each peer word, ascending (08 R262). -/
def instances (ls : List LaneReq) : List (W32 × List LaneReq) :=
  (ls.foldl (fun acc l => insertWord l.peer acc) []).map fun w => (w, ls.filter fun l => l.peer == w)

/-- Sends the requests of one instance; answers its lanes. -/
def sendInstance (r : Run) (part gid type aop : Nat) (causal now : W64) (ls : List LaneReq) : List RLane × Run :=
  ls.foldl (fun acc l =>
    let pkt : Packet := { type, dst := peerDev l.peer, win := peerWin l.peer, aop, size := l.size, offset := l.ofs, data := l.data }
    let (tag, r) := sendReq acc.2 part gid causal now pkt
    (acc.1 ++ [{ lane := l.lane, tag, ofs := l.ofs, reply := none }], r)) ([], r)

/-- Whether every request of an instance has its reply, and whether one of them reports a failure. -/
def Remote.done (x : Remote) : Bool := x.lanes.all (·.reply.isSome)
/-- DEDUCED, log 46. -/
def Remote.failure (x : Remote) : Option (RLane × Nat) :=
  x.lanes.findSome? fun l => match l.reply with | some (st, _, _) => if st = 0 then none else some (l, st) | none => none
/-- A failed instance's cause and DETAIL (08 R264, 17 R436). DEDUCED, log 46. -/
def remoteCause (status : Nat) : Cause × Nat := if status = 2 then (.peerDead, 0) else (.remoteError, 6)

/-- Sends the requests of `RST` lanes, and holds what the group awaits of them (08 R262, R264). -/
def sendStores (r : Run) (part gid : Nat) (pc : W64) (slice : Nat) (ls : List LaneReq) : Run :=
  let causal := ((r.grp gid).map (·.causal)).getD 0
  let now := r.now (teamWhere r (((r.grp gid).map (·.team)).getD 0)).2
  (instances ls).foldl (fun r x =>
    let (lanes, r) := sendInstance r part gid 2 0 causal now x.2
    r.updGrp gid fun g =>
      { g with rsts := g.rsts ++ [{ pc, slice, peer := x.1, lanes, atom := false, f := {}, low := 0 }] }) r

end Sys2Proof.Machine
end

