-- ==== Sys2Proof/Machine/Groups.lean ====
section
/-! DEFINITION. Slices and fragments (01 R22 to R28), region starts (R46), joins and team barriers (R29, R38, 09 R277,
R278), the ends of lanes, groups and teams (R37, 19 R488), context areas (16 R431, 17 R441) and the commit of a protected team's
state (17 R445). -/
namespace Sys2Proof.Machine

/-! Slices and fragments. -/

/-- A slice that has not exited (01 R28). -/
def Slice.live (s : Slice) : Bool := s.mask != 0 || !s.stack.isEmpty

def Grp.slice (g : Grp) (n : Nat) : Option Slice := g.slices[n]?
def Grp.updSlice (g : Grp) (n : Nat) (f : Slice → Slice) : Grp := { g with slices := updAt g.slices n f }
def Grp.updSlices (g : Grp) (ns : List Nat) (f : Slice → Slice) : Grp := ns.foldl (fun g n => g.updSlice n f) g

/-- Numbers of the slices that satisfy a condition, ascending. -/
def Grp.slicesWith (g : Grp) (f : Slice → Bool) : List Nat :=
  (List.range g.slices.length).filter fun n => (g.slices[n]?).any f

def Grp.liveSlices (g : Grp) : List Nat := g.slicesWith Slice.live

/-- The slices of the fragment with a split-table entry (01 R23). -/
def Grp.fragSlices (g : Grp) (f : Nat) : List Nat := g.slicesWith fun s => s.live && s.frag == f

/-- The fragments of a group, each by its split-table entry, by lowest slice. -/
def Grp.frags (g : Grp) : List Nat :=
  (g.slices.filter Slice.live).foldl (fun acc s => if acc.contains s.frag then acc else acc ++ [s.frag]) []

/-- The enabled lanes of a set of slices (01 R22). -/
def Grp.enabled (g : Grp) (ns : List Nat) : W128 :=
  ns.foldl (fun acc n => acc ||| sliceBits n (((g.slices[n]?).map (·.mask)).getD 0)) 0

/-- The lowest split-table entry no live slice uses. -/
def freeFrag (used : List Nat) : Nat := ((List.range 32).find? fun f => !used.contains f).getD 0

/-- R25: slices of a fragment whose program counters differ part; the part with the lowest slice keeps the entry. -/
def Grp.parted (g : Grp) (f : Nat) : Grp :=
  let ns := g.fragSlices f
  let step := fun (acc : Grp × List (W64 × Nat)) (n : Nat) =>
    match acc.1.slices[n]? with
    | none => acc
    | some s =>
      match acc.2.find? (fun e => e.1 == s.pc) with
      | some e => (acc.1.updSlice n fun s => { s with frag := e.2 }, acc.2)
      | none =>
        let f' := if acc.2.isEmpty then f
                  else freeFrag ((acc.1.slices.filter Slice.live).map (·.frag) ++ acc.2.map (·.2))
        (acc.1.updSlice n fun s => { s with frag := f' }, acc.2 ++ [(s.pc, f')])
  (ns.foldl step (g, [])).1

/-- A slice that keeps no fetched and decoded instruction (09 R292). -/
def Slice.refetch (s : Slice) : Slice := { s with stale := [], staleLeft := 0, buffer := [], loopAt := none, loopStale := false }

/-- The slice part of a region start (01 R46, R47, R71). -/
def Slice.beginRegion (s : Slice) : Slice :=
  { s with rge := s.pc, regMask := s.mask, regStack := s.stack, regCrp := s.crp, valid := 0 }

/-- R28: pops while the slice is at its reconvergence point or has no lane; each pop begins a region. -/
def Slice.settle (fuel : Nat) (s : Slice) : Slice :=
  match fuel with
  | 0 => s
  | fuel + 1 =>
    if some s.pc = s.crp || s.mask = 0 then
      match s.stack with
      | [] => s
      | e :: t => Slice.settle fuel ({ s with pc := e.pc.getD s.pc, mask := e.mask, crp := e.rpc, stack := t }.beginRegion)
    else s

/-- What a slice goes on waiting for when its group is interrupted: a join or a barrier generation (01 R51). -/
def Slice.onWait (s : Slice) : Option Wait := if s.arrived.isSome || s.bar.isSome then s.wait else none

def Slice.resume (s : Slice) : Slice :=
  { s with pc := s.rge, mask := s.regMask, stack := s.regStack, crp := s.regCrp, valid := 0, wait := s.onWait }

/-- A group's slices at their region entries (R47); slices of one fragment whose entries differ part (R25). DEDUCED, log 28. -/
def Grp.atRegions (g : Grp) : Grp :=
  let back := fun (s : Slice) => if s.live || s.regMask != 0 then s.resume else s
  let g := { g with slices := g.slices.map back }
  g.frags.foldl (fun g f => g.parted f) g

/-! Region starts. -/

def satAdd32 (a : W32) (n : Nat) : W32 := if 2 ^ 32 ≤ a.toNat + n then 0xFFFFFFFF else a + w32 n

def isProtected (r : Run) (tid : Nat) : Bool :=
  ((r.team tid).bind fun t => r.launch t.launch).any (·.prot)

/-- Staged increments become permanent (03 R106). -/
def applyStaged (r : Run) (gid : Nat) : Run :=
  match r.grp gid with
  | none => r
  | some g =>
    let r := g.staged.foldl (fun r st => r.updTeam g.team fun t =>
      { t with tiles := updAt t.tiles st.tile fun x =>
                { x with nan := satAdd32 x.nan st.nan, inv := satAdd32 x.inv st.inv, ovf := satAdd32 x.ovf st.ovf } }) r
    r.updGrp gid fun g => { g with staged := [] }

/-- The key of a group's region hold on a tile and of its undo copy: those of a supervisor handler's own regions stand apart. DEDUCED, log 15. -/
def holdKey (n : Nat) (super : Bool) : Nat := if super then n + 8 else n

/-- What a region start in any slice of a group does to the group (03 R106, 10 R316, R317). The regions of a supervisor handler release what those
regions hold, and leave what the interrupted region has until the return (17 R439). DEDUCED, log 15. -/
def groupRegionStart (r : Run) (gid : Nat) : Run :=
  match r.grp gid with
  | none => r
  | some g =>
    if g.super then
      r.updGrp gid fun g => { g with undo := g.undo.filter fun e => decide (e.1 < 8), holds := g.holds.filter fun e => decide (e.1 < 8), regionNo := g.regionNo + 1 }
    else
      let r := if isProtected r g.team then r else applyStaged r gid
      r.updGrp gid fun g => { g with undo := [], holds := [], regionNo := g.regionNo + 1 }

/-- A region start of some slices of a group at their program counters (01 R46). -/
def regionStart (r : Run) (gid : Nat) (ns : List Nat) : Run :=
  (groupRegionStart r gid).updGrp gid fun g => g.updSlices ns Slice.beginRegion

/-- R28 for a fragment, with the parting of R25. -/
def settleFrag (r : Run) (gid frag : Nat) : Run :=
  match r.grp gid with
  | none => r
  | some g =>
    let ns := g.fragSlices frag
    let pops := ns.any fun n => (g.slices[n]?).any fun s => (some s.pc == s.crp || s.mask == 0) && !s.stack.isEmpty
    if pops then
      let r := groupRegionStart r gid
      r.updGrp gid fun g => (g.updSlices ns (Slice.settle 9)).parted frag
    else r

/-! Joins and team barriers. -/

/-- The slices named by a mask value of the visible width (01 R29). -/
def namedSlices (m : W128) (width : Nat) : BitVec 32 :=
  BitVec.ofNat 32 ((List.range (width / 4)).foldl (fun acc s => acc + bit (nibble m s != 0) * 2 ^ s) 0)

/-- The arrival of a slice at a REGANG: where it waits, or one on record while it runs on (17 R454). DEDUCED, log 24. -/
def Slice.arrival (s : Slice) : Option (BitVec 32 × W64) := s.arrived.orElse fun _ => s.recorded

/-- Joins every set of slices all of whose live members have arrived (01 R29). -/
def joinArrived (r : Run) (gid : Nat) : Run :=
  match r.grp gid with
  | none => r
  | some g =>
    let sets := (g.slices.filterMap fun s => s.arrived.map (·.1)).eraseDups
    let ready := sets.find? fun set =>
      (List.range g.slices.length).all fun n =>
        !set.getLsbD n || (g.slices[n]?).all fun s => !s.live || (s.arrival.map (·.1)) == some set
    match ready with
    | none => r
    | some set =>
      let ns := g.liveSlices.filter fun n => set.getLsbD n
      match ns with
      | [] => r
      | n0 :: _ =>
        let pc := ((g.slices[n0]?).bind Slice.arrival).map (·.2)
        let others := (g.liveSlices.filter fun n => !set.getLsbD n).filterMap fun n => (g.slices[n]?).map (·.frag)
        let keep := ((g.slices[n0]?).map (·.frag)).getD 0
        let f := if others.contains keep then freeFrag others else keep
        let r := groupRegionStart r gid
        r.updGrp gid fun g => g.updSlices ns fun s =>
          { s with pc := pc.getD s.pc, frag := f, arrived := none, recorded := none, wait := none }.beginRegion

/-- Several joins may fall due at once. -/
def joinAll (fuel : Nat) (r : Run) (gid : Nat) : Run :=
  match fuel with
  | 0 => r
  | fuel + 1 => joinAll fuel (joinArrived r gid) gid

/-- The groups of a team with their identifiers; landing-handler slices are not groups. -/
def teamGroups (r : Run) (tid : Nat) : List (Nat × Grp) :=
  r.groups.filter fun e => e.2.team == tid && e.2.handler.isNone

def Barrier.reset : Barrier := { gen := 0, spawnedForm := none, joined := [], arrived := [] }

/-- Whether a group has arrived at a barrier (01 R38): every slice that has not exited has. -/
def arrivedGroup (b : Barrier) (e : Nat × Grp) : Bool :=
  let set := Sparse.get (0 : BitVec 32) b.arrived e.1
  e.2.liveSlices.all fun n => set.getLsbD n

/-- The expected set of a barrier's generation (09 R277). -/
def expectedGroups (r : Run) (tid : Nat) (b : Barrier) : List (Nat × Grp) :=
  (teamGroups r tid).filter fun e =>
    !e.2.ended && (!e.2.spawned || b.spawnedForm == some true || b.joined.contains e.1)

/-- Completes a barrier's generation when every expected group has arrived; waiting slices leave (R277, R51), also those of a spawned group of
which other slices have not arrived: a generation without `.SPAWNED` does not wait for them, and what they do then is not said (01 R38).
DEDUCED, log 12. -/
def checkBarrier (r : Run) (tid n : Nat) : Run :=
  match r.team tid with
  | none => r
  | some t =>
    let b := nthD Barrier.reset t.bars n
    if b.spawnedForm.isSome && (expectedGroups r tid b).all (arrivedGroup b) then
      let r := r.updTeam tid fun t => { t with bars := updAt t.bars n fun _ => { Barrier.reset with gen := b.gen + 1 } }
      (teamGroups r tid).foldl (fun r e => r.updGrp e.1 fun g =>
        { g with slices := g.slices.map fun s =>
            let kept := s.kept.map fun k => if k.bar = some (n, b.gen) then { k with bar := none, wait := none } else k
            if s.bar = some (n, b.gen) then { s with bar := none, wait := none, kept } else { s with kept } }) r
    else r

def checkBarriers (r : Run) (tid : Nat) : Run := (List.range 16).foldl (fun r n => checkBarrier r tid n) r

/-! The per-launch record (19 R487, R488). -/

/-- Where a launch's unit accesses are made: its partition and a die of it. -/
def launchWhere (l : Launch) : Nat × Nat := (l.part, (l.dies.head?).getD 0)

/-- A word of the record, with what its read leaves. DEDUCED, log 97. -/
def lrecRead (r : Run) (l : Launch) (ofs : Nat) : W64 × Run :=
  let (p, d) := launchWhere l
  let (w, r) := unitWord r p d (l.lrec + ofs)
  (w.getD 0, r)

/-- DEDUCED, log 97. -/
def lrecWrite (r : Run) (l : Launch) (ofs : Nat) (ws : List W64) : Run :=
  let (p, d) := launchWhere l
  if l.lrec = 0 then r else pokeWords r p d (l.lrec + ofs) ws

/-- Records a kill, a rollback or a replay divergence against a launch (19 R487). DEDUCED, log 53. -/
def recordError (r : Run) (lid : Nat) (c : Cause) (pc : W64) (teamid group : Nat) : Run :=
  match r.launch lid with
  | none => r
  | some l =>
    let r := r.updLaunch lid fun l => { l with errors := l.errors + 1 }
    if l.lrec = 0 then r
    else if l.errors = 0 then lrecWrite (lrecWrite r l 24 [w64 (2 ^ 32 + c.code)]) l 32 [pc, w64 (teamid * 2 ^ 32 + group)]
    else
      let (old, r) := lrecRead r l 24
      lrecWrite r l 24 [w64 ((l.errors + 1) * 2 ^ 32 + fld old 5 0)]

def sumBanks (a b : List W64) : List W64 := (List.range 16).map fun i => nthD 0 a i + nthD 0 b i

/-- Appends a team record (19 R488). DEDUCED, log 104. -/
def teamRecord (r : Run) (tid : Nat) : Run :=
  match r.team tid with
  | none => r
  | some t =>
    match r.launch t.launch with
    | none => r
    | some l =>
      if l.lrec = 0 then r
      else
        let ngrp := t.banks.nextKey
        let size := 64 + 128 * ngrp
        let (w1, r) := lrecRead r l 8
        let (w2, r) := lrecRead r l 16
        let next := fld w2 31 0
        if next + size ≤ w1.toNat then
          let head := [w64 (t.num * 2 ^ 32 + ngrp * 2 ^ 24 + t.die * 2 ^ 19 + t.core * 2 ^ 12 + bit t.killed), t.tstart,
                       r.now t.die, w64 t.evicts, 0, 0, 0, 0]
          let banks := (List.range ngrp).flatMap fun g => sumBanks (Sparse.get [] t.banks g) []
          let r := lrecWrite r l (0x7000 + next) (head ++ banks)
          let (w0, r) := lrecRead r l 0
          lrecWrite (lrecWrite r l 0 [w64 (l.launchid.toNat * 2 ^ 32 + fld w0 31 0 + 1)]) l 16
            [w64 (fld w2 63 32 * 2 ^ 32 + next + size)]
        else lrecWrite r l 16 [w64 ((fld w2 63 32 + 1) * 2 ^ 32 + next)]

/-! Ends. -/

/-- Slots of a cluster whose receivers have all drained or ended are free (04 R134). -/
def freeSlots (r : Run) (cid : Nat) : Run :=
  let ended := (r.teams.filter fun e => e.2.cluster == cid && e.2.ended).map fun e => e.2.cteam
  r.updCluster cid fun c =>
    { c with slots := c.slots.filter fun e =>
        (List.range 32).any fun t => e.2.recv.testBit t && !e.2.drained.testBit t && !ended.contains t }

/-- Releases what a group holds, and adds its stall bank to the team's sums (19 R488). A spawned group leaves its slot and its context at its
end (15 R409), a launched one keeps its context until its team ends (01 R37). -/
def releaseGroup (r : Run) (gid : Nat) : Run :=
  match r.grp gid with
  | none => r
  | some g =>
    let r := (settleGroup r gid).updTeam g.team fun t =>
      { t with banks := t.banks.put g.num (sumBanks (Sparse.get [] t.banks g.num) g.stall)
               tiles := t.tiles.map fun x => if x.owner = some gid then { x with owner := none } else x
               lineWaiters := t.lineWaiters.filter fun w => w.group != gid }
    r.updGrp gid fun g =>
      { g with ended := true, ctx := if g.spawned then none else g.ctx, spawnSlot := none, holds := [], undo := [], remotes := [], deferred := []
               parked := none, heldEvict := none }

/-- Whether nothing of a team runs on: its groups have ended and its transfers, handlers and matrix work are done
(01 R37, 09 R279, 10 R300). -/
def teamIdle (r : Run) (tid : Nat) : Bool :=
  (r.groups.all fun e => e.2.team != tid || e.2.ended) && (r.ops.all fun e => e.2.team != tid) &&
    r.dies.all fun d => d.cores.all fun c => c.matrix.all fun m => m.team != tid

/-- Frees the context-pool areas of groups (16 R431). -/
def freeAreas (r : Run) (part : Nat) (areas : List Nat) : Run :=
  r.updPart part fun p => { p with areas := p.areas.filter fun a => !areas.contains a.1 }

/-- Ends a team (01 R37, R452): record, event, release of everything it holds. What it left in its scratch, tiles and registers stays in its
record (13 R363). -/
def endTeam (r : Run) (tid : Nat) : Run :=
  match r.team tid with
  | none => r
  | some t =>
    if t.ended then r
    else
      let r := teamRecord r tid
      let part := ((r.launch t.launch).map (·.part)).getD 0
      let r := emit' r (gdUnit t.die) 0x0004 t.num t.startEvent
      let r := r.count part 0 9 1
      let areas := (teamGroups r tid).map fun e => e.2.ctxArea
      let r := freeAreas r part (t.save :: areas)
      let r := { r with groups := (r.groups.filter fun (e : Nat × Grp) => e.2.team != tid || e.2.handler.isNone).map fun (e : Nat × Grp) =>
        if e.2.team = tid then (e.1, { e.2 with ended := true, ctx := none, spawnSlot := none }) else e }
      let r := r.updTeam tid fun t =>
        { t with ended := true, resident := false, lineWaiters := [], pins := [], held := [], sbuf := [], checkpoint := none, queue := [] }
      let r := r.updLaunch t.launch fun l => { l with teamsLeft := l.teamsLeft - 1 }
      let r := freeSlots r t.cluster
      if r.teams.all fun e => e.2.cluster != t.cluster || e.2.ended then
        r.updCluster t.cluster fun c => if c.teams.length = 0 then c else { c with ended := true, at_ := none, slots := [] }
      else r

def tryEndTeam (r : Run) (tid : Nat) : Run := if teamIdle r tid then endTeam r tid else r

/-- After slices of a group have exited: joins, the end of the group, barriers (01 R37, R38). -/
def leaveGroup (r : Run) (gid : Nat) : Run :=
  match r.grp gid with
  | none => r
  | some g =>
    let r := joinAll 32 r gid
    checkBarriers (if g.slices.any Slice.live then r else releaseGroup (if isProtected r g.team then r else applyStaged r gid) gid) g.team

/-- The same with the end of the team (R37). -/
def afterExit (r : Run) (gid : Nat) : Run :=
  match r.grp gid with
  | none => r
  | some g => tryEndTeam (leaveGroup r gid) g.team

/-- Ends lanes (01 R37): out of the mask, of every stack entry and of what the slice held at its region start. -/
def Slice.endLanes (s : Slice) (m : BitVec 4) : Slice :=
  let cut := fun (st : List RcEntry) => st.map fun e => { e with mask := e.mask &&& ~~~m }
  { s with mask := s.mask &&& ~~~m, stack := cut s.stack, regMask := s.regMask &&& ~~~m, regStack := cut s.regStack
           gone := s.gone ||| m }

/-- Drops stack entries without lanes, so that a slice with none left has exited. DEDUCED, log 138. -/
def Slice.shed (s : Slice) : Slice := if s.mask = 0 && s.stack.all (fun e => e.mask == 0) then { s with stack := [] } else s

/-! Context areas (16 R431, 17 R441). -/

/-- Physical lanes of a group (01 R52). -/
def physWidth (r : Run) (g : Grp) : Nat := if isProtected r g.team then 2 * g.width else g.width

/-- Lg of 01 R20. -/
def groupLines (vregs width : Nat) : Nat := vregs * (width / 32) + 16 + width / 4

/-- The register of lane `l` as the context area holds it: physical lanes, shadows beside their lanes (02 R75). -/
def physReg (g : Grp) (prot : Bool) (k phys : Nat) : W32 :=
  Sparse.get (0 : W32) g.v (128 * k + if prot then phys / 2 else phys)

/-- The request of a group's context accesses (16 R521); `kind` is 0 read, 1 write. -/
def contextReq (r : Run) (gid : Nat) (kind : Nat) : Req :=
  let g := r.grp gid
  let t := g.bind fun g => r.team g.team
  let l := t.bind fun t => r.launch t.launch
  { part := (l.map (·.part)).getD 0, die := (t.map (·.die)).getD 0, core := (t.map (·.core)).getD 0, ctx := (g.bind (·.ctx)).getD 0
    launchid := (l.map (·.launchid)).getD 0, pc := 0, super := true, src := 7, kind }

def areaBytes (l : Launch) : Nat := 128 * groupLines l.vregs l.width

/-- Writes control lines and some register lines of a group to its context area or one of its checkpoint copies (17 R441, R445). DEDUCED, log 52. -/
def writeArea (r : Run) (gid : Nat) (g : Grp) (l : Launch) (copy k : Nat) (keys : List Nat) : Except AccFail Run :=
  let nctl := 16 + l.width / 4
  let base := g.ctxArea + copy * areaBytes l
  let ctl := (List.range (128 * nctl)).map fun i => Config.controlByte gid i k
  let line := fun (key : Nat) => (List.range 32).flatMap fun i => leBytes 4 (physReg g l.prot (key / 4) (32 * (key % 4) + i)).toNat
  ((base, ctl) :: keys.map fun key => (base + 128 * (nctl + key / 4 * (l.width / 32) + key % 4), line key)).foldlM (init := r) fun r x =>
    match writeVirt r (contextReq r gid 1) (w64 x.1) x.2 with
    | .ok r => .ok r
    | .error (e, _) => .error e

/-- Writes a group's dirty lines and control lines to its context area (14 R378, 17 R441, R442). -/
def flushContext (r : Run) (gid : Nat) : Except AccFail Run :=
  match r.grp gid with
  | none => .ok r
  | some g =>
    match (r.team g.team).bind fun t => r.launch t.launch with
    | none => .ok r
    | some l =>
      let (k, r) := r.newFree
      (writeArea r gid g l 0 k g.dirty).map fun r =>
        r.updGrp gid fun g => { g with dirty := [], saved := (g.saved ++ g.dirty).eraseDups, ctlKey := some k }

/-! Protected commits. -/

/-- Bytes at a place with a team's buffered stores over them, the latest winning (01 R53, 17 R444). -/
def overlay (sts : List BufStore) (place : BufStore → Option Nat) (a : Nat) (bs : List Byte) : List Byte :=
  let put := fun (bs : List Byte) (s : BufStore) =>
    match place s with
    | some p => (List.range bs.length).map fun i => if p ≤ a + i ∧ a + i < p + s.bytes.length then nthD 0 s.bytes (a + i - p) else nthD 0 bs i
    | none => bs
  sts.foldl put bs

def Team.buffered (t : Team) : List BufStore := t.committed ++ t.sbuf
def memPlace (s : BufStore) : Option Nat := match s.dest with | .mem l => some (l.pa (w64 s.addr)) | _ => none
def scratchPlace (s : BufStore) : Option Nat := match s.dest with | .scratch _ => some s.addr | _ => none

/-- Performs a store of a protected team's buffer (01 R54, 08 R246). -/
def performStore (r : Run) (tid : Nat) (b : BufStore) : Run :=
  let part := (teamWhere r tid).1
  match b.dest with
  | .mem l => { writeLeaf { r with accPc := b.pc, accHint := b.hint } part l (w64 b.addr) b.bytes with accPc := r.accPc, accHint := r.accHint }
  | .scratch fill => r.updTeam tid fun t =>
    let t := scrWrite t b.addr b.bytes
    if fill then setLines t (linesOf b.addr b.bytes.length) fillLine else t
  | .peer w pc slice size =>
    sendStores r part b.group pc slice [{ lane := b.lane, peer := w, ofs := w64 b.addr, size, data := slotBytes b.addr b.bytes }]

/-- Performs every committed store, in buffered order. -/
def performCommitted (r : Run) (tid : Nat) : Run :=
  match r.team tid with
  | none => r
  | some t => (t.committed.foldl (fun r b => performStore r tid b) r).updTeam tid fun t => { t with committed := [] }

/-- A checkpoint of a team's groups in the copies of one area: the groups as a rollback finds them, and the group whose copy cannot be
written (17 R445). -/
def writeCheckpoint (r : Run) (tid area : Nat) (l : Launch) : Except (Nat × AccFail) (Sparse Grp × Run) :=
  (teamGroups r tid).foldlM (init := (([] : Sparse Grp), r)) fun (acc : Sparse Grp × Run) e =>
    if e.2.ended then .ok (acc.1 ++ [e], acc.2)
    else
      let keys := (e.2.saved ++ e.2.dirty).eraseDups
      let (k, r) := acc.2.newFree
      match writeArea r e.1 e.2 l area k keys with
      | .error x => .error (e.1, x)
      | .ok r => .ok (acc.1 ++ [(e.1, { e.2 with ctlKey := some k, copy := area, saved := keys, dirty := [], absent := keys })], r)

/-- A commit of a stopped team (01 R54, 17 R445): staged increments become permanent, the copy that is not current takes the state, with the
matrix work that stays accepted, and becomes current, and buffered stores become committed. An error is the group whose copy cannot be
written. Stopping removes the issue-window entries of the team's groups (15 R414). -/
def commitCore (r : Run) (tid : Nat) (queue : List MatOp) : Except (Nat × AccFail) Run :=
  match (r.team tid).bind fun t => r.launch t.launch with
  | none => .ok r
  | some l =>
    let r := (teamGroups r tid).foldl (fun r e => (applyStaged r e.1).updGrp e.1 fun g => { g with undo := [], holds := [] }) r
    let area := if (((r.team tid).bind (·.checkpoint)).map (·.area)).getD 2 = 1 then 2 else 1
    (writeCheckpoint r tid area l).map fun x =>
      let r := { x.2 with ready := x.2.ready.filter fun e => ((x.2.grp e.1).map Grp.team) != some tid }
      r.updTeam tid fun t =>
        { t with committed := t.committed ++ t.sbuf, sbuf := [], rollbacks := 0
                 checkpoint := some { area, queue, groups := x.1, cfg := t.cfg, tiles := t.tiles, bars := t.bars } }

end Sys2Proof.Machine
end

