-- ==== Sys2Proof/Machine/TileMath.lean ====
section
/-! DEFINITION. The arithmetic of the matrix unit: format words (03 R96, R97), one output element of a step (03 R98 to R104) and the
conversions of tile loads and stores (10 R309, R310). -/
namespace Sys2Proof.Machine

/-! Formats. -/

/-- Accumulator formats (03 R79): the codes with a container of 8 bytes, and all of them. -/
def accWidth (c : Nat) : Nat := if c = 0 || c = 6 then 8 else 4
def accCode (c : Nat) : Bool := [0, 1, 2, 3, 6, 7].contains c
/-- The bits of an accumulator format. -/
def accBits (c : Nat) : Nat := match c with | 0 | 6 => 64 | 1 | 7 => 32 | _ => 16
/-- An operand format (03 R79). -/
def operandElt (c : Nat) : Elt := match c with | 7 => .i8 | 8 => .n8 | _ => fmtElt c
/-- Bytes of an operand element (10 R301). -/
def operandBytes (c : Nat) : Nat := match c with | 0 => 8 | 1 => 4 | 2 | 3 => 2 | _ => 1

def fmtA (w : W32) : Nat := nfld w.toNat 3 0
def fmtB (w : W32) : Nat := nfld w.toNat 7 4
def fmtC (w : W32) : Nat := nfld w.toNat 11 8
def fmtScale (w : W32) : Nat := nfld w.toNat 13 12
def fmtNanz (w : W32) : Bool := w.getLsbD 14
def fmtSat (w : W32) : Bool := w.getLsbD 15

/-- The combinations that a multiply-accumulate allows (03 R97). -/
def mmaFormats (w : W32) : Bool :=
  let a := fmtA w
  let b := fmtB w
  let c := fmtC w
  let both := fun (l : List Nat) => l.contains a && l.contains b
  nfld w.toNat 31 16 == 0 &&
    ((both [0] && c == 0 && fmtScale w == 0) || (both [1] && c == 1 && fmtScale w == 0) || (both [2, 3] && [1, 2, 3].contains c) ||
     (both [4, 5] && [1, 2, 3].contains c) || (both [7, 8] && c == 7 && fmtScale w == 0) || (both [6] && [1, 6].contains c && fmtScale w == 0))

/-- The words that a tile load or store allows (10 R309). -/
def moveFormats (w : W32) : Bool :=
  nfld w.toNat 31 16 == 0 && decide (fmtA w ≤ 8) && fmtB w == 0 && accCode (fmtC w) && fmtScale w == 0 && !fmtNanz w

/-- Bytes of one element of the array of a tile load or store (10 R309). -/
def moveBytes (w : W32) : Nat := if fmtA w = fmtC w then accBits (fmtC w) / 8 else operandBytes (fmtA w)

/-! Events for the counters (03 R105). -/

structure Counts where
  nan : Nat
  inv : Nat
  ovf : Nat
  deriving DecidableEq, Repr

def Counts.zero : Counts := ⟨0, 0, 0⟩
def Counts.add (a b : Counts) : Counts := ⟨a.nan + b.nan, a.inv + b.inv, a.ovf + b.ovf⟩

/-! One product. -/

/-- An operand element with its scale as a power of two; a NaN scale is none (03 R98). -/
structure Factor where
  bits : Nat
  scale : Option Int
  deriving DecidableEq, Repr

/-- What a term of a sum is: a value, or the code of what makes it invalid, with the operand bit of 03 R103. -/
inductive Term where
  | value (v : FVal)
  | bad (code : Nat)
  deriving DecidableEq, Repr

def FVal.scaled (v : FVal) (k : Int) : FVal :=
  match v with
  | .fin n m e => .fin n m (e + k)
  | v => v

/-- A product of float elements; the lowest cause is told, operand A before B (03 R101, R103, R104). -/
def floatTerm (ea eb : Elt) (a b : Factor) : Term :=
  let x := readF ea a.bits
  let y := readF eb b.bits
  if x.isNan then .bad 1
  else if y.isNan then .bad 0x11
  else
    match a.scale, b.scale with
    | none, _ => .bad 2
    | _, none => .bad 0x12
    | some i, some j =>
      if (match x with | .inf _ => y.isZero | _ => false) then .bad 4
      else if (match y with | .inf _ => x.isZero | _ => false) then .bad 0x14
      else
        let n := x.neg != y.neg
        match x, y with
        | .fin _ m1 e1, .fin _ m2 e2 => .value (FVal.scaled (.fin n (m1 * m2) (e1 + e2)) (i + j))
        | _, _ => .value (.inf n)

/-- A product of L6 elements (03 R89). -/
def l6Term (a b : Factor) : Term :=
  match l6Product a.bits b.bits with
  | some p => .value (.fin (decide (p < 0)) p.natAbs (-20))
  | none => if a.bits % 64 = 0x20 then .bad 1 else .bad 0x11

/-- A factor under NaN-as-zero: a NaN counts as +0 (03 R102). DESIGN CHOICE, log 66. -/
def Factor.cleared (e : Elt) (a : Factor) : Factor :=
  { bits := if (readF e a.bits).isNan then 0 else a.bits, scale := some (a.scale.getD 0) }

/-- A term under NaN-as-zero: 0 × ∞ counts as a zero, once in INV (03 R102); as +0. DESIGN CHOICE, log 66. -/
def Term.cleared : Term → FVal × Nat
  | .value v => (v, 0)
  | .bad _ => (.fin false 0 0, 1)

/-! One element. -/

/-- The order in which causes are recorded: by code, operand A before B (03 R104). -/
def lowerCause (a b : Nat) : Nat := if a % 16 < b % 16 || (a % 16 = b % 16 && a ≤ b) then a else b

/-- A generated NaN (03 R103). -/
def causeNan (e : Elt) (code : Nat) : Nat := defaultNan e + code

/-- The sum of float values rounded once, with the count of an overflow (03 R99); infinities of both signs are no business of this. -/
def sumRound (e : Elt) (vs : List FVal) : Nat × Counts :=
  if vs.contains (.inf false) then (infBits e false, .zero)
  else if vs.contains (.inf true) then (infBits e true, .zero)
  else
    let (b, flags) := roundDy e 0 false (vs.all fun v => v.isZero && v.neg) (sumDy (vs.map FVal.dy))
    (b, ⟨0, 0, bit (flags.getLsbD 2)⟩)

def bothInf (vs : List FVal) : Bool := vs.contains (.inf false) && vs.contains (.inf true)

/-- A float accumulator: one exact sum, rounded once (03 R99, R101, R102). -/
def elementSum (e : Elt) (nanz : Bool) (c : Nat) (ts : List Term) : Nat × Counts :=
  let cv := readF e c
  if nanz then
    let ps := ts.map Term.cleared
    let inv := (ps.map (·.2)).foldl (· + ·) 0
    let vs := ps.map (·.1) ++ [if cv.isNan then .fin false 0 0 else cv]
    let base : Counts := ⟨bit cv.isNan, inv, 0⟩
    if bothInf vs then (0, base.add ⟨0, 1, 0⟩)
    else
      let (b, n) := sumRound e vs
      (b, base.add n)
  else if cv.isNan then (c, .zero)
  else
    let vs := ts.filterMap (fun t => match t with | .value v => some v | .bad _ => none) ++ [cv]
    let bad := ts.filterMap fun t => match t with | .bad k => some k | .value _ => none
    match bad ++ (if bothInf vs then [3] else []) with
    | k :: ks => (causeNan e (ks.foldl lowerCause k), .zero)
    | [] => sumRound e vs

/-- One step of the chain of fused multiply-adds (03 R100). -/
def chainStep (e : Elt) (nanz : Bool) (acc : Nat × Counts) (t : Term) : Nat × Counts :=
  let xv := readF e acc.1
  if xv.isNan then acc
  else
    match t, nanz with
    | .bad k, false => (causeNan e k, acc.2)
    | t, _ =>
      let (v, inv) := t.cleared
      let n := acc.2.add ⟨0, inv, 0⟩
      if bothInf [xv, v] then (if nanz then (0, n.add ⟨0, 1, 0⟩) else (causeNan e 3, n))
      else
        let (b, m) := sumRound e [v, xv]
        (b, n.add m)

def elementChain (e : Elt) (nanz : Bool) (c : Nat) (ts : List Term) : Nat × Counts :=
  let cnan := nanz && (readF e c).isNan
  ts.foldl (chainStep e nanz) (if cnan then 0 else c, ⟨bit cnan, 0, 0⟩)

/-- An integer sum saturated to an accumulator (03 R99). -/
def satCount (lo hi x : Int) : Int × Counts := (max lo (min hi x), ⟨0, 0, bit (decide (x < lo ∨ hi < x))⟩)

/-- One output element: its old bits, the factors of its row and column (03 R99 to R104). -/
def mmaElement (w : W32) (c : Nat) (as bs : List Factor) : Nat × Counts :=
  let ea := operandElt (fmtA w)
  let eb := operandElt (fmtB w)
  let pairs := as.zip bs
  match fmtC w with
  | 7 =>
    let (x, n) := satCount (-(2 ^ 31)) (2 ^ 31 - 1) (pairs.foldl (fun s p => s + readI ea p.1.bits * readI eb p.2.bits) (sext 32 c))
    (lowBits 32 x, n)
  | 6 =>
    let (x, n) := satCount (-(2 ^ 47)) (2 ^ 47 - 1) (pairs.foldl (fun s p => s + (l6Product p.1.bits p.2.bits).getD 0) (sext 48 c))
    (lowBits 64 x, n)
  | k =>
    let nanz := fmtNanz w
    let term := fun (p : Factor × Factor) =>
      let a := if nanz then p.1.cleared ea else p.1
      let b := if nanz then p.2.cleared eb else p.2
      if fmtA w = 6 then l6Term a b else floatTerm ea eb a b
    if fmtA w < 2 then elementChain (fmtElt k) nanz c (pairs.map term) else elementSum (fmtElt k) nanz c (pairs.map term)

/-- NaN elements and scales that an instruction reads, where they count (03 R102). -/
def nansRead (w : W32) (a b : List Nat) (scales : List Nat) : Nat :=
  if fmtNanz w || fmtC w = 6 then
    let nans := fun (k : Nat) (l : List Nat) => if k < 7 then (l.filter fun x => (readF (operandElt k) x).isNan).length else 0
    nans (fmtA w) a + nans (fmtB w) b + (scales.filter (· == 255)).length
  else 0

/-- The power of two of a scale (03 R98). -/
def scalePower (b : Nat) : Option Int := if b = 255 then none else some ((b : Int) - 127)

/-! Conversions of loads and stores. -/

/-- What a conversion goes between: a float format (L6 among them), an integer format, or X48. -/
inductive MoveFmt where
  | elt (e : Elt)
  | x48
  deriving DecidableEq, Repr

/-- DEDUCED, log 62. -/
def moveMem (w : W32) : MoveFmt :=
  if fmtA w = fmtC w then (match fmtC w with | 6 => .x48 | 7 => .elt .i32 | k => .elt (fmtElt k)) else .elt (operandElt (fmtA w))
def moveTile (w : W32) : MoveFmt := match fmtC w with | 6 => .x48 | 7 => .elt .i32 | k => .elt (fmtElt k)

/-- The exact value of a pattern. DEDUCED, log 62. -/
def moveValue (m : MoveFmt) (b : Nat) : FVal :=
  match m with
  | .x48 => let x := sext 48 b
            .fin (decide (x < 0)) x.natAbs (-20)
  | .elt e => if isFloatElt e then readF e b else .fin (decide (readI e b < 0)) (readI e b).natAbs 0
/-- The rounding of a value to an integer count of units, saturated (10 R310). -/
def moveInt (lo hi : Int) (bits : Nat) (unit : Int) (v : FVal) : Nat × Counts :=
  match v with
  | .nan _ => (0, ⟨1, 0, 0⟩)
  | .inf n => (lowBits bits (if n then lo else hi), ⟨0, 1, 0⟩)
  | v =>
    let (x, n) := satCount lo hi (roundInt 0 (v.dy.scale unit)).1
    (lowBits bits x, n)

/-- One conversion with the counter it raises (10 R310). -/
def moveConvert (sat : Bool) (src dst : MoveFmt) (b : Nat) : Nat × Counts :=
  if src = dst then (b, .zero)
  else
    let v := moveValue src b
    match dst with
    | .x48 => moveInt (-(2 ^ 47)) (2 ^ 47 - 1) 64 20 v
    | .elt e =>
      if isFloatElt e then
        match v, src with
        | .nan _, .elt s => (convNan s b e, .zero)
        | .nan _, .x48 => (defaultNan e, .zero)
        | .inf n, _ => ((infTo e n sat).1, ⟨0, bit (e == .l6 || e == .e4m3), 0⟩)
        | .fin n m k, _ =>
          if m = 0 then (zeroBits e n, .zero)
          else
            let (x, flags) := roundF e 0 sat n m k
            (x, ⟨0, 0, bit (flags.getLsbD 2)⟩)
      else moveInt (intMin e) (intMax e) e.bits 0 v

end Sys2Proof.Machine
end

