-- ==== Sys2Proof/Machine/MatrixUnit.lean ====
section
/-! DEFINITION. What a matrix unit does with an accepted instruction: tiles (10 R295, R296), operands (R302), the step itself (R303), tile loads
and stores (R309 to R312), undo copies (R316), counters (03 R105, R106), and the completion of a group's or a team's work. -/
namespace Sys2Proof.Machine

/-! Tiles. -/

def TileCfg.m (c : TileCfg) : Nat := 8 * (c.mb + 1)
def TileCfg.n (c : TileCfg) : Nat := 8 * (c.nb + 1)
def TileCfg.k (c : TileCfg) : Nat := 8 * (c.kb + 1)
def TileCfg.lda16 (c : TileCfg) : Nat := 16 * c.lda
def TileCfg.ldb16 (c : TileCfg) : Nat := 16 * c.ldb

/-- The bytes of sparse data from `k` on, `n` of them. -/
def denseBytes : Nat → Nat → Sparse Byte → List Byte
  | 0, _, _ => []
  | n + 1, k, [] => 0 :: denseBytes n (k + 1) []
  | n + 1, k, (j, b) :: t => if j = k then b :: denseBytes n (k + 1) t else 0 :: denseBytes n (k + 1) ((j, b) :: t)

/-- Replaces the bytes of a tile from byte 0 on; the others are kept (10 R296). -/
def Tile.fill (x : Tile) (bs : List Byte) : Tile :=
  { x with bytes := (((List.range bs.length).zip bs).filter fun e => e.2 != 0) ++ x.bytes.filter fun e => decide (bs.length ≤ e.1) }

/-- Bytes cut into little-endian numbers of `w` bytes. -/
def cutNats (w : Nat) (bs : List Byte) : List Nat := (chunksOf bs.length w bs).map leNat

/-- The elements of a tile in containers of `w` bytes, row by row. -/
def Tile.elems (x : Tile) (count w : Nat) : List Nat := cutNats w (denseBytes (count * w) 0 x.bytes)

def Tile.clear (w : Nat) (x : Tile) : Tile := { x with bytes := [], w }
def Tile.fresh : Tile := { bytes := [], w := 4, owner := none, nan := 0, inv := 0, ovf := 0 }

def teamTile (r : Run) (tid n : Nat) : Tile := nthD Tile.fresh (((r.team tid).map (·.tiles)).getD []) n
def updTile (r : Run) (tid n : Nat) (f : Tile → Tile) : Run := r.updTeam tid fun t => { t with tiles := updAt t.tiles n f }

/-! Counters. -/

/-- Adds to the permanent counters of a tile (03 R105). -/
def Tile.counted (x : Tile) (n : Counts) : Tile :=
  { x with nan := satAdd32 x.nan n.nan, inv := satAdd32 x.inv n.inv, ovf := satAdd32 x.ovf n.ovf }

/-- DEDUCED, log 15. -/
def addStaged (tile : Nat) (n : Counts) : List Staged → List Staged
  | [] => [{ tile, nan := n.nan, inv := n.inv, ovf := n.ovf }]
  | s :: t => if s.tile = tile then { s with nan := s.nan + n.nan, inv := s.inv + n.inv, ovf := s.ovf + n.ovf } :: t else s :: addStaged tile n t

/-- Stages increments against the issuing group; those of a group that has ended are permanent (03 R106, 10 R313). DEDUCED, log 15. -/
def stage (r : Run) (op : MatOp) (n : Counts) : Run :=
  match r.grp op.group with
  | none => r
  | some g =>
    if n = .zero then r
    else if g.ended && !isProtected r op.team then updTile r op.team op.tile fun x => x.counted n
    else r.updGrp op.group fun g => { g with staged := addStaged op.tile n g.staged }

/-! Undo copies. -/

/-- The undo copy of a group for a tile, made once for the regions of its level (10 R316). DEDUCED, log 15. DEDUCED, log 52. -/
def undoCopy (r : Run) (gid tid n : Nat) (super : Bool) : Run :=
  let x := teamTile r tid n
  let k := holdKey n super
  r.updGrp gid fun g => if (g.undo.find k).isSome then g else { g with undo := g.undo.put k x }

/-- The copy that is due before a write, if its region is still the group's current one. -/
def undoDue (r : Run) (op : MatOp) : Run :=
  if op.undo && (r.grp op.group).any (fun g => g.regionNo == op.region) then undoCopy r op.group op.team op.tile op.super else r

/-! Memory. -/

/-- What a read of the unit meets: the cause and its DETAIL, the address; and what the read leaves. DEDUCED, log 39. -/
abbrev MatFail := (Cause × Nat × W64) × Run

/-- Reads operand bytes through the translations of the issue (10 R301, R304). -/
def MatOp.read (op : MatOp) (part : Nat) (r : Run) (va n : Nat) : Except MatFail (List Byte × Run) :=
  (regions va n).foldlM (init := (([] : List Byte), r)) fun (acc : List Byte × Run) p =>
    match op.leaves.find? fun e => e.1 == p.1 / 0x10000 with
    | none => .ok (acc.1 ++ List.replicate p.2 0, acc.2)
    | some (_, l) =>
      match readLeaf acc.2 part l (w64 p.1) p.2 with
      | .error ((c, d), r) => .error ((c, d, w64 p.1), r)
      | .ok (bs, r) => .ok (acc.1 ++ bs, r)

/-- Reads several ranges. -/
def MatOp.readAll (op : MatOp) (part : Nat) (r : Run) (ranges : List (Nat × Nat)) : Except MatFail (List (List Byte) × Run) :=
  ranges.foldlM (init := (([] : List (List Byte)), r)) fun (acc : List (List Byte) × Run) p =>
    (op.read part acc.2 p.1 p.2).map fun x => (acc.1 ++ [x.1], x.2)

/-- Rows of an array: `rows` rows of `len` bytes, `stride` apart. -/
def rowRanges (base rows stride len : Nat) : List (Nat × Nat) := (List.range rows).map fun i => ((base + i * stride) % 2 ^ 64, len)

/-- Scale bytes of each operand: per row or column, per block of 32, or one (10 R302). -/
def scaleBytes (mode count k : Nat) : Nat := match mode with | 0 => 0 | 1 => count | 2 => count * (k / 32) | _ => 1

def aRanges (w : W32) (c : TileCfg) (a : Nat) : List (Nat × Nat) := rowRanges a c.m c.lda16 (c.k * operandBytes (fmtA w))
def bRanges (w : W32) (c : TileCfg) (b : Nat) : List (Nat × Nat) := rowRanges b c.k c.ldb16 (c.n * operandBytes (fmtB w))
def aScaleRange (w : W32) (c : TileCfg) (a : Nat) : Nat × Nat := ((a + c.m * c.lda16) % 2 ^ 64, scaleBytes (fmtScale w) c.m c.k)
def bScaleRange (w : W32) (c : TileCfg) (b : Nat) : Nat × Nat := ((b + c.k * c.ldb16) % 2 ^ 64, scaleBytes (fmtScale w) c.n c.k)

/-! Multiply-accumulate. -/

/-- The scale of an element: `i` its row or column, `k` its place along K; `n` is N in a block of B, and 0 for A. -/
def scaleAt (mode : Nat) (ss : List Nat) (i k kblocks n : Nat) : Option Int :=
  match mode with
  | 0 => some 0
  | 1 => scalePower (nthD 0 ss i)
  | 2 => scalePower (nthD 0 ss (if n = 0 then i * kblocks + k / 32 else k / 32 * n + i))
  | _ => scalePower (nthD 0 ss 0)

/-- A row's or column's factors. -/
def factors (mode : Nat) (ss : List Nat) (i kblocks n : Nat) (xs : List Nat) : List Factor :=
  ((List.range xs.length).zip xs).map fun e => { bits := e.2, scale := scaleAt mode ss i e.1 kblocks n }

/-- Columns of a matrix given by rows. -/
def columns (n : Nat) (rows : List (List Nat)) : List (List Nat) := (List.range n).map fun j => rows.map fun row => nthD 0 row j

/-- The counter of multiply-accumulates by operand format (19 R489). -/
def macCounter (fmt : Nat) : Nat := match fmt with | 0 => 3 | 1 => 4 | 2 | 3 => 5 | 4 | 5 => 6 | 6 => 8 | _ => 7

/-- TMMA and TMMAZ: every element in one step (10 R303). -/
def performMma (r : Run) (op : MatOp) (part : Nat) : Except MatFail Run := do
  let w := op.fmt
  let cfg := op.cfg
  let (abytes, r) ← op.readAll part r (aRanges w cfg op.base.toNat)
  let (bbytes, r) ← op.readAll part r (bRanges w cfg op.base2.toNat)
  let as := aScaleRange w cfg op.base.toNat
  let bs := bScaleRange w cfg op.base2.toNat
  let (asc, r) ← op.read part r as.1 as.2
  let (bsc, r) ← op.read part r bs.1 bs.2
  let arows := abytes.map (cutNats (operandBytes (fmtA w)))
  let brows := bbytes.map (cutNats (operandBytes (fmtB w)))
  let sa := asc.map (·.toNat)
  let sb := bsc.map (·.toNat)
  let cw := accWidth (fmtC w)
  let count := cfg.m * cfg.n
  let r := undoDue r op
  let old := if op.opcode = 0xA2 then List.replicate count 0
             else ((teamTile r op.team op.tile).elems count cw).map (· % 2 ^ accBits (fmtC w))
  let afs := ((List.range cfg.m).zip arows).map fun e => factors (fmtScale w) sa e.1 (cfg.k / 32) 0 e.2
  let bfs := ((List.range cfg.n).zip (columns cfg.n brows)).map fun e => factors (fmtScale w) sb e.1 (cfg.k / 32) cfg.n e.2
  let res := (afs.flatMap fun a => bfs.map fun b => (a, b)).zip old |>.map fun e => mmaElement w e.2 e.1.1 e.1.2
  let nans := nansRead w arows.flatten brows.flatten (sa ++ sb)
  let counts := (res.map (·.2)).foldl Counts.add ⟨nans, 0, 0⟩
  let r := updTile r op.team op.tile fun x => { x.fill (res.flatMap fun e => leBytes cw e.1) with w := cw }
  .ok (stage (r.count part 0 (macCounter (fmtA w)) (count * cfg.k)) op counts)

/-! Loads and stores. -/

/-- TLOAD (10 R311). Only a `TSTORE` saturates (03 R94, R96). -/
def performLoad (r : Run) (op : MatOp) (part : Nat) : Except MatFail Run := do
  let w := op.fmt
  let cfg := op.cfg
  let e := moveBytes w
  let (rows, r) ← op.readAll part r (rowRanges op.base.toNat cfg.m op.stride (cfg.n * e))
  let cw := accWidth (fmtC w)
  let res := (rows.flatMap (cutNats e)).map (moveConvert false (moveMem w) (moveTile w))
  let r := updTile r op.team op.tile fun x => { x.fill (res.flatMap fun v => leBytes cw v.1) with w := cw }
  .ok (stage r op ((res.map (·.2)).foldl Counts.add .zero))

/-- Why an accepted instruction is not performed: operand data that fails, or a state in which its team has not committed. -/
inductive MatStop where
  | fail (x : MatFail)
  | held (r : Run)

/-- Writes one row of a tile store, or buffers it in a protected launch (10 R312). DEDUCED, log 61. -/
def storeRow (op : MatOp) (part : Nat) (prot : Bool) (r : Run) (va : Nat) (bs : List Byte) : Run :=
  (regions va bs.length).foldl (fun r p =>
    match op.leaves.find? fun e => e.1 == p.1 / 0x10000 with
    | none => r
    | some (_, l) =>
      let part_ := (bs.drop (p.1 - va)).take p.2
      if prot then
        r.updTeam op.team fun t => { t with sbuf := t.sbuf ++ [{ group := op.group, lane := op.lane, weak := false, edge := false, dest := .mem l, addr := p.1
                                                                 bytes := part_, pc := op.pc, hint := 0, taken := if p.1 = va then ceilDiv bs.length 4 * 4 else 0 }] }
      else writeLeaf r part l (w64 p.1) part_) r

/-- Bytes that a team's store buffer holds (17 R444). DEDUCED, log 61. -/
def bufferUsed (r : Run) (tid : Nat) : Nat := (((r.team tid).map (·.sbuf)).getD []).foldl (fun n b => n + b.taken) 0

/-- Bits of the elements of a row of a `TSTORE`, as they are converted. -/
def storeElems (r : Run) (op : MatOp) (i : Nat) : List (Nat × Counts) :=
  let w := op.fmt
  let x := teamTile r op.team op.tile
  let cw := accWidth (fmtC w)
  (((cutNats cw (denseBytes (op.cfg.n * cw) (i * op.cfg.n * cw) (x.bytes.filter fun e => decide (i * op.cfg.n * cw ≤ e.1)))).map
    (· % 2 ^ accBits (fmtC w))).map (moveConvert (fmtSat w) (moveTile w) (moveMem w)))

/-- What a `TSTORE` takes of a store buffer (17 R444); at most the whole of it. DEDUCED, log 61. -/
def storeTakes (op : MatOp) : Nat := op.cfg.m * (ceilDiv (op.cfg.n * moveBytes op.fmt) 4 * 4)

/-- TSTORE (10 R312). In a protected launch one larger than the free room of the store buffer commits first, then enters the emptied buffer (17 R444):
the checkpoint has `queue`, the team's accepted work, with this instruction in it. An error is a checkpoint that cannot be written, as `stop` makes it.
DEDUCED, log 61. -/
def performStoreOp (r : Run) (op : MatOp) (part : Nat) (queue : List MatOp) (stop : Run → Nat × AccFail → Run) : Except MatStop Run :=
  let prot := isProtected r op.team
  let room : Except MatStop Run :=
    if prot && decide (Config.storeBuffer < bufferUsed r op.team + storeTakes op) then (commitCore r op.team queue).mapError fun x => .held (stop r x)
    else .ok r
  room.map fun r => (List.range op.cfg.m).foldl (fun r i =>
    let els := storeElems r op i
    let r := storeRow op part prot r ((op.base.toNat + i * op.stride) % 2 ^ 64) (els.flatMap fun v => leBytes (moveBytes op.fmt) v.1)
    stage r op ((els.map (·.2)).foldl Counts.add .zero)) r

/-! The queue. -/

/-- Lines that tile pins may hold in one slice (04 R137). DEDUCED, log 63. -/
def pinBudget : Nat := 4096

/-- The home slice of a line, numbered over all dies (04 R119). -/
def homeSlice (line : Nat) : Nat := dieOf (128 * line) * Config.slices + homeSliceOf line

def allPins (r : Run) : List (Nat × Nat) := r.teams.flatMap fun e => e.2.pins

/-- Whether the slice of every line that an instruction must fetch from a CACHED page has room for the pin that holds it until it is consumed
(04 R136, R137); the pin is released in the step that makes it. DEDUCED, log 63. -/
def fetchRoom (r : Run) (op : MatOp) : Bool :=
  let pins := allPins r
  let full := (pins.map (·.2)).eraseDups.filter fun s => decide (pinBudget ≤ (pins.filter fun p => p.2 == s).length)
  if full.isEmpty || (op.opcode != 0xA1 && op.opcode != 0xA2) then true
  else
    let ranges := aRanges op.fmt op.cfg op.base.toNat ++ bRanges op.fmt op.cfg op.base2.toNat ++
      [aScaleRange op.fmt op.cfg op.base.toNat, bScaleRange op.fmt op.cfg op.base2.toNat]
    (ranges.flatMap fun x => regions x.1 x.2).all fun p =>
      (op.leaves.filter fun e => e.1 == p.1 / 0x10000).all fun e =>
        let pa := e.2.pa (w64 p.1)
        e.2.home != 0 || ((List.range ((pa + p.2 - 1) / 128 - pa / 128 + 1)).map (pa / 128 + ·)).all fun k =>
          framePinned r (128 * k) || pins.any (fun x => x.1 == k) || !full.contains (homeSlice k)

/-- Performs one accepted instruction (10 R299, R303, R308, R311, R312). -/
def performMat (r : Run) (op : MatOp) (queue : List MatOp) (stop : Run → Nat × AccFail → Run) : Except MatStop Run :=
  let part := (teamWhere r op.team).1
  match op.opcode with
  | 0xA1 => (performMma r op part).mapError .fail
  | 0xA2 => (performMma r op part).mapError .fail
  | 0xA7 => .ok (updTile r op.team op.tile (Tile.clear (if op.wide then 8 else 4)))
  | 0xA8 => performStoreOp r op part queue stop
  | _ => (performLoad r op part).mapError .fail

/-- What performing matrix work comes to: done, a cause met in operand data with the group that issued the instruction (10 R304), or a state in
which it is not performed, such as a full pin budget (04 R137). -/
inductive MatEnd where
  | done
  | failed (group : Nat) (i : TrapInfo)
  | held
  deriving DecidableEq, Repr

/-- Performs the instruction at a place of a core's queue; a fetch that finds a slice's pin budget full waits (04 R137). Data that fails is consumed, and
the instruction writes no element (10 R304). -/
def performAt (stop : Run → Nat × AccFail → Run) (r : Run) (d k i : Nat) : Run × MatEnd :=
  match (r.core d k).matrix[i]? with
  | none => (r, .done)
  | some op =>
    let queue := (r.core d k).matrix.filter fun m => m.team == op.team
    let back := fun (r : Run) => r.updCore d k fun c => { c with matrix := c.matrix.take i ++ op :: c.matrix.drop i }
    if !fetchRoom r op then (r, .held)
    else
      match performMat (r.updCore d k fun c => { c with matrix := c.matrix.eraseIdx i }) op queue fun r e => stop (back r) e with
      | .ok r => (r, .done)
      | .error (.held r) => (r, .held)
      | .error (.fail ((c, detail, va), r)) =>
        (countData (teamWhere r op.team).1 c r,
         .failed op.group { cause := c, detail, lane := op.lane, code := 0, pc := op.pc, addr := va, aux := 0, deferred := false })

/-- The first instruction that must be performed for one that is wanted: instructions on one tile keep their order (10 R299). -/
def nextWanted (ops : List MatOp) (want : MatOp → Bool) : Option Nat :=
  (ops.find? want).bind fun m => ops.findIdx? fun x => x.team == m.team && x.tile == m.tile

def drainWanted (stop : Run → Nat × AccFail → Run) (fuel : Nat) (r : Run) (d k : Nat) (want : MatOp → Bool) : Run × MatEnd :=
  match fuel with
  | 0 => (r, .done)
  | fuel + 1 =>
    match nextWanted (r.core d k).matrix want with
    | none => (r, .done)
    | some i =>
      match performAt stop r d k i with
      | (r, .done) => drainWanted stop fuel r d k want
      | e => e

def drainTeamWhere (stop : Run → Nat × AccFail → Run) (r : Run) (tid : Nat) (want : MatOp → Bool) : Run × MatEnd :=
  match r.team tid with
  | none => (r, .done)
  | some t => drainWanted stop (r.core t.die t.core).matrix.length r t.die t.core want

end Sys2Proof.Machine
end

