-- ==== Sys2Proof/Machine/TrapRecord.lean ====
section
/-! DEFINITION. The trap record (17 R433 to R436), and where a group's code lies (09 R268, 14 R365). -/
namespace Sys2Proof.Machine

/-! Where code lies. -/

def launchOf (r : Run) (g : Grp) : Option Launch := (r.team g.team).bind fun t => r.launch t.launch
def partOf (r : Run) (g : Grp) : Nat := ((launchOf r g).map (·.part)).getD 0
/-- Where a group's team is resident, or where a handler slice was started (01 R45). -/
def dieOfGrp (r : Run) (g : Grp) : Nat := match g.handler with | some h => h.die | none => ((r.team g.team).map (·.die)).getD 0
def coreOfGrp (r : Run) (g : Grp) : Nat := match g.handler with | some h => h.core | none => ((r.team g.team).map (·.core)).getD 0

/-- The base of code offsets and the size of the code (09 R268, 14 R365). DEDUCED, log 136. -/
def codeBase (r : Run) (g : Grp) (super : Bool) : Nat :=
  if super then (r.part (partOf r g)).scbase.toNat else ((launchOf r g).map (·.codeBase)).getD 0
def codeSize (r : Run) (g : Grp) (super : Bool) : Nat :=
  if super then (r.part (partOf r g)).scsize.toNat else ((launchOf r g).map (·.codeSize)).getD 0

/-- A code offset; 0xFFFFFFFF stands for none (17 R435). DEDUCED, log 136. -/
def codeOfs (base : Nat) (pc : Option W64) : Nat :=
  match pc with
  | none => 0xFFFFFFFF
  | some a => (a - w64 base).toNat % 2 ^ 32

def ofsPc (base ofs : Nat) : Option W64 := if ofs = 0xFFFFFFFF then none else some (w64 (base + ofs))

/-- What translates for a group's own accesses, by path and permission (16 R521). The record of a handler slice's fault names the core and the context of
the group that issued its `HREAD` (01 R44); a group that holds no context, because its team is evicted or it has ended, gives its identifier modulo 64
for CTX. DESIGN CHOICE, log 154. -/
def grpReq (r : Run) (gid : Nat) (g : Grp) (pc : W64) (src kind : Nat) : Req :=
  let owner := match g.handler with
    | some _ => (r.grp g.parent).getD g
    | none => g
  { part := partOf r g, die := dieOfGrp r g, core := coreOfGrp r g, ctx := owner.ctx.getD (gid % 64)
    launchid := ((launchOf r g).map (·.launchid)).getD 0, pc, super := g.super, src, kind
    recDie := ((r.team g.team).map (·.die)).getD 0, recCore := ((r.team g.team).map (·.core)).getD 0 }

/-! The trap record. -/

/-- The entry of one slice (17 R435), from what it held when its region began; `frag` is the fragment that it is of at its region entry (01 R25). DEDUCED, log 28. -/
def sliceEntry (base : Nat) (s : Slice) (frag : Nat) : List W64 :=
  if !s.live then List.replicate 10 0
  else
    let st := s.regStack.reverse
    let km := (List.range st.length).foldl (fun acc i =>
      let e := nthD { pc := none, mask := 0, rpc := none, kind := .path } st i
      acc + (e.mask.toNat + bit (e.kind == .join) * 16) * 2 ^ (5 * i)) 0
    [w64 (codeOfs base (some s.rge) * 2 ^ 32 + codeOfs base s.regCrp),
     w64 (2 ^ 63 + s.regMask.toNat * 2 ^ 56 + st.length * 2 ^ 52 + frag * 2 ^ 40 + km)] ++
    (List.range 8).map fun i =>
      match st[i]? with
      | some e => w64 (codeOfs base e.pc * 2 ^ 32 + codeOfs base e.rpc)
      | none => 0

/-- The first words of a record (17 R434). -/
def recordHead (g : Grp) (t : Team) (l : Launch) (i : TrapInfo) (sup reenter : Bool) (resume : Nat) (time id : W64) : List W64 :=
  [w64 (2 ^ 63 + bit sup * 2 ^ 62 + bit i.deferred * 2 ^ 61 + bit reenter * 2 ^ 60 + resume * 2 ^ 58 +
     i.cause.code * 2 ^ 32 + i.detail % 256 * 2 ^ 24 + i.lane % 128 * 2 ^ 16 + i.code % 4096),
   i.pc, i.addr, w64 (i.aux % 2 ^ 32 * 2 ^ 32), time, id, w64 (l.launchid.toNat * 2 ^ 32 + t.num),
   w64 (g.slices.length * 256 + g.num)]

def slotAddr (l : Launch) (t : Team) (g : Grp) : Nat := l.utrap + 4096 * (64 * t.num + g.num)

/-- Whole blocks of a range that are written over with zeros under a key: their bytes, tags and replicas (04 R123, 16 R421). -/
def clearPhys (r : Run) (key : Option (Nat × Nat)) (pa n : Nat) : Run :=
  let blocks := (List.range (n / 64 + 1)).map fun i => ceilDiv pa 64 + i
  let tag : BlockTag := { low := .clean key, high := .clean key, mark := none }
  let tags := blocks.foldl (fun ts b => if b * 64 + 64 ≤ pa + n then Sparse.put ts b tag else ts) r.tags
  let r := (blocks.map (· / 2)).eraseDups.foldl dropReplicas r
  { r with mem := r.mem.filter fun e => e.1 < pa || pa + n ≤ e.1, tags }

/-- Clears a range of virtual memory, page region by page region. -/
def clearVirt (r : Run) (q : Req) (va n : Nat) : Except (AccFail × Run) Run :=
  match checkVirt r q (w64 va) n with
  | .error e => .error e
  | .ok r =>
    (regions va n).foldlM (init := r) fun r p =>
      match translate r q (w64 p.1) with
      | (.error f, r) => .error (.fault f, r)
      | (.ok l, r) =>
        .ok (touchLine (clearPhys r (keyOf r q.part l) (l.pa (w64 p.1)) p.2) q.part l (l.pa (w64 p.1)) p.2 true)

/-- Writes words that are not zero over a cleared range. -/
def writeWordsVirt (r : Run) (q : Req) (va : Nat) (ws : List W64) : Except (AccFail × Run) Run :=
  ((List.range ws.length).filter fun i => nthD 0 ws i != 0).foldlM (init := r) fun r i =>
    writeVirt r q (w64 (va + 8 * i)) (leBytes 8 (nthD 0 ws i).toNat)

/-- Writes the trap record of a group; an error is a fault met while writing it (17 R433). DEDUCED, log 28. DEDUCED, log 136. -/
def writeRecord (r : Run) (gid : Nat) (i : TrapInfo) (sup : Bool) (resume : Nat) (id : W64) : Except (AccFail × Run) Run :=
  match r.grp gid with
  | none => .ok r
  | some g =>
    match r.team g.team with
    | none => .ok r
    | some t =>
      match r.launch t.launch with
      | none => .ok r
      | some l =>
        let a := slotAddr l t g
        let q := { grpReq r gid g i.pc 7 1 with super := true }
        let base := codeBase r g g.super
        let head := recordHead g t l i sup g.reenter resume (r.now t.die) id
        let slices := (g.slices.zip g.atRegions.slices).flatMap fun s => sliceEntry base s.1 s.2.frag ++ List.replicate 5 0
        match clearVirt r q a 4096 with
        | .error e => .error e
        | .ok r =>
          match writeWordsVirt r q a head with
          | .error e => .error e
          | .ok r => writeWordsVirt r q (a + 0x100) slices

end Sys2Proof.Machine
end

