-- ==== Sys2Proof/Machine/Teams.lean ====
section
/-! DEFINITION. Eviction and resumption (15 R411, R412), kills (17 R452), protected commits and rollbacks (17 R445 to R447). -/
namespace Sys2Proof.Machine

/-! Resumption at region entries, kills. -/

/-- Restores a group's undo copies, those of a supervisor handler's region before those of the region that it interrupted, and discards its staged
increments (10 R316, 03 R106); region holds and the copies stay until the next region start (10 R317). -/
def restoreUndo (r : Run) (gid : Nat) : Run :=
  match r.grp gid with
  | none => r
  | some g =>
    let r := g.undo.reverse.foldl (fun r e => r.updTeam g.team fun t =>
      { t with tiles := updAt t.tiles (e.1 % 8) fun x => { x.fill (denseBytes (t.cfg.m * t.cfg.n * e.2.w) 0 e.2.bytes) with w := e.2.w } }) r
    r.updGrp gid fun g => { g with staged := [] }

/-- A group at its region entries (01 R47): registers stay, latches are invalid. Slices that arrived at a REGANG or a
barrier go on waiting there (R51). -/
def resumeGroup (r : Run) (gid : Nat) : Run :=
  (restoreUndo (dropRemotes r gid (·.atom)) gid).updGrp gid fun g => { g with lat := [] }.atRegions

/-- What made a piece fail: the cause, its DETAIL and the address. -/
def Piece.failure (p : Piece) : Option (Cause × Nat × W64) :=
  match p.state with
  | .failed c d va => some (c, d, va)
  | _ => none

/-- Whether nothing more happens to a piece. -/
def Piece.over (p : Piece) : Bool := p.state == .done || p.failure.isSome

def opcodeOf : OpKind → Nat
  | .copy => 0xC3 | .cdrain => 0xC5 | .hread => 0xC6

/-- The first failure of an operation in its order: of a piece, or of a handler slice that ended by trap. -/
def opFailure (o : Op) : Option Cause :=
  o.pieces.findSome? fun p =>
    match p.failure with
    | some e => some e.1
    | none => p.handlerCause

/-- ENGINE_DONE of an operation (19 R474). DEDUCED, log 71. -/
def doneEvent (r : Run) (o : Op) : Run :=
  emit' r (copyUnit o.die o.core) 0x0011 (opcodeOf o.kind + o.cmode * 2 ^ 8 + bit (opFailure o).isSome * 2 ^ 15) o.causal

/-- What a kill makes of an operation of the team: it moves what the team's scratch held, bursts that are held for a slice or that one works on are
over, and those that memory has still to return are read and dropped (17 R452). DEDUCED, log 80. -/
def Op.ofKilled (o : Op) (t : Team) : Op :=
  let stopped := fun (p : Piece) => match p.state with | .held _ => { p with state := .done } | .running => { p with state := .done } | _ => p
  { o with data := if o.srcSc then scrRead t 0 t.size else o.data, pieces := if o.kind = .hread then o.pieces.map stopped else o.pieces }

/-- Kills a team (17 R452) after its kill record is written: its groups end at once, its objects are freed, and
what its engines still move is discarded when it lands. DEDUCED, log 37. DEDUCED, log 80. -/
def killTeam (r : Run) (tid : Nat) (c : Cause) (pc : W64) (group : Nat) : Run :=
  match r.team tid with
  | none => r
  | some t =>
    if t.ended then r
    else
      let r := recordError r t.launch c pc t.num group
      let r := { r.updTeam tid fun t => { t with killed := true } with ops := r.ops.map fun e => (e.1, if e.2.team = tid then e.2.ofKilled t else e.2) }
      let r := ((teamGroups r tid).filter fun e => !e.2.ended).foldl (fun r e => releaseGroup r e.1) r
      let r : Run :=
        { r with groups := r.groups.filter fun e => e.2.team != tid || e.2.handler.isNone
                 dies := r.dies.map fun d => { d with cores := d.cores.map fun k =>
                          { k with matrix := k.matrix.filter fun m => m.team != tid } } }
      let done := r.ops.filter fun e => e.2.team == tid && e.2.pieces.all Piece.over
      endTeam (done.foldl (fun r e => doneEvent { r with ops := r.ops.del e.1 } e.2) r) tid

/-- Ends a team with a kill record in a group's slot (17 R452, R453), after its committed stores (R445). The record has the causal ID of the
kill's event. DEDUCED, log 29. DEDUCED, log 37. -/
def killWithRecord (r : Run) (gid : Nat) (i : TrapInfo) : Run :=
  match r.grp gid with
  | none => r
  | some g =>
    match r.team g.team with
    | none => r
    | some t =>
      if t.ended then r
      else
        let r := performCommitted r g.team
        let (id, r) := emit r (coreUnit t.die t.core) 0x0006 i.cause.code t.startEvent
        let r := match writeRecord r gid i true 3 id with
          | .ok r => r
          | .error (.fault f, r) => faultRecord r { grpReq r gid g i.pc 7 1 with super := true } f
          | .error (.data c .., r) => countData (partOf r g) c r
        killTeam r g.team i.cause i.pc g.num

/-! Context accesses that fail (16 R431). -/

/-- Whether a group is held by a context access that waits for a page (16 R431). -/
def contextHeld (r : Run) (gid : Nat) : Bool := r.parts.any fun p => p.faults.any fun x => x.waiter == some (.context gid)

/-- A cause met in a context access, for the kill record of a team. DEDUCED, log 69. -/
def contextTrap (c : Cause) (detail : Nat) (addr : W64) : TrapInfo :=
  { cause := c, detail, lane := 0, code := 0, pc := 0, addr, aux := 0, deferred := false }

/-- A rollback of a protected team (17 R447): committed stores are performed, uncommitted stores and staged increments are dropped, its groups
leave their core, and the rest of its cluster is to leave too. The team is at its checkpoint; what is no state of it, deferred causes among it,
stays. The ninth rollback since a commit is a kill. DEDUCED, log 102. -/
def rollbackCore (r : Run) (gid : Nat) (i : TrapInfo) : Run :=
  let tid := ((r.grp gid).map (·.team)).getD 0
  match r.team tid, ((r.team tid).bind (·.checkpoint)) with
  | some t, some old =>
    if 8 ≤ t.rollbacks then killWithRecord r gid i
    else
      let r := (teamGroups r tid).foldl (fun r e => dropRemotes (dropWaits r e.1) e.1 (·.atom)) (performCommitted r tid)
      let r := recordError r t.launch i.cause i.pc t.num (((r.grp gid).map (·.num)).getD 0)
      let sums := ((teamGroups r tid).filter fun e => e.2.spawned && (Sparse.find old.groups e.1).isNone && !e.2.ended).foldl
        (fun (b : Sparse (List W64)) (e : Nat × Grp) => b.put e.2.num (sumBanks (Sparse.get [] b e.2.num) e.2.stall)) t.banks
      let dropped := (teamGroups r tid).filter fun e => (Sparse.find old.groups e.1).isNone
      let r := freeAreas r (((r.launch t.launch).map (·.part)).getD 0) ((dropped.filter fun e => !e.2.ended).map fun e => e.2.ctxArea)
      let back := fun (e : Nat × Grp) =>
        match Sparse.find old.groups e.1 with
        | some g => (e.1, { g with ctx := none, spawnSlot := none, lat := [], causal := e.2.causal, stall := e.2.stall
                                   remotes := e.2.remotes, rsts := e.2.rsts, returned := e.2.returned, ratom := e.2.ratom, deferred := e.2.deferred
                                   staged := [], slices := g.slices.map fun s => { s with valid := 0, wait := s.onWait } })
        | none => e
      let kept := r.groups.filter fun e => e.2.team != tid || e.2.handler.isSome || (Sparse.find old.groups e.1).isSome
      let r : Run :=
        { r with groups := kept.map fun e => if e.2.team = tid && e.2.handler.isNone then back e else e
                 dies := r.dies.map fun d => { d with cores := d.cores.map fun k =>
                   { k with matrix := k.matrix.filter fun m => m.team != tid } } }
      let r := r.updTeam tid fun t =>
        { t with sbuf := [], rollbacks := t.rollbacks + 1, avoid := some (t.die, t.core), banks := sums, resident := false, pins := []
                 queue := old.queue, cfg := old.cfg, tiles := old.tiles, bars := old.bars }
      r.updCluster t.cluster fun c => { c with leaving := true }
  | _, _ => r

/-- A consumption that no handler sees (17 R449): by a lane, a fetch, the matrix unit or a context access. -/
def consumeCore (r : Run) (gid : Nat) (i : TrapInfo) : Run :=
  if ((r.grp gid).map fun g => isProtected r g.team).getD false then rollbackCore r gid i else killWithRecord r gid i

/-- A context access that fails (16 R431): a page that is not there holds the group with a record; data that fails is consumed (17 R448); any
other fault kills its team. DEDUCED, log 69. -/
def contextFail (r : Run) (gid kind : Nat) (e : AccFail) : Run :=
  match r.grp gid with
  | none => r
  | some _ =>
    match e with
    | .fault f =>
      let q := contextReq r gid kind
      if f.kind = 1 || f.kind = 7 then (if contextHeld r gid then r else (faultHeld r q f (.context gid)).2)
      else killWithRecord (faultRecord r q f) gid (contextTrap (faultCause f.kind) f.kind f.va)
    | .data c d va => consumeCore (countData (contextReq r gid kind).part c r) gid (contextTrap c d va)

/-- A checkpoint that cannot be written (17 R445). -/
def commitStop (r : Run) (e : Nat × AccFail) : Run := contextFail r e.1 1 e.2

/-! Matrix work that must complete. -/

/-- Completes what a group has issued (10 R316, 17 R437). -/
def matrixDrain (r : Run) (gid : Nat) : Run × MatEnd :=
  match r.grp gid with
  | none => (r, .done)
  | some g => drainTeamWhere commitStop r g.team fun m => m.group == gid

/-- Completes what a team has issued. DEDUCED, log 59. -/
def matrixDrainTeam (r : Run) (tid : Nat) : Run × MatEnd := drainTeamWhere commitStop r tid fun m => m.team == tid

/-! Evictions. -/

/-- What an eviction keeps of a group that goes on elsewhere: it is at its region entries, but for a parked group, which stays parked (14 R377).
Tiles are restored when it resumes (10 R316). -/
def Grp.evicted (g : Grp) : Grp :=
  let g := { g with ctx := none, spawnSlot := none, heldEvict := none, evicting := false, lat := [], slices := g.slices.map Slice.refetch }
  let g := if g.parked.isSome then g else g.atRegions
  if g.super && g.msk && g.parked.isNone then { g with reenter := true } else g

/-- Evicts one group (15 R411): its matrix work completes, its lines are written back, its context is free. While the write-back waits for a page
it keeps what it has of its core (16 R431). -/
def evictGroupCore (r : Run) (gid : Nat) : Run :=
  match matrixDrain (settleGroup r gid) gid with
  | (r, .failed other i) => consumeCore r other i
  | (r, .held) => r.updGrp gid fun g => { g with evicting := true }
  | (r, .done) =>
    match r.grp gid with
    | none => r
    | some g =>
      match r.team g.team with
      | none => r
      | some t =>
        if g.ended then r.updGrp gid fun g => { g with ctx := none }
        else
          let r := dropRemotes (dropWaits r gid) gid (·.atom)
          match flushContext r gid with
          | .error e => contextFail (r.updGrp gid fun g => { g with evicting := true }) gid 1 e
          | .ok r =>
            let r := (emitGrp r gid (coreUnit t.die t.core) 0x0007 (g.ctx.getD 0 + t.core * 64)).2
            let r := r.updTeam g.team fun t => { t with evicts := t.evicts + 1 }
            r.updGrp gid Grp.evicted

/-- Where the parts of a team's save area begin (16 R431): after its scratch with the states of its lines, two bits each, eight tiles, the undo copies
of a user's and of a handler's regions, and the cluster's holding slots, which one team of the cluster saves. The manual gives no layout.
DESIGN CHOICE, log 143. -/
def saveTiles (lines : Nat) : Nat := 128 * (lines + ceilDiv lines 512)
def saveSlots (lines : Nat) : Nat := saveTiles lines + 3 * Config.tiles * Config.tileBytes
def saveBytes (lines : Nat) : Nat := saveSlots lines + Config.clusterSlots * Config.tileBytes

/-- The code of a line's state (04 R124). -/
def lineCode : LineState → Nat
  | .empty => 0 | .full => 1 | .filling => 2

/-- The line states of a team as bytes, four lines each. -/
def stateBytes (t : Team) : List Byte :=
  (List.range (ceilDiv (t.size / 128) 4)).map fun i =>
    BitVec.ofNat 8 ((List.range 4).foldl (fun acc k => acc + lineCode (lineState t (4 * i + k)) * 4 ^ k) 0)

/-- Writes bytes at their places in an area that is cleared first. -/
def saveAt (r : Run) (q : Req) (area from_ n : Nat) (bytes : List (Nat × Byte)) : Except AccFail Run :=
  match clearVirt r q (area + from_) n with
  | .error (e, _) => .error e
  | .ok r =>
    (bytes.filter fun e => e.2 != 0).foldlM (init := r) fun r e =>
      match writeVirt r q (w64 (area + e.1)) [e.2] with
      | .ok r => .ok r
      | .error (e, _) => .error e

/-- Writes what a team has on its core to its save area (04 R129, 10 R318): scratch with its line states, tiles, undo copies, each from its own
offset. DESIGN CHOICE, log 143. -/
def saveTeam (r : Run) (tid : Nat) (t : Team) (q : Req) : Except AccFail Run :=
  let lines := t.size / 128
  let dense := fun (base : Nat) (bs : Sparse Byte) => bs.map fun e => (base + e.1, e.2)
  let undo := (teamGroups r tid).flatMap fun e => e.2.undo
  let states := stateBytes t
  let bytes := dense 0 t.scratch ++ ((List.range states.length).map (128 * lines + ·)).zip states ++
    ((List.range t.tiles.length).zip t.tiles).flatMap (fun e => dense (saveTiles lines + Config.tileBytes * e.1) e.2.bytes) ++
    undo.flatMap (fun e => dense (saveTiles lines + Config.tileBytes * (Config.tiles + e.1)) e.2.bytes)
  saveAt r q t.save 0 (saveSlots lines) bytes

/-- Writes a cluster's undrained slots to its save area, which is that of its lowest team that has not ended (04 R135); it answers the team whose access
fails. DESIGN CHOICE, log 143. -/
def saveHeld (r : Run) (cid : Nat) : Except (Nat × AccFail) Run :=
  let slots := ((r.clusters.find cid).map (·.slots)).getD []
  match r.teams.find? fun e => e.2.cluster == cid && !e.2.ended with
  | none => .ok r
  | some (tid, t) =>
    if slots.isEmpty then .ok r
    else
      let gid := (((teamGroups r tid).find? fun e => !e.2.ended).map (·.1)).getD 0
      let base := saveSlots (t.size / 128)
      let bytes := slots.flatMap fun e =>
        ((List.range e.2.bytes.length).map (base + Config.tileBytes * (e.1 % Config.clusterSlots) + ·)).zip e.2.bytes
      (saveAt r { contextReq r gid 1 with ctx := 0 } t.save base (Config.clusterSlots * Config.tileBytes) bytes).mapError fun e => (gid, e)

/-- Whether a transfer has begun to write: an eviction waits for such a one (04 R129). -/
def Op.moving (o : Op) : Bool := o.kind != .hread && o.pieces.any fun p => p.state == .done || (match p.state with | .failed .. => true | _ => false)

/-- Whether something still writes a team's scratch: a transfer that has begun, or a landing-handler slice (01 R45, 04 R129). -/
def scratchBusy (r : Run) (tid : Nat) : Bool :=
  r.ops.any (fun e => e.2.team == tid && e.2.moving) || r.groups.any fun e => e.2.team == tid && e.2.handler.isSome

/-- A resident team of which no group is on the core any longer leaves it, when nothing writes its scratch (04 R129, 15 R411). -/
def leaveTeam (r : Run) (tid : Nat) : Run :=
  match r.team tid, (teamGroups r tid).head? with
  | some t, some e =>
    if !t.resident || t.ended || (teamGroups r tid).any (fun e => e.2.ctx.isSome) || scratchBusy r tid ||
        (r.core t.die t.core).matrix.any (fun m => m.team == tid) then r
    else
      match saveTeam r tid t { contextReq r e.1 1 with ctx := 0 } with
      | .error x => contextFail r (((teamGroups r tid).find? fun e => !e.2.ended).getD e).1 1 x
      | .ok r => r.updTeam tid fun t => { t with resident := false, pins := [], saved := true }
  | _, _ => r

/-- A cluster that is leaving has left when none of its teams is on a core. -/
def leaveCluster (r : Run) (cid : Nat) : Run :=
  let mine := fun (r : Run) => r.teams.filter fun e => e.2.cluster == cid && !e.2.ended && e.2.resident
  if !(r.clusters.find cid).any (·.leaving) then r
  else
    let r := (mine r).foldl (fun r e => leaveTeam r e.1) r
    if !(mine r).isEmpty then r
    else
      match saveHeld r cid with
      | .error x => contextFail r x.1 1 x.2
      | .ok r => r.updCluster cid fun c => { c with at_ := none, evicted := true, leaving := false }

/-- Evicts the groups of a leaving cluster's teams, after the matrix work of each team, that of groups that have ended included (10 R318). -/
def evictTeams (r : Run) (cid : Nat) : Run :=
  let r := (r.teams.filter fun e => e.2.cluster == cid && !e.2.ended && e.2.resident).foldl (fun r e =>
    match matrixDrainTeam r e.1 with
    | (r, .failed gid i) => consumeCore r gid i
    | (r, _) => ((teamGroups r e.1).filter fun x => x.2.ctx.isSome).foldl (fun r x => evictGroupCore r x.1) r) r
  leaveCluster r cid

/-- After an act that may have made a cluster leave. -/
def settleCluster (r : Run) (cid : Nat) : Run := if (r.clusters.find cid).any (·.leaving) then evictTeams r cid else r

def clusterOf (r : Run) (gid : Nat) : Nat := (((r.grp gid).bind fun g => r.team g.team).map (·.cluster)).getD 0

/-- Evicts one group; a rollback of its team makes the whole cluster leave (17 R447). -/
def evictGroup (r : Run) (gid : Nat) : Run := settleCluster (evictGroupCore r gid) (clusterOf r gid)

/-- Evicts every team of a cluster (01 R18, 15 R411). -/
def evictCluster (r : Run) (cid : Nat) : Run := evictTeams (r.updCluster cid fun c => { c with leaving := true }) cid

/-- A consumption (17 R449), or a pair mismatch (R447). -/
def consume (r : Run) (gid : Nat) (i : TrapInfo) : Run := settleCluster (consumeCore r gid i) (clusterOf r gid)
def rollbackTeam (r : Run) (gid : Nat) (i : TrapInfo) : Run := settleCluster (rollbackCore r gid i) (clusterOf r gid)

/-! Commits. -/

/-- Whether a team is stopped by such an access of one of its groups. -/
def teamHeld (r : Run) (tid : Nat) : Bool := (teamGroups r tid).any fun e => contextHeld r e.1

/-- A commit (01 R54) of what `act` makes of the team's state: the matrix work that the team has issued completes first, so that what is committed
holds it. It answers whether the commit took place: it does not where the team rolls back, is killed or is held. DEDUCED, log 59. -/
def commitAfter (r : Run) (tid : Nat) (act : Run → Run) : Run × Bool :=
  let settle := fun (r : Run) => settleCluster r (((r.team tid).map (·.cluster)).getD 0)
  if teamHeld r tid then (r, false)
  else
    match matrixDrainTeam r tid with
    | (r, .failed gid i) => (settle (consumeCore r gid i), false)
    | (r, .held) => (settle r, false)
    | (r, .done) =>
      match commitCore (act r) tid [] with
      | .ok r => (r, true)
      | .error e => (settle (commitStop r e), false)

def commitTeam (r : Run) (tid : Nat) : Run × Bool := commitAfter r tid id

end Sys2Proof.Machine
end

