-- ==== Sys2Proof/Machine/Scratch.lean ====
section
/-! DEFINITION. Team scratch and the objects in it: bytes and line states (04 R112, R124 to R127), arrival barriers
(04 R130 to R132), completion records (11 R327), and the end of an engine operation (11 R334). -/
namespace Sys2Proof.Machine

/-- The scratch lines an unfinished transfer still marks (04 R126). -/
def opLines (o : Op) : List Nat :=
  if o.dstSc then (o.pieces.filter fun p => !p.over).flatMap fun p => linesOf p.dst p.len else []

/-! Arrival barriers. -/

/-- One arrival of n bytes (04 R131); a zero wakes every group that waits on the barrier. -/
def arrive (r : Run) (tid a n : Nat) : Run :=
  match r.team tid with
  | none => r
  | some t =>
    if t.ended then r
    else
      let rem := barRemain t a
      let w0 := scrNat t a 8
      let past := w0 / 2 ^ 63 % 2
      let mid := w0 / 2 ^ 48 % 2 ^ 15
      let put := fun (rem past : Nat) => rem + mid * 2 ^ 48 + past * 2 ^ 63
      if rem ≤ n then
        let past := if rem < n || rem = 0 then 1 else past
        let r := r.updTeam tid fun t =>
          setWaiters (scrPut (scrPut t a 8 (put 0 past)) (a + 8) 4 ((barPhase t a).toNat + 1)) a 0
        { r with groups := r.groups.map fun e =>
            if e.2.team = tid then
              (e.1, { e.2 with slices := e.2.slices.map fun s =>
                { s with wait := s.wait.map fun w => if w.kind = 3 && w.object = w64 a then { w with aux := 1 } else w } })
            else e }
      else r.updTeam tid fun t => scrPut t a 8 (put (rem - n) past)

/-! Completion records. -/

/-- Pushes a completion record, or holds it behind earlier ones while its ring is full (11 R327). -/
def postRecord (r : Run) (tid ring : Nat) (ws : List W32) : Run :=
  r.updTeam tid fun t =>
    if t.ended then t
    else if t.held.any (fun h => h.ring == ring && h.lines.isEmpty) || decide (ringRoom t ring < ws.length) then
      { t with held := t.held ++ [{ ring, lines := [], words := ws }] }
    else ringPush t ring ws

/-- Pushes the word of a copy to a STREAM queue once every destination line is FULL (04 R133). -/
def postStream (r : Run) (tid ring : Nat) (lines : List Nat) (ws : List W32) : Run :=
  if (r.team tid).any fun t => lines.any fun n => lineState t n != .full then
    r.updTeam tid fun t => if t.ended then t else { t with held := t.held ++ [{ ring, lines, words := ws }] }
  else postRecord r tid ring ws

/-- Whether a held record only awaits room in its ring: every line that it waits for is FULL (04 R133). -/
def HeldRecord.ripe (h : HeldRecord) (t : Team) : Bool := h.lines.all fun n => lineState t n == .full

/-- Lines that no transfer of the team marks any longer leave FILLING and turn FULL (04 R126); words that waited for them are pushed (R133). -/
def settleLines (r : Run) (tid : Nat) (ns : List Nat) : Run :=
  let marked := (r.ops.filter fun e => e.2.team == tid).flatMap fun e => opLines e.2
  let r := r.updTeam tid fun t => setLines t (ns.filter fun n => !marked.contains n) fun s => if s = .filling then .full else s
  match r.team tid with
  | none => r
  | some t =>
    let due := fun (h : HeldRecord) => !h.lines.isEmpty && h.ripe t
    if !t.held.any due then r
    else (t.held.filter due).foldl (fun r h => postRecord r tid h.ring h.words) (r.updTeam tid fun t => { t with held := t.held.filter fun h => !due h })

end Sys2Proof.Machine
end

