-- ==== Sys2Proof/Machine/Ops.lean ====
section
/-! DEFINITION. Taking a trap: the trap record (17 R433 to R436), user and supervisor delivery (14 R366 to R372), kills
(17 R452, R453), the ends of engine operations (11 R327, R334), causes of landing-handler slices (01 R44) and deferred causes (17 R438); and the return from one
(14 R374, 17 R439). -/
namespace Sys2Proof.Machine

/-! Delivery. -/

/-- A slice that has not exited at the start of a handler: all lanes enabled, empty stack (14 R369, R370). DEDUCED, log 23. -/
def Slice.enter (pc : W64) (frag : Nat) (s : Slice) : Slice :=
  if s.live then
    { s with pc, mask := 0xF, crp := none, stack := [], frag, valid := 0, arrived := none, recorded := none, bar := none, wait := none }.beginRegion
  else s

/-- A slice that starts a user handler: its arrivals stay on record (17 R454). DEDUCED, log 24. -/
def Slice.enterUser (pc : W64) (frag : Nat) (s : Slice) : Slice := { s.enter pc frag with recorded := if s.live then s.arrival else s.recorded }

def entryFrag (g : Grp) : Nat := ((g.slices.find? Slice.live).map (·.frag)).getD 0

/-- User delivery (14 R369): staged increments are discarded and undo copies restored (17 R454), and the handler begins a region. DEDUCED, log 15.
DEDUCED, log 23. DEDUCED, log 24. -/
def deliverUser (r : Run) (gid : Nat) (g : Grp) : Run :=
  let pc := w64 (codeBase r g false + fld g.utvec 31 0)
  let f := entryFrag g
  (groupRegionStart (restoreUndo r gid) gid).updGrp gid fun g => { g with uin := true, slices := g.slices.map (Slice.enterUser pc f) }

/-- A slice keeps what it waits at until the return (01 R51). -/
def Slice.keep (s : Slice) : Slice :=
  { s with kept := if s.live then some { arrived := s.arrived, recorded := s.recorded, bar := s.bar, wait := s.onWait } else none }

/-- A slice goes on waiting where it waited before the handler, unless its barrier generation has completed meanwhile. -/
def Slice.unkeep (s : Slice) : Slice :=
  match s.kept with
  | some k => { s with arrived := k.arrived, recorded := k.recorded, bar := k.bar, wait := k.wait, kept := none }
  | none => s

/-- Where supervisor handlers start (14 R370). -/
def superVector (r : Run) (g : Grp) : W64 :=
  let p := r.part (partOf r g)
  p.scbase + p.stvec

/-- Supervisor delivery (14 R370, R365). DEDUCED, log 23. DEDUCED, log 24. -/
def deliverSuper (r : Run) (gid : Nat) (g : Grp) : Run :=
  let pc := superVector r g
  let f := entryFrag g
  r.updGrp gid fun g =>
    { g with super := true, msk := true, sp := List.replicate 7 0, slices := g.slices.map fun s => Slice.enter pc f s.keep }

/-- Whether a cause goes to the kernel's own handler (14 R366). -/
def toUser (r : Run) (g : Grp) (c : Cause) : Bool :=
  c.delegable && g.utvec.getLsbD (32 + c.code) && (r.part (partOf r g)).pdeleg.getLsbD c.code && !g.uin

/-- A consumption that no handler sees (17 R449): poisoned or tag-failed data met by a lane, a fetch or the matrix unit. -/
def consumes (i : TrapInfo) : Bool :=
  (i.cause == .poison || i.cause == .integrity) && !i.deferred && !i.detail.testBit 2

/-- Kills for a trap at SUPERVISOR level, with the cause that met it as the original one (14 R372). -/
def killMasked (r : Run) (gid : Nat) (i : TrapInfo) : Run := killWithRecord r gid { i with cause := .tmaskDeferred, detail := i.cause.code }

/-- Delivery of a cause to a group that is no handler slice (14 R366): never for LATCH_LOST, a rollback for a pair
mismatch or for a consumption in a protected team, else the record and a handler, or a kill. DEDUCED, log 37. -/
def deliver (r : Run) (gid : Nat) (i : TrapInfo) : Run :=
  match r.grp gid with
  | none => r
  | some g =>
    let r := dropWaits r gid
    if i.cause = .latchLost then resumeGroup r gid
    else if i.cause = .pairMismatch then rollbackTeam r gid i
    else if consumes i then consume r gid i
    else if g.super then killMasked r gid i
    else
      let user := toUser r g i.cause
      let (id, r) := emitGrp r gid (coreUnit (dieOfGrp r g) (coreOfGrp r g)) 0x0005
        (i.cause.code + bit (!user) * 64 + bit i.deferred * 128)
      let met := fun (c : Cause) (a : W64) => { i with cause := c, addr := a, aux := 0, lane := 0, code := 0, deferred := false }
      match writeRecord r gid i (!user) 0 id with
      | .error (.fault f, r) => killMasked (faultRecord r { grpReq r gid g i.pc 7 1 with super := true } f) gid (met (faultCause f.kind) f.va)
      | .error (.data c _ va, r) => killMasked (countData (partOf r g) c r) gid (met c va)
      | .ok r =>
        let r := (dropRemotes r gid fun _ => false).updGrp gid fun g => { g with lat := [] }
        if user then deliverUser r gid g else deliverSuper r gid g

/-- What the stop of a trapping group leaves behind (17 R437): its matrix work completes, and a cause met there is the
one delivered. A team that is held on the way takes the trap later. A deferred cause that is not delivered stays held. DEDUCED, log 49. -/
def takeTrap (r : Run) (gid : Nat) (i : TrapInfo) : Run :=
  let hold := fun (r : Run) => if i.deferred then r.updGrp gid fun g => { g with deferred := i :: g.deferred } else r
  match matrixDrain (settleGroup r gid) gid with
  | (r, .done) => deliver r gid i
  | (r, .failed other j) => deliver (hold r) other j
  | (r, .held) => hold r

/-- Holds a deferred cause, or takes it at once when the group already waits at a switch point (11 R328, 17 R438). DEDUCED, log 75. -/
def deferCause (r : Run) (gid : Nat) (i : TrapInfo) : Run :=
  match r.grp gid with
  | none => r
  | some g =>
    if g.ended then r
    else if !g.super && g.ctx.isSome && !g.evicting && g.deferred.isEmpty && g.remotes.isEmpty && g.slices.any (fun s => s.live && s.wait.any (·.switch)) then
      takeTrap r gid { i with deferred := true }
    else r.updGrp gid fun g => { g with deferred := g.deferred ++ [{ i with deferred := true }] }

/-! Ends of engine operations (11 R327, R328, R334). -/

def opFails (o : Op) : Nat := (o.pieces.filter fun p => p.failure.isSome || p.handlerCause.isSome).length

/-- Bytes before the first failing piece of a copy (11 R329). -/
def copyDone (o : Op) : Nat := ((o.pieces.find? fun p => p.failure.isSome).map (·.ofs)).getD o.total

/-- The deferred trap of a transfer whose pieces failed: its count is the first failing byte of a copy, or the first failing burst. DEDUCED, log 75. -/
def opTrap (o : Op) : Option TrapInfo :=
  o.pieces.findSome? fun p => p.failure.map fun e =>
    { cause := e.1, detail := e.2.1, lane := 0, code := 0, pc := o.pc, addr := e.2.2, aux := p.ofs, deferred := true }

/-- Ends an operation whose last piece is over: deferred trap, completion record, event, end of the team if it was its last work. DEDUCED, log 71. DEDUCED, log 75. -/
def finishOp (r : Run) (opId : Nat) : Run :=
  match r.ops.find opId with
  | none => r
  | some o =>
    let err := opFailure o
    let status := match err with | some c => 2 ^ 31 + c.code * 2 ^ 24 | none => 0
    let r := { r with ops := r.ops.del opId }
    let r := settleLines r o.team (if o.dstSc then o.pieces.flatMap fun p => linesOf p.dst p.len else [])
    let r := match opTrap o with
      | some i => deferCause r o.group i
      | none => r
    let r :=
      match o.kind, o.cmode with
      | .hread, 1 => arrive r o.team o.cpl o.total
      | .hread, 3 => postRecord r o.team o.cpl [o.tag, w32 (status + opFails o % 2 ^ 24)]
      | .hread, _ => r
      | _, 2 => if err.isNone then postStream r o.team o.cpl (o.pieces.flatMap fun p => linesOf p.dst p.len).eraseDups [w32 o.dst] else r
      | _, 3 => postRecord r o.team o.cpl [w32 o.dst, w32 (copyDone o), w32 status]
      | _, _ => r
    let r := doneEvent r o
    settleCluster (tryEndTeam r o.team) (((r.team o.team).map (·.cluster)).getD 0)

/-- Ends it where every piece is over. -/
def tryFinish (r : Run) (opId : Nat) : Run :=
  match r.ops.find opId with
  | some o => if o.pieces.all Piece.over then finishOp r opId else r
  | none => r

/-- Ends a handler slice, with HEND or by a trap (01 R44, 11 R334, R335). -/
def endHandler (r : Run) (gid : Nat) (cause : Option TrapInfo) : Run :=
  match r.grp gid with
  | none => r
  | some g =>
    match g.handler with
    | none => r
    | some h =>
      let r := settleGroup r gid
      let r := { r with groups := r.groups.del gid }
      let r := r.updOp h.op fun o =>
        { o with pieces := updAt o.pieces h.bseq fun p => { p with state := .done, handlerCause := cause.map (·.cause) } }
      let r := match cause with
        | none => r
        | some i =>
          let d := if i.cause == Cause.poison || i.cause == Cause.integrity then i.detail ||| 8 else i.detail
          deferCause r g.parent { i with detail := d, aux := h.bseq, lane := 0, deferred := true }
      settleCluster (tryFinish r h.op) (((r.team g.team).map (·.cluster)).getD 0)

/-- A cause raised by a group or a handler slice (01 R44, 14 R366). LATCH_LOST in a handler slice resumes it at its region entry (01 R50, 02 R71)
where R44 would end it by "every other trap". DEDUCED, log 29. -/
def raise (r : Run) (gid : Nat) (i : TrapInfo) : Run :=
  match r.grp gid with
  | none => r
  | some g =>
    if g.handler.isSome then
      if i.cause = .latchLost then resumeGroup r gid else endHandler r gid (some i)
    else takeTrap r gid i

/-! The return. -/

/-- Whether an offset of the record is a code address (17 R439). -/
def ofsOk (size ofs : Nat) (noneOk : Bool) : Bool := (ofs % 8 == 0 && decide (ofs < size)) || (noneOk && ofs == 0xFFFFFFFF)

/-- A word of a trap record as the handler has left it: with the buffered stores of a protected team over memory (01 R53). DEDUCED, log 57. -/
def peekSeen (r : Run) (g : Grp) (part die a : Nat) : Option W64 :=
  match translate r (unitReq part die 0 0) (w64 a) with
  | (.error _, _) => none
  | (.ok l, r) =>
    match readLeaf r part l (w64 a) 8 with
    | .error (_, _) => none
    | .ok (bs, r) =>
      let sts := if isProtected r g.team then ((r.team g.team).map Team.buffered).getD [] else []
      some (w64 (leNat (overlay sts memPlace (l.pa (w64 a)) bs)))

/-- The words of a slice's entry. -/
def entryWords (r : Run) (g : Grp) (part die a s : Nat) : Option (List W64) :=
  ((List.range 10).map fun i => peekSeen r g part die (a + 0x100 + 0x78 * s + 8 * i)).foldr
    (fun w acc => match w, acc with | some w, some t => some (w :: t) | _, _ => none) (some [])

structure SliceBack where
  entry : Nat
  crp : Nat
  mask : BitVec 4
  frag : Nat
  stack : List (Nat × Nat × BitVec 4 × Bool)
  depth : Nat
  deriving DecidableEq, Repr

/-- Reads an entry; the stack comes out bottom first. -/
def sliceBack (ws : List W64) : SliceBack :=
  let e0 := nthD 0 ws 0
  let e1 := nthD 0 ws 1
  let depth := fld e1 55 52
  { entry := fld e0 63 32, crp := fld e0 31 0, mask := BitVec.ofNat 4 (fld e1 59 56), frag := fld e1 44 40, depth
    stack := (List.range (min depth 8)).map fun i =>
      (fld (nthD 0 ws (2 + i)) 63 32, fld (nthD 0 ws (2 + i)) 31 0, BitVec.ofNat 4 (fld e1 (5 * i + 3) (5 * i)), e1.getLsbD (5 * i + 4)) }

/-- The checks of R439 on one live slice. -/
def sliceBackOk (size : Nat) (s : Slice) (b : SliceBack) : Bool :=
  ofsOk size b.entry false && ofsOk size b.crp true && decide (b.depth ≤ 8) && b.mask &&& s.gone == 0 &&
    b.stack.all fun e => ofsOk size e.1 e.2.2.2 && ofsOk size e.2.1 true && e.2.2.1 &&& s.gone == 0

def Slice.restore (base : Nat) (s : Slice) (b : SliceBack) : Slice :=
  let back : Nat × Nat × BitVec 4 × Bool → RcEntry := fun e =>
    { pc := ofsPc base e.1, mask := e.2.2.1, rpc := ofsPc base e.2.1, kind := if e.2.2.2 then .join else .path }
  Slice.unkeep ({ s with pc := w64 (base + b.entry), mask := b.mask, crp := ofsPc base b.crp, frag := b.frag, wait := none
                         stack := (b.stack.map back).reverse }.beginRegion)

/-- The records of a group's slices with the slices they are for; none where the record cannot be read. DEDUCED, log 57. -/
def readBack (r : Run) (g : Grp) (part die a : Nat) : Option (List (Nat × SliceBack)) :=
  g.liveSlices.foldr (fun n acc =>
    match entryWords r g part die a n, acc with
    | some ws, some t => some ((n, sliceBack ws) :: t)
    | _, _ => none) (some [])

/-- Live slices with one FRAG have one ENTRY (17 R439). -/
def fragsAgree (bs : List (Nat × SliceBack)) : Bool :=
  bs.all fun x => bs.all fun y => x.2.frag != y.2.frag || x.2.entry == y.2.entry

/-- The causes that a kill by RESUME 3 may name. -/
def recordCause (code : Nat) : Cause :=
  ([Cause.illegalOpcode, .illegalOperand, .formatDivergence, .formatReserved, .accToken, .scratchBound, .misaligned,
    .pageFault, .ownerFault, .poison, .integrity, .queueUnbound, .remoteError, .peerDead, .handlerViolation, .privilege,
    .capability, .breakpoint, .software, .arith, .spawnEntry].find? fun c => c.code == code).getD .watchdog

/-- Every lane of a group ends (17 R439). -/
def endAll (gid : Nat) (r : Run) : Run :=
  leaveGroup (r.updGrp gid fun g =>
    { g with rsts := [], slices := g.slices.map fun s => ({ s with stack := [], mask := 0, gone := 0xF, arrived := none, recorded := none, bar := none, kept := none, wait := none }) }) gid

/-- What the reads of a record by its return leave. DEDUCED, log 57. -/
def recordReads (r : Run) (part die a : Nat) (live : List Nat) : Run :=
  live.foldl (fun r n => unitRead r part die (a + 0x100 + 0x78 * n) 80) (unitRead r part die a 32)

/-- The return to USER level: the handler's own region holds and undo copies go with it. DEDUCED, log 15. -/
def Grp.leaveSuper (g : Grp) : Grp :=
  { g with super := false, msk := false, lat := [], holds := g.holds.filter fun e => decide (e.1 < 8), undo := g.undo.filter fun e => decide (e.1 < 8) }

/-- The arrival that stays on record for a slice when a handler returns elsewhere (17 R454). DEDUCED, log 24. -/
def Slice.keptArrival (s : Slice) : Option (BitVec 32 × W64) := s.kept.bind fun k => k.arrived.orElse fun _ => k.recorded

/-- TRET (14 R374, 17 R439): none where a check fails, which is a trap at SUPERVISOR level; else the state, and whether the instruction has
completed, which it has not where the group's matrix work (10 R316) or the commit of RESUME 2 does not complete. Ending and killing act through the shared operations. DEDUCED,
log 24. DEDUCED, log 29. DEDUCED, log 57. -/
def returnFrom (r : Run) (gid : Nat) : Option (Run × Bool) :=
  match r.grp gid with
  | none => none
  | some g =>
    match r.team g.team with
    | none => none
    | some t =>
      match r.launch t.launch with
      | none => none
      | some l =>
        let a := slotAddr l t g
        match peekSeen r g l.part t.die a, peekSeen r g l.part t.die (a + 8), peekSeen r g l.part t.die (a + 16), peekSeen r g l.part t.die (a + 24),
          readBack r g l.part t.die a with
        | some w0, some w1, some w2, some w3, some bs =>
          let resume := fld w0 59 58
          let newpc := fld w3 31 0
          let size := l.codeSize
          if !(bs.all fun x => (g.slices[x.1]?).all fun s => sliceBackOk size s x.2) || !fragsAgree bs ||
              (resume == 1 && !ofsOk size newpc false) then none
          else
            let r := recordReads r l.part t.die a (g.liveSlices)
            let level := fun (r : Run) => (restoreUndo r gid).updGrp gid Grp.leaveSuper
            let back := fun (r : Run) => r.updGrp gid fun g => bs.foldl (fun g x => g.updSlice x.1 fun s => s.restore l.codeBase x.2) g
            some (match matrixDrain r gid, resume with
            | (r, .failed other i), _ => (consume r other i, false)
            | (r, .held), _ => (r, false)
            | (r, .done), 0 => (joinAll 32 (back (level r)) gid, true)
            | (r, .done), 1 =>
              let pc := w64 (l.codeBase + newpc)
              let f := entryFrag g
              ((groupRegionStart (level r) gid).updGrp gid fun g => { g with slices := g.slices.map fun s =>
                if s.live then { s with pc, mask := 0xF &&& ~~~s.gone, crp := none, stack := [], frag := f, arrived := none, recorded := s.keptArrival, bar := none, wait := none, kept := none }.beginRegion else s }, true)
            | (r, .done), 2 =>
              if isProtected r g.team then
                match commitAfter r g.team fun r => endAll gid (level r) with
                | (r, true) => (tryEndTeam (performCommitted r g.team) g.team, true)
                | x => x
              else (tryEndTeam (endAll gid (level r)) g.team, true)
            | (r, .done), _ =>
              (killWithRecord (back (level r)) gid { cause := recordCause (fld w0 37 32), detail := fld w0 31 24, lane := fld w0 22 16
                                                     code := fld w0 11 0, pc := w1, addr := w2, aux := fld w3 63 32, deferred := w0.getLsbD 61 }, true))
        | _, _, _, _, _ => none

end Sys2Proof.Machine
end

