-- ==== Sys2Proof/Machine/Operands.lean ====
section
/-! DEFINITION. Operands: what each kind of operand field reads and writes (02 R57 to R72, 06 R175 to R178), the constants
(R64), special registers (R65 to R68, 13 R361), predicates, masks, latches and results. -/
namespace Sys2Proof.Machine

/-- The instruction being issued: its group (as it stood before), fragment, lanes and fields. `pops` are the words popped from
queue registers, one value per entry. -/
structure Ctx where
  gid : Nat
  grp : Grp
  t : Team
  l : Launch
  frag : Nat
  slices : List Nat
  enabled : W128
  active : W128
  pc : W64
  f : Fields
  sh : OpShape
  pops : List (Nat × List Nat)
  deriving DecidableEq, Repr

def Ctx.lanes (c : Ctx) : List Nat := lanesOf c.active c.grp.width
def Ctx.lowest (c : Ctx) : Option Nat := c.lanes.head?
def Ctx.part (c : Ctx) : Nat := c.l.part
def Ctx.isHandler (c : Ctx) : Bool := c.grp.handler.isSome
/-- Whether the lanes have shadows that are compared (01 R52, R53). DEDUCED, log 10. -/
def Ctx.shadowed (c : Ctx) : Bool := c.l.prot && !c.isHandler
def Ctx.len (c : Ctx) : Nat := if c.sh.word2 == .short then 8 else 16
def Ctx.nextPc (c : Ctx) : W64 := c.pc + w64 c.len

def Ctx.trap (c : Ctx) (cause : Cause) (detail lane : Nat) (addr : W64) : TrapInfo :=
  { cause, detail, lane, code := 0, pc := c.pc, addr, aux := 0, deferred := false }
/-- The request of a lane's own access on the LANE path; `kind` is the permission (16 R521). -/
def Ctx.req (r : Run) (c : Ctx) (kind : Nat) : Req := grpReq r c.gid c.grp c.pc 0 kind

/-- Why an instruction does not complete: a trap, with the translation faults behind it; a trap that leaves something behind; a wait, with
what its beginning does (told whether the group has no such wait yet); a wait after something has been done that stays done, the
words moved through queue registers included; or something that happens in place of the instruction, such as a commit that it needs first.
Everything else is as it was before the instruction. -/
inductive Stop where
  | trap (t : TrapInfo) (faults : List (Req × FaultInfo))
  | report (t : TrapInfo) (keep : Run → Run)
  | wait (w : Wait) (start : Bool → Run → Run)
  | sent (w : Wait) (keep : Run → Run)
  | undone (act : Run → Run)

/-- The effect of an instruction that has passed the checks of 06 R184, steps 4 to 8. -/
abbrev Body := Ctx → Run → Except Stop Run

def Ctx.fail (c : Ctx) (cause : Cause) (lane : Nat) : Stop := .trap (c.trap cause 0 lane 0) []
/-- MISALIGNED at an address or an offset, which the record names (17 R434). DEDUCED, log 136. -/
def Ctx.misaligned (c : Ctx) (lane a : Nat) : Stop := .trap (c.trap .misaligned 0 lane (w64 a)) []
def Ctx.illegal (c : Ctx) : Stop := c.fail .illegalOperand (c.lowest.getD 0)
def Ctx.wait (kind reason : Nat) (object : W64) (start : Bool → Run → Run) : Stop :=
  .wait { kind, reason, object, since := 0, aux := 0 } start
/-- The wait for peers (19 R480). -/
def remoteWait : Wait := { kind := 9, reason := 11, object := 0, since := 0, aux := 0 }

/-- A trap for what an access met (08 R244, 16 R425, 17 R449); data that fails leaves what its reads leave (17 R450, R451). DEDUCED, log 39. -/
def accStop (c : Ctx) (q : Req) (lane : Nat) (e : AccFail) (reads : Run → Run := id) : Stop :=
  match e with
  | .fault f => .trap (c.trap (faultCause f.kind) f.kind lane f.va) [(q, f)]
  | .data cause d va => .report (c.trap cause d lane va) fun r => countData q.part cause (reads r)

/-- Reads and writes of a lane's own that stop the instruction where they fail. -/
def accRead (r : Run) (c : Ctx) (q : Req) (lane : Nat) (a : W64) (n : Nat) : Except Stop (List Byte × Run) :=
  match readVirt r q a n with
  | .ok x => .ok x
  | .error (e, _) => .error (accStop c q lane e fun r => virtRead r q a n)
def accCheck (r : Run) (c : Ctx) (q : Req) (lane : Nat) (a : W64) (n : Nat) : Except Stop Run :=
  match checkVirt r q a n with
  | .ok x => .ok x
  | .error (e, _) => .error (accStop c q lane e)
def accWrite (r : Run) (c : Ctx) (q : Req) (lane : Nat) (a : W64) (bs : List Byte) : Except Stop Run :=
  match writeVirt r q a bs with
  | .ok x => .ok x
  | .error (e, _) => .error (accStop c q lane e)

/-! Semaphores (11 R339, R340). -/

def bytesWords (bs : List Byte) : List W64 := (chunksOf bs.length 8 bs).map fun b => w64 (leNat b)

/-- The checks of a post or a take of n words, in the order of R340, and the header's words W0 to W7. DEDUCED, log 79. The whole word array must
translate, whichever words move. DESIGN CHOICE, log 164. -/
def semOpen (r : Run) (c : Ctx) (a : W64) (n : Nat) : Except Stop (List W64 × Run) :=
  let lane := c.lowest.getD 0
  let q := Ctx.req r c 2
  if a.toNat % 64 != 0 then .error (c.misaligned lane a.toNat)
  else do
    let (bs, r) ← accRead r c q lane a 64
    let ws := bytesWords bs
    let cap := fld (nthD 0 ws 1) 3 0
    if cap = 0 || decide (10 < cap) then .error c.illegal
    else
      let r ← accCheck r c q lane (a + 64) (4 * 2 ^ cap)
      if 2 ^ cap < n then .error c.illegal else .ok (ws, r)


/-- SEMWAIT's step for n words (R340); it waits while there are fewer. -/
def semTake (r : Run) (c : Ctx) (a : W64) (n : Nat) : Except Stop (List W32 × Run) := do
  let (ws, r) ← semOpen r c a n
  let q := Ctx.req r c 2
  let lane := c.lowest.getD 0
  let w0 := nthD 0 ws 0
  let cap := fld (nthD 0 ws 1) 3 0
  if semCount w0 < n then
    .error (Ctx.wait 7 8 a fun first r =>
      if first then
        match readVirt r q (a + 8) 8 with
        | .ok (bs, r) =>
          match writeVirt r q (a + 8) (leBytes 8 (leNat bs + 2 ^ 32)) with
          | .ok r => r
          | .error _ => r
        | .error _ => r
      else r)
  else
    let head := fld w0 31 0
    let (vals, r) ← (List.range n).foldlM (init := (([] : List W32), r)) fun (acc : List W32 × Run) i => do
      let (bs, r) ← accRead acc.2 c q lane (a + w64 (64 + 4 * ((head + i) % 2 ^ cap))) 4
      .ok (acc.1 ++ [w32 (leNat bs)], r)
    let head' := (head + n) % 2 ^ 32
    let r ← accWrite r c q lane a (leBytes 8 (fld w0 63 32 * 2 ^ 32 + head'))
    let r ← if head' = fld w0 63 32 then do
        let (bs, r) ← accRead r c q lane (a + 8) 8
        let w1 := leNat bs
        accWrite r c q lane (a + 8) (leBytes 8 (w1 - nfld w1 11 8 * 256))
      else .ok r
    .ok (vals, r)

/-- SEMPOST's step (R340); it waits while there is no room. -/
def semPost (r : Run) (c : Ctx) (a : W64) (tag : W32) (vals : List W32) : Except Stop Run := do
  let n := vals.length
  let (ws, r) ← semOpen r c a n
  let q := Ctx.req r c 2
  let lane := c.lowest.getD 0
  let w0 := nthD 0 ws 0
  let cap := fld (nthD 0 ws 1) 3 0
  if 2 ^ cap < semCount w0 + n then .error (Ctx.wait 7 9 a fun _ r => r)
  else
    let tail := fld w0 63 32
    let r ← (List.range n).foldlM (init := r) fun r i =>
      accWrite r c q lane (a + w64 (64 + 4 * ((tail + i) % 2 ^ cap))) (leBytes 4 (nthD 0 vals i).toNat)
    let r ← accWrite r c q lane a (leBytes 8 ((tail + n) % 2 ^ 32 * 2 ^ 32 + fld w0 31 0))
    let expect := [fld (nthD 0 ws 2) 31 0, fld (nthD 0 ws 2) 63 32, fld (nthD 0 ws 3) 31 0, fld (nthD 0 ws 3) 63 32]
    let w1 := nthD 0 ws 1
    let posted := (List.range 4).foldl (fun w i => if tag != 0 && nthD 0 expect i == tag.toNat then w ||| w64 (2 ^ (8 + i)) else w) w1
    if posted = w1 then .ok r else accWrite r c q lane (a + 8) (leBytes 8 posted.toNat)

/-! Constants (02 R64). -/

/-- log2 e, ln 2 and π to 260 fraction bits. -/
def constLog2e : Dy := ⟨2672842766669574211887770024979960511796426922130096802413542443912580169091324, -260⟩
def constLn2 : Dy := ⟨1284175362975860941795742467300961128543850681785439145697965880086719311618750, -260⟩
def constPi : Dy := ⟨5820345230268261188483759084443677802454294037254278879340354417887022311458964, -260⟩

/-- The integer column. DEDUCED, log 13. -/
def constInt (n : Nat) (e : Elt) : Int :=
  match n with
  | 0 => 0 | 1 => 1 | 2 => -1 | 3 => 2 | 4 => 4 | 5 => 8 | 6 => 16 | 7 => 32 | 8 => 64
  | 9 => intMax e | 10 => intMin e | 11 => 255
  | 12 => 0x5555555555555555 | 13 => 0x3333333333333333 | 14 => 0x0F0F0F0F0F0F0F0F | _ => 0x00FF00FF00FF00FF

/-- The float column, rounded once under RN. DEDUCED, log 13. -/
def constFloat (n : Nat) (e : Elt) : Nat :=
  let r := fun x => (roundDy e 0 false false x).1
  match n with
  | 0 => zeroBits e false | 1 => r ⟨1, 0⟩ | 2 => r ⟨-1, 0⟩ | 3 => r ⟨2, 0⟩ | 4 => r ⟨1, -1⟩ | 5 => r ⟨1, -2⟩
  | 6 => (match e with | .e4m3 => 0x7F | .l6 => 0x20 | _ => infBits e false)
  | 7 => (match e with | .e4m3 => 0xFF | .l6 => 0x20 | _ => infBits e true)
  | 8 => defaultNan e | 9 => maxBits e false | 10 => maxBits e true
  | 11 => (match e with | .l6 => 1 | _ => 2 ^ (fmtOf e).fbits)
  | 12 => r constLog2e | 13 => r constLn2 | 14 => r constPi | _ => r (constPi.scale 1)

/-- DEDUCED, log 13. -/
def constBits (n : Nat) (e : Elt) : Nat :=
  if isFloatElt e then constFloat n e else lowBits e.bits (constInt n e)

/-! Registers. -/

def vReg (g : Grp) (k l : Nat) : W32 := Sparse.get (0 : W32) g.v (128 * k + l)
/-- A g register; at SUPERVISOR level g56 to g63 are the bank's (14 R365). -/
def gReg (g : Grp) (n : Nat) : W64 := if g.super && decide (56 ≤ n) then nthD 0 g.sg (n - 56) else nthD 0 g.g n
def setG (g : Grp) (n : Nat) (w : W64) : Grp :=
  if g.super && decide (56 ≤ n) then { g with sg := updAt g.sg (n - 56) fun _ => w } else { g with g := updAt g.g n fun _ => w }
def latchReg (g : Grp) (k l : Nat) : W32 := Sparse.get (0 : W32) g.lat (8 * l + k)
/-- A predicate in every lane; p7 reads true (02 R63), and the bank's predicates stand in at SUPERVISOR level (14 R365). -/
def predMask (g : Grp) (n : Nat) : W128 := if n = 7 then BitVec.allOnes 128 else nthD 0 (if g.super then g.sp else g.p) n
def setPred (g : Grp) (n : Nat) (m : W128) : Grp :=
  if n = 7 then g else if g.super then { g with sp := updAt g.sp n fun _ => m } else { g with p := updAt g.p n fun _ => m }
def maskReg (g : Grp) (n : Nat) : W128 := nthD 0 g.m n

/-- A special register in one lane (02 R65 to R68; in a handler slice 13 R361). -/
def specialReg (r : Run) (g : Grp) (t : Team) (l : Launch) (n lane : Nat) : W64 :=
  let h := g.handler
  match n with
  | 0 => w64 lane
  | 1 => w64 (lane / 4)
  | 2 => w64 g.num
  | 3 => w64 t.num
  | 4 => w64 (t.num / (l.rows * l.cols))
  | 5 => w64 t.cteam
  | 6 => w64 g.width
  | 7 => w64 l.ngroups
  | 8 => w64 l.nteams
  | 9 => w64 (coreOfGrp r g)
  | 10 => w64 (dieOfGrp r g)
  | 11 => w64 (r.part l.part).devid.toNat
  | 12 => ((g.slice (lane / 4)).map (·.rge)).getD 0
  | 13 => w64 (Sparse.get (0 : BitVec 5) g.fflags lane).toNat
  | 14 => w64 (128 + (List.range 7).foldl (fun acc i => acc + bit ((predMask g i).getLsbD lane) * 2 ^ i) 0)
  | 15 => w64 (((g.slice (lane / 4)).map (·.mask.toNat)).getD 0)
  | 16 => w64 ((h.map (·.bx.toNat)).getD 0)
  | 17 => w64 ((h.map (·.by_.toNat)).getD 0)
  | 18 => w64 ((h.map (·.bz.toNat)).getD 0)
  | 19 => w64 ((h.map (·.bseq)).getD 0)
  | 20 => if h.isSome then ((r.grp g.parent).map (·.utvec)).getD g.utvec else g.utvec
  | 21 => w64 l.kernid.toNat
  | _ => w64 l.launchid.toNat

/-- The popped value that a lane reads (02 R72): one for all lanes of a UNIFORM binding, else one each. DEDUCED, log 38. DEDUCED, log 137. -/
def popVal (c : Ctx) (q lane : Nat) : Nat :=
  match c.pops.find? (fun e => e.1 == q) with
  | none => 0
  | some e =>
    let lw := ((c.grp.q.find q).map (·.lw)).getD false
    nthD 0 e.2 (if lw then ((c.lanes.findIdx? (· == lane)).getD 0) else 0)

/-- The bits of a source operand in one lane, at the width of its format (02 R59, R60, R64, R65, R70; 07 R203). -/
def readSrc (r : Run) (c : Ctx) (o : Opnd) (e : Elt) (lane : Nat) : Nat :=
  let raw : Nat :=
    match o with
    | .v n => if e.wide then (vReg c.grp n.toNat lane).toNat + (vReg c.grp (n.toNat + 1) lane).toNat * 2 ^ 32 else (vReg c.grp n.toNat lane).toNat
    | .g n => (gReg c.grp n.toNat).toNat
    | .b n => if e.wide then (latchReg c.grp n.toNat lane).toNat + (latchReg c.grp (n.toNat + 1) lane).toNat * 2 ^ 32 else (latchReg c.grp n.toNat lane).toNat
    | .q n => popVal c n.toNat lane
    | .k n => constBits n.toNat e
    | .sr n => (specialReg r c.grp c.t c.l n.toNat lane).toNat
    | .bad _ => 0
  raw % 2 ^ e.bits

/-- The 16-byte operand vk to vk+3 (08 R241). -/
def readQuad (c : Ctx) (o : Opnd) (lane : Nat) : Nat :=
  match o with
  | .v n => (List.range 4).foldl (fun acc i => acc + (vReg c.grp (n.toNat + i) lane).toNat * 2 ^ (32 * i)) 0
  | _ => 0

/-- A uniform operand: its value in the lowest active lane. -/
def readUniform (r : Run) (c : Ctx) (o : Opnd) (e : Elt) : Nat := readSrc r c o e (c.lowest.getD 0)

/-- The index that a predicate, mask or tile field names (06 R176). -/
def regIndex (o : Opnd) (n : Nat) : Nat := o.bits.toNat % n

/-! Results. -/

/-- The 32-bit words of a result. -/
def resWords (w : ResW) (v : Nat) : List W32 := (List.range w.words).map fun i => w32 (v >>> (32 * i))

/-- What a g register receives (02 R60). -/
def resG (w : ResW) (v : Nat) : W64 :=
  match w with
  | .i32 => BitVec.ofInt 64 (sext 32 v)
  | .n32 => w64 (v % 2 ^ 32)
  | .h16 => w64 (v % 2 ^ 16)
  | _ => w64 v

/-- What the words of a result are for a v register (02 R60). -/
def resV (w : ResW) (v : Nat) : Nat := match w with | .h16 => v % 2 ^ 16 | _ => v

def addOnce (l : List Nat) (ns : List Nat) : List Nat := ns.foldl (fun l n => if l.contains n then l else l ++ [n]) l

/-- The register lines that lanes of register k lie in, as keys 4 k + pass (02 R75). -/
def lineKeys (prot : Bool) (k : Nat) (lanes : List Nat) : List Nat :=
  (lanes.map fun l => 4 * k + (if prot then 2 * l else l) / 32).eraseDups

/-- Writes v registers k … of lanes. -/
def writeV (g : Grp) (prot : Bool) (k : Nat) (w : ResW) (lanes : List Nat) (val : Nat → Nat) : Grp :=
  let kvs := lanes.flatMap fun l =>
    let ws := resWords w (resV w (val l))
    (List.range ws.length).map fun i => (128 * (k + i) + l, nthD 0 ws i)
  { g with v := Sparse.setAll (0 : W32) g.v kvs
           dirty := if g.handler.isSome then g.dirty else
             (List.range w.words).foldl (fun d i => addOnce d (lineKeys prot (k + i) lanes)) g.dirty }

/-- The latch shift of one lane result (02 R69). DEDUCED, log 14. -/
def shiftLatches (g : Grp) (slices : List Nat) (active : W128) (w : ResW) (val : Nat → Nat) : Grp :=
  let n := w.words
  let lanes := slices.flatMap fun s => (List.range 4).map (4 * s + ·)
  let kvs := lanes.flatMap fun l =>
    let ws := if active.getLsbD l then resWords w (resV w (val l)) else List.replicate n 0
    (List.range 8).map fun k => (8 * l + k, if k < n then nthD 0 ws k else latchReg g (k - n) l)
  let g := { g with lat := Sparse.setAll (0 : W32) g.lat kvs }
  g.updSlices slices fun s => { s with valid := (s.valid <<< n) ||| BitVec.ofNat 8 (2 ^ n - 1) }

/-- Words pushed to a queue register for a result, in lane order (02 R72). DEDUCED, log 137. -/
def pushVals (c : Ctx) (q : Nat) (w : ResW) (val : Nat → Nat) : List W32 :=
  let lw := ((c.grp.q.find q).map (·.lw)).getD false
  (if lw then c.lanes else c.lanes.take 1).flatMap fun l => resWords w (resV w (val l))

/-- Writes a predicate in active lanes (07 R205). -/
def writePred (r : Run) (c : Ctx) (o : Opnd) (val : Nat → Bool) : Run :=
  let n := regIndex o 8
  let set := maskOf (c.lanes.filter val)
  r.updGrp c.gid fun g => setPred g n ((predMask g n &&& ~~~c.active) ||| set)

def writeMask (r : Run) (c : Ctx) (o : Opnd) (m : W128) : Run :=
  r.updGrp c.gid fun g => { g with m := updAt g.m (regIndex o 16) fun _ => m }

/-- Writes an instruction's result (02 R60 to R62, R69, R72): the register, the latches, or the queue. A push to a ring here has
found its room; a push to a semaphore may yet wait. DEDUCED, log 14. -/
def writeRes (r : Run) (c : Ctx) (w : ResW) (val : Nat → Nat) : Except Stop Run :=
  let isV := match c.f.d with | .v _ => true | _ => false
  let r := if c.f.w || isV then r.updGrp c.gid fun g => shiftLatches g c.slices c.active w val else r
  if c.f.w then .ok r
  else
    match c.f.d with
    | .v n => .ok (r.updGrp c.gid fun g => writeV g c.l.prot n.toNat w c.lanes val)
    | .g n =>
      match c.lowest with
      | some l => .ok (r.updGrp c.gid fun g => setG g n.toNat (resG w (val l)))
      | none => .ok r
    | .q n =>
      match c.grp.q.find n.toNat with
      | some b =>
        let ws := pushVals c n.toNat w val
        if ws.isEmpty then .ok r
        else if b.kind < 4 then .ok (r.updTeam c.grp.team fun t => ringPush t b.obj.toNat ws)
        else semPost r c b.obj 0 ws
      | none => .ok r
    | _ => .ok r

end Sys2Proof.Machine
end

