-- ==== Sys2Proof/Machine/Flags.lean ====
section
/-! DEFINITION. The sticky exception flags of a lane, %fflags (02 R67). -/
namespace Sys2Proof.Machine

/-- Sets the flags raised in active lanes; a flag once set stays. -/
def raiseFlags (r : Run) (c : Ctx) (fl : Nat → BitVec 5) : Run :=
  r.updGrp c.gid fun g =>
    { g with fflags := Sparse.setAll (0 : BitVec 5) g.fflags (c.lanes.map fun l => (l, Sparse.get 0 g.fflags l ||| fl l)) }

/-- Gives the flags of active lanes a new value (07 R238). -/
def putFlags (r : Run) (c : Ctx) (fl : Nat → BitVec 5) : Run :=
  r.updGrp c.gid fun g => { g with fflags := Sparse.setAll (0 : BitVec 5) g.fflags (c.lanes.map fun l => (l, fl l)) }

end Sys2Proof.Machine
end

