-- ==== Sys2Proof/Machine/Issue.lean ====
section
/-! DEFINITION. The issue of one instruction (06 R184): the checks every instruction shares, in their order; queue registers (02 R72 to
R74); the advance of the program counters, the switch point (R50, R71) and the region start (R46); the comparison of lane pairs and the
commits of a protected launch (17 R443 to R446, 21 R515); traps and waits. -/
namespace Sys2Proof.Machine

/-! The shared checks (06 R184, steps 4 to 8). -/

/-- The issuing group's team as it stands. -/
def curTeam (r : Run) (c : Ctx) : Team := (r.team c.grp.team).getD c.t

def gOk (glim : Nat) (super : Bool) (n : Nat) : Bool := decide (n < glim) || (super && decide (56 ≤ n))

/-- A source field against R57 to R59, R70, R175, R176, R178 and R241. -/
def srcFieldOk (vlim glim : Nat) (super : Bool) (o : Opnd) (k : SField) : Bool :=
  match k with
  | .none => true
  | .val e =>
    match o with
    | .v n => decide (n.toNat + bit e.wide < vlim) && (!e.wide || n.toNat % 2 == 0)
    | .g n => gOk glim super n.toNat
    | .b n => !e.wide || n.toNat % 2 == 0
    | .q _ => true
    | .k _ => true
    | .sr n => decide (n.toNat < 23)
    | .bad _ => false
  | .pred => o.bits.toNat / 8 == 0
  | .mask => o.bits.toNat / 16 == 0
  | .tile => o.bits.toNat / 8 == 0
  | .gonly => match o with | .g n => gOk glim super n.toNat | _ => false
  | .quad => match o with | .v n => n.toNat % 4 == 0 && decide (n.toNat + 3 < vlim) | _ => false
  | .fw => match o with | .v n => decide (n.toNat < vlim) | _ => false

/-- A register destination for `n` words; a queue where `q` allows one. -/
def regDestOk (vlim glim : Nat) (super q : Bool) (o : Opnd) (n : Nat) : Bool :=
  match o with
  | .v k => k.toNat % n == 0 && decide (k.toNat + n - 1 < vlim)
  | .g k => n != 4 && gOk glim super k.toNat
  | .q _ => q && n != 4
  | _ => false

/-- A destination field (R57 to R62, R174 to R176, 08 R254, 09 R270). -/
def dstFieldOk (vlim glim : Nat) (super : Bool) (f : Fields) (k : DField) : Bool :=
  if f.w then (match f.d with | .q _ => false | _ => true)
  else
    match k with
    | .none => true
    | .res w => regDestOk vlim glim super true f.d w.words
    | .cas e => regDestOk vlim glim super false f.d (eltRes e).words
    | .casQ e => regDestOk vlim glim super false f.d (eltRes e).words
    | .link => regDestOk vlim glim super false f.d 1
    | .pred => f.d.bits.toNat / 8 == 0
    | .mask => f.d.bits.toNat / 16 == 0
    | .tile => f.d.bits.toNat / 8 == 0
    | .gonly => match f.d with | .g n => gOk glim super n.toNat | _ => false
    | .after => match f.d with | .g n => gOk glim super n.toNat | _ => true

/-- The source operands with their formats; a compare value in D is one (08 R254). -/
def sources (sh : OpShape) (f : Fields) : List (Opnd × Elt) :=
  let val := fun (o : Opnd) (k : SField) => match k with | .val e => [(o, e)] | .fw => [(o, Elt.n32)] | _ => []
  val f.a sh.a ++ val f.b sh.b ++ val f.c sh.c ++
    (match sh.d with | .cas e => [(f.d, e)] | .casQ e => [(f.d, e)] | _ => [])

/-- Operand fields that name registers, for the checks of a handler slice. -/
def namesHighV (sh : OpShape) (f : Fields) : Bool :=
  let high := fun (o : Opnd) => match o with | .v n => decide (32 ≤ n.toNat) | _ => false
  let src := fun (o : Opnd) (k : SField) => match k with | .val _ => high o | .quad => high o | .fw => high o | _ => false
  src f.a sh.a || src f.b sh.b || src f.c sh.c ||
    (match sh.d with | .res _ => !f.w && high f.d | .cas _ => high f.d | .casQ _ => high f.d | .link => !f.w && high f.d | _ => false)

/-- Queue registers read, each once with the words of one value: the wider reading where two fields differ (02 R73). DEDUCED, log 38. -/
def queueReads (sh : OpShape) (f : Fields) : List (Nat × Nat) :=
  (sources sh f).foldl (fun acc e =>
    match e.1 with
    | .q n =>
      let w := 1 + bit e.2.wide
      if acc.any (fun x => x.1 == n.toNat) then acc.map fun x => if x.1 = n.toNat then (x.1, max x.2 w) else x
      else acc ++ [(n.toNat, w)]
    | _ => acc) []

/-- The queue register written, with the words of one value. -/
def queueWrite (sh : OpShape) (f : Fields) : Option (Nat × Nat) :=
  if f.w then none
  else
    match sh.d, f.d with
    | .res w, .q n => some (n.toNat, w.words)
    | _, _ => none

/-- Words that an instruction moves through a binding: one value, or one for each active lane (02 R72). DEDUCED, log 137. -/
def Ctx.queueWords (c : Ctx) (b : QBind) (w : Nat) : Nat := if b.lw then w * c.lanes.length else if c.active = 0 then 0 else w

/-- Whether the words through a ring binding exceed its capacity (02 R74). -/
def Ctx.overRing (c : Ctx) (e : Nat × Nat) : Bool :=
  match c.grp.q.find e.1 with
  | some b => decide (b.kind < 4) && decide (2 ^ ringCapLog c.t b.obj.toNat < c.queueWords b e.2)
  | none => false

/-- Whether a latch is read whose valid bit is clear in a slice of the fragment (02 R71). -/
def Ctx.latchLost (c : Ctx) : Bool :=
  (sources c.sh c.f).any fun e =>
    match e.1 with
    | .b n => c.slices.any fun s => (c.grp.slice s).any fun x =>
        !x.valid.getLsbD n.toNat || (e.2.wide && !x.valid.getLsbD (n.toNat + 1))
    | _ => false

/-- The register lines that the operand fields name in the passes of the issuing fragment, as keys 4 · register + pass (02 R76, 01 R15). -/
def Ctx.lines (c : Ctx) : List Nat :=
  let words := fun (o : Opnd) (n : Nat) => match o with | .v k => (List.range n).map (k.toNat + ·) | _ => []
  let src := fun (o : Opnd) (k : SField) =>
    match k with | .val e => words o (1 + bit e.wide) | .quad => words o 4 | .fw => words o 1 | _ => []
  let dst := match c.sh.d with
    | .res w => if c.f.w then [] else words c.f.d w.words
    | .cas e => words c.f.d (eltRes e).words
    | .casQ e => words c.f.d (eltRes e).words
    | .link => if c.f.w then [] else words c.f.d 1
    | _ => []
  let passes := (c.slices.map fun s => s / (if c.shadowed then 4 else 8)).eraseDups
  (src c.f.a c.sh.a ++ src c.f.b c.sh.b ++ src c.f.c c.sh.c ++ dst).flatMap fun k => passes.map (4 * k + ·)

/-- The first cause of steps 4 to 8. -/
def Ctx.early (c : Ctx) : Option Cause :=
  let vlim := if c.isHandler then 32 else c.l.vregs
  let sup := c.grp.super
  let qs := queueReads c.sh c.f
  let all := qs ++ (queueWrite c.sh c.f).toList
  if c.sh.super && !sup then some .privilege
  else if c.isHandler && (!c.sh.handler || namesHighV c.sh c.f || !qs.isEmpty ||
      (!c.f.w && (match c.sh.d, c.f.d with | .res _, .g _ => true | .cas _, .g _ => true | .casQ _, .g _ => true | .link, .g _ => true | _, _ => false))) then
    some .handlerViolation
  else if !(srcFieldOk vlim c.l.gregs sup c.f.a c.sh.a && srcFieldOk vlim c.l.gregs sup c.f.b c.sh.b &&
      srcFieldOk vlim c.l.gregs sup c.f.c c.sh.c && dstFieldOk vlim c.l.gregs sup c.f c.sh.d && c.sh.formOk) then some .illegalOperand
  else if all.any c.overRing then some .illegalOperand
  else if all.any (fun e => c.isHandler || (c.grp.q.find e.1).isNone) then some .queueUnbound
  else if c.latchLost then some .latchLost
  else none

/-! Queue registers (02 R72 to R74). -/

/-- The values of popped words, `w` words each. -/
def popValues (w : Nat) (ws : List W32) : List Nat :=
  if w = 1 then ws.map (·.toNat)
  else (chunksOf ws.length 2 ws).map fun p => (nthD 0 p 0).toNat + (nthD 0 p 1).toNat * 2 ^ 32

/-- The semaphore checks of a pop or push (02 R74). -/
def queueCheck (c : Ctx) (r : Run) (e : Nat × Nat) : Except Stop Run :=
  match c.grp.q.find e.1 with
  | some b => if b.kind < 4 || c.active = 0 then .ok r else (semOpen r c b.obj (c.queueWords b e.2)).map (·.2)
  | none => .ok r

/-- Words that came back to a full queue: the group pops them first, and they are then there no longer. DEDUCED, log 48. -/
def returnedWords (r : Run) (c : Ctx) (b : QBind) : List W32 := Sparse.get [] (((r.grp c.gid).map (·.returned)).getD []) b.obj.toNat
def keepReturned (r : Run) (c : Ctx) (b : QBind) (n : Nat) : Run :=
  if n = 0 then r
  else r.updGrp c.gid fun g =>
    let rest := (Sparse.get [] g.returned b.obj.toNat).drop n
    { g with returned := if rest.isEmpty then g.returned.del b.obj.toNat else g.returned.put b.obj.toNat rest }

/-- Pops the words of one queue register, or waits. -/
def queuePop (c : Ctx) (acc : List (Nat × List Nat) × Run) (e : Nat × Nat) : Except Stop (List (Nat × List Nat) × Run) :=
  match c.grp.q.find e.1, acc.2.team c.grp.team with
  | some b, some t =>
    let all := c.queueWords b e.2
    let back := (returnedWords acc.2 c b).take all
    let n := all - back.length
    let took := fun (ws : List W32) (r : Run) => (acc.1 ++ [(e.1, popValues e.2 (back ++ ws))], keepReturned r c b back.length)
    if all = 0 then .ok acc
    else if n = 0 then .ok (took [] acc.2)
    else if b.kind < 4 then
      if ringCount t b.obj.toNat < n then .error (Ctx.wait 5 8 b.obj fun _ r => r)
      else
        let (ws, t) := ringPop t b.obj.toNat n
        .ok (took ws (acc.2.updTeam c.grp.team fun _ => t))
    else do
      let (ws, r) ← semTake acc.2 c b.obj n
      .ok (took ws r)
  | _, _ => .ok acc

/-- Waits until the ring written has room after the pops. -/
def queueRoom (c : Ctx) (r : Run) (e : Nat × Nat) : Except Stop Run :=
  match c.grp.q.find e.1, r.team c.grp.team with
  | some b, some t =>
    if decide (b.kind < 4) && decide (ringRoom t b.obj.toNat < c.queueWords b e.2) then .error (Ctx.wait 6 9 b.obj fun _ r => r) else .ok r
  | _, _ => .ok r

def queues (c : Ctx) (r : Run) : Except Stop (List (Nat × List Nat) × Run) := do
  let qs := queueReads c.sh c.f
  let w := (queueWrite c.sh c.f).toList
  let r ← (qs ++ w).foldlM (queueCheck c) r
  let (pops, r) ← qs.foldlM (queuePop c) ([], r)
  let r ← w.foldlM (queueRoom c) r
  .ok (pops, r)

/-! Traps and waits. -/

/-- The oldest deferred cause of a group that may take one (17 R438). DEDUCED, log 40. -/
def dueDeferred (g : Grp) : Option TrapInfo := if g.super || g.handler.isSome then none else g.deferred.head?

/-- DEDUCED, log 40. -/
def takeDeferred (r : Run) (gid : Nat) (d : TrapInfo) : Run :=
  takeTrap (r.updGrp gid fun g => { g with deferred := g.deferred.tail }) gid d

def sameWait (a b : Wait) : Bool := a.kind == b.kind && a.reason == b.reason && a.object == b.object

/-- Records the wait of the issuing slices (19 R479, R480). DEDUCED, log 21. -/
def beginWait (r : Run) (gid : Nat) (ns : List Nat) (w : Wait) (start : Bool → Run → Run) (switch : Bool := false) : Run :=
  match r.grp gid with
  | none => r
  | some g =>
    let has := fun (n : Nat) => (g.slice n).any fun s => s.wait.any (sameWait w)
    if ns.all has then r
    else
      let r := endWaits r gid ns
      let first := !((List.range g.slices.length).any fun n => !ns.contains n && has n)
      let r := start first r
      let now := r.now (dieOfGrp r g)
      r.updGrp gid fun g => g.updSlices ns fun s => { s with wait := some { w with since := now, switch } }

/-- Whether a remote instruction in flight is the one at an address in some slices. -/
def ownRemote (pc : W64) (ns : List Nat) (x : Remote) : Bool := x.pc == pc && ns.contains x.slice

/-- A trap raised at an instruction of some slices. What the group issued earlier completes first (17 R437): while another remote
instruction is in flight the slices wait. The taking of a trap is a switch point (R50), so a held deferred cause goes first (17 R438). A
NOTVALID or NOTPINNED fault of a handler slice makes it wait instead (01 R44). Every fault of the instruction gets its record (16 R424). `keep` is what the raised cause leaves behind. DEDUCED, log 40. DEDUCED, log 49. -/
def trapAt (r : Run) (gid : Nat) (ns : List Nat) (t : TrapInfo) (faults : List (Req × FaultInfo)) (keep : Run → Run := id) : Run :=
  match r.grp gid with
  | none => r
  | some g =>
    if g.remotes.any fun x => !ownRemote t.pc ns x then beginWait r gid ns remoteWait fun _ r => r
    else
      match dueDeferred g with
      | some d => takeDeferred r gid d
      | none =>
        let r := dropRemotes (keep r) gid fun _ => false
        match faults with
        | [] => raise r gid t
        | (q, f) :: _ =>
          if g.handler.isSome && (f.kind == 1 || f.kind == 7) then
            let r := (faultHeld (translate r q f.va).2 q f (.handler gid)).2
            let now := r.now q.die
            r.updGrp gid fun g =>
              { g with slices := g.slices.map fun s => { s with wait := some { kind := 11, reason := 4, object := f.va, since := now, aux := 0 } } }
          else raise (faults.foldl (fun r x => faultRecord (translate r x.1 x.2.va).2 x.1 x.2) r) gid t

/-! Protected launches. -/

/-- How an instruction's lane pairs are compared, and its commits: not at all here; as a store; as an atomic, which is compared and then commits
before and after (01 R53, 08 R246); as a class 6 instruction, which commits before it is compared (11 R321); or, for words moved through a
semaphore's queue register, with the commits of the `SEMPOST` or `SEMWAIT` that it acts as (11 R325), and no comparison that 21 R515 counts. -/
inductive Cmp where
  | none | store | atomic | engine | words
  deriving DecidableEq, Repr

def Cmp.counted : Cmp → Bool
  | .store | .atomic | .engine => true
  | _ => false
def Cmp.commits : Cmp → Bool
  | .atomic | .engine | .words => true
  | _ => false

/-- Counts the comparisons of an instruction's lanes towards an armed injection (21 R515): the visible lane of the one that differs. DEDUCED, log 10. -/
def injected (r : Run) (c : Ctx) (lanes : List Nat) : Option Nat × Run :=
  let put := fun (v : Option (Nat × Nat)) => r.updCore c.t.die c.t.core fun x => { x with inject := v }
  match (r.core c.t.die c.t.core).inject with
  | Option.none => (Option.none, r)
  | some (n, b) =>
    match lanes[n - 1]? with
    | some l => (some l, put Option.none)
    | Option.none => (Option.none, put (some (n - lanes.length, b)))

/-- Buffered stores without the weak ones that a later weak store of the same lane to the same bytes covers, before the lane's next release or
fence (05 R141, 17 R444). -/
def mergedStores : List BufStore → List BufStore
  | [] => []
  | b :: bs =>
    let free := bs.takeWhile fun x => !(x.edge && x.group == b.group && x.lane == b.lane)
    if b.weak && free.any (fun x => x.weak && x.group == b.group && x.lane == b.lane && x.dest == b.dest && x.addr == b.addr &&
        x.bytes.length == b.bytes.length) then mergedStores bs
    else b :: mergedStores bs

/-- Makes room for a store of the active lanes: a store buffer without it is committed first (17 R444); it answers whether there is room. Weak
stores that a later one covers have been merged with it, or not: R444 allows both (DESIGN CHOICE, log 6). -/
def makeRoom (r : Run) (c : Ctx) : Run × Bool :=
  let full := fun (r : Run) => decide (Config.storeBuffer < bufferUsed r c.grp.team + c.lanes.length * max 4 (sizeBytes (sizeOf c.f)))
  if !full r then (r, true)
  else
    let r := if Config.freeChoice r.fresh % 2 = 0 then r.newFree.2.updTeam c.grp.team fun t => { t with sbuf := mergedStores t.sbuf }
             else r.newFree.2
    if full r then commitTeam r c.grp.team else (r, true)

/-- Whether every checkpoint copy of a team's groups can be written: an instruction that acts as an atomic commits again after it (17 R446). -/
def copiesReady (r : Run) (tid : Nat) : Option (Nat × AccFail) :=
  ((r.team tid).bind fun t => r.launch t.launch).bind fun l =>
    ((teamGroups r tid).filter fun e => !e.2.ended).findSome? fun e =>
      match checkVirt r (contextReq r e.1 1) (w64 e.2.ctxArea) (3 * areaBytes l) with
      | .ok _ => none
      | .error (x, _) => some (e.1, x)

/-- A commit with the stores that it commits performed (01 R53, R54): it answers whether it took place. -/
def commitNow (r : Run) (tid : Nat) : Run × Bool :=
  match copiesReady r tid with
  | some e => if teamHeld r tid then (r, false) else (settleCluster (commitStop r e) (((r.team tid).map (·.cluster)).getD 0), false)
  | none =>
    match commitTeam r tid with
    | (r, true) => (performCommitted r tid, true)
    | x => x

/-! Absent register lines (02 R76). -/

/-- Words of a saved register line that memory holds otherwise: each resumes with the old or the written value; which one is free
(17 R441). DEDUCED, log 101. -/
def refetched (prot : Bool) (key : Nat) (bs : List Byte) (acc : Grp × Run) : Grp × Run :=
  (List.range 32).foldl (fun acc i =>
    let (g, r) := acc
    let phys := 32 * (key % 4) + i
    let old := physReg g prot (key / 4) phys
    let now := w32 (leNat ((bs.drop (4 * i)).take 4))
    if old = now || Config.freeChoice r.fresh % 2 = 0 then acc
    else ({ g with v := Sparse.set (0 : W32) g.v (128 * (key / 4) + if prot then phys / 2 else phys) now }, r.newFree.2)) acc

/-- Fetches register lines of a group from its context area, or from a checkpoint copy. DEDUCED, log 101. -/
def fetchLines (r : Run) (gid : Nat) (g : Grp) (l : Launch) (keys : List Nat) : Except (AccFail × Run) (Grp × Run) :=
  let base := g.ctxArea + g.copy * areaBytes l
  let got : Except (AccFail × Run) (Grp × Run) := keys.foldlM (init := (g, r)) fun (acc : Grp × Run) key => do
    let (bs, r) ← readVirt acc.2 (contextReq r gid 0) (w64 (base + 128 * (16 + l.width / 4 + key / 4 * (l.width / 32) + key % 4))) 128
    .ok (refetched l.prot key bs (acc.1, r))
  got.map fun x => ({ x.1 with absent := x.1.absent.filter fun k => !keys.contains k }, x.2)

/-- The absent register lines that an instruction touches (02 R76). -/
def Ctx.missing (c : Ctx) : List Nat := c.lines.filter fun k => c.grp.absent.contains k

/-- The lines that an instruction touches, fetched where they are absent (02 R76). -/
def Ctx.resident (c : Ctx) (r : Run) : Except (AccFail × Run) (Ctx × Run) :=
  if c.missing.isEmpty then .ok (c, r)
  else (fetchLines r c.gid c.grp c.l c.missing.eraseDups).map fun x => ({ c with grp := x.1 }, x.2.updGrp c.gid fun _ => x.1)

/-! Issue. -/

/-- What is an instruction's own: its effect, what follows its completion, its comparison and the lanes that it is made for. An instruction that is in
flight, its requests sent, has `finish` for its effect. -/
structure Work where
  body : Body
  fin : Ctx → Run → Run := fun _ r => r
  cmp : Fields → Cmp := fun _ => .none
  compared : Ctx → List Nat := Ctx.lanes
  finish : Option Body := none

def makeCtx (r : Run) (gid frag : Nat) (sh : OpShape) (f : Fields) : Option Ctx :=
  match r.grp gid with
  | none => none
  | some g =>
    match r.team g.team with
    | none => none
    | some t =>
      match r.launch t.launch with
      | none => none
      | some l =>
        let ns := g.fragSlices frag
        match ns.head?.bind g.slice with
        | none => none
        | some s0 =>
          let enabled := g.enabled ns
          let p := predMask g f.gp.toNat
          some { gid, grp := g, t, l, frag, slices := ns, enabled, active := enabled &&& (if f.gn then ~~~p else p), pc := s0.pc, f, sh, pops := [] }

/-- Whether the instruction moves words of a queue register. -/
def Ctx.usesQueue (c : Ctx) : Bool := c.active != 0 && (!(queueReads c.sh c.f).isEmpty || (queueWrite c.sh c.f).isSome)

/-- Whether it moves words of a semaphore's queue register. -/
def Ctx.usesSem (c : Ctx) : Bool :=
  c.active != 0 && (queueReads c.sh c.f ++ (queueWrite c.sh c.f).toList).any fun e => (c.grp.q.find e.1).any fun b => decide (4 ≤ b.kind)

/-- Passes of the issuing fragment (01 R15, R52). -/
def Ctx.passes (c : Ctx) : List Nat := (c.slices.map fun s => s / (if c.shadowed then 4 else 8)).eraseDups

/-- Whether the instruction begins a region when it completes (01 R46): a `TCFG` without an active lane has no effect (10 R298). -/
def Ctx.beginsRegion (c : Ctx) : Bool := (c.sh.region && !(c.sh.code == 0xA0 && c.active == 0)) || c.usesQueue

/-- The program counters advance, latches lose their values at a switch point, and a region begins where the instruction begins one on
completion. DEDUCED, log 20. -/
def advance (c : Ctx) (r : Run) : Run :=
  let r := r.updGrp c.gid fun g =>
    let g := g.updSlices c.slices fun s => { s with pc := s.pc + w64 c.len, last := r.tick, lastPc := c.pc }
    let g := if c.sh.switch || c.usesQueue then g.updSlices c.slices fun s => { s with valid := 0 } else g
    { g with lastIssue := r.tick }
  if c.beginsRegion then regionStart r c.gid c.slices else r

/-- Counts passes and active lane-instructions (19 R489). -/
def countIssue (c : Ctx) (r : Run) : Run :=
  (r.count c.part 0 1 c.passes.length).count c.part 0 2 (c.lanes.length * (if c.shadowed then 2 else 1))

/-- A mismatch of a lane pair (17 R447): the instruction has no effect. DEDUCED, log 10. -/
def mismatch (r : Run) (c : Ctx) (lane : Nat) : Run :=
  let r := (emitGrp (r.count c.part 5 3 1) c.gid (coreUnit c.t.die c.t.core) 0x0023 (lane + c.t.core * 128)).2
  raise r c.gid (c.trap .pairMismatch 0 lane 0)

/-- The retention hint of a global access (08 R242). -/
def Ctx.retention (c : Ctx) : Nat := if [0x60, 0x61, 0x64, 0x6B].contains c.sh.code then hintOf c.f else 0

/-- Whether an instruction performs what its group has stored and not performed (05 R145, R148, R157): atomics, releases, fences, arrivals, pushes,
engine, matrix and remote instructions, ends and system instructions. The others leave it. DESIGN CHOICE, log 3. -/
def Ctx.settles (c : Ctx) : Bool :=
  let o := c.sh.code
  c.usesQueue || (o == 0x63 && (decide (3 ≤ kindOf c.f) || subOf c.f != 0)) || (decide (0x65 ≤ o) && decide (o ≤ 0x6A)) ||
    (decide (0x6C ≤ o) && decide (o ≤ 0x6E)) || (decide (0x70 ≤ o) && decide (o ≤ 0x73)) || (decide (0xA0 ≤ o) && decide (o < 0xE0)) ||
    [0x84, 0x8C, 0x8D, 0x8E, 0x90, 0xE0, 0xE3, 0xE4, 0xE5, 0xE6, 0xEB, 0xEC, 0xED, 0xEE].contains o

/-- What executes, as an instruction's accesses see it: with its address, and its retention hint. -/
def Ctx.onto (c : Ctx) (r : Run) : Run := { if c.settles then settleGroup r c.gid else r with accPc := c.pc, accHint := c.retention }

/-- Whether the instruction is one in flight. -/
def Ctx.flying (c : Ctx) (w : Work) : Bool := w.finish.isSome && c.grp.remotes.any (ownRemote c.pc c.slices)

/-- The effect of an instruction with the queue registers it moves words through; one in flight only looks for room for its result. DEDUCED, log 42. DEDUCED, log 48. -/
def effect (w : Work) (c : Ctx) (r : Run) : Except Stop (Ctx × Run) :=
  match (if c.flying w then w.finish else none) with
  | some finish => do
    let r ← (queueWrite c.sh c.f).toList.foldlM (queueRoom c) r
    (finish c (advance c r)).map (Prod.mk c)
  | none => do
    let (pops, r) ← queues c r
    let c := { c with pops }
    match w.body c (advance c r) with
    | .error (.sent x keep) => .error (.sent x fun _ => keep r)
    | .error e => .error e
    | .ok r => .ok (c, r)

/-- The comparison of an instruction that has none of its own: the commits that its words through a semaphore ask for (11 R325). -/
def Ctx.wordsCmp (c : Ctx) : Cmp := if c.shadowed && c.usesSem then .words else .none

/-- How an instruction is compared and commits. -/
def Ctx.cmp (c : Ctx) (w : Work) : Cmp :=
  if !c.shadowed || c.active = 0 then .none
  else
    match w.cmp c.f with
    | .none => c.wordsCmp
    | .store => if c.usesSem then .atomic else .store
    | x => x

/-- Whether an instruction is issued again while it waits. -/
def Ctx.waiting (c : Ctx) : Bool := c.slices.any fun n => (c.grp.slice n).any fun s => s.wait.isSome

/-- What comes before an instruction's effect: room in the store buffer, or a commit. A class 6 instruction that is issued again while it waits
commits again only for stores that have come meanwhile. DEDUCED, log 42. -/
def Ctx.before (c : Ctx) (cmp : Cmp) (r : Run) : Run × Bool :=
  let waiting := c.waiting
  let held := !(((r.team c.grp.team).map (·.sbuf)).getD []).isEmpty
  match cmp with
  | .none => (r, true)
  | .store => makeRoom r c
  | .atomic => commitNow r c.grp.team
  | .engine => if waiting && !held then (r, true) else commitNow r c.grp.team
  | .words => if waiting && !held then (r, true) else commitNow r c.grp.team

/-- The issue of an instruction whose checks of steps 4 to 8 have passed, over resident register lines. It is compared when it is issued first: not again
while it waits, nor when it is in flight. DEDUCED, log 10. DEDUCED, log 42. -/
def issueReady (w : Work) (r : Run) (c : Ctx) : Run :=
  let flying := c.flying w
  let cmp := c.cmp w
  let switch := c.sh.switch || c.usesQueue
  let compare := fun (r : Run) => if !cmp.counted || flying || c.waiting then (none, r) else injected r c (w.compared c)
  match (if flying then (r, true) else c.before cmp r) with
  | (base, false) => base
  | (base, true) =>
    let first := if cmp = .engine || c.usesSem then base else r
    match effect w c base with
    | .error (.undone act) => act base
    | .error (.wait x start) =>
      match compare first with
      | (some lane, r) => mismatch r c lane
      | (none, r') => beginWait r' c.gid c.slices x start switch
    | .error (.sent x keep) =>
      match compare (keep base) with
      | (some lane, _) => mismatch (compare first).2 c lane
      | (none, r') => beginWait r' c.gid c.slices x (fun _ r => r) switch
    | .error (.trap t faults) => trapAt first c.gid c.slices t faults
    | .error (.report t keep) =>
      match compare (if cmp.commits then base else r) with
      | (some lane, r) => mismatch r c lane
      | (none, r) => trapAt r c.gid c.slices t [] keep
    | .ok (c', r') =>
      match compare r' with
      | (some lane, _) => mismatch (compare first).2 c lane
      | (none, r') =>
        let c := c'
        let r' := w.fin c (countIssue c (endWaits r' c.gid c.slices))
        if cmp.commits then (commitNow r' c.grp.team).1 else r'

/-- The issue of an instruction by its context. DEDUCED, log 42. -/
def issueCtx (w : Work) (r : Run) (c : Ctx) : Run :=
  let flying := c.flying w
  let due := if !flying && (c.sh.switch || c.usesQueue) then dueDeferred c.grp else none
  match due with
  | some d => if c.grp.remotes.isEmpty then takeDeferred r c.gid d else beginWait r c.gid c.slices remoteWait (fun _ r => r) true
  | none =>
    match (if flying then none else c.early) with
    | some cause => trapAt r c.gid c.slices (c.trap cause 0 (c.lowest.getD 0) 0) []
    | none =>
      match c.resident r with
      | .error (e, _) => settleCluster (contextFail r c.gid 0 e) (clusterOf r c.gid)
      | .ok (c, r) => issueReady w r c

/-- The issue of the instruction by the fragment that is issuing. -/
def issue (i : Instr) (w : Work) (s : State) : Host.Outcome State Fault Refusal :=
  match shape i, fieldsOf i, s.run.issuing with
  | some sh, some f, some (gid, frag) =>
    match makeCtx s.run gid frag sh f with
    | some c => .next { s with run := issueCtx w (c.onto s.run) c }
    | none => .fault .noIssuer
  | _, _, _ => .fault .noIssuer

end Sys2Proof.Machine
end

