-- ==== Sys2Proof/Machine/Lanes.lean ====
section
/-! DEFINITION. Instructions that compute one result in each active lane (07 R202 to R205). -/
namespace Sys2Proof.Machine

/-- The element type's format and the placement of its results. -/
def Ctx.elt (c : Ctx) : Elt := tyElt c.f.t
def tyRes (f : Fields) : ResW := eltRes (tyElt f.t)

/-- A source in one lane, in a given format. -/
def Ctx.aAs (c : Ctx) (r : Run) (e : Elt) (l : Nat) : Nat := readSrc r c c.f.a e l
def Ctx.bAs (c : Ctx) (r : Run) (e : Elt) (l : Nat) : Nat := readSrc r c c.f.b e l
def Ctx.cAs (c : Ctx) (r : Run) (e : Elt) (l : Nat) : Nat := readSrc r c c.f.c e l
/-- A predicate that an operand field names, in one lane. -/
def Ctx.predAt (c : Ctx) (o : Opnd) (l : Nat) : Bool := (predMask c.grp (regIndex o 8)).getLsbD l

/-- One result a lane, without flags. -/
def laneWork (w : Fields → ResW) (val : Ctx → Run → Nat → Nat) : Work :=
  { body := fun c r => writeRes r c (w c.f) (val c r) }

/-- One result and the flags it raises a lane (02 R67). -/
def flagWork (w : Fields → ResW) (val : Ctx → Run → Nat → Nat × BitVec 5) : Work :=
  { body := fun c r => writeRes (raiseFlags r c fun l => (val c r l).2) c (w c.f) fun l => (val c r l).1 }

/-- D := op(A), op(A, B), op(A, B, C) on patterns of type T. -/
def tyWork1 (op : Fields → Elt → Nat → Nat) : Work :=
  laneWork tyRes fun c r l => op c.f c.elt (c.aAs r c.elt l)
def tyWork2 (op : Fields → Elt → Nat → Nat → Nat) : Work :=
  laneWork tyRes fun c r l => op c.f c.elt (c.aAs r c.elt l) (c.bAs r c.elt l)
def tyWork3 (op : Fields → Elt → Nat → Nat → Nat → Nat) : Work :=
  laneWork tyRes fun c r l => op c.f c.elt (c.aAs r c.elt l) (c.bAs r c.elt l) (c.cAs r c.elt l)
/-- The same with B a 32-bit count or control word (07 R203). -/
def countWork (op : Elt → Nat → Nat → Nat) : Work :=
  laneWork tyRes fun c r l => op c.elt (c.aAs r c.elt l) (c.bAs r .n32 l)
def flagWork1 (op : Fields → Elt → Nat → Nat × BitVec 5) : Work :=
  flagWork tyRes fun c r l => op c.f c.elt (c.aAs r c.elt l)
def flagWork2 (op : Fields → Elt → Nat → Nat → Nat × BitVec 5) : Work :=
  flagWork tyRes fun c r l => op c.f c.elt (c.aAs r c.elt l) (c.bAs r c.elt l)
def flagWork3 (op : Fields → Elt → Nat → Nat → Nat → Nat × BitVec 5) : Work :=
  flagWork tyRes fun c r l => op c.f c.elt (c.aAs r c.elt l) (c.bAs r c.elt l) (c.cAs r c.elt l)

/-- A predicate result combined with pC by AND or OR (07 R212). -/
def combine (c : Ctx) (cond : Bool) (l : Nat) : Bool :=
  if auxOf c.f then cond || c.predAt c.f.c l else cond && c.predAt c.f.c l

/-- A predicate result in each active lane (07 R205). -/
def predWork (val : Ctx → Run → Nat → Bool) : Work := { body := fun c r => .ok (writePred r c c.f.d (val c r)) }

end Sys2Proof.Machine
end

