-- ==== Sys2Proof/Machine/Access.lean ====
section
/-! DEFINITION. The accesses of lanes: addresses (08 R240), the checks of R243 and R244, translated pieces, loads and stores of global memory
and scratch, a protected team's store buffer (01 R53, 17 R444), and line modes (04 R125 to R127). -/
namespace Sys2Proof.Machine

/-! Addresses. -/

def ofsInt (f : Fields) : Int := (ofsOf f).toInt
def wrap64 (x : Int) : W64 := BitVec.ofInt 64 x

/-- A global address (R240). -/
def gAddr (r : Run) (c : Ctx) (l : Nat) : W64 :=
  let base : Int := c.aAs r .n64 l
  let index : Int := if xbit c.f 1 then (c.bAs r .n64 l : Int) else sext 32 (c.bAs r .i32 l)
  wrap64 (base + index + ofsInt c.f)
/-- A scratch offset (R240). -/
def sAddr (r : Run) (c : Ctx) (l : Nat) : Nat := (c.aAs r .n32 l + c.bAs r .n32 l + (ofsOf c.f).toNat) % 2 ^ 32
/-- A window offset (R240). -/
def rAddr (r : Run) (c : Ctx) (l : Nat) : W64 := wrap64 (c.bAs r .n64 l + ofsInt c.f)

def Ctx.size (c : Ctx) : Nat := sizeBytes (sizeOf c.f)

/-- Accepted addresses of strong accesses, full/empty modes and remote accesses (R243). -/
def strongAligned (size a : Nat) : Bool := if size ≤ 2 then a % size == 0 else a % 4 == 0
def natural (size a : Nat) : Bool := a % size == 0
/-- Accepted addresses of a load or store by its kind. -/
def kindAligned (f : Fields) (a : Nat) : Bool := kindOf f == 0 || strongAligned (sizeBytes (sizeOf f)) a

/-- The first cause of R244: the lowest lane at an address that is not accepted. -/
def checkAligned (c : Ctx) (lanes : List Nat) (ok : Nat → Bool) (ea : Nat → Nat) : Except Stop Unit :=
  match lanes.find? fun l => !ok (ea l) with
  | some l => .error (c.misaligned l (ea l))
  | none => .ok ()

/-! Global memory. -/

/-- A part of an access within one page, with its translation. -/
structure Piece64 where
  va : W64
  len : Nat
  leaf : Leaf
  deriving DecidableEq, Repr

def pieceOf (r : Run) (c : Ctx) (q : Req) (lane : Nat) (va n : Nat) : Except Stop (Piece64 × Run) :=
  match translate r q (w64 va) with
  | (.error f, _) => .error (accStop c q lane (.fault f))
  | (.ok leaf, r) => .ok ({ va := w64 va, len := n, leaf }, r)

/-- The translated pieces of one lane's access. -/
def laneAccess (r : Run) (c : Ctx) (q : Req) (lane : Nat) (a : W64) (n : Nat) : Except Stop (List Piece64 × Run) :=
  (regions a.toNat n).foldlM (init := (([] : List Piece64), r)) fun (acc : List Piece64 × Run) (p : Nat × Nat) =>
    (pieceOf acc.2 c q lane p.1 p.2).map fun x => (acc.1 ++ [x.1], x.2)

/-- The trap of the lowest lane whose access faults, with the faults of the others for their records (16 R424). -/
def addFaults (e : Stop) (more : List (Req × FaultInfo)) : Stop :=
  match e with
  | .trap t fs => .trap t (fs ++ more)
  | e => e

/-- The addresses that are not canonical: the fault of each (04 R111). -/
def noncanonical (r : Run) (c : Ctx) (q : Req) (lanes : List Nat) (ea : Nat → W64) : Except Stop Unit :=
  match lanes.filter fun l => decide (2 ^ 56 ≤ (ea l).toNat) with
  | [] => .ok ()
  | l :: ls =>
    let info := fun (l : Nat) => nonCanonical r c.part (ea l)
    .error (addFaults (accStop c q l (.fault (info l))) (ls.map fun l => (q, info l)))

/-- The translations of the lanes' accesses: every lane is checked (08 R244), and each one's first fault is recorded (16 R424). -/
def translateLanes (r : Run) (c : Ctx) (q : Req) (lanes : List Nat) (ea : Nat → W64) (size : Nat → Nat) :
    Except Stop (List (Nat × List Piece64) × Run) :=
  let faultsOf := fun (ls : List Nat) => ls.flatMap fun l =>
    match laneAccess r c q l (ea l) (size l) with
    | .error (.trap _ fs) => fs
    | _ => []
  let rec go (acc : List (Nat × List Piece64)) (r : Run) : List Nat → Except Stop (List (Nat × List Piece64) × Run)
    | [] => .ok (acc, r)
    | l :: ls =>
      match laneAccess r c q l (ea l) (size l) with
      | .ok x => go (acc ++ [(l, x.1)]) x.2 ls
      | .error e => .error (addFaults e (faultsOf ls))
  go [] r lanes

/-- Causes 1 to 3 of R244 for every active lane: the accesses of the lanes, translated. -/
def globalAccess (r : Run) (c : Ctx) (lanes : List Nat) (kind size : Nat) (ok : Nat → Bool) (ea : Nat → W64) :
    Except Stop (List (Nat × List Piece64) × Run) := do
  checkAligned c lanes ok fun l => (ea l).toNat
  let q := Ctx.req r c kind
  noncanonical r c q lanes ea
  translateLanes r c q lanes ea fun _ => size

/-- The buffered stores that a lane of this context sees. -/
def Ctx.seen (r : Run) (c : Ctx) : List BufStore :=
  if c.shadowed then ((r.team c.grp.team).map Team.buffered).getD [] else []

/-- The stores that are not performed yet and that a read may see: those of other lanes that are weak, or all of them where the read is weak
(05 R141, R150, 12 R353). -/
def Ctx.mayFind (c : Ctx) (b : LateStore) : Bool := kindOf c.f == 0 || !b.strong

/-- The words of a piece of which the bits of a free value are 1, over bytes. -/
def pieceOver (bits pa : Nat) (p : LatePiece) (data : List Byte) : List Byte :=
  ((List.range data.length).zip data).map fun x =>
    if bits.testBit ((pa + x.1) / 4 - p.pa / 4) then (p.byteAt (pa + x.1)).getD x.2 else x.2

/-- What a lane's read finds of the stores that are not performed yet: its own (05 R151), over the naturally aligned 4-byte words of others, each seen or
not, which is free (05 R150, R159, 12 R352 to R354). DESIGN CHOICE, log 3. -/
def lateView (r : Run) (c : Ctx) (lane pa : Nat) (data : List Byte) : List Byte × Run :=
  let near := fun (b : LateStore) => b.pieces.filter fun p => decide (p.pa < pa + data.length) && decide (pa < p.pa + p.bytes.length)
  let mine := fun (b : LateStore) => b.group == c.gid && b.lane == lane
  let others := (r.late.filter fun b => !mine b && c.mayFind b).flatMap near
  let (data, r) := others.foldl (fun (acc : List Byte × Run) p => (pieceOver (Config.freeChoice acc.2.fresh) pa p acc.1, acc.2.newFree.2)) (data, r)
  (piecesOver ((r.late.filter mine).flatMap near) pa data, r)

/-- What the reads of the lanes leave besides their data. -/
def lanesRead (c : Ctx) (as : List (Nat × List Piece64)) (r : Run) : Run :=
  as.foldl (fun r x => x.2.foldl (fun r p => leafRead r c.part p.leaf p.va p.len) r) r

def readPiece (r : Run) (c : Ctx) (lane : Nat) (reads : Run → Run) (p : Piece64) : Except Stop (List Byte × Run) :=
  match readLeaf r c.part p.leaf p.va p.len with
  | .error ((cause, d), _) => .error (accStop c (Ctx.req r c 0) lane (.data cause d p.va) reads)
  | .ok (bs, r) =>
    let (bs, r) := lateView r c lane (p.leaf.pa p.va) bs
    .ok (overlay (Ctx.seen r c) memPlace (p.leaf.pa p.va) bs, r)

/-- What one lane's access reads. -/
def readLane (r : Run) (c : Ctx) (lane : Nat) (reads : Run → Run) (ps : List Piece64) : Except Stop (Nat × Run) :=
  (ps.foldlM (init := (([] : List Byte), r)) fun (acc : List Byte × Run) p =>
    (readPiece acc.2 c lane reads p).map fun x => (acc.1 ++ x.1, x.2)).map fun x => (leNat x.1, x.2)

/-- What each lane's access reads. -/
def readLanes (r : Run) (c : Ctx) (as : List (Nat × List Piece64)) : Except Stop (Sparse Nat × Run) :=
  as.foldlM (init := (([] : Sparse Nat), r)) fun (acc : Sparse Nat × Run) x =>
    (readLane acc.2 c x.1 (lanesRead c as) x.2).map fun y => (acc.1.put x.1 y.1, y.2)

/-- Writes one lane's bytes, in pieces. -/
def writeLane (r : Run) (c : Ctx) (ps : List Piece64) (v : Nat) : Run :=
  let n := (ps.map (·.len)).foldl (· + ·) 0
  let bs := leBytes n v
  (ps.foldl (fun (acc : Run × List Byte) p => (writeLeaf acc.1 c.part p.leaf p.va (acc.2.take p.len), acc.2.drop p.len)) (r, bs)).1

/-- The pieces of one lane's store, each one write: by page and then by R141 or R160 of chapter 05 (12 R352). -/
def latePieces (c : Ctx) (ps : List Piece64) (v : Nat) : List LatePiece :=
  let n := (ps.map (·.len)).foldl (· + ·) 0
  (ps.foldl (fun (acc : List LatePiece × List Byte) p =>
    (acc.1 ++ (storePieces (kindOf c.f != 0) p.va.toNat (acc.2.take p.len)).map (fun x => { leaf := p.leaf, va := w64 x.1, bytes := x.2 }),
     acc.2.drop p.len)) ([], leBytes n v)).1

/-- One lane's store, of which no piece is performed yet. DESIGN CHOICE, log 3. -/
def laneLate (c : Ctx) (lane : Nat) (ps : List Piece64) (v : Nat) : LateStore :=
  { group := c.gid, lane, strong := kindOf c.f != 0, release := decide (3 ≤ kindOf c.f), part := c.part, pc := c.pc, hint := c.retention
    pieces := latePieces c ps v }

/-- Of two lanes of one store that write one byte the higher wins, and no observer sees the lower one's value (08 R247). -/
def settledLate : List LateStore → List LateStore
  | [] => []
  | s :: t =>
    let later := t.flatMap (·.pieces)
    { s with pieces := s.pieces.map fun p => { p with bytes := piecesOver later p.pa p.bytes } } :: settledLate t

/-- The lanes' stores, which are performed piece by piece later. -/
def storeLate (r : Run) (ss : List LateStore) : Run := { r with late := r.late ++ settledLate ss }

/-- The buffered stores of one lane (17 R444), one for each piece: a release is an edge for what may merge (05 R141), and a store to an UNCACHED page
never merges (04 R121). DEDUCED, log 34. -/
def laneStores (c : Ctx) (lane : Nat) (ps : List Piece64) (v : Nat) : List BufStore :=
  let n := (ps.map (·.len)).foldl (· + ·) 0
  let ls := latePieces c ps v
  ((List.range ls.length).zip ls).map fun x =>
    { group := c.gid, lane, weak := kindOf c.f == 0 && x.2.leaf.home != 1, edge := decide (3 ≤ kindOf c.f), pc := c.pc, hint := c.retention
      dest := .mem x.2.leaf, addr := x.2.va.toNat, bytes := x.2.bytes, taken := if x.1 = 0 then ceilDiv n 4 * 4 else 0 }

/-- Of two lanes of one store that write one byte the higher wins, and no observer sees the lower one's value (08 R247): every entry holds what the
instruction leaves. -/
def settled : List BufStore → List BufStore
  | [] => []
  | s :: t =>
    let place := match s.dest with | .mem _ => memPlace | _ => scratchPlace
    { s with bytes := overlay t place ((place s).getD s.addr) s.bytes } :: settled t

def bufferStores (r : Run) (c : Ctx) (ss : List BufStore) : Run := r.updTeam c.grp.team fun t => { t with sbuf := t.sbuf ++ settled ss }

/-! The register side (R241). -/

/-- A loaded value extended to its type. -/
def extendTo (f : Fields) (v : Nat) : Nat :=
  if tySigned f.t then lowBits (tyBits f.t) (sext (8 * sizeBytes (sizeOf f)) v) else v
def loadRes (f : Fields) : ResW := if sizeOf f = 4 then .w128 else tyRes f
/-- The data of a store. -/
def storeVal (r : Run) (c : Ctx) (l : Nat) : Nat :=
  (if sizeOf c.f = 4 then readQuad c c.f.c l else c.cAs r c.elt l) % 2 ^ (8 * c.size)

/-! Scratch. -/

/-- Causes 1 and 2 of R244 for scratch accesses. -/
def scratchAccess (c : Ctx) (lanes : List Nat) (size : Nat) (ok : Nat → Bool) (ea : Nat → Nat) : Except Stop Unit := do
  checkAligned c lanes ok ea
  match lanes.find? fun l => !scrIn c.t (ea l) size with
  | some l => .error (.trap (c.trap .scratchBound 0 l (w64 (ea l))) [])
  | none => .ok ()

def readScratch (r : Run) (c : Ctx) (a n : Nat) : Nat :=
  leNat (overlay (Ctx.seen r c) scratchPlace a (scrRead (curTeam r c) a n))

/-- The lines that the active lanes touch (04 R125). -/
def touched (ea : Nat → Nat) (size : Nat) (lanes : List Nat) : List Nat := (lanes.flatMap fun l => linesOf (ea l) size).eraseDups

/-- Waits until every line satisfies its condition; a mode that empties or fills lines in turn takes its place among the waiters of each
line (04 R125, R127). DEDUCED, log 16. DEDUCED, log 54. -/
def awaitLines (r : Run) (c : Ctx) (ns : List Nat) (want : LineState) (turn : Option Bool) : Except Stop Unit :=
  let t := curTeam r c
  let mine := fun (w : LineWaiter) => w.group == c.gid && c.slices.contains w.slice
  let ahead := fun (n : Nat) =>
    match turn with
    | none => false
    | some give => ((t.lineWaiters.filter fun w => w.line == n && w.give == give).takeWhile fun w => !mine w) != []
  if ns.all fun n => lineState t n == want && !ahead n then .ok ()
  else
    let object := w64 (128 * ns.foldl min (ns.head?.getD 0))
    let queue := fun (_ : Bool) (r : Run) =>
      match turn with
      | none => r
      | some give =>
        let ws : List LineWaiter := ns.map fun n => { line := n, group := c.gid, slice := c.slices.head?.getD 0, give }
        r.updTeam c.grp.team fun t => { t with lineWaiters := t.lineWaiters ++ ws }
    .error (.wait { kind := 4, reason := 5, object, since := 0, aux := 0, lines := ns } queue)

end Sys2Proof.Machine
end

