-- ==== Sys2Proof/Machine/Float.lean ====
section
/-! DEFINITION. Class 1: floating-point arithmetic (07 R215 to R224) and its special values (03 R83, R91 to R93). Results that are not
numbers of finite length are formed to 261 fraction bits with one more bit that says something remains; DEDUCED, log 18 says why that decides
every rounding. -/
namespace Sys2Proof.Machine

/-! Special values (03 R83). -/

/-- The result for sources of one format: a NaN source first, made quiet; else by `f`. NV is set for a signalling source. -/
def withNans (t : Elt) (xs : List Nat) (f : List FVal → Nat × BitVec 5) : Nat × BitVec 5 :=
  let vs := xs.map (readF t)
  match xs.find? fun b => (readF t b).isNan with
  | some b => (quiet t b, fl (vs.any FVal.isSnan) flagNV)
  | none => f vs

/-- An invalid operation (03 R83). -/
def invalidOp (t : Elt) : Nat × BitVec 5 := (defaultNan t, flagNV)

def FVal.isInf : FVal → Bool
  | .inf _ => true
  | _ => false

/-- The sum of two values that are no NaNs, rounded once (R215; zeros by 03 R93). -/
def addVal (t : Elt) (rm : Nat) (a b : FVal) : Nat × BitVec 5 :=
  match a, b with
  | .inf x, .inf y => if x = y then (infBits t x, 0) else invalidOp t
  | .inf x, _ => (infBits t x, 0)
  | _, .inf y => (infBits t y, 0)
  | _, _ => roundDy t rm false (a.isZero && a.neg && b.isZero && b.neg) (Dy.add a.dy b.dy)

def FVal.flip : FVal → FVal
  | .fin n m e => .fin (!n) m e
  | .inf n => .inf (!n)
  | v => v

/-- The exact product of two values; none for 0 × ∞ (03 R93). -/
def mulVal (a b : FVal) : Option FVal :=
  let n := a.neg != b.neg
  match a, b with
  | .fin _ ma ea, .fin _ mb eb => some (.fin n (ma * mb) (ea + eb))
  | _, _ => if a.isZero || b.isZero then none else some (.inf n)

/-- A value rounded into a format. -/
def roundVal (t : Elt) (rm : Nat) (sat : Bool) (v : FVal) : Nat × BitVec 5 :=
  match v with
  | .nan _ => invalidOp t
  | .inf n => infTo t n sat
  | .fin n m e => if m = 0 then (zeroBits t n, 0) else roundF t rm sat n m e

def fadd (t : Elt) (rm a b : Nat) : Nat × BitVec 5 :=
  withNans t [a, b] fun _ => addVal t rm (readF t a) (readF t b)
def fsub (t : Elt) (rm a b : Nat) : Nat × BitVec 5 :=
  withNans t [a, b] fun _ => addVal t rm (readF t a) (readF t b).flip
def fmul (t : Elt) (rm a b : Nat) : Nat × BitVec 5 :=
  withNans t [a, b] fun _ =>
    match mulVal (readF t a) (readF t b) with
    | some v => roundVal t rm false v
    | none => invalidOp t

/-- A × B + C with one rounding; 0 × ∞ sets NV and leaves a NaN addend as the result (R215). -/
def ffma (t : Elt) (rm a b c : Nat) : Nat × BitVec 5 :=
  let va := readF t a
  let vb := readF t b
  if va.isNan || vb.isNan then withNans t [a, b, c] fun _ => invalidOp t
  else
    match mulVal va vb with
    | none => if (readF t c).isNan then (quiet t c, flagNV) else invalidOp t
    | some p => withNans t [c] fun _ => addVal t rm p (readF t c)

/-! Quotients and roots, with one bit for what remains (R220). -/

/-- m × 2^e with a last bit that says whether something remains below it. -/
def sticky (neg : Bool) (m : Nat) (rest : Bool) (e : Int) : FVal := .fin neg (2 * m + bit rest) (e - 1)

/-- The quotient of two positive numbers to at least 140 bits. -/
def quotient (neg : Bool) (ma : Nat) (ea : Int) (mb : Nat) (eb : Int) : FVal :=
  let k := 140 + bitLen mb - bitLen ma
  let n := ma * 2 ^ k
  sticky neg (n / mb) (n % mb != 0) (ea - eb - k)

/-- A positive number as N × 4^h with N of at least `bits` bits. -/
def evenScale (bits m : Nat) (e : Int) : Nat × Int :=
  let k := bits - bitLen m
  let k := if (e - k) % 2 = 0 then k else k + 1
  (m * 2 ^ k, (e - k) / 2)

def sqrtVal (m : Nat) (e : Int) : FVal :=
  let (n, h) := evenScale 280 m e
  let r := isqrt n
  sticky false r (r * r != n) h

/-- 1 / √ of a positive number. -/
def rsqrtVal (m : Nat) (e : Int) : FVal :=
  let (n, h) := evenScale 280 m e
  let top := 2 ^ 560
  let r := isqrt (top / n)
  sticky false r (r * r * n != top) (-280 - h)

def fdiv (t : Elt) (rm a b : Nat) : Nat × BitVec 5 :=
  withNans t [a, b] fun _ =>
    let va := readF t a
    let vb := readF t b
    let n := va.neg != vb.neg
    match va, vb with
    | .inf _, .inf _ => invalidOp t
    | .inf _, _ => (infBits t n, 0)
    | _, .inf _ => (zeroBits t n, 0)
    | .fin _ ma ea, .fin _ mb eb =>
      if mb = 0 then (if ma = 0 then invalidOp t else (infBits t n, flagDZ))
      else if ma = 0 then (zeroBits t n, 0)
      else roundVal t rm false (quotient n ma ea mb eb)
    | _, _ => invalidOp t

def fsqrt (t : Elt) (rm a : Nat) : Nat × BitVec 5 :=
  withNans t [a] fun _ =>
    match readF t a with
    | .inf n => if n then invalidOp t else (infBits t false, 0)
    | .fin n m e => if m = 0 then (zeroBits t n, 0) else if n then invalidOp t else roundVal t rm false (sqrtVal m e)
    | _ => invalidOp t

/-! Transcendental functions (R221). -/

def frcp (t : Elt) (a : Nat) : Nat × BitVec 5 :=
  withNans t [a] fun _ =>
    match readF t a with
    | .inf n => (zeroBits t n, 0)
    | .fin n m e => if m = 0 then (infBits t n, flagDZ) else roundVal t 0 false (quotient n 1 0 m e)
    | _ => invalidOp t

def frsq (t : Elt) (a : Nat) : Nat × BitVec 5 :=
  withNans t [a] fun _ =>
    match readF t a with
    | .inf n => if n then invalidOp t else (zeroBits t false, 0)
    | .fin n m e => if m = 0 then (infBits t n, flagDZ) else if n then invalidOp t else roundVal t 0 false (rsqrtVal m e)
    | _ => invalidOp t

/-- Fraction bits of the fixed-point numbers below. -/
def fracBits : Nat := 261

/-- exp(x) for 0 ≤ x < 1, x and the result in units of 2^-261: the Taylor series. DEDUCED, log 18. -/
def expFixed (x : Nat) : Nat :=
  ((List.range 60).foldl (fun (acc : Nat × Nat) i =>
    let term := acc.1 * x / 2 ^ fracBits / (i + 1)
    (term, acc.2 + term)) (2 ^ fracBits, 2 ^ fracBits)).2

/-- ln(y) for y = n/d with 1 ≤ y < 2, in units of 2^-261: twice the series of artanh((y-1)/(y+1)). DEDUCED, log 18. -/
def lnFixed (n d : Nat) : Nat :=
  let z := (n - d) * 2 ^ fracBits / (n + d)
  let z2 := z * z / 2 ^ fracBits
  2 * ((List.range 90).foldl (fun (acc : Nat × Nat) i =>
    (acc.1 * z2 / 2 ^ fracBits, acc.2 + acc.1 / (2 * i + 1))) (z, 0)).2

/-- sin(x) and cos(x) for |x| ≤ π/4, in units of 2^-261. DEDUCED, log 18. -/
def sinFixed (x : Int) : Int :=
  let x2 := x * x / 2 ^ fracBits
  ((List.range 40).foldl (fun (acc : Int × Int) i =>
    (-(acc.1 * x2 / 2 ^ fracBits / ((2 * i + 2) * (2 * i + 3) : Nat)), acc.2 + acc.1)) (x, 0)).2
def cosFixed (x : Int) : Int :=
  let x2 := x * x / 2 ^ fracBits
  ((List.range 40).foldl (fun (acc : Int × Int) i =>
    (-(acc.1 * x2 / 2 ^ fracBits / ((2 * i + 1) * (2 * i + 2) : Nat)), acc.2 + acc.1)) ((2 ^ fracBits : Nat), 0)).2

/-- A fixed-point number as a value with more below it. -/
def fixedVal (x : Int) : FVal := sticky (decide (x < 0)) x.natAbs true (-(fracBits : Int))

/-- 2^A: whole powers are exact; beyond ±2000 every format has overflowed or vanished. -/
def exp2Val (n : Bool) (m : Nat) (e : Int) : FVal :=
  let mag := m * 2 ^ (e + fracBits).toNat
  let fx : Int := if n then -(mag : Int) else mag
  let whole := fx / (2 ^ fracBits : Nat)
  let frac := (fx % (2 ^ fracBits : Nat)).toNat
  if 2000 < whole then .fin false 1 2000
  else if whole < -2000 then .fin false 1 (-2000)
  else if frac = 0 then .fin false 1 whole
  else sticky false (expFixed (frac * constLn2.m.toNat / 2 ^ 260)) true (whole - fracBits)

def fexp2 (t : Elt) (a : Nat) : Nat × BitVec 5 :=
  withNans t [a] fun _ =>
    match readF t a with
    | .inf n => if n then (zeroBits t false, 0) else (infBits t false, 0)
    | .fin n m e => if m = 0 then roundVal t 0 false (.fin false 1 0) else roundVal t 0 false (exp2Val n m e)
    | _ => invalidOp t

/-- log2 of a positive number. -/
def log2Val (m : Nat) (e : Int) : FVal :=
  let k := bitLen m - 1
  let whole : Int := e + k
  if m = 2 ^ k then .fin (decide (whole < 0)) whole.natAbs 0
  else fixedVal (whole * 2 ^ fracBits + (lnFixed m (2 ^ k) * constLog2e.m.toNat / 2 ^ 260 : Nat))

def flog2 (t : Elt) (a : Nat) : Nat × BitVec 5 :=
  withNans t [a] fun _ =>
    match readF t a with
    | .inf n => if n then invalidOp t else (infBits t false, 0)
    | .fin n m e => if m = 0 then (infBits t true, flagDZ) else if n then invalidOp t else roundVal t 0 false (log2Val m e)
    | _ => invalidOp t

/-- The quadrant and the rest of an angle, the rest in units of 2^-261 (π/2 is half of π in those units). -/
def reduceAngle (n : Bool) (m : Nat) (e : Int) : Nat × Int :=
  let x : Int := m * 2 ^ (e + fracBits).toNat
  let h := constPi.m
  let k := (2 * x + h) / (2 * h)
  let rest := x - k * h
  if n then (((-k) % 4).toNat, -rest) else ((k % 4).toNat, rest)

def sinVal (n : Bool) (m : Nat) (e : Int) : FVal :=
  let (k, x) := reduceAngle n m e
  fixedVal (match k with | 0 => sinFixed x | 1 => cosFixed x | 2 => -sinFixed x | _ => -cosFixed x)
def cosVal (n : Bool) (m : Nat) (e : Int) : FVal :=
  let (k, x) := reduceAngle n m e
  fixedVal (match k with | 0 => cosFixed x | 1 => -sinFixed x | 2 => -cosFixed x | _ => sinFixed x)

def fsin (t : Elt) (a : Nat) : Nat × BitVec 5 :=
  withNans t [a] fun _ =>
    match readF t a with
    | .fin n m e => if m = 0 then (zeroBits t n, 0) else roundVal t 0 false (sinVal n m e)
    | _ => invalidOp t
def fcos (t : Elt) (a : Nat) : Nat × BitVec 5 :=
  withNans t [a] fun _ =>
    match readF t a with
    | .fin n m e => if m = 0 then roundVal t 0 false (.fin false 1 0) else roundVal t 0 false (cosVal n m e)
    | _ => invalidOp t

/-! Minimum, sign, comparison, class, scaling, rounding to integral. -/

def fminmax (t : Elt) (isMax : Bool) (a b : Nat) : Nat × BitVec 5 :=
  withNans t [a, b] fun _ =>
    let less := ltF (readF t b) (readF t a)
    let more := ltF (readF t a) (readF t b)
    (if (if isMax then more else less) then b else a, 0)

/-- The sign operations of FABS (R217). -/
def signOp (t : Elt) (fn a b : Nat) : Nat × BitVec 5 :=
  withNans t [a] fun _ =>
    let top := 2 ^ ((fmtOf t).width - 1)
    let mag := a % top
    let neg := decide (top ≤ a)
    (match fn with
      | 0 => mag
      | 1 => if neg then mag else mag + top
      | 2 => mag + top
      | _ => if top ≤ b then mag + top else mag, 0)

/-- The comparisons of FCMP (R218). -/
def floatCond (t : Elt) (fn a b : Nat) : Bool × BitVec 5 :=
  let va := readF t a
  let vb := readF t b
  let un := va.isNan || vb.isNan
  let zeros := va.isZero && vb.isZero
  let lt := !un && !zeros && ltF va vb
  let gt := !un && !zeros && ltF vb va
  let eq := !un && !lt && !gt
  let snan := va.isSnan || vb.isSnan
  match fn with
  | 0 => (eq, fl snan flagNV)
  | 1 => (!eq, fl snan flagNV)
  | 2 => (lt, fl un flagNV)
  | 3 => (lt || eq, fl un flagNV)
  | 4 => (gt, fl un flagNV)
  | 5 => (gt || eq, fl un flagNV)
  | 6 => (un, fl snan flagNV)
  | _ => (!un, fl snan flagNV)

/-- The class mask (R219). -/
def fclass (t : Elt) (a : Nat) : Nat × BitVec 5 :=
  let ex := a / 2 ^ (fmtOf t).fbits % 2 ^ (fmtOf t).ebits
  match readF t a with
  | .nan s => (if s then 256 else 512, fl s flagNV)
  | .inf n => (if n then 1 else 128, 0)
  | .fin n m _ =>
    (if m = 0 then (if n then 8 else 16) else if ex = 0 then (if n then 4 else 32) else if n then 2 else 64, 0)

/-- A × 2^B (R222); beyond ±5000 every format has overflowed or vanished. -/
def fscale (t : Elt) (rm a : Nat) (b : Int) : Nat × BitVec 5 :=
  withNans t [a] fun _ =>
    match readF t a with
    | .fin n m e => roundVal t rm false (.fin n m (e + max (-5000) (min 5000 b)))
    | v => roundVal t rm false v

def fround (t : Elt) (rm : Nat) (exact : Bool) (a : Nat) : Nat × BitVec 5 :=
  withNans t [a] fun _ =>
    match readF t a with
    | .fin n m e =>
      let (i, ex) := roundInt rm (FVal.fin n m e).dy
      ((roundVal t 0 false (.fin n i.natAbs 0)).1, fl (exact && !ex) flagNX)
    | v => roundVal t rm false v

/-- C + a0 b0 + a1 b1 in F32 with one rounding (R224). DEDUCED, log 17. -/
def fdot2 (t : Elt) (rm a b c : Nat) : Nat × BitVec 5 :=
  let xs := [a % 2 ^ 16, a / 2 ^ 16, b % 2 ^ 16, b / 2 ^ 16]
  let vs := xs.map (readF t)
  let vc := readF .f32 c
  let v := fun i => nthD (FVal.inf false) vs i
  let p0 := if (v 0).isNan || (v 2).isNan then some (v 2) else mulVal (v 0) (v 2)
  let p1 := if (v 1).isNan || (v 3).isNan then some (v 3) else mulVal (v 1) (v 3)
  let snan := vs.any FVal.isSnan || vc.isSnan
  match xs.find? fun b => (readF t b).isNan with
  | some b => (convNan t b .f32, fl snan flagNV)
  | none =>
    if vc.isNan then (quiet .f32 c, fl snan flagNV)
    else
      match p0, p1 with
      | some x, some y =>
        let ts := [x, y, vc]
        let pinf := ts.any fun v => v == .inf false
        let ninf := ts.any fun v => v == .inf true
        if pinf && ninf then invalidOp .f32
        else if pinf || ninf then (infBits .f32 ninf, 0)
        else roundDy .f32 rm false (ts.all fun v => v.isZero && v.neg) (sumDy (ts.map FVal.dy))
      | _, _ => invalidOp .f32

/-- The immediate of a float form, widened exactly, a signalling NaN included (03 R95). -/
def immOf (f : Fields) : Nat :=
  let b := (imm16Of f).toNat
  match f.t with
  | .f32 => b * 2 ^ 16
  | .f64 =>
    match readF .bf16 b with
    | .nan _ => b / 2 ^ 15 * 2 ^ 63 + 2047 * 2 ^ 52 + b % 2 ^ 7 * 2 ^ 45
    | _ => (convF .bf16 .f64 0 false b).1
  | _ => b

/-- FCMP in one lane, with its flags. -/
def fcmpLane (c : Ctx) (r : Run) (l : Nat) : Bool × BitVec 5 :=
  floatCond c.elt (fnOf c.f) (c.aAs r c.elt l) (c.bAs r c.elt l)

def fcmpBody (c : Ctx) (r : Run) : Except Stop Run :=
  .ok (writePred (raiseFlags r c fun l => (fcmpLane c r l).2) c c.f.d fun l => combine c (fcmpLane c r l).1 l)

def execFadd (f : Fields) (s : State) : Host.Outcome State Fault Refusal := issue (.fadd f) (flagWork2 fun f e => fadd e (rmOf f)) s
def execFsub (f : Fields) (s : State) : Host.Outcome State Fault Refusal := issue (.fsub f) (flagWork2 fun f e => fsub e (rmOf f)) s
def execFmul (f : Fields) (s : State) : Host.Outcome State Fault Refusal := issue (.fmul f) (flagWork2 fun f e => fmul e (rmOf f)) s
def execFfma (f : Fields) (s : State) : Host.Outcome State Fault Refusal := issue (.ffma f) (flagWork3 fun f e => ffma e (rmOf f)) s
def execFaddi (f : Fields) (s : State) : Host.Outcome State Fault Refusal :=
  issue (.faddi f) (flagWork1 fun f e a => fadd e (rmOf f) a (immOf f)) s
def execFmuli (f : Fields) (s : State) : Host.Outcome State Fault Refusal :=
  issue (.fmuli f) (flagWork1 fun f e a => fmul e (rmOf f) a (immOf f)) s
def execFfmai (f : Fields) (s : State) : Host.Outcome State Fault Refusal :=
  issue (.ffmai f) (flagWork2 fun f e a b => ffma e (rmOf f) a b (immOf f)) s
def execFmin (f : Fields) (s : State) : Host.Outcome State Fault Refusal := issue (.fmin f) (flagWork2 fun _ e => fminmax e false) s
def execFmax (f : Fields) (s : State) : Host.Outcome State Fault Refusal := issue (.fmax f) (flagWork2 fun _ e => fminmax e true) s
def execFabs (f : Fields) (s : State) : Host.Outcome State Fault Refusal :=
  issue (.fabs f) (flagWork tyRes fun c r l =>
    signOp c.elt (fnOf c.f) (c.aAs r c.elt l) (if fnOf c.f = 3 then c.bAs r c.elt l else 0)) s
def execFcmp (f : Fields) (s : State) : Host.Outcome State Fault Refusal :=
  issue (.fcmp f) { body := fcmpBody } s
def execFclass (f : Fields) (s : State) : Host.Outcome State Fault Refusal :=
  issue (.fclass f) (flagWork (fun _ => .n32) fun c r l => fclass c.elt (c.aAs r c.elt l)) s
def execFdiv (f : Fields) (s : State) : Host.Outcome State Fault Refusal := issue (.fdiv f) (flagWork2 fun f e => fdiv e (rmOf f)) s
def execFsqrt (f : Fields) (s : State) : Host.Outcome State Fault Refusal := issue (.fsqrt f) (flagWork1 fun f e => fsqrt e (rmOf f)) s
def execFrcp (f : Fields) (s : State) : Host.Outcome State Fault Refusal := issue (.frcp f) (flagWork1 fun _ => frcp) s
def execFrsq (f : Fields) (s : State) : Host.Outcome State Fault Refusal := issue (.frsq f) (flagWork1 fun _ => frsq) s
def execFexp2 (f : Fields) (s : State) : Host.Outcome State Fault Refusal := issue (.fexp2 f) (flagWork1 fun _ => fexp2) s
def execFlog2 (f : Fields) (s : State) : Host.Outcome State Fault Refusal := issue (.flog2 f) (flagWork1 fun _ => flog2) s
def execFsin (f : Fields) (s : State) : Host.Outcome State Fault Refusal := issue (.fsin f) (flagWork1 fun _ => fsin) s
def execFcos (f : Fields) (s : State) : Host.Outcome State Fault Refusal := issue (.fcos f) (flagWork1 fun _ => fcos) s
def execFscale (f : Fields) (s : State) : Host.Outcome State Fault Refusal :=
  issue (.fscale f) (flagWork tyRes fun c r l => fscale c.elt (rmOf c.f) (c.aAs r c.elt l) (sext 32 (c.bAs r .i32 l))) s
def execFround (f : Fields) (s : State) : Host.Outcome State Fault Refusal :=
  issue (.fround f) (flagWork1 fun f e => fround e (rmOf f) (auxOf f)) s
def execFdot2 (f : Fields) (s : State) : Host.Outcome State Fault Refusal :=
  issue (.fdot2 f) (flagWork (fun _ => .n32) fun c r l =>
    fdot2 c.elt (rmOf c.f) (c.aAs r .n32 l) (c.bAs r .n32 l) (c.cAs r .f32 l)) s

end Sys2Proof.Machine
end

