-- ==== Sys2Proof/Machine/Atomic.lean ====
section
/-! DEFINITION. The sub-operations of the atomics (08 R252 to R254), and their log in RECORD and REPLAY modes (19 R494 to R497). -/
namespace Sys2Proof.Machine

/-- A float's place in the order of R253, in which −0 stands below +0. -/
def floatKey (e : Elt) (b : Nat) : Int :=
  let m := b % 2 ^ (e.bits - 1)
  if b / 2 ^ (e.bits - 1) % 2 = 1 then -(m : Int) - 1 else m

/-- The smaller or larger of two floats (R253). -/
def atomMinMax (e : Elt) (isMax : Bool) (old c : Nat) : Nat :=
  match (readF e old).isNan, (readF e c).isNan with
  | true, true => defaultNan e
  | true, false => c
  | false, true => old
  | false, false => if (if isMax then decide (floatKey e old < floatKey e c) else decide (floatKey e c < floatKey e old)) then c else old

/-- The new value of R252; AOP 10, `.CAS`, is `casNew`. DEDUCED, log 32. -/
def atomNew (e : Elt) (aop old c : Nat) : Nat :=
  let wrap := fun (x : Int) => lowBits e.bits x
  let pick := fun (isMax : Bool) =>
    if isFloatElt e then atomMinMax e isMax old c
    else if (if isMax then decide (readI e old < readI e c) else decide (readI e c < readI e old)) then c else old
  match aop with
  | 0 => if isFloatElt e then (fadd e 0 old c).1 else wrap (readI e old + readI e c)
  | 1 => wrap (readI e old - readI e c)
  | 2 => old &&& c
  | 3 => old ||| c
  | 4 => old ^^^ c
  | 5 => pick false
  | 6 => pick true
  | 7 => c
  | 8 => if c ≤ old then 0 else old + 1
  | _ => if old = 0 || decide (c < old) then c else old - 1

/-- The value that a compare-and-swap writes, if it writes (R254). DEDUCED, log 32. -/
def casNew (cmp old c : Nat) : Option Nat := if old = cmp then some c else none

/-! The log. -/

/-- DEDUCED, log 139. -/
def atomKey (num group lane ord : Nat) : W64 := w64 (num % 2 ^ 32 * 2 ^ 32 + group % 64 * 2 ^ 26 + lane % 128 * 2 ^ 19 + ord % 2 ^ 19)

/-- The key of a lane's next atomic; its ordinal moves on. -/
def nextKey (r : Run) (gid : Nat) (lane : Nat) : W64 × Nat × Run :=
  match r.grp gid with
  | none => (0, 0, r)
  | some g =>
    let ord := Sparse.get 0 g.atomOrd lane
    let num := ((r.team g.team).map (·.num)).getD 0
    (atomKey num g.num lane ord, ord, r.updGrp gid fun g => { g with atomOrd := g.atomOrd.put lane (ord + 1) })

/-- The records of one completed lane (R495). DEDUCED, log 139. -/
def logAtomic (r : Run) (gid lane : Nat) (wide : Bool) (where_ : W64) (old : Nat) : Run :=
  match r.grp gid with
  | none => r
  | some g =>
    let u := coreUnit (dieOfGrp r g) (coreOfGrp r g)
    let (key, _, r) := nextKey r gid lane
    let launch := (r.team g.team).map (·.launch)
    let r := emitRaw r u 0x0050 (old % 2 ^ 32) key where_ launch
    if wide then emitRaw r u 0x0051 (old / 2 ^ 32) key where_ launch else r

/-- The record of a lane that diverges from the log (R497). -/
def divergeLane (r : Run) (gid ord : Nat) : Run :=
  match (r.grp gid).bind fun g => r.team g.team with
  | none => r
  | some t => (emitGrp r gid (coreUnit t.die t.core) 0x0053 (ord % 2 ^ 19)).2

/-- Parks a group as `HALT` does (14 R377): its dirty lines are written back. DEDUCED, log 131. -/
def parkGroup (r : Run) (gid : Nat) : Run :=
  match r.grp gid with
  | none => r
  | some g =>
    if g.ended || g.handler.isSome then r
    else
      let r := if g.ctx.isNone then r else match flushContext r gid with | .ok r => r | .error e => contextFail r gid 1 e
      let now := r.now (dieOfGrp r g)
      r.updGrp gid fun g => { g with parked := some (g.parked.getD (0, now)) }

/-- Parks every group of a launch of which an instruction has diverged, and records its divergence once (R497, R487). DEDUCED, log 53. DEDUCED, log 131. -/
def diverge (r : Run) (gid : Nat) (pc : W64) : Run :=
  match r.grp gid with
  | none => r
  | some g =>
    match r.team g.team with
    | none => r
    | some t =>
      let r := recordError r t.launch .watchdog pc t.num g.num
      let r := r.updLaunch t.launch fun l => { l with diverged := true }
      (r.groups.filter fun e => ((r.team e.2.team).map (·.launch)) = some t.launch).foldl (fun r e => parkGroup r e.1) r

/-- The place of the mode: the old value that a lane of an atomic receives and is computed from. In REPLAY it is the logged one; none
where the log diverges, with the ordinal. -/
inductive OldVal where
  | live
  | logged (old : Nat)
  | diverged (ord : Nat)

/-- DEDUCED, log 139. -/
def oldValue (r : Run) (gid : Nat) (l : Launch) (lane : Nat) (where_ : W64) : OldVal × Run :=
  match l.mode with
  | .replay _ _ =>
    let (key, ord, r) := nextKey r gid lane
    match l.log.find? fun e => e.key == key && e.where_ == where_ with
    | some e => (.logged e.old.toNat, r)
    | none => (.diverged ord, r)
  | _ => (.live, r)

/-- One lane of a local atomic: reads the old value, writes the new one, and logs. It answers the old value; none where the lane diverges, whose atomic
does not act (R497). -/
def atomLane (c : Ctx) (where_ : Nat → W64) (get : Nat → Run → Nat) (put : Nat → Run → Nat → Run) (new : Nat → Nat → Option Nat) (log : Bool)
    (lane : Nat) (r : Run) : Option Nat × Run :=
  let act := fun (old : Nat) (r : Run) => match new lane old with | some v => put lane r v | none => r
  match (if log then oldValue r c.gid c.l lane (where_ lane) else (.live, r)) with
  | (.live, r) =>
    let old := get lane r
    let r := act old r
    (some old, if log && c.l.mode == .record then logAtomic r c.gid lane c.elt.wide (where_ lane) old else r)
  | (.logged old, r) => (some old, act old r)
  | (.diverged ord, r) => (none, divergeLane r c.gid ord)

/-- The atomics of some lanes, one after the other: old values by lane, of those that do not diverge. -/
def atomAll (c : Ctx) (lanes : List Nat) (one : Nat → Run → Option Nat × Run) (r : Run) : Sparse Nat × Run :=
  let x := lanes.foldl (fun (acc : Sparse Nat × Run) l =>
    match one l acc.2 with
    | (some old, r) => (acc.1.put l old, r)
    | (none, r) => (acc.1, r)) (([] : Sparse Nat), r)
  if lanes.all fun l => (x.1.find l).isSome then x else (x.1, diverge x.2 c.gid c.pc)

/-- The result of an atomic: D gets the old value in every lane whose atomic acted. -/
def atomRes (r : Run) (c : Ctx) (old : Sparse Nat) : Except Stop Run :=
  writeRes r { c with active := c.active &&& maskOf (old.map (·.1)) } (tyRes c.f) fun l => Sparse.get 0 old l

end Sys2Proof.Machine
end

