-- ==== Sys2Proof/Machine/Atomics.lean ====
section
/-! DEFINITION. Atomics on global memory and on scratch (08 R252 to R255). -/
namespace Sys2Proof.Machine

/-- A local address as the log has it (19 R495). -/
def localWhere (a : W64) : W64 := w64 (0xFF * 2 ^ 56 + a.toNat % 2 ^ 56)

/-- The atomics of the active lanes on global memory, in ascending lane order: old values by lane. Every lane's data is read, and so
checked, before any is written. -/
def globalAtomics (r : Run) (c : Ctx) (new : Nat → Nat → Option Nat) (log : Bool) : Except Stop (Sparse Nat × Run) := do
  let ea := gAddr r c
  let (as, r) ← globalAccess r c c.lanes 2 c.size (natural c.size) ea
  let (_, r) ← readLanes r c as
  let ps := fun (l : Nat) => Sparse.get [] as l
  let get := fun (l : Nat) (r : Run) => leNat ((ps l).flatMap fun p => memRead r.mem (p.leaf.pa p.va) p.len)
  .ok (atomAll c c.lanes (atomLane c (fun l => localWhere (ea l)) get (fun l r v => writeLane r c (ps l) v) new log) r)

def atomWith (r : Run) (c : Ctx) (l old : Nat) : Option Nat := some (atomNew c.elt (aopOf c.f) old (c.cAs r c.elt l))

/-- ATOM (R252). -/
def execAtom (f : Fields) (s : State) : Host.Outcome State Fault Refusal :=
  issue (.atom f)
    { cmp := fun _ => .atomic
      body := fun c r => do
        let (old, r') ← globalAtomics r c (atomWith r c) true
        atomRes r' c old } s

/-- ACAS (R254). -/
def execAcas (f : Fields) (s : State) : Host.Outcome State Fault Refusal :=
  issue (.acas f)
    { cmp := fun _ => .atomic
      body := fun c r => do
        let new := fun (l old : Nat) => casNew (readSrc r c c.f.d c.elt l) old (c.cAs r c.elt l)
        let (old, r') ← globalAtomics r c new true
        atomRes r' c old } s

/-- RED (R255): no lane result and no log record (19 R495). -/
def execRed (f : Fields) (s : State) : Host.Outcome State Fault Refusal :=
  issue (.red f)
    { cmp := fun _ => .atomic
      body := fun c r => (globalAtomics r c (atomWith r c) false).map (·.2) } s

/-- ATOMS (R252). -/
def execAtoms (f : Fields) (s : State) : Host.Outcome State Fault Refusal :=
  issue (.atoms f)
    { cmp := fun _ => .atomic
      body := fun c r => do
        let ea := sAddr r c
        scratchAccess c c.lanes c.size (natural c.size) ea
        let get := fun (l : Nat) (r : Run) => scrNat (curTeam r c) (ea l) c.size
        let put := fun (l : Nat) (r : Run) (v : Nat) => r.updTeam c.grp.team fun t => scrPut t (ea l) c.size v
        let (old, r') := atomAll c c.lanes (atomLane c (fun l => localWhere (w64 (ea l))) get put (atomWith r c) true) r
        atomRes r' c old } s

end Sys2Proof.Machine
end

