-- ==== Sys2Proof/Machine/LoadStore.lean ====
section
/-! DEFINITION. Loads, stores, scratch accesses, fences and cache control (08 R248 to R251, R256 to R259). -/
namespace Sys2Proof.Machine

/-! Replicas (04 R122, R123; metadata, DEDUCED, log 8). -/

/-- The slice nearest a core of its die (04 R520, R122). -/
def nearestSlice (core : Nat) : Nat :=
  let dist := fun (k : Nat) =>
    let row := core / Config.meshCols
    let col := core % Config.meshCols
    (max row (k / 6) - min row (k / 6)) + (max col (2 * (k % 6) + 1) - min col (2 * (k % 6) + 1))
  (List.range Config.slices).foldl (fun best k => if dist k < dist best then k else best) 0

/-- Whether a slice has room outside its pinned lines (04 R122, R137). -/
def roomOutside (r : Run) (d s : Nat) : Bool :=
  decide (slicePageLines r d s + ((allPins r).filter fun p => p.2 == d * Config.slices + s).length < Config.sliceLines)

/-- The replica of one line in the slice nearest the core (R122). -/
def addReplica (die slice : Nat) (c : Ctx) (p : Piece64) (r : Run) (line : Nat) : Run :=
  if (r.die die).replicas.any (fun e => e.line == line && e.slice == slice) then
    if r.accHint = 0 then r
    else r.updDie die fun d => { d with replicas := d.replicas.map fun e => if e.line = line ∧ e.slice = slice then { e with hint := r.accHint } else e }
  else if !roomOutside r die slice || framePinned r (128 * line) then r
  else
    let r := markLine (sliceRoom 1 r c.part die slice) c.part p.leaf (128 * line)
    (r.count c.part 2 4 1).updDie die fun d => { d with replicas := d.replicas ++ [{ line, slice, launch := c.t.launch, hint := r.accHint }] }

/-- The replicas that a hinted load makes. DEDUCED, log 8. -/
def replicate (r : Run) (c : Ctx) (p : Piece64) : Run :=
  if subOf c.f % 2 = 1 && p.leaf.home == 0 && !p.leaf.w then
    (linesOf (p.leaf.pa p.va) p.len).foldl (addReplica (dieOfGrp r c.grp) (nearestSlice (coreOfGrp r c.grp)) c p) r
  else r

def replicateAll (r : Run) (c : Ctx) (as : List (Nat × List Piece64)) : Run :=
  as.foldl (fun r x => x.2.foldl (fun r p => replicate r c p) r) r

/-! Global loads and stores. -/

/-- A load of some lanes; `pick` gives each active lane the access that serves it. -/
def loadWork (lanes : Ctx → List Nat) (pick : Ctx → Nat → Nat) : Work :=
  { body := fun c r => do
      let (as, r) ← globalAccess r c (lanes c) 0 c.size (kindAligned c.f) (gAddr r c)
      let (vals, r) ← readLanes r c as
      writeRes (replicateAll r c as) c (loadRes c.f) fun l => extendTo c.f (Sparse.get 0 vals (pick c l)) }

/-- LD (R248). -/
def execLd (f : Fields) (s : State) : Host.Outcome State Fault Refusal := issue (.ld f) (loadWork Ctx.lanes fun _ l => l) s

/-- LDG (R250): one access at the address of the lowest active lane; with none, nothing is written. -/
def execLdg (f : Fields) (s : State) : Host.Outcome State Fault Refusal :=
  issue (.ldg f)
    { body := fun c r => if c.active = 0 then .ok r else (loadWork (fun c => c.lanes.take 1) fun c _ => c.lowest.getD 0).body c r } s

/-- ST (R249). Of two lanes that write one byte the higher wins (R247). Its pieces are performed in later steps, but its own lane sees them at once.
DESIGN CHOICE, log 3. -/
def execSt (f : Fields) (s : State) : Host.Outcome State Fault Refusal :=
  issue (.st f)
    { cmp := fun _ => .store
      body := fun c r => do
        let (as, r) ← globalAccess r c c.lanes 1 c.size (kindAligned c.f) (gAddr r c)
        .ok (if c.shadowed then bufferStores r c (as.flatMap fun x => laneStores c x.1 x.2 (storeVal r c x.1))
             else storeLate r (as.map fun x => laneLate c x.1 x.2 (storeVal r c x.1))) } s

/-! Scratch (R251, 04 R125). -/

def lineAligned (f : Fields) (a : Nat) : Bool := if subOf f = 0 then kindAligned f a else strongAligned (sizeBytes (sizeOf f)) a

/-- LDS, LDS.WAIT and LDS.TAKE. -/
def execLds (f : Fields) (s : State) : Host.Outcome State Fault Refusal :=
  issue (.lds f)
    { cmp := fun f => if subOf f = 2 then .atomic else .none
      body := fun c r => do
        let ea := sAddr r c
        scratchAccess c c.lanes c.size (lineAligned c.f) ea
        let ns := touched ea c.size c.lanes
        if subOf c.f = 0 then pure () else awaitLines r c ns .full (if subOf c.f = 2 then some false else none)
        let r' := if subOf c.f = 2 then r.updTeam c.grp.team fun t => setLines t ns fun _ => .empty else r
        writeRes r' c (loadRes c.f) fun l => extendTo c.f (readScratch r c (ea l) c.size) } s

/-- STS, STS.FILL and STS.GIVE. -/
def execSts (f : Fields) (s : State) : Host.Outcome State Fault Refusal :=
  issue (.sts f)
    { cmp := fun f => if subOf f = 2 then .atomic else .store
      body := fun c r => do
        let ea := sAddr r c
        scratchAccess c c.lanes c.size (lineAligned c.f) ea
        let ns := touched ea c.size c.lanes
        if subOf c.f = 2 then awaitLines r c ns .empty (some true) else pure ()
        let data := fun (l : Nat) => leBytes c.size (storeVal r c l)
        if c.shadowed && subOf c.f != 2 then
          .ok (bufferStores r c (c.lanes.map fun l => { group := c.gid, lane := l, weak := false, edge := decide (3 ≤ kindOf c.f) || subOf c.f == 1, pc := c.pc, hint := 0
                                                        dest := .scratch (subOf c.f == 1), addr := ea l, bytes := data l, taken := max 4 c.size }))
        else
          .ok (r.updTeam c.grp.team fun t =>
            let t := c.lanes.foldl (fun t l => scrWrite t (ea l) (data l)) t
            if subOf c.f = 0 then t else setLines t ns fillLine) } s

/-- SFILL: the lines that hold ea(l), all in one step. -/
def execSfill (f : Fields) (s : State) : Host.Outcome State Fault Refusal :=
  issue (.sfill f)
    { cmp := fun _ => .atomic
      body := fun c r => do
        let ea := sAddr r c
        scratchAccess c c.lanes 1 (fun _ => true) ea
        .ok (r.updTeam c.grp.team fun t => setLines t (touched ea 1 c.lanes) (if subOf c.f = 1 then fillLine else emptyLine)) } s

/-- SSTAT: the code of 04 R124. -/
def execSstat (f : Fields) (s : State) : Host.Outcome State Fault Refusal :=
  issue (.sstat f)
    { body := fun c r => do
        let ea := sAddr r c
        scratchAccess c c.lanes 1 (fun _ => true) ea
        writeRes r c .n32 fun l => lineCode (lineState (curTeam r c) (ea l / 128)) } s

/-! Fences (R256, R257). Stores that are not performed yet are performed when a fence issues (`Ctx.settles`; DESIGN CHOICE, log 3); here the fences act
on the stores of a protected team, and wait for remote ones. -/

/-- A fence's mark in the store buffer: the lane's stores before it do not merge with those after it (05 R141, R158). -/
def fenceMarks (c : Ctx) (r : Run) : Run :=
  r.updTeam c.grp.team fun t =>
    if t.sbuf.isEmpty then t
    else { t with sbuf := t.sbuf ++ c.lanes.map fun l => { group := c.gid, lane := l, weak := false, edge := true, pc := c.pc, hint := 0, dest := .scratch false, addr := 0, bytes := [], taken := 0 } }

/-- FENCE: what the lanes' team has committed is performed before their later accesses; what is not committed is not ordered earlier (05 R158, R166).
DESIGN CHOICE, log 3. -/
def execFence (f : Fields) (s : State) : Host.Outcome State Fault Refusal :=
  issue (.fence f)
    { body := fun c r => .ok (if c.shadowed && c.active != 0 then fenceMarks c (performCommitted r c.grp.team) else r) } s

/-! Cache control (R258, R259). -/

/-- PREF for one lane: the line of a CACHED page is brought in, and marked where it fails (17 R448); a prefetch that would fault is dropped. -/
def prefLane (c : Ctx) (r : Run) (a : W64) : Run :=
  match translate r (Ctx.req r c 0) a with
  | (.error _, _) => r
  | (.ok l, r) =>
    if l.home != 0 then r
    else
      let pa := l.pa a
      replicate (markLine (touchLine r c.part l pa 1 false) c.part l pa) c { va := a, len := 1, leaf := l }

def execPref (f : Fields) (s : State) : Host.Outcome State Fault Refusal :=
  issue (.pref f) { body := fun c r => .ok (c.lanes.foldl (fun r' l => prefLane c r' (gAddr r c l)) r) } s

/-- The accesses of the ranges [ea(l), ea(l) + C(l)). DEDUCED, log 50. -/
def rangeAccess (r : Run) (c : Ctx) (kind : Nat) : Except Stop (List (Nat × List Piece64) × Run) := do
  let q := Ctx.req r c kind
  let lanes := c.lanes.filter fun l => c.cAs r .n32 l != 0
  noncanonical r c q lanes (gAddr r c)
  translateLanes r c q lanes (gAddr r c) (c.cAs r .n32)

/-- Whether a line overlaps a piece. -/
def Piece64.covers (p : Piece64) (line : Nat) : Bool :=
  let a := p.leaf.pa p.va
  p.leaf.home == 0 && decide (a / 128 ≤ line) && decide (line ≤ (a + p.len - 1) / 128)

/-- CINV: drops every replica of the lines. -/
def execCinv (f : Fields) (s : State) : Host.Outcome State Fault Refusal :=
  issue (.cinv f)
    { body := fun c r => do
        let (as, r) ← rangeAccess r c 0
        let ps := as.flatMap (·.2)
        .ok { r with dies := r.dies.map fun d => { d with replicas := d.replicas.filter fun e => !ps.any fun p => p.covers e.line } } } s

/-- Lines of pinned frames that some pieces name. -/
def pinnedLines (r : Run) (ps : List Piece64) : List Nat :=
  ((ps.filter fun p => framePinned r (p.leaf.pa p.va)).flatMap fun p => linesOf (p.leaf.pa p.va) p.len).eraseDups

/-- CWB: dirty lines are written to HBM and are clean, and the lines of a pinned copy are written to its frame, which holds the same bytes here
(DEDUCED, log 8). -/
def execCwb (f : Fields) (s : State) : Host.Outcome State Fault Refusal :=
  issue (.cwb f)
    { body := fun c r => do
        let (as, r) ← rangeAccess r c 1
        let ps := as.flatMap (·.2)
        let named := fun (e : Nat × L2Line) => e.2.dirty && ps.any fun p => p.covers e.1
        let clean := fun (e : Nat × L2Line) => if named e then (e.1, { e.2 with dirty := false }) else e
        let n := (r.dies.map fun d => (d.held.filter named).length).foldl (· + ·) 0 + (pinnedLines r ps).length
        .ok { r.count c.part 2 3 (128 * n) with dies := r.dies.map fun d => { d with held := d.held.map clean } } } s

end Sys2Proof.Machine
end

