-- ==== Sys2Proof/Machine/RemoteInstr.lean ====
section
/-! DEFINITION. Remote instructions (08 R260 to R265). -/
namespace Sys2Proof.Machine

/-- The peer word of a lane (R260). -/
def peerOf (r : Run) (c : Ctx) (l : Nat) : W32 := w32 (c.aAs r .n32 l)

/-- REMOTE_ERROR of a lane, with the record's ADDR and AUX (17 R434). -/
def remoteTrap (c : Ctx) (cause : Cause) (detail lane : Nat) (ofs : W64) (peer : W32) : TrapInfo :=
  { c.trap cause detail lane ofs with aux := peer.toNat }

/-- The checks of R243 and R261 for every lane. -/
def remoteCheck (r : Run) (c : Ctx) (lanes : List Nat) (right : Nat) (ok : Nat → Bool) : Except Stop Run := do
  checkAligned c lanes ok fun l => (rAddr r c l).toNat
  lanes.foldlM (init := r) fun r' l =>
    match issueCheck r' c.part c.t.die (peerOf r c l) (rAddr r c l) c.size right with
    | (some d, _) => .error (.trap (remoteTrap c .remoteError d l (rAddr r c l) (peerOf r c l)) [])
    | (none, r') => .ok r'

/-- The requests of some lanes. DEDUCED, log 47. -/
def laneReqs (r : Run) (c : Ctx) (lanes : List Nat) (data : Nat → List Byte) : List LaneReq :=
  lanes.map fun l => { lane := l, peer := peerOf r c l, ofs := rAddr r c l, size := sizeOf c.f, data := data l }

/-- The data of an `RST` in its lanes: of two lanes of one instance that write one byte the higher wins, and no observer sees the lower one's value
(08 R247). -/
def rstData (r : Run) (c : Ctx) (l : Nat) : List Byte :=
  let data := fun (k : Nat) => leBytes c.size (storeVal r c k)
  let hit := fun (a k : Nat) => decide (l < k) && peerOf r c k == peerOf r c l && decide ((rAddr r c k).toNat ≤ a) && decide (a < (rAddr r c k).toNat + c.size)
  ((List.range c.size).zip (data l)).map fun x =>
    let a := (rAddr r c l).toNat + x.1
    match (c.lanes.filter (hit a)).getLast? with
    | some k => nthD x.2 (data k) (a - (rAddr r c k).toNat)
    | none => x.2

/-- Whether every destination has room for the requests (18 R464). -/
def tagRoom (r : Run) (ls : List LaneReq) : Bool :=
  ls.all fun l => decide ((awaited r (peerDev l.peer)).length + (ls.filter fun x => peerDev x.peer == peerDev l.peer).length ≤ Config.tagWindow)

def ownRemotes (c : Ctx) : List Remote := c.grp.remotes.filter (ownRemote c.pc c.slices)
def dropOwn (r : Run) (c : Ctx) : Run :=
  r.updGrp c.gid fun g => { g with remotes := g.remotes.filter fun x => !ownRemote c.pc c.slices x }

/-- The words that an instruction has popped, by queue register. -/
def Ctx.popped (c : Ctx) : List (Nat × List W32) :=
  c.pops.map fun e =>
    let w := (((queueReads c.sh c.f).find? fun x => x.1 == e.1).map (·.2)).getD 1
    (e.1, e.2.flatMap fun v => (List.range w).map fun i => w32 (v >>> (32 * i)))

/-- Sends the instances of an instruction, which is then in flight (R262). DEDUCED, log 48. -/
def launchRemote (r : Run) (c : Ctx) (type aop : Nat) (atom : Bool) (ls : List LaneReq) : Run :=
  (instances ls).foldl (fun r x =>
    let (lanes, r) := sendInstance r c.part c.gid type aop c.grp.causal (r.now c.t.die) x.2
    let new : Remote :=
      { pops := if x.1 = ((instances ls).head?.map (·.1)).getD 0 then c.popped else [], pc := c.pc, slice := c.slices.head?.getD 0, peer := x.1, lanes, atom, f := c.f, low := (ls.head?.map (·.lane)).getD 0 }
    r.updGrp c.gid fun g => { g with remotes := g.remotes ++ [new] }) r

/-- The values that the replies of an instruction brought, or the failure of its lowest failing peer word (R264). -/
def remoteValues (c : Ctx) : Except Stop (Sparse Nat) :=
  let xs := ownRemotes c
  if !xs.all Remote.done then .error (.wait remoteWait fun _ r => r)
  else
    match xs.findSome? fun x => x.failure.map fun e => (x.peer, e) with
    | some (peer, l, st) =>
      let (cause, d) := remoteCause st
      .error (.trap (remoteTrap c cause d l.lane l.ofs peer) [])
    | none =>
      let vals := xs.flatMap fun x => x.lanes.map fun l => (l.lane, leNat ((l.reply.map fun p => p.2.2).getD []))
      .ok (vals.foldl (fun m v => m.put v.1 v.2) [])

/-- RLD: in flight until every reply has arrived. -/
def execRld (f : Fields) (s : State) : Host.Outcome State Fault Refusal :=
  issue (.rld f)
    { body := fun c r => do
        let r ← remoteCheck r c c.lanes 0 (strongAligned c.size)
        let ls := laneReqs r c c.lanes fun _ => []
        if ls.isEmpty then writeRes r c (loadRes c.f) fun _ => 0
        else if !tagRoom r ls then .error (.wait remoteWait fun _ r => r)
        else .error (.sent remoteWait fun r => launchRemote r c 1 0 false ls)
      finish := some fun c r => do
        let vals ← remoteValues c
        writeRes (dropOwn r c) c (loadRes c.f) fun l => extendTo c.f (Sparse.get 0 vals l) } s

/-- RST: complete once its requests have left; a protected team's are buffered (R246). -/
def execRst (f : Fields) (s : State) : Host.Outcome State Fault Refusal :=
  issue (.rst f)
    { cmp := fun _ => .store
      body := fun c r => do
        let r ← remoteCheck r c c.lanes 1 (strongAligned c.size)
        let data := rstData r c
        let slice := c.slices.head?.getD 0
        if c.shadowed then
          .ok (r.updTeam c.grp.team fun t => { t with sbuf := t.sbuf ++ c.lanes.map fun l =>
            { group := c.gid, lane := l, weak := false, edge := decide (3 ≤ kindOf c.f), pc := c.pc, hint := 0, dest := .peer (peerOf r c l) c.pc slice (sizeOf c.f)
              addr := (rAddr r c l).toNat, bytes := data l, taken := max 4 c.size } })
        else
          let ls := laneReqs r c c.lanes fun l => slotBytes (rAddr r c l).toNat (data l)
          if !tagRoom r ls then .error (.wait remoteWait fun _ r => r) else .ok (sendStores r c.part c.gid c.pc slice ls) } s

/-- Lanes of an `RATOM` that its done record does not name (R263). -/
def ratomLanes (c : Ctx) : List Nat :=
  let done := (c.grp.ratom.find? fun d => d.pc == c.pc).elim 0 (·.lanes)
  c.lanes.filter fun l => !done.getLsbD l

/-- The done record clears when every lane is done: of the lanes of the issuing fragment. -/
def clearDone (r : Run) (c : Ctx) : Run :=
  let mine := c.slices.foldl (fun m n => m ||| sliceBits n 0xF) (0 : W128)
  let cut := fun (d : RatomDone) => if d.pc = c.pc then { d with lanes := d.lanes &&& ~~~mine } else d
  r.updGrp c.gid fun g => { g with ratom := (g.ratom.map cut).filter fun d => d.lanes != 0 }

def remoteWhere (peer : W32) (ofs : W64) : W64 := w64 (peerDev peer * 2 ^ 56 + peerWin peer * 2 ^ 48 + ofs.toNat % 2 ^ 48)

/-- The result of an `RATOM` whose `lanes` ran: the others were inactive for it. -/
def ratomResult (r : Run) (c : Ctx) (lanes : List Nat) (vals : Sparse Nat) : Except Stop Run :=
  writeRes (clearDone (dropOwn r c) c) { c with active := maskOf lanes } (tyRes c.f) fun l => Sparse.get 0 vals l

/-- An `RATOM` in REPLAY mode sends no request (19 R496). -/
def ratomReplay (r : Run) (c : Ctx) (lanes : List Nat) : Sparse Nat × Run :=
  atomAll c lanes (fun l r' =>
    match oldValue r' c.gid c.l l (remoteWhere (peerOf r c l) (rAddr r c l)) with
    | (.logged old, r') => (some old, r')
    | (.diverged ord, r') => (none, divergeLane r' c.gid ord)
    | (.live, r') => (some 0, r')) r

/-- RATOM: operand, or compare and new value for `.CAS`, in its slot (18 R461). While it is in flight the region entry is its own
address. -/
def execRatom (f : Fields) (s : State) : Host.Outcome State Fault Refusal :=
  issue (.ratom f)
    { cmp := fun _ => .atomic
      compared := ratomLanes
      body := fun c r => do
        let lanes := ratomLanes c
        let r ← remoteCheck r c lanes 2 (natural c.size)
        let operand := fun (l : Nat) =>
          (if aopOf c.f = 10 then leBytes c.size (readSrc r c c.f.d c.elt l) else []) ++ leBytes c.size (c.cAs r c.elt l)
        let ls := laneReqs r c lanes fun l => slotBytes 0 (operand l)
        if ls.isEmpty then ratomResult r c [] []
        else
          match c.l.mode with
          | .replay _ _ =>
            let (vals, r) := ratomReplay r c lanes
            ratomResult r c (vals.map (·.1)) vals
          | _ =>
            if !tagRoom r ls then .error (.wait remoteWait fun _ r => r)
            else .error (.sent remoteWait fun r => launchRemote (regionStart r c.gid c.slices) c 3 (aopOf c.f) true ls)
      finish := some fun c r => do
        let vals ← remoteValues c
        ratomResult r c ((ownRemotes c).flatMap fun x => x.lanes.map (·.lane)) vals } s

/-! Acknowledgements (R264, R265). -/

/-- The first failure of an `RST` towards a covered device, as its trap: deferred, at the `RST`'s address. -/
def storeFailure (c : Ctx) (covers : Nat → Bool) : Option Stop :=
  c.grp.rsts.findSome? fun x =>
    if !covers (peerDev x.peer) then none
    else x.failure.map fun e =>
      let (cause, d) := remoteCause e.2
      .report { cause, detail := d, lane := 0, code := 0, pc := x.pc, addr := e.1.ofs, aux := x.peer.toNat, deferred := true } fun r =>
        r.updGrp c.gid fun g => { g with rsts := g.rsts.erase x }

/-- Waits for what is outstanding towards covered devices, then raises a failure. DEDUCED, log 45. -/
def awaitStores (c : Ctx) (fence : Bool) (covers : Nat → Bool) : Except Stop Unit :=
  let open_ := (c.grp.rsts ++ if fence then c.grp.remotes else []).any fun x => covers (peerDev x.peer) && !x.done
  if open_ then .error (.wait remoteWait fun _ r => r)
  else
    match storeFailure c covers with
    | some e => .error e
    | none => .ok ()

/-- The `RST`s of a protected group that have not left leave first: the buffer is committed where it holds one, and what is committed is performed.
The instruction then waits. DEDUCED, log 41. DEDUCED, log 45. -/
def sendBuffered (c : Ctx) (r : Run) (covers : Nat → Bool) : Except Stop Unit :=
  let mine := fun (b : BufStore) => b.group == c.gid && match b.dest with | .peer w .. => covers (peerDev w) | _ => false
  let t := curTeam r c
  let waits := fun (r : Run) => beginWait r c.gid c.slices remoteWait (fun _ r => r) c.sh.switch
  let commit := fun (r : Run) => match commitNow r c.grp.team with | (r, true) => waits r | (r, false) => r
  if !c.shadowed then .ok ()
  else if t.sbuf.any mine then .error (.undone commit)
  else if t.committed.any mine then .error (.undone fun r => waits (performCommitted r c.grp.team))
  else .ok ()

/-- RFENCE (R265): every peer, or the peers named by the active lanes. With no active lane it covers none. The group's reads in flight are awaited
too, which orders them (05 R163). DEDUCED, log 45. -/
def execRfence (f : Fields) (s : State) : Host.Outcome State Fault Refusal :=
  issue (.rfence f)
    { body := fun c r => do
        let devs := c.lanes.map fun l => peerDev (peerOf r c l)
        let covers := fun (d : Nat) => if subOf c.f = 0 then !c.lanes.isEmpty else devs.contains d
        sendBuffered c r covers
        awaitStores c true covers
        .ok r } s

/-! Replies. -/

/-- The D of one completed `RATOM` lane (R263). -/
def writeOld (prot : Bool) (x : Remote) (lane v : Nat) (g : Grp) : Grp :=
  if x.f.w then g
  else
    match x.f.d with
    | .v n => writeV g prot n.toNat (tyRes x.f) [lane] fun _ => v
    | .g n => if lane = x.low then setG g n.toNat (resG (tyRes x.f) v) else g
    | _ => g

def markDone (pc : W64) (lane : Nat) (g : Grp) : Grp :=
  let old := (g.ratom.find? fun d => d.pc == pc).elim 0 (·.lanes)
  { g with ratom := g.ratom.filter (fun d => d.pc != pc) ++ [{ pc, lanes := old ||| 1#128 <<< lane }] }

/-- The register lines of D in a lane. -/
def oldLines (prot : Bool) (x : Remote) (lane : Nat) : List Nat :=
  match x.f.w, x.f.d with
  | false, .v n => (List.range (tyRes x.f).words).flatMap fun i => lineKeys prot (n.toNat + i) [lane]
  | _, _ => []

/-- The lines of D are resident before a reply writes them (02 R76), also those of a group that is on no core: they stay with it until it is again.
A context access that fails leaves them as they are known. DEDUCED, log 101. -/
def fetchOld (r : Run) (gid : Nat) (g : Grp) (keys : List Nat) : Run :=
  let keys := keys.filter fun k => g.absent.contains k
  match launchOf r g with
  | none => r
  | some l =>
    if keys.isEmpty then r
    else
      match fetchLines r gid g l keys with
      | .ok (g, r) => r.updGrp gid fun _ => g
      | .error e =>
        (unitFail (contextReq r gid 0) e).updGrp gid fun g => { g with absent := g.absent.filter fun k => !keys.contains k }

/-- A completed `RATOM` lane: D, the done record, both also in the checkpoint of a protected team (17 R446), and the log (19 R495). -/
def ratomDone (r : Run) (gid : Nat) (g : Grp) (x : Remote) (l : RLane) (old : Nat) : Run :=
  let prot := isProtected r g.team && g.handler.isNone
  let r := fetchOld r gid g (oldLines prot x l.lane)
  let act := fun (g : Grp) => markDone x.pc l.lane (writeOld prot x l.lane old g)
  let r := r.updGrp gid act
  let r := r.updTeam g.team fun t =>
    { t with checkpoint := t.checkpoint.map fun k => { k with groups := k.groups.upd gid act } }
  if ((launchOf r g).map (·.mode)) = some .record then logAtomic r gid l.lane (tyElt x.f.t).wide (remoteWhere x.peer l.ofs) old else r

def answerLane (tag : Nat) (reply : Nat × Nat × List Byte) (x : Remote) : Remote :=
  { x with lanes := x.lanes.map fun l => if l.tag == tag && l.reply.isNone then { l with reply := some reply } else l }

/-- A reply to a request of this device: STATUS, DETAIL and the bytes of the access (R262 to R264). DEDUCED, log 46. -/
def requestReply (r : Run) (q : Request) (status detail : Nat) (slot : List Byte) : Run :=
  let r := { r with reqs := r.reqs.filter fun x => !(x.pkt.dst == q.pkt.dst && x.pkt.tag == q.pkt.tag) }
  let r := r.count q.part 4 1 1
  let r := if status = 2 then r.count q.part 4 3 1 else if status = 1 then r.count q.part 4 4 1 else r
  let size := sizeBytes q.pkt.size
  let bytes := if q.pkt.type = 3 then fromSlot 0 size slot else fromSlot q.pkt.offset.toNat size slot
  match r.grp q.group with
  | none => r
  | some g =>
    let mine := fun (x : Remote) => peerDev x.peer == q.pkt.dst && x.lanes.any fun l => l.tag == q.pkt.tag && l.reply.isNone
    let answer := fun (xs : List Remote) => xs.map fun x => if mine x then answerLane q.pkt.tag (status, detail, bytes) x else x
    if q.pkt.type = 2 then
      r.updGrp q.group fun g => { g with rsts := (answer g.rsts).filter fun x => !(x.done && x.failure.isNone) }
    else
      let hit := (g.remotes.find? mine).bind fun x => (x.lanes.find? fun l => l.tag == q.pkt.tag && l.reply.isNone).map fun l => (x, l)
      let r := r.updGrp q.group fun g => { g with remotes := answer g.remotes }
      match hit with
      | some (x, l) => if x.atom && status == 0 then ratomDone r q.group g x l (leNat bytes) else r
      | none => r

/-! Fences between paths (R257). -/

/-- Whether a store of a protected team is one that an `XFENCE` of an earlier path waits for: stores on LANE, or `TSTORE`s on MATRIX, of its own group or
of another whose completion its lanes may have observed (05 R153). DEDUCED, log 45. -/
def BufStore.onPath (b : BufStore) (path : Nat) : Bool := (match b.dest with | .peer .. => false | _ => true) && (path == 0 || path == 2)

/-- XFENCE (05 R153, R154): it waits until the stores of the earlier path are performed. In a protected team they are when they are committed, so buffered
ones are committed first; from REMOTE it waits for the group's `RST`s to be acknowledged, and raises no failure of one. Past it no store of its lanes
merges (05 R141). With no active lane it has no effect. DEDUCED, log 45. DESIGN CHOICE, log 155. -/
def xfenceBody (c : Ctx) (r : Run) : Except Stop Run := do
  let path := xbits c.f 11 9
  let t := curTeam r c
  if c.active = 0 then .ok r
  else
    if path = 4 then
      sendBuffered c r fun _ => true
      if c.grp.rsts.any fun x => !x.done then .error (.wait remoteWait fun _ r => r) else pure ()
    else pure ()
    if !c.shadowed then .ok r
    else if t.sbuf.any fun b => b.onPath path then .error (.undone fun r => (commitNow r c.grp.team).1)
    else .ok (fenceMarks c (if t.committed.any fun b => b.onPath path then performCommitted r c.grp.team else r))

def execXfence (f : Fields) (s : State) : Host.Outcome State Fault Refusal := issue (.xfence f) { body := xfenceBody } s

end Sys2Proof.Machine
end

