-- ==== Sys2Proof/Machine/Rooms.lean ====
section
/-! DEFINITION. Room on a core (01 R20, R40, R41, 15 R409), areas of the context pool (16 R431), and the state in which a group starts (01 R40,
15 R400). -/
namespace Sys2Proof.Machine

/-! What a core holds. -/

def onCore (r : Run) (d k : Nat) (g : Grp) : Bool := dieOfGrp r g == d && coreOfGrp r g == k

/-- The groups with a context on a core. -/
def contextsOn (r : Run) (d k : Nat) : List (Nat × Grp) :=
  r.groups.filter fun e => e.2.handler.isNone && e.2.ctx.isSome && onCore r d k e.2
/-- The landing-handler slices that run on a core, where they were started (01 R45). -/
def handlersOn (r : Run) (d k : Nat) : List (Nat × Grp) := r.groups.filter fun e => e.2.handler.isSome && onCore r d k e.2
def teamsOn (r : Run) (d k : Nat) : List (Nat × Team) := r.teams.filter fun e => e.2.resident && !e.2.ended && e.2.die == d && e.2.core == k

/-- The lowest number below `n` that is not taken. -/
def lowestFree (n : Nat) (taken : List Nat) : Option Nat := (List.range n).find? fun i => !taken.contains i

def Launch.groupLines (l : Launch) : Nat := Machine.groupLines l.vregs l.width
def linesUsed (r : Run) (d k : Nat) : Nat := ((contextsOn r d k).map fun e => ((launchOf r e.2).map Launch.groupLines).getD 0).foldl (· + ·) 0
def takenContexts (r : Run) (d k : Nat) : List Nat := (contextsOn r d k).filterMap fun e => e.2.ctx
def takenSpawns (r : Run) (d k : Nat) : List Nat := (contextsOn r d k).filterMap fun e => e.2.spawnSlot

/-- Whether a core has contexts and register lines for `n` more groups of a launch; a fenced one takes none (20 R504). -/
def groupRoom (r : Run) (d k : Nat) (l : Launch) (n : Nat) : Bool :=
  !(r.core d k).fenced && decide ((contextsOn r d k).length + n ≤ Config.contexts) && decide (linesUsed r d k + n * l.groupLines ≤ Config.registerLines)

/-- Lines of a core's scratch pool that no resident team holds (04 R117, 01 R20). -/
def corePins (r : Run) (d k : Nat) : Nat :=
  ((r.pinned.filter fun p => p.core && p.die == d && p.unit == k).map fun p => p.size / 0x10000).foldl (· + ·) 0
def poolFree (r : Run) (d k : Nat) : Nat :=
  Config.sramLines - Config.corePageLines * corePins r d k - ((teamsOn r d k).map fun e => e.2.size / 128).foldl (· + ·) 0

/-! The context pool. -/

def overlaps (a n b m : Nat) : Bool := decide (a < b + m) && decide (b < a + n)

/-- The die that a pool address is homed on; none where the pool is not mapped by SLICE-homed 2 MiB pages without U. -/
def poolHome (r : Run) (part die a : Nat) : Option Nat :=
  match (translate r (unitReq part die 7 1) (w64 a)).1 with
  | .ok l => if l.home = 2 && !l.u && l.size == 0x200000 then some l.hdie else none
  | .error _ => none

/-- The addresses of a range at which a page of the pool begins, and its first. -/
def poolPages (a n : Nat) : List Nat :=
  (List.range (if n = 0 then 0 else (a + n - 1) / 0x200000 - a / 0x200000 + 1)).map fun i => max a ((a / 0x200000 + i) * 0x200000)

/-- The lowest free address for an area: in pages homed on the die, then in pages on any die. DEDUCED, log 51. -/
def poolAddress (r : Run) (part die n : Nat) : Option Nat :=
  let p := r.part part
  match p.cb with
  | none => none
  | some cb =>
    let starts := (poolPages cb.ctxbase cb.ctxsize ++ p.areas.map fun a => a.1 + a.2).foldl (fun acc a => if acc.contains a then acc else acc ++ [a]) []
    let free := starts.filter fun a => decide (cb.ctxbase ≤ a) && decide (a + n ≤ cb.ctxbase + cb.ctxsize) && !p.areas.any fun b => overlaps a n b.1 b.2
    let homes := fun (a : Nat) => (poolPages a n).map (poolHome r part die)
    let best := fun (ok : Nat → Bool) => (free.filter ok).foldl (fun acc a => some (acc.elim a (min a ·))) none
    match best fun a => (homes a).all (· == some die) with
    | some a => some a
    | none => best fun a => (homes a).all (·.isSome)

/-- Takes an area of the pool. DEDUCED, log 51. -/
def takeBytes (r : Run) (die part n : Nat) : Option (Nat × Run) :=
  (poolAddress r part die n).map fun a => (a, r.updPart part fun p => { p with areas := p.areas ++ [(a, n)] })

/-- Takes an area for one group: three times its lines in a protected launch (17 R441). -/
def takeArea (r : Run) (die : Nat) (l : Launch) : Option (Nat × Run) := takeBytes r die l.part (areaBytes l * (if l.prot then 3 else 1))

/-- The page of the pool that is not there, where one is not (16 R431). -/
def poolFault (r : Run) (part die : Nat) : Option (Req × FaultInfo) :=
  (r.part part).cb.bind fun cb =>
    (poolPages cb.ctxbase cb.ctxsize).findSome? fun a =>
      match (translate r (unitReq part die 7 1) (w64 a)).1 with
      | .error f => if f.kind = 1 || f.kind = 7 then some (unitReq part die 7 1, f) else none
      | .ok _ => none

/-! Groups as they start. -/

def visibleWidth (l : Launch) : Nat := if l.prot then l.width / 2 else l.width

def Slice.start (pc : W64) : Slice :=
  { pc, mask := 0xF, crp := none, stack := [], rge := pc, regMask := 0xF, regStack := [], regCrp := none, gone := 0, frag := 0
    arrived := none, recorded := none, bar := none, bara := [], valid := 0, wait := none, last := 0, lastPc := 0
    stale := [], staleLeft := 0, buffer := []
    loopAt := none, loopStale := false, kept := none }

def Grp.start (tid num : Nat) (width : Nat) (pc utvec causal : W64) (gs : List W64) : Grp :=
  { team := tid, num, handler := none, parent := 0, spawned := false, ended := false, width
    slices := List.replicate (width / 4) (Slice.start pc), v := [], dirty := [], absent := [], saved := []
    g := (List.range 64).map fun i => nthD 0 gs i, p := List.replicate 7 0, m := List.replicate 16 0, lat := [], q := []
    fflags := [], sg := List.replicate 8 0, sp := List.replicate 7 0, super := false, msk := false, uin := false, utvec
    parked := none, deferred := [], causal, stall := List.replicate 16 0, staged := [], undo := [], holds := [], regionNo := 0
    remotes := [], rsts := [], returned := [], ratom := [], ctx := none, spawnSlot := none, heldEvict := none, reenter := false, ctxArea := 0, ctlKey := none, copy := 0
    evicting := false, atomOrd := [], hreadOrd := 0, lastIssue := 0 }

/-- A new group of a team by SPAWN, and its number; none where there is no room (R40, R41, R16). DEDUCED, log 51. -/
def spawnGroup (r : Run) (gid : Nat) (g : Grp) (t : Team) (l : Launch) (pc arg : W64) : Option (Nat × Run) :=
  let used := (teamGroups r g.team).filterMap fun e => if e.2.ended then none else some e.2.num
  match (List.range 32).find? fun i => !used.contains (l.ngroups + i), lowestFree Config.contexts (takenContexts r t.die t.core),
      lowestFree Config.spawnSlots (takenSpawns r t.die t.core) with
  | some i, some ctx, some slot =>
    if !groupRoom r t.die t.core l 1 then none
    else
      match takeArea r t.die l with
      | none => none
      | some (area, r) =>
        let (id, r) := r.newId
        let new := { Grp.start g.team (l.ngroups + i) (visibleWidth l) pc g.utvec t.startEvent [arg] with
          parent := gid, spawned := true, ctx := some ctx, spawnSlot := some slot, ctxArea := area, lastIssue := r.tick }
        some (l.ngroups + i, { r with groups := r.groups.put id new })
  | _, _, _ => none

end Sys2Proof.Machine
end

