-- ==== Sys2Proof/Machine/Engine.lean ====
section
/-! DEFINITION. Class 6: queue bindings, copies, multicast tiles, burst reads, arrival barriers and semaphores (11 R320 to R340). What the
engines do with accepted work is in EngineUnit. -/
namespace Sys2Proof.Machine

/-! Completion objects (R322). -/

def descMode (f : Fields) : Nat := w2bits f 6 5
def descCpl (f : Fields) : Nat := 16 * w2bits f 23 7

/-- DEDUCED, log 77. -/
def headerIn (t : Team) (a : Nat) : Bool := scrIn t a 16

/-- Whether a named object has the KIND of its transfer; STREAM takes a scratch destination. A header beyond the allocation has none. DEDUCED, log 77. -/
def objKindOk (t : Team) (mode cpl kind : Nat) (toScratch : Bool) : Bool :=
  match mode with
  | 0 => true
  | 1 => true
  | 2 => toScratch && (!headerIn t cpl || ringKind t cpl == 0)
  | _ => !headerIn t cpl || ringKind t cpl == kind

/-- DEDUCED, log 77. -/
def objIn (t : Team) (mode cpl : Nat) : Bool :=
  match mode with
  | 0 => true
  | 1 => headerIn t cpl
  | _ => headerIn t cpl && scrIn t cpl (16 + 4 * 2 ^ ringCapLog t cpl)

def Ctx.bound (c : Ctx) (ofs : Nat) : Stop := .trap (c.trap .scratchBound 0 (c.lowest.getD 0) (w64 ofs)) []

/-- The check of a completion object, where nothing comes between its parts. -/
def checkObj (c : Ctx) (t : Team) (mode cpl kind : Nat) (toScratch : Bool) : Except Stop Unit :=
  if !objKindOk t mode cpl kind toScratch then .error c.illegal
  else if mode != 0 && cpl % 16 != 0 then .error (c.misaligned (c.lowest.getD 0) cpl)
  else if !objIn t mode cpl then .error (c.bound cpl)
  else .ok ()

/-- A body that acts only where some lane is active (R322). DEDUCED, log 20. -/
def whenActive (body : Body) : Body := fun c r => if c.active = 0 then .ok r else body c r

/-- A wait of a full engine, a holding slot or a holding store that has no place for what an instruction brings. DEDUCED, log 72. -/
def engineWait (reason : Nat) : Stop := Ctx.wait 0 reason 0 fun _ r => r

/-! Bindings (R325, R326). -/

/-- QBIND (R325). DEDUCED, log 79. A semaphore's header is read as an atomic reads, also without .INIT. DESIGN CHOICE, log 165. -/
def execQbind (f : Fields) (s : State) : Host.Outcome State Fault Refusal :=
  issue (.qbind f)
    { cmp := fun _ => .engine
      body := whenActive fun c r => do
        let kind := xbits c.f 2 0
        let init := xbit c.f 4
        let lane := c.lowest.getD 0
        let bind := fun (r : Run) (a : W64) => r.updGrp c.gid fun g =>
          { g with q := g.q.put (xbits c.f 7 5) { kind, lw := xbit c.f 3, obj := a } }
        let cap := readUniform r c c.f.b .n32
        if kind < 4 then
          let a := readUniform r c c.f.a .n32
          let t := curTeam r c
          let old := ringCapLog t a
          let new := if init then cap else old
          if a % 16 != 0 then .error (c.misaligned lane a)
          else if !headerIn t a then .error (c.bound a)
          else if decide (1 ≤ new) && decide (new ≤ 12) && !scrIn t a (16 + 4 * 2 ^ new) then .error (c.bound a)
          else if new = 0 || decide (12 < new) || (!init && ringKind t a != kind) then .error c.illegal
          else
            let set := fun (t : Team) => scrPut (scrPut t a 8 0) (a + 8) 1 (kind * 16 + cap)
            .ok (bind (if init then r.updTeam c.grp.team set else r) (w64 a))
        else
          let a := w64 (readUniform r c c.f.a .n64)
          let q := Ctx.req r c 2
          if a.toNat % 64 != 0 then .error (c.misaligned lane a.toNat)
          else do
            let (bs, r) ← accRead r c q lane a 64
            let w1 := leNat ((bs.drop 8).take 8)
            let new := if init then cap else w1 % 16
            if new = 0 || decide (10 < new) then .error c.illegal
            else if init then do
              let r ← accWrite r c q lane a (leBytes 8 0 ++ leBytes 8 (w1 - w1 % 16 + cap))
              .ok (bind r a)
            else .ok (bind r a) } s

def execQunbind (f : Fields) (s : State) : Host.Outcome State Fault Refusal :=
  issue (.qunbind f)
    { cmp := fun _ => .engine
      body := whenActive fun c r =>
        .ok (r.updGrp c.gid fun g => { g with q := if xbit c.f 8 then [] else g.q.del (xbits c.f 7 5) }) } s

/-- The status of a binding (R326). DEDUCED, log 78. -/
def queueStatus (c : Ctx) (r : Run) (b : QBind) : Except Stop (Nat × Run) := do
  let (count, cap, r) ←
    if b.kind < 4 then
      let t := curTeam r c
      pure (ringCount t b.obj.toNat, ringCapLog t b.obj.toNat, r)
    else do
      let (bs, r) ← accRead r c (Ctx.req r c 0) (c.lowest.getD 0) b.obj 16
      pure (semCount (w64 (leNat (bs.take 8))), leNat (bs.drop 8) % 16, r)
  .ok (min count 0xFFFF * 2 ^ 16 + b.kind * 2 ^ 12 + cap * 2 ^ 8 + bit b.lw * 2 + 1, r)

def execQstat (f : Fields) (s : State) : Host.Outcome State Fault Refusal :=
  issue (.qstat f)
    { body := whenActive fun c r =>
        match c.grp.q.find (xbits c.f 7 5) with
        | none => writeRes r c .n32 fun _ => 0
        | some b => do
          let (v, r) ← queueStatus c r b
          writeRes r c .n32 fun _ => v } s

/-! Transfers. -/

/-- The request of a transfer's accesses on its path, at the level of the group that issues it (16 R420, R521). -/
def pathReq (r : Run) (c : Ctx) (src kind : Nat) : Req := grpReq r c.gid c.grp c.pc src kind

/-- A source or destination that is no canonical address (04 R111). -/
def noncanon (r : Run) (c : Ctx) (src kind a : Nat) : Stop :=
  accStop c (pathReq r c src kind) (c.lowest.getD 0) (.fault (nonCanonical r c.part (w64 a)))

/-- Whether a core has all the outstanding operations of resident teams that it takes (R323). -/
def engineFull (r : Run) (c : Ctx) : Bool :=
  decide (Config.engineQueue ≤ (r.ops.filter fun e =>
    e.2.die == c.t.die && e.2.core == c.t.core && (r.team e.2.team).any (·.resident)).length)

def Ctx.op (c : Ctx) (kind : OpKind) (mode cpl total : Nat) (pieces : List Piece) : Op :=
  { kind, group := c.gid, team := c.grp.team, core := c.t.core, die := c.t.die, pc := c.pc, causal := 0, super := c.grp.super
    srcSc := false, dstSc := false, cmode := mode, cpl, dst := 0, total, pieces, data := [], nx := 0, ny := 0, nz := 0, hidx := 0
    tag := 0, gregs := [], ordinal := 0 }

/-- The engine accepts an operation: its event, its scratch lines FILLING (04 R126). DEDUCED, log 33. -/
def acceptOp (c : Ctx) (r : Run) (o : Op) : Run :=
  let (id, r) := emitGrp r c.gid (copyUnit o.die o.core) 0x0010 (opcodeOf o.kind + o.cmode * 2 ^ 8)
  let (key, r) := r.newId
  let r := { r with ops := r.ops.put key { o with causal := id } }
  r.updTeam o.team fun t => setLines t (opLines o).eraseDups fun _ => .filling

/-! Copies (R329). -/

/-- RL, NR, SSTR, DSTR, and what is scratch. -/
structure CopyShape where
  rl : Nat
  nr : Nat
  sstr : Nat
  dstr : Nat
  ssc : Bool
  dsc : Bool
  deriving DecidableEq, Repr

def copyShape (f : Fields) (v : Nat) : CopyShape :=
  { rl := nfld v 31 0, nr := nfld v 47 32, sstr := w2bits f 63 44, dstr := w2bits f 43 24, ssc := w2bits f 0 0 == 1, dsc := w2bits f 1 1 == 1 }

def CopyShape.rejected (x : CopyShape) (v : Nat) : Bool :=
  nfld v 63 48 != 0 || x.rl == 0 || x.nr == 0 || decide (2 ^ 32 ≤ x.rl * x.nr)

/-- Bytes from the first to the last of a side. -/
def CopyShape.extent (x : CopyShape) (stride : Nat) : Nat := (x.nr - 1) * 16 * stride + x.rl

/-- Bytes left in the page of an address; a page that is not there counts as 64 KiB. DEDUCED, log 73. -/
def pageLeft (r : Run) (q : Req) (a : Nat) : Nat :=
  match (translate r q (w64 a)).1 with
  | .ok l => l.vbase + l.size - a
  | .error _ => 0x10000 - a % 0x10000

/-- Cuts one row at the page boundaries of its sides. DEDUCED, log 73. -/
def cutRow (left : Nat → Nat → Nat) (fuel ofs s d n : Nat) : List Piece :=
  match fuel with
  | 0 => []
  | fuel + 1 =>
    if n = 0 then []
    else
      let k := min n (left s d)
      { ofs, len := k, src := s, dst := d, state := .todo, handlerCause := none } :: cutRow left fuel (ofs + k) (s + k) (d + k) (n - k)

/-- DEDUCED, log 73. -/
def copyPieces (r : Run) (c : Ctx) (x : CopyShape) (a b : Nat) : List Piece :=
  let left := fun (s d : Nat) =>
    min (if x.ssc then x.rl else pageLeft r (pathReq r c 1 0) s) (if x.dsc then x.rl else pageLeft r (pathReq r c 1 1) d)
  (List.range x.nr).flatMap fun row =>
    cutRow left (x.rl / 0x8000 + 4) (row * x.rl) (a + row * 16 * x.sstr) (b + row * 16 * x.dstr) x.rl

def execCopy (f : Fields) (s : State) : Host.Outcome State Fault Refusal :=
  issue (.copy f)
    { cmp := fun _ => .engine
      body := whenActive fun c r =>
        let a := readUniform r c c.f.a .n64
        let b := readUniform r c c.f.b .n64
        let v := readUniform r c c.f.c .n64
        let x := copyShape c.f v
        let t := curTeam r c
        let mode := descMode c.f
        let cpl := descCpl c.f
        if x.rejected v || (decide (1 < x.nr) && decide (16 * x.dstr < x.rl)) || !objKindOk t mode cpl 1 x.dsc then .error c.illegal
        else if x.ssc && !scrIn t a (x.extent x.sstr) then .error (c.bound a)
        else if x.dsc && !scrIn t b (x.extent x.dstr) then .error (c.bound b)
        else if !objIn t mode cpl then .error (c.bound cpl)
        else if !x.ssc && decide (2 ^ 56 ≤ a) then .error (noncanon r c 1 0 a)
        else if !x.dsc && decide (2 ^ 56 ≤ b) then .error (noncanon r c 1 1 b)
        else if engineFull r c then .error (engineWait 9)
        else
          .ok (acceptOp c r { c.op .copy mode cpl (x.rl * x.nr) (copyPieces r c x a b) with srcSc := x.ssc, dstSc := x.dsc, dst := b }) } s

/-! Multicast tiles (R330, R331, 04 R134). -/

def clusterSlots (r : Run) (cid : Nat) : Sparse HoldSlot := ((r.clusters.find cid).map (·.slots)).getD []

/-- Physical slots of a die in use. -/
def slotsOn (r : Run) (d : Nat) : Nat :=
  ((r.clusters.filter fun e => e.2.die == d && e.2.at_.isSome).map fun e => e.2.slots.length).foldl (· + ·) 0

/-- The rows of a tile, packed densely. DEDUCED, log 76. -/
def tileRows (r : Run) (c : Ctx) (x : CopyShape) (a : Nat) : Except Stop (List Byte × Run) :=
  (List.range x.nr).foldlM (init := (([] : List Byte), r)) fun (acc : List Byte × Run) row =>
    let at_ := a + row * 16 * x.sstr
    if x.ssc then .ok (acc.1 ++ scrRead (curTeam acc.2 c) at_ x.rl, acc.2)
    else (accRead acc.2 c (pathReq acc.2 c 1 0) (c.lowest.getD 0) (w64 at_) x.rl).map fun y => (acc.1 ++ y.1, y.2)

/-- DEDUCED, log 76. -/
def execCopym (f : Fields) (s : State) : Host.Outcome State Fault Refusal :=
  issue (.copym f)
    { cmp := fun _ => .engine
      body := whenActive fun c r =>
        let a := readUniform r c c.f.a .n64
        let b := readUniform r c c.f.b .n32
        let v := readUniform r c c.f.c .n64
        let x := copyShape c.f v
        let slot := xbits c.f 3 0
        if b = 0 || decide (2 ^ (c.l.rows * c.l.cols) ≤ b) || decide (65536 < x.rl * x.nr) || x.rejected v then .error c.illegal
        else if x.ssc && !scrIn (curTeam r c) a (x.extent x.sstr) then .error (c.bound a)
        else if !x.ssc && decide (2 ^ 56 ≤ a) then .error (noncanon r c 1 0 a)
        else if (Sparse.find (clusterSlots r c.t.cluster) slot).isSome || decide (Config.dieSlots ≤ slotsOn r c.t.die) || engineFull r c then .error (engineWait 9)
        else do
          let (bytes, r) ← tileRows r c x a
          let r := r.updCluster c.t.cluster fun k => { k with slots := k.slots.put slot { bytes, recv := b, drained := 0 } }
          .ok (freeSlots r c.t.cluster) } s

/-- The tile that a team may drain from a slot: it is a receiver that neither has drained it nor is draining it. DEDUCED, log 33. -/
def drainable (r : Run) (tid : Nat) (t : Team) (slot : Nat) : Option HoldSlot :=
  (Sparse.find (clusterSlots r t.cluster) slot).bind fun h =>
    if h.recv.testBit t.cteam && !h.drained.testBit t.cteam &&
        !(r.ops.any fun e => e.2.team == tid && e.2.kind == .cdrain && e.2.hidx == slot) then some h else none

def execCdrain (f : Fields) (s : State) : Host.Outcome State Fault Refusal :=
  issue (.cdrain f)
    { cmp := fun _ => .engine
      body := whenActive fun c r =>
        let a := readUniform r c c.f.a .n32
        let cpl := readUniform r c c.f.b .n32
        let mode := xbits c.f 5 4
        let slot := xbits c.f 3 0
        let t := curTeam r c
        match drainable r c.grp.team t slot with
        | none => .error (engineWait 8)
        | some h => do
          checkObj c t mode cpl 1 true
          let n := h.bytes.length
          if !scrIn t a n then .error (c.bound a)
          else if engineFull r c then .error (engineWait 9)
          else
            let piece : Piece := { ofs := 0, len := n, src := 0, dst := a, state := .todo, handlerCause := none }
            let r := acceptOp c r { c.op .cdrain mode cpl n [piece] with dstSc := true, dst := a, data := h.bytes, hidx := slot }
            writeRes r c .n32 fun _ => n } s

/-! Burst reads (R332, R333, R335). -/

/-- The address and the coordinates of each burst, in `%bseq` order. -/
def burstPieces (a ny nz nx total : Nat) (v : Nat) : List Piece :=
  (List.range total).map fun k =>
    let x := k % nx
    let y := k / nx % ny
    let z := k / (nx * ny) % nz
    let w := k / (nx * ny * nz)
    { ofs := k, len := 128, src := a + 128 * (x + nfld v 20 0 * y + nfld v 41 21 * z + nfld v 62 42 * w), dst := 0, state := .todo
      handlerCause := none }

def execHread (f : Fields) (s : State) : Host.Outcome State Fault Refusal :=
  issue (.hread f)
    { cmp := fun _ => .engine
      body := whenActive fun c r =>
        let a := readUniform r c c.f.a .n64
        let b := readUniform r c c.f.b .n64
        let v := readUniform r c c.f.c .n64
        let nx := nfld b 15 0
        let ny := nfld b 31 16
        let nz := nfld b 47 32
        let total := nx * ny * nz * nfld b 63 48
        let hidx := w2bits c.f 31 26
        let t := curTeam r c
        let mode := descMode c.f
        let cpl := descCpl c.f
        if total = 0 || decide (2 ^ 24 ≤ total) || nfld v 63 63 != 0 || decide (c.l.handlers.length ≤ hidx) || !objKindOk t mode cpl 2 false then
          .error c.illegal
        else if a % 128 != 0 then .error (c.misaligned (c.lowest.getD 0) a)
        else if !objIn t mode cpl then .error (c.bound cpl)
        else if 2 ^ 56 ≤ a then .error (noncanon r c 3 0 a)
        else if engineFull r c then .error (engineWait 9)
        else
          let o := { c.op .hread mode cpl (128 * total) (burstPieces a ny nz nx total v) with
            nx, ny, nz, hidx, tag := w32 (w2bits c.f 63 32), gregs := (List.range 64).map (gReg c.grp), ordinal := c.grp.hreadOrd }
          .ok ((acceptOp c r o).updGrp c.gid fun g => { g with hreadOrd := g.hreadOrd + 1 }) } s

/-- HEND (R335): once the slice's RSTs are acknowledged (01 R43), all four lanes end. -/
def execHend (f : Fields) (s : State) : Host.Outcome State Fault Refusal :=
  issue (.hend f)
    { body := fun c r =>
        if c.isHandler then (awaitStores c false fun _ => true).map fun _ => r else .error c.illegal
      fin := fun c r => endHandler r c.gid none } s

/-! Arrival barriers (R336 to R338). -/

/-- The checks of the barrier that A names. -/
def barrierAt (c : Ctx) (r : Run) : Except Stop Nat :=
  let a := readUniform r c c.f.a .n32
  if a % 16 != 0 then .error (c.misaligned (c.lowest.getD 0) a)
  else if !headerIn (curTeam r c) a then .error (c.bound a)
  else .ok a

def execAbinit (f : Fields) (s : State) : Host.Outcome State Fault Refusal :=
  issue (.abinit f)
    { cmp := fun _ => .engine
      body := whenActive fun c r => do
        let a ← barrierAt c r
        let n := readUniform r c c.f.b .n64
        if n = 0 || decide (2 ^ 48 ≤ n) then .error c.illegal
        else .ok (r.updTeam c.grp.team fun t => scrPut t a 8 (n + nfld (scrNat t a 8) 62 48 * 2 ^ 48)) } s

/-- Whether the issuing slices wait on a barrier, and whether an arrival has ended that wait (04 R131). -/
def Ctx.abWaits (c : Ctx) (a : Nat) (f : Wait → Bool) : Bool :=
  c.slices.any fun n => (c.grp.slice n).any fun s => s.wait.any fun w => w.kind == 3 && w.object == w64 a && f w

/-- ABWAIT without `.PH`: at once, or with the arrival that makes REMAIN zero, which a plain store is not (R132, R337). -/
def Ctx.zeroSeen (c : Ctx) (t : Team) (a : Nat) : Bool :=
  if c.abWaits a fun _ => true then c.abWaits a fun w => w.aux == 1 else barRemain t a == 0

def execAbwait (f : Fields) (s : State) : Host.Outcome State Fault Refusal :=
  issue (.abwait f)
    { cmp := fun _ => .engine
      body := whenActive fun c r => do
        let a ← barrierAt c r
        let t := curTeam r c
        let phase := (barPhase t a).toNat
        let done := if xbit c.f 0 then decide (phase ≠ readUniform r c c.f.b .n32) else c.zeroSeen t a
        if done then writeRes r c .n32 fun _ => phase
        else .error (Ctx.wait 3 7 (w64 a) fun first r => if first then r.updTeam c.grp.team fun t => setWaiters t a (barWaiters t a + 1) else r) } s

def execAbadd (f : Fields) (s : State) : Host.Outcome State Fault Refusal :=
  issue (.abadd f)
    { cmp := fun _ => .engine
      body := whenActive fun c r => do
        let a ← barrierAt c r
        let n := readUniform r c c.f.b .n64
        if 2 ^ 48 ≤ n then .error c.illegal else .ok (arrive r c.grp.team a n) } s

/-! Semaphores (R340). -/

def execSempost (f : Fields) (s : State) : Host.Outcome State Fault Refusal :=
  issue (.sempost f)
    { cmp := fun _ => .engine
      body := whenActive fun c r =>
        let lanes := if xbit c.f 0 then c.lanes else c.lanes.take 1
        semPost r c (w64 (readUniform r c c.f.a .n64)) (w32 (readUniform r c c.f.c .n32)) (lanes.map fun l => w32 (c.bAs r .n32 l)) } s

def execSemwait (f : Fields) (s : State) : Host.Outcome State Fault Refusal :=
  issue (.semwait f)
    { cmp := fun _ => .engine
      body := whenActive fun c r => do
        let lw := xbit c.f 0
        let (ws, r) ← semTake r c (w64 (readUniform r c c.f.a .n64)) (if lw then c.lanes.length else 1)
        writeRes r c .n32 fun l => (nthD 0 ws (if lw then (c.lanes.findIdx? (· == l)).getD 0 else 0)).toNat } s

end Sys2Proof.Machine
end

