-- ==== Sys2Proof/Machine/EngineUnit.lean ====
section
/-! DEFINITION. What the units of a core do with accepted work: committed stores (01 R54), matrix work (10 R299, R303), pieces of transfers
(11 R328, R329, R331), bursts and their handler slices (01 R42, R45, 11 R333, R334, 19 R495, R496), held completion records (11 R327). -/
namespace Sys2Proof.Machine

/-- A row without an encoding: it takes place where it is due, and changes what executes. -/
def rowRun (due : Bool) (s : State) (act : Run → Run) : Host.Outcome State Fault Refusal :=
  if due then .next { s with run := act s.run } else .fault .notPending

/-- A row that changes what executes and the management plane or the links. -/
def rowBoth (due : Bool) (s : State) (act : Run × Mgmt → Run × Mgmt) : Host.Outcome State Fault Refusal :=
  if due then .next { s with run := (act (s.run, s.mgmt)).1, mgmt := (act (s.run, s.mgmt)).2 } else .fault .notPending

/-- Whether the management plane serves requests that come by a Ferry port (20 R498, R500, R511), and the one that has come. DEDUCED, log 109. -/
def ferryServed (m : Mgmt) (f : Nat) : Bool := m.powered && m.state == .ready && (m.ferries[f]?).any (·.trained)
def served (m : Mgmt) : Bool := m.asked.any (ferryServed m)

/-- An answer leaves by the Ferry port on which the request came (20 R498). -/
def answer (m : Mgmt) (x : Reply) : Mgmt := { m with replies := m.replies ++ [(m.asked.getD 0, x)] }

/-- A request of the control node that is answered when it has had its effect. -/
def rowServed (due : Bool) (s : State) (act : Run × Mgmt → Run × Mgmt) : Host.Outcome State Fault Refusal :=
  rowBoth (served s.mgmt && due) s fun x => let y := act x
                                            (y.1, answer y.2 .done)

/-! Stores and matrix work. -/

def storeDue (r : Run) (tid : Nat) : Bool := (r.team tid).any fun t => !t.committed.isEmpty

/-- The oldest committed store of a team is performed (01 R54). -/
def storeAct (tid : Nat) (r : Run) : Run :=
  match (r.team tid).map (·.committed) with
  | some (b :: rest) => (performStore r tid b).updTeam tid fun t => { t with committed := rest }
  | _ => r

def execCommittedStorePerform (tid : Nat) (s : State) : Host.Outcome State Fault Refusal :=
  rowRun (storeDue s.run tid) s (storeAct tid)

/-- An instruction that no earlier one on its tile precedes (10 R299), of which every operand line has a place to be held (04 R136, R137). -/
def matrixDue (r : Run) (d k i : Nat) : Bool :=
  let ops := (r.core d k).matrix
  (ops[i]?).any fun m => fetchRoom r m && !teamHeld r m.team && !(ops.take i).any fun x => x.team == m.team && x.tile == m.tile

/-- The unit performs an instruction; a failure of its data is taken by the group at once (10 R304, 17 R449). -/
def matrixAct (d k i : Nat) (r : Run) : Run :=
  let tid := (((r.core d k).matrix[i]?).map (·.team)).getD 0
  match performAt commitStop { r with accPc := (((r.core d k).matrix[i]?).map (·.pc)).getD 0, accHint := 0 } d k i with
  | (r, .done) => settleCluster (tryEndTeam r tid) (((r.team tid).map (·.cluster)).getD 0)
  | (r, .failed gid t) => tryEndTeam (consume r gid t) tid
  | (r, .held) => settleCluster r (((r.team tid).map (·.cluster)).getD 0)

def execMatrixPerform (die core index : Nat) (s : State) : Host.Outcome State Fault Refusal :=
  rowRun (matrixDue s.run die core index) s (matrixAct die core index)

/-! Pieces. -/

/-- The requests of an operation (16 R420, R521). -/
def Op.req (r : Run) (o : Op) (src kind : Nat) : Req :=
  let (part, _) := teamWhere r o.team
  { part, die := o.die, core := o.core, ctx := ((r.grp o.group).bind (·.ctx)).getD 0
    launchid := (((r.team o.team).bind fun t => r.launch t.launch).map (·.launchid)).getD 0, pc := o.pc, super := o.super, src, kind }

/-- What comes of a piece that is tried: it lands, waits for a page, or fails. -/
inductive Tried where
  | lands (r : Run)
  | waits (q : Req) (f : FaultInfo) (r : Run)
  | fails (cause : Cause) (detail : Nat) (va : W64) (r : Run)

/-- A fault or failing data at a piece (R328, 17 R449): a page that is not there is waited for. -/
def triedError (q : Req) (e : AccFail × Run) : Tried :=
  match e with
  | (.fault f, r) => if f.kind = 1 || f.kind = 7 then .waits q f r else .fails (faultCause f.kind) f.kind f.va (faultRecord r q f)
  | (.data c d va, r) => .fails c (d ||| 4) va (countData q.part c r)

/-- The bytes of a piece from scratch: the team's, or as a killed team left it. DEDUCED, log 80. -/
def scratchSource (r : Run) (o : Op) (p : Piece) : List Byte :=
  if o.data.isEmpty then ((r.team o.team).map fun t => scrRead t p.src p.len).getD [] else (o.data.drop p.src).take p.len

/-- Tries to move one piece of a copy. A plain store to a line that is FILLING leaves its bytes until a piece with the same bytes lands; which value
stays is unpredictable (04 R127), and here the later one does. DESIGN CHOICE, log 144. -/
def tryPiece (r : Run) (o : Op) (p : Piece) : Tried :=
  let r := { r with accPc := o.pc, accHint := 0 }
  let src := o.req r 1 0
  let dst := o.req r 1 1
  let got : Except (AccFail × Run) (List Byte × Run) :=
    if o.srcSc then .ok (scratchSource r o p, r) else readVirt r src (w64 p.src) p.len
  match got with
  | .error e => triedError src e
  | .ok (bs, r) =>
    if o.dstSc then .lands (r.updTeam o.team fun t => if t.ended then t else scrWrite t p.dst bs)
    else
      match writeVirt r dst (w64 p.dst) bs with
      | .ok r => .lands r
      | .error e => triedError dst e

def setPiece (r : Run) (opId i : Nat) (st : PieceState) : Run :=
  r.updOp opId fun o => { o with pieces := updAt o.pieces i fun p => { p with state := st } }

/-- Whether a team is on a core and is not about to leave it. -/
def staysOn (r : Run) (t : Team) : Bool := t.resident && !(r.clusters.find t.cluster).any (·.leaving)

/-- Whether an operation's transfers run: its team is on a core, or has ended, or they had begun when it was to leave (04 R129, 17 R452). -/
def opRuns (r : Run) (o : Op) : Bool := (r.team o.team).any fun t => staysOn r t || t.ended || o.moving

/-- A piece that may be tried: it has not been, and no piece before it has failed (R329). DEDUCED, log 74. -/
def pieceOpen (r : Run) (opId i : Nat) (kind : OpKind) : Option (Op × Piece) :=
  match r.ops.find opId with
  | none => none
  | some o =>
    match o.pieces[i]? with
    | none => none
    | some p =>
      if o.kind == kind && p.state == .todo && opRuns r o && (kind == .hread || !(o.pieces.take i).any fun x => x.failure.isSome) then some (o, p)
      else none

/-- A piece waits for a page (R328, 16 R425). -/
def holdPiece (r : Run) (opId i : Nat) (q : Req) (f : FaultInfo) : Run :=
  let (tag, r) := faultHeld r q f (.piece opId i)
  setPiece r opId i (.waiting tag)

/-- A piece of a transfer has moved: its state, its lines, its arrival (R131, R329). -/
def landPiece (r : Run) (opId i : Nat) (o : Op) (p : Piece) : Run :=
  let r := setPiece r opId i .done
  let r := if o.dstSc then settleLines r o.team (linesOf p.dst p.len) else r
  let r := if o.cmode = 1 then arrive r o.team o.cpl p.len else r
  tryFinish r opId

def copyPieceDue (r : Run) (opId i : Nat) : Bool :=
  (pieceOpen r opId i .copy).any fun x => match tryPiece r x.1 x.2 with | .fails .. => false | _ => true

def copyPieceAct (opId i : Nat) (r : Run) : Run :=
  match pieceOpen r opId i .copy with
  | none => r
  | some (o, p) =>
    match tryPiece r o p with
    | .lands r => landPiece (r.count (teamWhere r o.team).1 3 0 p.len) opId i o p
    | .waits q f r => holdPiece r opId i q f
    | .fails _ _ _ r => r

def execCopyPiece (op piece : Nat) (s : State) : Host.Outcome State Fault Refusal :=
  rowRun (copyPieceDue s.run op piece) s (copyPieceAct op piece)

/-- A failing piece of a copy ends what lies after it: no such piece starts (R329). DEDUCED, log 74. -/
def cancelAfter (o : Op) (i : Nat) : Op :=
  { o with pieces := ((List.range o.pieces.length).zip o.pieces).map fun e =>
      if i < e.1 && e.2.state == .todo then { e.2 with state := .done } else e.2 }

/-- DEDUCED, log 74. -/
def failPiece (r : Run) (opId i : Nat) (c : Cause) (d : Nat) (va : W64) : Run :=
  match r.ops.find opId with
  | none => r
  | some o =>
    let r := setPiece r opId i (.failed c d va)
    let r := if o.kind = .hread then r else r.updOp opId fun o => cancelAfter o i
    let r := if o.dstSc then settleLines r o.team (o.pieces.flatMap fun p => linesOf p.dst p.len) else r
    tryFinish r opId

/-- A piece whose page has come is tried again (R328). Where a piece before it has failed meanwhile, it is written whole or not at all, which is
free, and makes no arrival (R329). DEDUCED, log 74. -/
def resumePiece (r : Run) (opId i : Nat) : Run :=
  match r.ops.find opId with
  | none => r
  | some o =>
    match o.pieces[i]? with
    | none => r
    | some p =>
      if o.kind == .hread || !(o.pieces.take i).any (fun x => x.failure.isSome) then setPiece r opId i .todo
      else
        let moved := match tryPiece r.newFree.2 o p with
          | .lands r' => if Config.freeChoice r.fresh % 2 = 0 then r' else r.newFree.2
          | _ => r.newFree.2
        let r := setPiece moved opId i .done
        tryFinish (if o.dstSc then settleLines r o.team (linesOf p.dst p.len) else r) opId

/-! Bursts. -/

/-- Reads a burst (R333). -/
def tryBurst (r : Run) (o : Op) (p : Piece) : Except Tried (List Byte × Run) :=
  let r := { r with accPc := o.pc, accHint := 0 }
  match readVirt r (o.req r 3 0) (w64 p.src) 128 with
  | .ok x => .ok x
  | .error e => .error (triedError (o.req r 3 0) e)

def copyPieceFailDue (r : Run) (opId i : Nat) : Bool :=
  ((pieceOpen r opId i .copy).any fun x => match tryPiece r x.1 x.2 with | .fails .. => true | _ => false) ||
    (pieceOpen r opId i .hread).any fun x => match tryBurst r x.1 x.2 with | .error (.fails ..) => true | _ => false

def copyPieceFailAct (opId i : Nat) (r : Run) : Run :=
  match pieceOpen r opId i .copy, pieceOpen r opId i .hread with
  | some (o, p), _ =>
    match tryPiece r o p with
    | .fails c d va r => failPiece r opId i c d va
    | _ => r
  | none, some (o, p) =>
    match tryBurst r o p with
    | .error (.fails c d va r) => failPiece r opId i c d va
    | _ => r
  | none, none => r

def execCopyPieceFail (op piece : Nat) (s : State) : Host.Outcome State Fault Refusal :=
  rowRun (copyPieceFailDue s.run op piece) s (copyPieceFailAct op piece)

/-! Drains. -/

def drainDue (r : Run) (opId : Nat) : Bool := (pieceOpen r opId 0 .cdrain).isSome

/-- A drained tile lands, arrives as one piece, and its slot learns of it (R331, 04 R134). DEDUCED, log 33. -/
def drainAct (opId : Nat) (r : Run) : Run :=
  match pieceOpen r opId 0 .cdrain with
  | none => r
  | some (o, p) =>
    let r := r.updTeam o.team fun t => if t.ended then t else scrWrite t p.dst o.data
    let cl := ((r.team o.team).map fun t => (t.cluster, t.cteam)).getD (0, 0)
    let r := landPiece r opId 0 o p
    let mark := fun (h : HoldSlot) => { h with drained := h.drained ||| 2 ^ cl.2 }
    freeSlots (r.updCluster cl.1 fun c => { c with slots := c.slots.upd o.hidx mark }) cl.1

def execDrainLand (op : Nat) (s : State) : Host.Outcome State Fault Refusal := rowRun (drainDue s.run op) s (drainAct op)

/-! Handler slices (01 R42, R45). -/

/-- The bursts of an operation whose handler slice has started: the start position of the next (19 R495). -/
def startedBursts (o : Op) : Nat := (o.pieces.filter fun p => p.state == .running || (p.state == .done)).length

/-- The place a replayed burst has in the logged order; none where the log does not name it (19 R496). DEDUCED, log 87. -/
def replayPlace (l : Launch) (key : W64) (bseq : Nat) : Option Nat := (l.bursts.find? fun e => e.1 == key && e.2.2 == bseq).map (·.2.1)

/-- The W1 key of a burst's log records (19 R495). -/
def burstKey (r : Run) (o : Op) : W64 :=
  w64 ((((r.team o.team).map (·.num)).getD 0) * 2 ^ 32 + (((r.grp o.group).map (·.num)).getD 0) * 2 ^ 26 + o.ordinal % 2 ^ 19)

/-- Whether a burst may start before others of its read: in REPLAY mode the logged order holds (19 R496). DEDUCED, log 87. -/
def burstTurn (r : Run) (o : Op) (i : Nat) : Bool :=
  match (r.team o.team).bind fun t => r.launch t.launch with
  | none => true
  | some l =>
    match l.mode with
    | .replay _ _ =>
      let ended := fun (k : Nat) => (o.pieces[k]?).all fun p => p.state == .running || p.over
      (replayPlace l (burstKey r o) i).all fun place =>
        l.bursts.all fun e => e.1 != burstKey r o || decide (place ≤ e.2.1) || ended e.2.2
    | _ => true

/-- Whether a slice may start for a burst. DEDUCED, log 87. -/
def canStart (r : Run) (o : Op) (i : Nat) : Bool :=
  (r.team o.team).any (fun t => staysOn r t && decide ((handlersOn r t.die t.core).length < Config.handlerSlots)) && burstTurn r o i

/-- The registers that a burst gives its slice. -/
def burstRegs (bs : List Byte) : Sparse W32 :=
  (List.range 8).foldl (fun m k => (List.range 4).foldl (fun m lane =>
    Sparse.set (0 : W32) m (128 * k + lane) (w32 (leNat ((bs.drop (32 * lane + 4 * k)).take 4)))) m) []

/-- The slice of a burst as it starts, and as a RESOLVE retry resumes it (R44). DEDUCED, log 31. -/
def startHandler (r : Run) (opId i : Nat) (o : Op) (bs : List Byte) : Run :=
  match r.team o.team, (r.team o.team).bind fun t => r.launch t.launch with
  | some t, some l =>
    let parent := r.grp o.group
    let entry := w64 (l.codeBase + nthD 0 l.handlers o.hidx)
    let slot := (lowestFree Config.handlerSlots ((handlersOn r t.die t.core).filterMap fun e => e.2.handler.map (·.slot))).getD 0
    let h : Handler :=
      { op := opId, bseq := i, bx := w32 (i % o.nx), by_ := w32 (i / o.nx % o.ny), bz := w32 (i / (o.nx * o.ny)), slot, burst := bs, entry, die := t.die, core := t.core }
    let (id, r) := r.newId
    let g := { Grp.start o.team ((parent.map (·.num)).getD 0) 4 entry ((parent.map (·.utvec)).getD 0) o.causal o.gregs with
      handler := some h, parent := o.group, v := burstRegs bs, lastIssue := r.tick }
    let n := startedBursts o
    let r := setPiece { r with groups := r.groups.put id g } opId i .running
    let r := r.count l.part 3 2 1
    if l.mode = .record then emitRaw r (copyUnit t.die t.core) 0x0052 i (burstKey r o) (w64 n) (some t.launch) else r
  | _, _ => r

def burstDue (r : Run) (opId i : Nat) : Bool :=
  (pieceOpen r opId i .hread).any fun x => match tryBurst r x.1 x.2 with | .error (.fails ..) => false | _ => true

/-- A burst returns: its slice starts, or it is held (R45, R333); one of a team that has ended is discarded (17 R452). -/
def burstAct (opId i : Nat) (r : Run) : Run :=
  match pieceOpen r opId i .hread with
  | none => r
  | some (o, p) =>
    match tryBurst r o p with
    | .ok (bs, r) =>
      let r := r.count (teamWhere r o.team).1 3 1 1
      if (r.team o.team).all (·.ended) then tryFinish (setPiece r opId i .done) opId
      else if canStart r o i then startHandler r opId i o bs else setPiece r opId i (.held bs)
    | .error (.waits q f r) => holdPiece r opId i q f
    | .error _ => r

def execBurstReturn (op burst : Nat) (s : State) : Host.Outcome State Fault Refusal := rowRun (burstDue s.run op burst) s (burstAct op burst)

/-- A held burst that may start. -/
def heldBurst (r : Run) (opId i : Nat) : Option (Op × List Byte) :=
  (r.ops.find opId).bind fun o => (o.pieces[i]?).bind fun p =>
    match p.state with
    | .held bs => if canStart r o i then some (o, bs) else none
    | _ => none

def heldBurstAct (opId i : Nat) (r : Run) : Run :=
  match heldBurst r opId i with
  | some (o, bs) => startHandler r opId i o bs
  | none => r

def execHeldBurstStart (op burst : Nat) (s : State) : Host.Outcome State Fault Refusal :=
  rowRun (heldBurst s.run op burst).isSome s (heldBurstAct op burst)

/-! Held records (R327). -/

/-- The oldest record that a team's ring awaits, where it fits now. -/
def heldRecord (r : Run) (tid ring : Nat) : Option HeldRecord :=
  (r.team tid).bind fun t =>
    if !t.resident then none
    else (t.held.find? fun h => h.ring == ring && h.ripe t).bind fun h => if h.words.length ≤ ringRoom t ring then some h else none

def heldRecordAct (tid ring : Nat) (r : Run) : Run :=
  match heldRecord r tid ring with
  | none => r
  | some h => r.updTeam tid fun t =>
    let i := (t.held.findIdx? fun x => x.ring == ring && x.ripe t).getD 0
    ringPush { t with held := t.held.eraseIdx i } ring h.words

def execHeldRecordPush (team ring : Nat) (s : State) : Host.Outcome State Fault Refusal :=
  rowRun (heldRecord s.run team ring).isSome s (heldRecordAct team ring)

end Sys2Proof.Machine
end

