-- ==== Sys2Proof/Machine/Codes.lean ====
section
/-! DEFINITION. The codes of a flit (18 R456, R457): Reed–Solomon over GF(2^8), CRC-64, and the wire order of a flit's bytes. -/
namespace Sys2Proof.Machine

/-! GF(2^8) with 0x11D. -/

def gfDouble (a : Nat) : Nat := if 128 ≤ a then (2 * a) ^^^ 0x11D else 2 * a
def gfMulFrom (fuel a b acc : Nat) : Nat :=
  match fuel with
  | 0 => acc
  | fuel + 1 => gfMulFrom fuel (gfDouble a) (b / 2) (if b % 2 = 1 then acc ^^^ a else acc)
def gfMul (a b : Nat) : Nat := gfMulFrom 8 a b 0
def gfPow (a n : Nat) : Nat := (List.range n).foldl (fun acc _ => gfMul acc a) 1
/-- Powers of α. -/
def gfExp (n : Nat) : Nat := gfPow 2 (n % 255)
/-- The inverse: a^254. -/
def gfInv (a : Nat) : Nat := gfPow a 254
def gfSum (xs : List Nat) : Nat := xs.foldl (· ^^^ ·) 0

/-! The code. Polynomials are lists of coefficients, lowest first. -/

def polyMul (p q : List Nat) : List Nat :=
  (List.range (p.length + q.length - 1)).map fun k => gfSum ((List.range (k + 1)).map fun i => gfMul (nthD 0 p i) (nthD 0 q (k - i)))
def polyAt (p : List Nat) (x : Nat) : Nat := p.foldr (fun c acc => gfMul acc x ^^^ c) 0
/-- (x − α^0) … (x − α^7). -/
def genPoly : List Nat := (List.range 8).foldl (fun p i => polyMul p [gfExp i, 1]) [1]

/-- Parity of 120 data bytes, the highest coefficient first. -/
def rsParity (data : List Nat) : List Nat :=
  let g := (genPoly.take 8).reverse
  data.foldl (fun rem d =>
    let k := d ^^^ nthD 0 rem 0
    (List.range 8).map fun i => nthD 0 rem (i + 1) ^^^ gfMul k (nthD 0 g i)) (List.replicate 8 0)

/-- Syndromes of a codeword given from its highest coefficient. -/
def syndromes (w : List Nat) : List Nat := (List.range 8).map fun i => polyAt w.reverse (gfExp i)

/-- The error locator of least degree for some syndromes (Berlekamp and Massey). -/
def locator (s : List Nat) : List Nat :=
  let step := fun (st : List Nat × List Nat × Nat × Nat × Nat) (n : Nat) =>
    let (c, b, l, m, d0) := st
    let d := gfSum ((List.range (l + 1)).map fun i => gfMul (nthD 0 c i) (nthD 0 s (n - i)))
    if d = 0 then (c, b, l, m + 1, d0)
    else
      let k := gfMul d (gfInv d0)
      let shifted := List.replicate m 0 ++ b.map (gfMul k)
      let c' := (List.range (max c.length shifted.length)).map fun i => nthD 0 c i ^^^ nthD 0 shifted i
      if 2 * l ≤ n then (c', c, n + 1 - l, 1, d) else (c', b, l, m + 1, d0)
  let (c, _, l, _, _) := (List.range 8).foldl step ([1], [1], 0, 1, 1)
  c.take (l + 1)

/-- Corrects a codeword of 128 bytes, from its highest coefficient; none with more than 4 errors. -/
def rsCorrect (w : List Nat) : Option (List Nat) :=
  let s := syndromes w
  if s.all (· == 0) then some w
  else
    let c := locator s
    let places := (List.range 128).filter fun k => polyAt c (gfExp (255 - k)) == 0
    if c.length = 1 || decide (5 < c.length) || decide (places.length ≠ c.length - 1) then none
    else
      let omega := (polyMul s c).take 8
      let fix := fun (k : Nat) =>
        let x := gfExp (255 - k)
        let deriv := gfSum ((List.range c.length).map fun i => if i % 2 = 1 then gfMul (nthD 0 c i) (gfPow x (i - 1)) else 0)
        gfMul (gfMul (gfExp k) (polyAt omega x)) (gfInv deriv)
      let w' := (List.range 128).map fun n => let k := 127 - n
                                             if places.contains k then nthD 0 w n ^^^ fix k else nthD 0 w n
      if (syndromes w').all (· == 0) then some w' else none

/-! CRC-64. -/

def crcByte (crc : BitVec 64) (b : Byte) : BitVec 64 :=
  (List.range 8).foldl (fun c _ => if c.getLsbD 63 then (c <<< 1) ^^^ 0x42F0E1EBA9EA3693#64 else c <<< 1) (crc ^^^ (b.zeroExtend 64 <<< 56))
def crc64 (bs : List Byte) : BitVec 64 := ~~~(bs.foldl crcByte (BitVec.allOnes 64))

/-! The wire. -/

/-- The 256 wire bytes of 232 bytes of header and slots. -/
def wireOf (body : List Byte) : List Byte :=
  let data := body ++ leBytes 8 (crc64 body).toNat
  let word := fun (c : Nat) => (List.range 120).map fun i => (nthD 0 data (2 * i + c)).toNat
  let par := fun (c : Nat) => rsParity (word c)
  data ++ (List.range 16).map fun i => BitVec.ofNat 8 (nthD 0 (par (i % 2)) (i / 2))

/-- The 232 bytes that 256 wire bytes hold, where they decode and the CRC matches. -/
def bodyOf (wire : List Byte) : Option (List Byte) :=
  let word := fun (c : Nat) => ((List.range 120).map fun i => (nthD 0 wire (2 * i + c)).toNat) ++
    (List.range 8).map fun i => (nthD 0 wire (240 + 2 * i + c)).toNat
  match rsCorrect (word 0), rsCorrect (word 1) with
  | some w0, some w1 =>
    let data := (List.range 240).map fun n => BitVec.ofNat 8 (nthD 0 (if n % 2 = 0 then w0 else w1) (n / 2))
    let body := data.take 232
    if leNat (data.drop 232) = (crc64 body).toNat then some body else none
  | _, _ => none

end Sys2Proof.Machine
end

