-- ==== Sys2Proof/Machine/Links.lean ====
section
/-! DEFINITION. Packets and flits (18 R456, R460, R461), the routes of packets (R463), and how they leave through the Strait ports
(R458, R464). -/
namespace Sys2Proof.Machine

/-! Packets (R460, R461). -/

/-- The CLASS of a TYPE (R456, R461); none for a reserved one. -/
def typeClass (t : Nat) : Option Nat :=
  if t = 0 then none
  else if t ≤ 3 then some 1
  else if t ≤ 6 then some 2
  else if 8 ≤ t ∧ t ≤ 10 then some 3
  else if 0x20 ≤ t ∧ t ≤ 0x24 then some 4
  else if t = 0x1F then some 5
  else if t = 0x1E ∨ t = 0x25 ∨ t = 0x26 then some 6
  else none

def headerSlot (p : Packet) : List Byte :=
  leBytes 8 (p.type * 2 ^ 56 + p.src * 2 ^ 48 + p.dst * 2 ^ 40 + p.inc * 2 ^ 32 + p.win * 2 ^ 24 + p.aop * 2 ^ 16 + p.size * 2 ^ 12 +
    p.data.length / 32 * 2 ^ 8 + p.status * 2 ^ 4 + p.detail) ++
  leBytes 8 p.causal.toNat ++ leBytes 8 p.offset.toNat ++
  leBytes 8 (p.tag * 2 ^ 48 + p.acktag * 2 ^ 32 + p.attempt * 2 ^ 24 + p.route * 2 ^ 16 + p.rank)

def packetSlots (p : Packet) : List (List Byte) := headerSlot p :: chunksOf p.data.length 32 p.data

/-- Data slots that a header announces. -/
def slotCount (head : List Byte) : Nat := nfld (leNat (head.take 8)) 11 8

def packetOf (head : List Byte) (data : List Byte) : Packet :=
  let w := fun (i : Nat) => leNat ((head.drop (8 * i)).take 8)
  { type := nfld (w 0) 63 56, src := nfld (w 0) 55 48, dst := nfld (w 0) 47 40, inc := nfld (w 0) 39 32, win := nfld (w 0) 31 24
    aop := nfld (w 0) 23 16, size := nfld (w 0) 15 12, status := nfld (w 0) 7 4, detail := nfld (w 0) 3 0, causal := w64 (w 1)
    offset := w64 (w 2), tag := nfld (w 3) 63 48, acktag := nfld (w 3) 47 32, attempt := nfld (w 3) 31 24, route := nfld (w 3) 23 16
    rank := nfld (w 3) 15 0, data }

/-! Flits (R456). -/

/-- A flit's header and slots. -/
structure FlitHead where
  seq : Nat
  ack : Nat
  nak : Bool
  cls : Nat
  nslot : Nat
  crclass : Nat
  credits : Nat
  deriving DecidableEq, Repr

def flitBody (h : FlitHead) (slots : List (List Byte)) : List Byte :=
  let head := h.seq * 2 ^ 52 + h.ack * 2 ^ 40 + bit h.nak * 2 ^ 39 + h.cls * 2 ^ 36 + h.nslot * 2 ^ 33 +
    h.crclass * 2 ^ 30 + h.credits * 2 ^ 16
  leBytes 8 head ++ (List.range 224).map fun i => nthD 0 (nthD [] slots (i / 32)) (i % 32)

/-- Reads a flit's body; none where a field is reserved. -/
def flitOf (body : List Byte) : Option (FlitHead × List (List Byte)) :=
  let h := leNat (body.take 8)
  let n := nfld h 35 33
  if nfld h 38 36 = 7 || nfld h 15 0 != 0 then none
  else
    let head : FlitHead := { seq := nfld h 63 52, ack := nfld h 51 40, nak := nfld h 39 39 == 1, cls := nfld h 38 36, nslot := n
                             crclass := nfld h 32 30, credits := nfld h 29 16 }
    some (head, (List.range n).map fun i => (body.drop (8 + 32 * i)).take 32)

/-! Ports. -/

def Mgmt.port (m : Mgmt) (a : Nat) : Port := nthD Port.reset m.ports a
def Mgmt.updPort (m : Mgmt) (a : Nat) (f : Port → Port) : Mgmt := { m with ports := updAt m.ports a f }
def Mgmt.atoll (m : Mgmt) (a : Nat) : Atoll := nthD Atoll.reset m.atolls a
def Mgmt.updAtoll (m : Mgmt) (a : Nat) (f : Atoll → Atoll) : Mgmt := { m with atolls := updAt m.atolls a f }

/-- Whether a port sends and receives (R459): it is trained, and does not retrain. -/
def Port.sends (p : Port) : Bool := (p.state == .up || (p.state == .training && p.width != 3)) && p.retraining.isNone

/-- The flits of a packet. -/
def packetFlits (pkt : Packet) : List Flit :=
  let parts := chunksOf 3 7 (packetSlots pkt)
  (List.range parts.length).map fun i =>
    { seq := 0, cls := (typeClass pkt.type).getD 4, slots := nthD [] parts i, first := i == 0, nak := false }

/-- Puts a packet's flits behind what a port has still to send. -/
def Port.enqueue (p : Port) (pkt : Packet) : Port := { p with unsent := p.unsent ++ packetFlits pkt }

/-- An IDLE flit: it takes no sequence number. -/
def idleFlit (nak : Bool) : Flit := { seq := 0, cls := 0, slots := [], first := false, nak }

/-- Adds slots of a class that have been freed at this end (R456). -/
def Port.free (p : Port) (cls n : Nat) : Port := { p with freed := Sparse.set 0 p.freed cls (Sparse.get 0 p.freed cls + n) }

/-- A flit with the credits of the lowest class that has freed slots to return, which are then returned (R456). DEDUCED, log 157. -/
def Port.credited (p : Port) (f : Flit) : Flit × Port :=
  match p.freed with
  | [] => (f, p)
  | (cls, n) :: _ =>
    let k := min n 16383
    ({ f with crclass := cls, credits := k }, { p with freed := Sparse.set 0 p.freed cls (n - k) })

/-- Sends a flit that takes no sequence number. -/
def Port.sendIdle (p : Port) (nak : Bool) : Port :=
  let (f, p) := p.credited (idleFlit nak)
  { p with wire := p.wire ++ [f] }

/-- Sends one flit with the next sequence number, and keeps it for replay (R458). -/
def Port.sendNext (p : Port) (f : Flit) : Port :=
  let (f, p) := p.credited { f with seq := p.nextSeq }
  { p with nextSeq := (p.nextSeq + 1) % 4096, buffer := p.buffer ++ [f], wire := p.wire ++ [f] }

/-- Sends what fits the replay buffer (R458). DEDUCED, log 119. -/
def Port.transmit (p : Port) (now : W64) : Port :=
  if !p.sends then p
  else
    let n := min p.unsent.length (Config.replayFlits - p.buffer.length)
    if n = 0 then p else { (p.unsent.take n).foldl Port.sendNext p with unsent := p.unsent.drop n, lastTx := now }

/-- The wire bytes of a flit that a port sends. -/
def Port.flitBytes (p : Port) (f : Flit) : List Byte :=
  wireOf (flitBody { seq := f.seq, ack := p.lastSeq, nak := f.nak, cls := f.cls, nslot := f.slots.length, crclass := f.crclass, credits := f.credits } f.slots)

/-! Lanes (R457, R459). -/

def laneSets (width : Nat) : List (List Nat) :=
  match width with
  | 0 => [[0, 1, 2, 3, 4, 5, 6, 7]]
  | 1 => [[0, 1, 2, 3], [4, 5, 6, 7]]
  | 2 => [[0, 1], [2, 3], [4, 5], [6, 7]]
  | _ => []

/-- The set that a link of some width is trained on: the lowest that passes. -/
def trainedSet (laneok : Byte) (width : Nat) : Option (List Nat) := (laneSets width).find? fun s => s.all fun l => laneok.getLsbD l
/-- The widest width that has a passing set and is not wider than a limit. -/
def bestWidth (laneok : Byte) (widest : Nat) : Option Nat := [0, 1, 2].find? fun w => decide (widest ≤ w) && (trainedSet laneok w).isSome

/-- What each lane of the trained set carries of a flit: at width ×w wire byte n goes on lane n mod w of the set, in ascending n (R457). -/
def Port.onLanes (p : Port) (f : Flit) : List (Nat × List Byte) :=
  let lanes := (trainedSet p.laneok p.width).getD []
  let bytes := p.flitBytes f
  ((List.range lanes.length).zip lanes).map fun e =>
    (e.2, ((List.range bytes.length).zip bytes).filterMap fun b => if b.1 % lanes.length = e.1 then some b.2 else none)

/-! Routes (R463). -/

/-- The Atolls that a source counts as usable towards a device, ascending. DESIGN CHOICE, log 89. -/
def usable (m : Mgmt) (self dev : Nat) : List Nat :=
  if 144 ≤ dev then (if dev < 216 && (m.port (dev - 144)).state == .up then [dev - 144] else [])
  else if m.deadDevs.contains dev then []
  else (List.range Config.ports).filter fun a =>
    (m.port a).state == .up && !m.parked.contains (self, a) && !m.parked.contains (dev, a) && !m.portsDown.contains (dev, a)

/-- The route of a request. DEDUCED, log 88. -/
def requestRoute (m : Mgmt) (self : Nat) (p : Packet) : Option Nat :=
  let as := usable m self p.dst
  as[Config.routeHash p.dst p.win (p.offset.toNat / 4096) % (max as.length 1)]?

/-- The route of an exchange's packet: one contribution keeps to one route. DESIGN CHOICE, log 89. -/
def lxRoute (m : Mgmt) (self : Nat) (p : Packet) : Option Nat :=
  let as := usable m self p.dst
  as[Config.routeHash p.dst p.tag p.offset.toNat % (max as.length 1)]?

/-- One of the usable Atolls; which one is free. DESIGN CHOICE, log 89. -/
def anyRoute (m : Mgmt) (r : Run) (dev : Nat) : Option Nat × Run :=
  let as := usable m r.devid.toNat dev
  if as.isEmpty then (none, r) else (as[Config.freeChoice r.fresh % as.length]?, r.newFree.2)

def isRequest (p : Packet) : Bool := decide (1 ≤ p.type) && decide (p.type ≤ 3)

def samePacket (a b : Packet) : Bool := a.type == b.type && a.dst == b.dst && a.tag == b.tag && a.inc == b.inc

/-- Whether an earlier request with overlapping bytes, towards the same destination, has no reply yet and has not left by the same route (R463); `unsent`
are the packets that have not left. DEDUCED, log 88. -/
def mustHold (r : Run) (unsent : List Packet) (p : Packet) (route : Nat) : Bool :=
  let mine := (r.reqs.find? fun q => samePacket q.pkt p).map (·.group)
  (r.reqs.takeWhile fun q => !samePacket q.pkt p).any fun q =>
    q.pkt.dst == p.dst && q.pkt.win == p.win && some q.group == mine && (q.pkt.route != route || unsent.any (samePacket q.pkt)) &&
      decide (q.pkt.offset.toNat < p.offset.toNat + sizeBytes p.size) && decide (p.offset.toNat < q.pkt.offset.toNat + sizeBytes q.pkt.size)

/-- A port's clock is its die's. -/
def portNow (r : Run) (a : Nat) : W64 := r.now (a / 3)

/-- Ticks of 0.25 ns in 1, 4, 10, 25 and 50 µs (R458, R459, R462, R465). -/
def ticks1us : Nat := 4000
def ticks4us : Nat := 16000
def ticks10us : Nat := 40000
def ticks25us : Nat := 100000
def ticks50us : Nat := 200000

/-- Whether some ticks have passed at a port since a time. -/
def passed (r : Run) (a : Nat) (since : W64) (ticks : Nat) : Bool := decide (since.toNat + ticks ≤ (portNow r a).toNat)

/-! Atolls (R466). -/

def Atoll.port (x : Atoll) (m : Nat) : AtollPort := nthD AtollPort.reset x.ports m
def Atoll.updPort (x : Atoll) (m : Nat) (f : AtollPort → AtollPort) : Atoll := { x with ports := updAt x.ports m f }

/-- A packet of an Atoll towards a device: it waits at this device's port, or leaves. DESIGN CHOICE, log 118. -/
def Atoll.send (x : Atoll) (self dev : Nat) (now : W64) (p : Packet) : Atoll :=
  if dev = self then
    if (x.port self).up then x.updPort self fun q => { q with queue := q.queue ++ [(p, now)] } else x
  else { x with out := x.out ++ [(dev, p)] }

/-- The checks of R466 on a packet that a device sent: SRC, and INC where it is the sender's own, as a reply's is not (R460). Notices go on with the SRC of
their originator (R468), and are not checked. DEDUCED, log 158. -/
def atollChecks (x : Atoll) (port : Nat) (p : Packet) : Bool :=
  typeClass p.type == some 4 || (p.src == port && (x.port port).up && (typeClass p.type == some 2 || p.inc == (x.port port).incarn))

/-- Counts a packet that an Atoll drops against its port (R461, R466). -/
def Atoll.drop (x : Atoll) (port : Nat) : Atoll := x.updPort port fun q => { q with drops := q.drops + 1 }

/-! Leaving. -/

/-- A packet leaves by a port, as flits, with the oldest tag that is awaited from its destination (R460). A request is remembered with its route. Its Atoll
drops what fails its checks or is of a reserved TYPE (R461, R466); it remembers a request that it forwards, and one to this device goes back to it
(08 R260); an exchange's packet may be for the Atoll itself (R467). -/
def leave (s : Run × Mgmt) (a : Nat) (p : Packet) : Run × Mgmt :=
  let (r, m) := s
  let p := { p with route := a, acktag := oldestTag r p.dst }
  let self := r.devid.toNat
  let now := portNow r a
  let r := if isRequest p then
      let r := match r.reqs.find? fun q => samePacket q.pkt p with
        | some q => sketchAdd r (portUnit a) q.kern (32 * (packetSlots p).length)
        | none => r
      { r with reqs := r.reqs.map fun q => if samePacket q.pkt p then { q with pkt := { q.pkt with route := a }, sent := now } else q }
    else if typeClass p.type = some 2 then sketchAdd r (portUnit a) 0 (32 * (packetSlots p).length)
    else r
  let m := m.updPort a fun x => x.enqueue p
  (r, m.updAtoll a fun x =>
    if (typeClass p.type).isNone || !atollChecks x self p then x.drop self
    else
      let x := if isRequest p then { x with forwarded := x.forwarded ++ [p] } else x
      if p.dst = self then x.send self self now p
      else if typeClass p.type = some 3 && p.dst == 144 + a then { x with inbound := x.inbound ++ [p] }
      else x)

/-- Requests towards a device that have left and have no reply, but for one packet (R464). -/
def unreplied (r : Run) (unsent : List Packet) (p : Packet) : Nat :=
  (r.reqs.filter fun q => q.pkt.dst == p.dst && !samePacket q.pkt p && !unsent.any (samePacket q.pkt)).length

/-- What becomes of one packet of the outbox: it leaves, ends because its destination is dead, or stays; `rest` is what comes after it. A request waits
while 4,096 towards its destination are unreplied (R464). -/
def pumpOne (s : Run × Mgmt) (p : Packet) (rest : List Packet) : Run × Mgmt :=
  let (r, m) := s
  let keep := ({ r with outbox := r.outbox ++ [p] }, m)
  if isRequest p then
    if m.deadDevs.contains p.dst then
      match r.reqs.find? fun q => samePacket q.pkt p with
      | some q => (requestReply r q 2 0 [], m)
      | none => s
    else
      match requestRoute m r.devid.toNat p with
      | none => keep
      | some a =>
        let unsent := r.outbox ++ rest
        if mustHold r unsent p a || decide (Config.tagWindow ≤ unreplied r unsent p) then keep else leave s a p
  else if m.deadDevs.contains p.dst then s
  else if typeClass p.type = some 3 then
    match lxRoute m r.devid.toNat p with
    | some a => leave s a p
    | none => keep
  else
    match anyRoute m r p.dst with
    | (some a, r) => leave (r, m) a p
    | (none, _) => keep

def pumpAll (s : Run × Mgmt) : List Packet → Run × Mgmt
  | [] => s
  | p :: rest => pumpAll (pumpOne s p rest) rest

/-- JOIN, as a device sends it (R469). -/
def joinPacket (r : Run) (a : Nat) : Packet := { type := 0x1E, src := r.devid.toNat, dst := 144 + a, inc := r.incarn.toNat }

/-- What a port does as time passes: JOIN is sent again 10 µs after a refusal (R470), packets that have been held for 25 µs since they came are discarded
(R465), and flits are sent. -/
def portTurn (r : Run) (a : Nat) (p : Port) : Port :=
  let p := if p.refused.any fun t => passed r a t ticks10us then
      { (if p.state == .training then p.enqueue (joinPacket r a) else p) with refused := none }
    else p
  Port.transmit { p with inbox := p.inbox.filter fun e => !passed r a e.2 ticks25us } (portNow r a)

/-- Sends what the ports can send. -/
def transmitAll (r : Run) (m : Mgmt) : Mgmt :=
  { m with ports := (List.range m.ports.length).map fun a => portTurn r a (m.port a) }

/-- The packets that executing left behind go on their way. -/
def pump (s : Run × Mgmt) : Run × Mgmt :=
  let (r, m) := pumpAll ({ s.1 with outbox := [] }, s.2) s.1.outbox
  (r, transmitAll r m)

/-- A packet on every UP port, or on every one but the port it came by (R468). -/
def floodDevice (m : Mgmt) (except_ : Option Nat) (p : Packet) : Mgmt :=
  { m with ports := (List.range m.ports.length).map fun a =>
      let x := m.port a
      if x.state == .up && except_ != some a then x.enqueue p else x }

end Sys2Proof.Machine
end

