-- ==== Sys2Proof/Machine/LxMath.lean ====
section
/-! DEFINITION. Layouts and the plan of an exchange (11 R341 to R348): which element lies where, who contributes it, and its reduction
(03 R108 to R110). -/
namespace Sys2Proof.Machine

/-! Fields of a layout record (R341). -/

def Layout.w (l : Layout) (n : Nat) : W64 := nthD 0 l.words n
def Layout.ndim (l : Layout) : Nat := fld (l.w 7) 2 0
def Layout.naxis (l : Layout) : Nat := fld (l.w 7) 5 3
def Layout.efmt (l : Layout) : Nat := fld (l.w 6) 63 60
def Layout.partial_ (l : Layout) : Nat := fld (l.w 6) 59 56
def Layout.ax (l : Layout) (a : Nat) : Nat := fld (l.w 1) (16 * a + 15) (16 * a)
def Layout.dim (l : Layout) (d : Nat) : Nat := fld (l.w (2 + d / 2)) (32 * (d % 2) + 31) (32 * (d % 2))
def Layout.tile (l : Layout) (d : Nat) : Nat :=
  if d < 4 then fld (l.w 5) (16 * d + 15) (16 * d) else fld (l.w 6) (16 * (d - 4) + 15) (16 * (d - 4))
def Layout.map (l : Layout) (d : Nat) : Nat := fld (l.w 6) (32 + 4 * d + 3) (32 + 4 * d)
/-- The axis over which a dimension is sharded; none where it is replicated. -/
def Layout.shard (l : Layout) (d : Nat) : Option Nat := if l.map d = 0 then none else some (l.map d / 2 % 4)
def Layout.dims (l : Layout) : List Nat := List.range l.ndim
def Layout.axes (l : Layout) : List Nat := List.range l.naxis

/-- Entries of the participant table; none where the axes do not give a number that a table may have. -/
def Layout.entries (l : Layout) : Option Nat :=
  let n := l.axes.foldl (fun n a => n * l.ax a) 1
  if l.naxis = 0 || decide (4 < l.naxis) || n = 0 || decide (3456 < n) then none else some n

/-- The table from its entries (R341). -/
def Layout.withTable (l : Layout) (raw : List Nat) : Layout := { l with raw, parts := raw.map fun e => (nfld e 12 5, nfld e 4 0) }

/-! The checks of R342. -/

def tableOk (l : Layout) : Bool :=
  l.raw.all (fun e => nfld e 15 13 == 0 && decide (nfld e 12 5 < 144) && decide (nfld e 4 0 < 24)) && l.parts.eraseDups.length == l.parts.length

def dimOk (l : Layout) (d : Nat) : Bool :=
  l.dim d != 0 &&
    match l.shard d with
    | none => true
    | some a => l.map d % 2 == 0 && decide (8 ≤ l.map d) && decide (a < l.naxis) && l.tile d != 0 &&
        l.dim d % (l.tile d * l.ax a) == 0 && !l.partial_.testBit a && l.dims.all fun k => k == d || l.shard k != some a

/-- What R342 asks of one record. -/
def layoutOk (l : Layout) : Bool :=
  fld (l.w 7) 63 6 == 0 && decide (1 ≤ l.ndim) && decide (l.ndim ≤ 6) && l.entries.isSome && decide (l.efmt ≤ 8) && tableOk l &&
    l.dims.all (dimOk l) && decide (l.partial_ < 2 ^ l.naxis)

/-- What it asks of the pair. -/
def pairOk (s d : Layout) (op : Nat) : Bool :=
  layoutOk s && layoutOk d && s.ndim == d.ndim && s.efmt == d.efmt && s.dims.all (fun k => s.dim k == d.dim k) && d.partial_ == 0 &&
    (op == 0) == (s.partial_ == 0) && !(op != 0 && s.efmt == 8)

/-! Where elements lie (R343). -/

def elemSize (efmt : Nat) : Nat := match efmt with | 0 => 4 | 1 => 4 | 2 => 8 | 3 => 8 | 4 => 4 | 5 => 8 | 6 => 2 | 7 => 2 | _ => 1
def elemElt (efmt : Nat) : Elt := match efmt with | 0 => .i32 | 1 => .n32 | 2 => .i64 | 3 => .n64 | 4 => .f32 | 5 => .f64 | 6 => .f16 | _ => .bf16

/-- The coordinate of a rank on an axis. -/
def Layout.coord (l : Layout) (rank a : Nat) : Nat := rank / (List.range a).foldl (fun n b => n * l.ax b) 1 % l.ax a

def Layout.holdsDim (l : Layout) (rank d e : Nat) : Bool :=
  match l.shard d with
  | none => true
  | some a => e / l.tile d % l.ax a == l.coord rank a

/-- Whether a participant holds an element, given by its indexes. -/
def Layout.holds (l : Layout) (rank : Nat) (e : List Nat) : Bool := l.dims.all fun d => l.holdsDim rank d (nthD 0 e d)

def Layout.extent (l : Layout) (d : Nat) : Nat :=
  match l.shard d with
  | none => l.dim d
  | some a => l.dim d / l.ax a
def Layout.localCount (l : Layout) : Nat := l.dims.foldl (fun n d => n * l.extent d) 1

/-- The place of an element in the dense array of a participant that holds it. -/
def Layout.localIndex (l : Layout) (e : List Nat) : Nat :=
  l.dims.foldl (fun n d =>
    let x := nthD 0 e d
    n * l.extent d + match l.shard d with
      | none => x
      | some a => x / l.tile d / l.ax a * l.tile d + x % l.tile d) 0

/-- The element at a place of a participant's array. -/
def Layout.elemAt (l : Layout) (rank i : Nat) : List Nat :=
  (l.dims.reverse.foldl (fun (acc : List Nat × Nat) d =>
    let x := acc.2 % l.extent d
    let e := match l.shard d with
      | none => x
      | some a => (x / l.tile d * l.ax a + l.coord rank a) * l.tile d + x % l.tile d
    (e :: acc.1, acc.2 / l.extent d)) ([], i)).1

def chunkBytes : Nat := 65536
/-- NCHUNK of a destination layout (R344). -/
def Layout.chunks (l : Layout) : Nat := ceilDiv (l.localCount * elemSize l.efmt) chunkBytes
/-- The places of a chunk's elements. -/
def Layout.chunkIndexes (l : Layout) (c : Nat) : List Nat :=
  let per := chunkBytes / elemSize l.efmt
  (List.range (min per (l.localCount - c * per))).map (c * per + ·)

/-! The plan (R346). -/

def Layout.ranks (l : Layout) : List Nat := List.range l.parts.length
def Layout.rankOf (l : Layout) (p : Nat × Nat) : Option Nat := l.parts.findIdx? (· == p)

/-- The source ranks that contribute an element to a destination participant, ascending. -/
def contributors (s d : Layout) (q : Nat) (e : List Nat) : List Nat :=
  let h := s.ranks.filter fun p => s.holds p e
  if s.partial_ = 0 then
    match (d.parts[q]?).bind s.rankOf with
    | some p => if h.contains p then [p] else [nthD 0 h (q % h.length)]
    | none => [nthD 0 h (q % h.length)]
  else
    let along := s.axes.filter fun a => s.partial_.testBit a
    let key := fun (p : Nat) => along.map fun a => s.coord p a
    h.filter fun p => !h.any fun p' => decide (p' < p) && key p' == key p

/-- A chunk's elements, each with its contributors and its place in their arrays. -/
def chunkPlan (s d : Layout) (q c : Nat) : List (List Nat × Nat) :=
  (d.chunkIndexes c).map fun i => let e := d.elemAt q i
                                  (contributors s d q e, s.localIndex e)

/-- The contributors of a chunk. -/
def chunkRanks (plan : List (List Nat × Nat)) (s : Layout) : List Nat := s.ranks.filter fun p => plan.any fun x => x.1.contains p
/-- The places in a contributor's array of what it contributes to a chunk, in the chunk's order. -/
def sharePlaces (plan : List (List Nat × Nat)) (p : Nat) : List Nat := (plan.filter fun x => x.1.contains p).map (·.2)

def RedFlags.bits (f : RedFlags) : Nat := bit f.nv + 2 * bit f.of_ + 4 * bit f.nx

/-- The reduction of one element (03 R108 to R110), with the conditions it met as W1 of the progress record has them. -/
def reduceElem (op efmt : Nat) (xs : List Nat) : Nat × Nat :=
  let t := elemElt efmt
  let isInt := decide (efmt < 4)
  match op with
  | 0 => (nthD 0 xs 0, 0)
  | 1 =>
    if isInt then (xs.foldl (· + ·) 0 % 2 ^ t.bits, 0)
    else let (v, f) := if t = .f64 then redChain xs else redSum t xs
         (v, f.bits)
  | _ => let (v, f) := redMinMax t (op == 3) xs
         (v, f.bits)

/-- A chunk's bytes from what each contributor gave, in its order; `give p` is contributor p's share. -/
def assemble (op efmt : Nat) (plan : List (List Nat × Nat)) (give : Nat → List Byte) : List Byte × Nat :=
  let n := elemSize efmt
  let step := fun (acc : List Byte × Nat × Sparse Nat) (x : List Nat × Nat) =>
    let (bs, flags, used) := acc
    let val := fun (p : Nat) => leNat (((give p).drop (n * Sparse.get 0 used p)).take n)
    let (v, f) := reduceElem op efmt (x.1.map val)
    (bs ++ leBytes n v, flags ||| f, x.1.foldl (fun u p => u.put p (Sparse.get 0 u p + 1)) used)
  let (bs, flags, _) := plan.foldl step ([], 0, [])
  (bs, flags)

/-! CLASS (R347). -/

def sameMesh (s d : Layout) : Bool := s.naxis == d.naxis && s.axes.all (fun a => s.ax a == d.ax a) && s.raw == d.raw
/-- DEDUCED, log 22. -/
def sameDim (s d : Layout) (k : Nat) : Bool := s.shard k == d.shard k && ((s.shard k).isNone || s.tile k == d.tile k)

/-- Whether every destination participant already holds what it gets. DEDUCED, log 22. -/
def isSplit (s d : Layout) : Bool :=
  d.ranks.all fun q =>
    match (d.parts[q]?).bind s.rankOf with
    | none => false
    | some p => d.dims.all fun k => (List.range (d.dim k)).all fun e => !d.holdsDim q k e || s.holdsDim p k e

/-- DEDUCED, log 22. -/
def lxClass (s d : Layout) : Nat :=
  let dims := fun (l : Layout) => l.dims.filterMap l.shard
  if s.partial_ = 0 && isSplit s d then 0
  else if s.partial_ = 0 && sameMesh s d && d.dims.all (fun k => (d.shard k).isNone || sameDim s d k) then 1
  else if s.partial_ != 0 && sameMesh s d && d.dims.all (sameDim s d) then 2
  else if s.partial_ != 0 && sameMesh s d then 3
  else if s.partial_ = 0 && sameMesh s d && (dims s).all (dims d).contains && (dims d).all (dims s).contains then 4
  else 5

/-- What a digest covers (R348): everything but MESH. DEDUCED, log 83. -/
def lxDigestOf (stepid : W32) (op : Nat) (s d : Layout) : List W64 :=
  [w64 stepid.toNat, w64 op] ++ s.words.drop 1 ++ d.words.drop 1 ++ s.raw.map w64 ++ d.raw.map w64

end Sys2Proof.Machine
end

