-- ==== Sys2Proof/Machine/SysRegs.lean ====
section
/-! DEFINITION. System registers (14 R368, R382), capabilities (14 R383 to R386), window synchronisation (14 R390) and the translation control
block (16 R415, R416). -/
namespace Sys2Proof.Machine

/-! Capabilities. -/

/-- An entry of the capability table (14 R384); none where it cannot be read. DEDUCED, log 55. -/
def capEntry (r : Run) (part die i : Nat) : Option (W64 × W64) :=
  let a := (r.part part).capbase.toNat + 16 * i
  match peekWord r part die a, peekWord r part die (a + 8) with
  | some w0, some w1 => some (w0, w1)
  | _, _ => none

/-- The loop of `Rights` (14 R385) from the entry `i` that must have generation `g`; with the entries that it reads. DEDUCED, log 55. -/
def rightsFrom (fuel : Nat) (r : Run) (part die i g acc : Nat) : Nat × List Nat :=
  match fuel with
  | 0 => (0, [])
  | fuel + 1 =>
    match capEntry r part die i with
    | none => (0, [i])
    | some (w0, w1) =>
      if !w0.getLsbD 63 || fld w0 39 16 != g then (0, [i])
      else
        let acc := acc &&& fld w1 6 0
        let parent := fld w0 15 0
        if parent = 0xFFFF then (acc, [i])
        else if (r.part part).capsize.toNat ≤ parent then (0, [i])
        else let x := rightsFrom fuel r part die parent (fld w1 39 16) acc
             (x.1, i :: x.2)

/-- The rights of a handle in a partition, and the entries that say so (14 R385). DEDUCED, log 55. -/
def rightsOf (r : Run) (part die : Nat) (h : W64) : Nat × List Nat :=
  if fld h 63 40 != 0 || decide ((r.part part).capsize.toNat ≤ fld h 15 0) then (0, [])
  else rightsFrom 5 r part die (fld h 15 0) (fld h 39 16) 0x7F

def rights (r : Run) (part die : Nat) (h : W64) : Nat := (rightsOf r part die h).1

/-- What reading the entries of a handle leaves besides the rights. DEDUCED, log 146. -/
def rightsSeen (r : Run) (part die : Nat) (h : W64) : Run :=
  (rightsOf r part die h).2.foldl (fun r i => unitRead r part die ((r.part part).capbase.toNat + 16 * i) 16) r

/-- Rights by bit (09 R289). -/
def rightTrace : Nat := 0
def rightCounter : Nat := 1
def rightSample : Nat := 2
def rightBreak : Nat := 3
def rightPeek : Nat := 4
def rightWaitgraph : Nat := 5
def rightReplay : Nat := 6

def holds (r : Run) (part die : Nat) (h : W64) (right : Nat) : Bool := (rights r part die h).testBit right

/-- An entry's first word after a revocation (14 R386). -/
def revoked (w0 : W64) : W64 := if fld w0 39 16 = 0xFFFFFF then w0 &&& ~~~(1#64 <<< 63) else w0 + 0x10000

/-! Windows. -/

/-- Whether requests of a partition through a window that were sent up to a time, or that a protected team still holds, are not complete
(14 R390). DEDUCED, log 58. -/
def windowBusy (r : Run) (part w : Nat) (upTo : W64) : Bool :=
  (r.reqs.any fun q => q.part == part && q.pkt.win == w && decide (q.sent.toNat ≤ upTo.toNat)) ||
    r.teams.any fun e => (teamWhere r e.1).1 == part &&
      (e.2.sbuf ++ e.2.committed).any fun b => match b.dest with | .peer x _ _ _ => peerWin x == w | _ => false

/-- Takes a window's entry into effect (14 R390). DEDUCED, log 58. -/
def syncWindow (r : Run) (part die w : Nat) : Run :=
  r.updPart part fun p => { p with windows := p.windows.put w (windowInMemory r part die w) }

/-! The translation control block. -/

/-- The block that stands at an address; none where it has a reserved bit or a capacity outside its range (16 R416). -/
def readBlock (r : Run) (a : Nat) : Option ControlBlock :=
  let w := fun (i : Nat) => readWord r (a + 8 * i)
  let reserved := fld (w 0) 63 52 != 0 || fld (w 0) 16 0 != 0 || fld (w 1) 63 52 != 0 || fld (w 1) 11 4 != 0 ||
    fld (w 4) 63 52 != 0 || fld (w 4) 11 4 != 0 || (List.range 6).any fun i => w (10 + i) != 0
  let cap := fun (n : Nat) => decide (4 ≤ n) && decide (n ≤ 12)
  if reserved || !cap (fld (w 1) 3 0) || !cap (fld (w 4) 3 0) then none
  else some { addr := a, l0base := fld (w 0) 51 17 * 0x20000, fqbase := fld (w 1) 51 12 * 0x1000, fqlog := fld (w 1) 3 0
              cqbase := fld (w 4) 51 12 * 0x1000, cqlog := fld (w 4) 3 0, ctxbase := (w 8).toNat, ctxsize := (w 9).toNat, fqtail := w 2, cqhead := w 6, dropped := w 7 }

/-- Whether a range of addresses, or all of them where it has no length, meets `n` bytes from an address. -/
def rangeMeets (x : Nat × Nat) (a n : Nat) : Bool := x.2 == 0 || (decide (a < x.1 + x.2) && decide (x.1 < a + n))
def inRange (x : Nat × Nat) (l : Leaf) : Bool := rangeMeets x l.vbase l.size

/-- Whether a pointer serves an address of a range. -/
def WalkPtr.inRange (x : Nat × Nat) (p : WalkPtr) : Bool := rangeMeets x (p.index * 2 ^ levelShift p.level) (2 ^ levelShift p.level)

/-- Drops what the TLBs and walk caches of every die hold of a partition for a range (16 R422, R428). -/
def dropLeaves (r : Run) (part : Nat) (x : Nat × Nat) : Run :=
  let keep := fun (e : Nat × Leaf) => e.1 != part || !inRange x e.2
  { r with dies := r.dies.map fun d =>
      { d with tlb := d.tlb.filter keep, ptrs := d.ptrs.filter fun p => p.part != part || !p.inRange x
               cores := d.cores.map fun k => { k with tlb := k.tlb.filter keep } } }

/-- A write to PTROOT (16 R415). -/
def setPtroot (r : Run) (part : Nat) (v : W64) : Run :=
  dropLeaves ((ownRead r part v.toNat 128).updPart part fun p => { p with ptroot := v, cb := readBlock r v.toNat }) part (0, 0)

/-! The registers. -/

/-- Reads a system register (14 R376, R382); a write-only one reads zero. -/
def sysRead (r : Run) (part : Nat) (utvec : W64) (n : Nat) : W64 :=
  let p := r.part part
  match n with
  | 0x000 => w64 p.partid
  | 0x001 => w64 p.pdies.toNat
  | 0x002 => nthD 0 p.pframe 0
  | 0x003 => nthD 0 p.pframe 1
  | 0x004 => nthD 0 p.pframe 2
  | 0x005 => nthD 0 p.pwin 0
  | 0x006 => nthD 0 p.pwin 1
  | 0x007 => nthD 0 p.pwin 2
  | 0x008 => nthD 0 p.pwin 3
  | 0x010 => p.scbase
  | 0x011 => p.scsize
  | 0x012 => p.stvec
  | 0x013 => p.pdeleg
  | 0x014 => utvec
  | 0x018 => p.capbase
  | 0x019 => p.capsize
  | 0x020 => p.winbase
  | 0x028 => p.ptroot
  | 0x030 => w64 r.incarn.toNat
  | 0x031 => w64 p.devid.toNat
  | _ => 0

/-- Whether a value is one that a register's description admits (14 R368, R376, R382, R386, R390, 16 R415). DEDUCED, log 56. -/
def sysAccepts (p : Partition) (n : Nat) (v : W64) : Bool :=
  match n with
  | 0x000 => decide (v.toNat < 24)
  | 0x010 => fld v 2 0 == 0
  | 0x012 => fld v 2 0 == 0 && fld v 63 32 == 0
  | 0x014 => fld v 63 58 == 0 && !v.getLsbD 32 && fld v 2 0 == 0
  | 0x018 => fld v 3 0 == 0
  | 0x019 => decide (v.toNat ≤ 65535)
  | 0x01A => decide (v.toNat < p.capsize.toNat)
  | 0x020 => fld v 5 0 == 0
  | 0x021 => decide (v.toNat < 256)
  | 0x028 => fld v 63 52 == 0 && fld v 6 0 == 0
  | 0x031 => decide (v.toNat < 144)
  | _ => true

/-- Registers that SUPERVISOR software may write (14 R382). -/
def sysWritable (n : Nat) : Bool :=
  [0x010, 0x011, 0x012, 0x013, 0x014, 0x018, 0x019, 0x01A, 0x020, 0x021, 0x028].contains n

/-- Writes a register that has no behaviour of its own. DEVID is held per partition (R382); the device takes the latest one written for its own
identifier. DEDUCED, log 109. -/
def sysPut (r : Run) (part n : Nat) (v : W64) : Run :=
  let upd := fun f => r.updPart part f
  match n with
  | 0x000 => upd fun p => { p with partid := v.toNat }
  | 0x001 => upd fun p => { p with pdies := v.truncate 24 }
  | 0x002 => upd fun p => { p with pframe := updAt p.pframe 0 fun _ => v }
  | 0x003 => upd fun p => { p with pframe := updAt p.pframe 1 fun _ => v }
  | 0x004 => upd fun p => { p with pframe := updAt p.pframe 2 fun _ => v }
  | 0x005 => upd fun p => { p with pwin := updAt p.pwin 0 fun _ => v }
  | 0x006 => upd fun p => { p with pwin := updAt p.pwin 1 fun _ => v }
  | 0x007 => upd fun p => { p with pwin := updAt p.pwin 2 fun _ => v }
  | 0x008 => upd fun p => { p with pwin := updAt p.pwin 3 fun _ => v }
  | 0x010 => upd fun p => { p with scbase := v }
  | 0x011 => upd fun p => { p with scsize := v }
  | 0x012 => upd fun p => { p with stvec := v }
  | 0x013 => upd fun p => { p with pdeleg := v }
  | 0x018 => upd fun p => { p with capbase := v }
  | 0x019 => upd fun p => { p with capsize := v }
  | 0x020 => upd fun p => { p with winbase := v }
  | 0x031 => { (upd fun p => { p with devid := v.truncate 8 }) with devid := v.truncate 8 }
  | _ => r

end Sys2Proof.Machine
end

