-- ==== Sys2Proof/Machine/Queues.lean ====
section
/-! DEFINITION. Hardware queues (15 R391 to R398) and the nodes of graphs (15 R401, R402): where records stand, which may start, and how one
completes or halts its queue. -/
namespace Sys2Proof.Machine

/-- The lowest die of a partition, at which its launcher translates (15 R391); 0 for one without dies. DEDUCED, log 30. -/
def partDie (r : Run) (part : Nat) : Nat := ((List.range Config.dies).find? fun d => (r.part part).pdies.getLsbD d).getD 0

/-- A word of the launcher's, by virtual address; none where it cannot be read. DEDUCED, log 30. -/
def launcherWord (r : Run) (part a : Nat) : Option W64 := peekWord r part (partDie r part) a
/-- DEDUCED, log 30. -/
def launcherPut (r : Run) (part a : Nat) (w : W64) : Run := pokeWords r part (partDie r part) a [w]
def launcherWords (r : Run) (part a n : Nat) : Option (List W64) :=
  (List.range n).foldr (fun i acc => match launcherWord r part (a + 8 * i), acc with | some w, some t => some (w :: t) | _, _ => none) (some [])

/-- Reads words of the launcher's; ERRCODE 0x07 where one cannot be read (R397), with what the read leaves (16 R424). DEDUCED, log 146. -/
def launcherRead (r : Run) (part a n : Nat) : Except (Nat × Run) (List W64 × Run) :=
  let q := unitReq part (partDie r part) 0 0
  match readVirt r q (w64 a) (8 * n) with
  | .ok (bs, r) => .ok ((chunksOf n 8 bs).map fun b => w64 (leNat b), r)
  | .error e => .error (0x07, unitFail q e)

/-- What reading words of the launcher's leaves. DEDUCED, log 146. -/
def launcherSeen (r : Run) (part a n : Nat) : Run := unitRead r part (partDie r part) a (8 * n)

/-! Rings (R391). -/

/-- The ring of a queue that is enabled: W1 of its entry has ENABLE alone set. What the launcher makes of an entry with reserved bits set is not said,
and here such a queue is not enabled (00 R11). DESIGN CHOICE, log 145. -/
def queueRing (r : Run) (part q : Nat) : Option Nat :=
  let p := r.part part
  match launcherWord r part (p.queueTable.toNat + 16 * q), launcherWord r part (p.queueTable.toNat + 16 * q + 8) with
  | some w0, some w1 => if p.queueEnable && decide (q < Config.queues) && w1 == 1 && fld w0 5 0 == 0 && fld w0 63 56 == 0 then some w0.toNat else none
  | _, _ => none

def headerWord (r : Run) (part ring i : Nat) : W64 := (launcherWord r part (ring + 8 * i)).getD 0
/-- What reading a queue's entry and the header of its ring leaves. DEDUCED, log 146. -/
def ringSeen (r : Run) (part q : Nat) : Run :=
  let r1 := launcherSeen r part ((r.part part).queueTable.toNat + 16 * q) 2
  match queueRing r part q with
  | some ring => launcherSeen r1 part ring 8
  | none => r1

/-- SIZELOG, where the queue may run. -/
def sizeLog (r : Run) (part ring : Nat) : Option Nat :=
  let n := fld (headerWord r part ring 3) 3 0
  if 4 ≤ n then some n else none
def queuePrio (r : Run) (part ring : Nat) : Nat := fld (headerWord r part ring 3) 5 4
def queueCtrl (r : Run) (part ring : Nat) : Nat := fld (headerWord r part ring 4) 1 0
def slotAt (ring log slot : Nat) : Nat := ring + 64 + 64 * (slot % 2 ^ log)

def QueueState.reset : QueueState := { taken := 0, done := 0, err := 0, recs := [], suspended := false, halted := false }
def queueState (r : Run) (part q : Nat) : QueueState := Sparse.get QueueState.reset (r.part part).queues q
def updQueue (r : Run) (part q : Nat) (f : QueueState → QueueState) : Run :=
  r.updPart part fun p => { p with queues := p.queues.put q (f (Sparse.get QueueState.reset p.queues q)) }

/-- Writes STATE, with the error that the launcher has recorded last (R391, R397). -/
def showState (r : Run) (part q : Nat) (err : Option (Nat × Nat)) : Run :=
  match queueRing r part q with
  | none => r
  | some ring =>
    let r := ringSeen r part q
    let s := queueState r part q
    let code := if s.halted then 2 else if s.suspended then 1 else 0
    let e := (err.map fun x => w64 (x.1 % 2 ^ 48 * 2 ^ 16 + x.2 * 2 ^ 8)).getD s.err
    launcherPut (updQueue r part q fun s => { s with err := e }) part (ring + 40) (e + w64 code)

/-! Records (R393). -/

def recType (ws : List W64) : Nat := fld (nthD 0 ws 0) 7 0
def recWaitPrev (ws : List W64) : Bool := (nthD 0 ws 0).getLsbD 9
/-- DEDUCED, log 25. -/
def isWork (ws : List W64) : Bool := decide (recType ws = 1) || decide (recType ws = 2) || decide (recType ws = 3)
/-- LAUNCH, GRAPH, LX and the reserved types start as work; the rest are barrier records (R394). DEDUCED, log 25. -/
def isBarrier (ws : List W64) : Bool := decide (4 ≤ recType ws) && decide (recType ws ≤ 8)

/-- Whether W0 has a reserved bit set for its type (R393). -/
def headReserved (ws : List W64) : Bool :=
  let w := nthD 0 ws 0
  fld w 15 10 != 0 || (recType ws != 1 && fld w 63 32 != 0)

/-- Where the words of a node stand (R401). -/
def nodeAt (g : Graph) (i : Nat) : Nat := g.table + 64 + 128 * i

/-- The words of a record: as the launcher took them, or a node's. -/
def recWords (r : Run) (src : RecSrc) : Option (List W64) :=
  match src with
  | .ring part q slot => ((queueState r part q).recs.find? fun x => x.slot == slot).map (·.words)
  | .node part gr i => ((r.part part).graphs.find gr).bind fun g => launcherWords r part (nodeAt g i) 8

def recPart (src : RecSrc) : Nat := match src with | .ring p _ _ => p | .node p _ _ => p
/-- The queue that a record's priority, mode and state are those of (R396, 19 R494). -/
def recQueue (r : Run) (src : RecSrc) : Nat :=
  match src with
  | .ring _ q _ => q
  | .node p gr _ => (((r.part p).graphs.find gr).map (·.queue)).getD 0

/-! Which record may start (R394, R396). -/

def LxStep.active (st : LxStep) : Bool := st.status == 1 || st.status == 3

/-- Steps of an LXE that are not over (11 R323). -/
def lxeFull (r : Run) (die : Nat) : Bool := decide (Config.lxeSteps ≤ (r.steps.filter fun st => st.die == die && st.active).length)

/-- An LX record that cannot start now: its die does not run (20 R502), or its LXE has no free step slot (11 R323). -/
def lxDieWaits (r : Run) (ws : List W64) : Bool :=
  let d := fld (nthD 0 ws 5) 4 0
  recType ws == 3 && ((let s := (r.die d).state; s != .running && s != .failed) || lxeFull r d)

/-- The record of a queue that may start now: the first not started, where what stands before it allows. DEDUCED, log 25. -/
def nextStart (r : Run) (part q : Nat) : Option TakenRec :=
  let s := queueState r part q
  if s.suspended || s.halted || (queueRing r part q).isNone then none
  else
    let before := s.recs.takeWhile fun x => x.state != .taken
    match (s.recs.drop before.length).head? with
    | none => none
    | some x =>
      let allDone := before.all fun y => y.state == .done
      let barriers := before.all fun y => isWork y.words || y.state == .done
      let prev := (before.getLast?).all fun y => y.state == .done
      if lxDieWaits r x.words then none
      else if isBarrier x.words then (if allDone then some x else none)
      else if barriers && (!recWaitPrev x.words || prev) then some x
      else none

def prioOfQueue (r : Run) (part q : Nat) : Nat := ((queueRing r part q).map (queuePrio r part)).getD 0

/-- The queue whose record starts next: one of the highest PRIO, in turn from the one after the last served of that PRIO. -/
def turnQueue (r : Run) (part : Nat) : Option Nat :=
  let may := (List.range Config.queues).filter fun q => (nextStart r part q).isSome
  let top := (may.map (prioOfQueue r part)).foldl max 0
  let last := Sparse.get (Config.queues - 1) (r.part part).served top
  ((List.range Config.queues).map fun i => (last + 1 + i) % Config.queues).find? fun q => may.contains q && prioOfQueue r part q == top

/-- Whether a record of the given types may start now; a node whose words cannot be read starts, and halts its graph. -/
def mayStart (r : Run) (src : RecSrc) (ok : List W64 → Bool) : Bool :=
  match src with
  | .ring part q slot => turnQueue r part == some q && (nextStart r part q).any fun x => x.slot == slot && ok x.words
  | .node part gr i =>
    ((r.part part).graphs.find gr).any fun g =>
      !g.halted && !(queueState r part g.queue).suspended && g.ready.head? == some i && (let ws := (recWords r src).getD []; ok ws && !lxDieWaits r ws)

def setRec (r : Run) (part q slot : Nat) (st : RecState) : Run :=
  updQueue r part q fun s => { s with recs := s.recs.map fun x => if x.slot = slot then { x with state := st } else x }
def updGraph (r : Run) (part gr : Nat) (f : Graph → Graph) : Run := r.updPart part fun p => { p with graphs := p.graphs.upd gr f }

/-- A record starts. -/
def beginRec (r : Run) (src : RecSrc) : Run :=
  match src with
  | .ring part q slot => (setRec r part q slot .started).updPart part fun p => { p with served := p.served.put (prioOfQueue r part q) q }
  | .node part gr i => updGraph r part gr fun g => { g with ready := g.ready.tail, running := g.running ++ [i] }

/-! Completion (R392, R394). -/

/-- Moves the completed prefix of a ring on. -/
def advanceDone (fuel : Nat) (r : Run) (part q : Nat) : Run :=
  match fuel with
  | 0 => r
  | fuel + 1 =>
    match (queueState r part q).recs, queueRing r part q with
    | x :: _, some ring =>
      if x.state != .done then r
      else
        let log := fld (headerWord r part ring 3) 3 0
        let a := slotAt ring log x.slot
        let n := (queueState r part q).done + 1
        let r := launcherPut (updQueue r part q fun s => { s with done := n }) part (ring + 16) n
        let r := match launcherRead r part a 1 with
          | .ok (ws, r) => launcherPut r part a (nthD 0 ws 0 &&& ~~~(1#64 <<< 8))
          | .error (_, r) => r
        advanceDone fuel (updQueue r part q fun s => { s with recs := s.recs.tail }) part q
    | _, _ => r

/-- A dropped graph is gone when its last node has ended. -/
def forgetGraph (r : Run) (part gr : Nat) : Run :=
  r.updPart part fun p => { p with graphs := p.graphs.filter fun e => e.1 != gr || !e.2.dropped || !e.2.running.isEmpty }

/-- A record completes; a node's completion is the graph's to act on (R403). -/
def completeRec (r : Run) (src : RecSrc) : Run :=
  match src with
  | .ring part q slot => advanceDone ((queueState r part q).recs.length + 1) (setRec r part q slot .done) part q
  | .node part gr i =>
    forgetGraph (updGraph r part gr fun g => { g with running := g.running.filter (· != i), finished := if g.dropped then [] else g.finished ++ [i] }) part gr

/-- A record of a queue fails. One that finds its queue HALTED already leaves ERRSLOT and ERRCODE to the record that halted it (R397). DEDUCED, log 96. -/
def haltSlot (r : Run) (part q slot code : Nat) : Run :=
  let halted := (queueState r part q).halted
  let r := updQueue r part q fun s =>
    { s with halted := true
             recs := s.recs.map fun x => if x.slot = slot then { x with state := .halted, code := if x.state = .halted then x.code else code } else x }
  if halted then r else showState r part q (some (slot, code))

/-- A record that fails halts its queue (R397); a node's failure halts the queue of its graph at the graph's record. -/
def haltRec (r : Run) (src : RecSrc) (code : Nat) : Run :=
  match src with
  | .ring part q slot => haltSlot r part q slot code
  | .node part gr i =>
    let r := updGraph r part gr fun g => { g with halted := true, running := g.running.filter (· != i) }
    match (r.part part).graphs.find gr with
    | none => r
    | some g =>
      if g.dropped then forgetGraph r part gr
      else haltSlot r part g.queue g.slot code

end Sys2Proof.Machine
end

