-- ==== Sys2Proof/Machine/Lx.lean ====
section
/-! DEFINITION. Layout exchange (11 R341 to R351): reading and checking what a step names, its acceptance and its end, and the instructions
LXCHG, LXSTAT and LXRESUME. -/
namespace Sys2Proof.Machine

/-- What asks an LXE for a step: an instruction, or a queue record (15 R405). -/
structure LxAsk where
  part : Nat
  die : Nat
  super : Bool
  ctx : Nat
  pc : W64
  launchid : W32
  kernid : W32
  src : Nat
  dst : Nat
  prog : Nat
  op : Nat
  endp : Bool
  team : Option Nat
  rec_ : Option RecSrc
  cmode : Nat
  cpl : Nat
  deriving DecidableEq, Repr

/-- The requests of an LXE: it is on no core (16 R424, R521). DEDUCED, log 81. -/
def LxAsk.req (a : LxAsk) (kind : Nat) : Req :=
  { part := a.part, die := a.die, core := 127, ctx := a.ctx, launchid := a.launchid, pc := a.pc, super := a.super, src := 5, kind }
/-- DEDUCED, log 81. -/
def LxStep.req (st : LxStep) (kind : Nat) : Req :=
  { part := st.part, die := st.die, core := 127, ctx := 0, launchid := st.launchid, pc := st.pc, super := st.super, src := 5, kind }

/-- The device that a partition's dies are named by (14 R382). -/
def partDev (r : Run) (part : Nat) : Nat := (r.part part).devid.toNat
def LxAsk.me (r : Run) (a : LxAsk) : Nat × Nat := (partDev r a.part, a.die)

/-! Reads (R345, step 3). -/

abbrev AccOr (α : Type) := Except (AccFail × Run) α

def readWords (r : Run) (q : Req) (a n : Nat) : AccOr (List W64 × Run) :=
  (readVirt r q (w64 a) (8 * n)).map fun x => ((chunksOf n 8 x.1).map fun b => w64 (leNat b), x.2)

/-- A record with its table, where its axes name one. -/
def readLayout (r : Run) (q : Req) (a : Nat) : AccOr (Layout × Run) := do
  let (words, r) ← readWords r q a 8
  let l : Layout := { words, raw := [], parts := [] }
  match l.entries with
  | none => .ok (l, r)
  | some n => do
    let (bs, r) ← readVirt r q (w64 a + l.w 0) (2 * n)
    .ok (l.withTable ((chunksOf n 2 bs).map leNat), r)

structure LxRead where
  slay : Layout
  dlay : Layout
  head : List W64
  deriving DecidableEq, Repr

/-- DEDUCED, log 82. -/
def lxRead (r : Run) (a : LxAsk) : AccOr (LxRead × Run) := do
  let (slay, r) ← readLayout r (a.req 0) a.src
  let (dlay, r) ← readLayout r (a.req 0) a.dst
  let (head, r) ← readWords r (a.req 0) a.prog 8
  .ok ({ slay, dlay, head }, r)

def progStatus (head : List W64) : Nat := fld (nthD 0 head 1) 39 36
def progStepid (head : List W64) : W32 := w32 (fld (nthD 0 head 0) 63 32)

/-! Steps. -/

def findStep (r : Run) (die : Nat) (stepid : W32) : Option LxStep := r.steps.find? fun st => st.die == die && st.stepid == stepid
def updStep (r : Run) (die : Nat) (stepid : W32) (f : LxStep → LxStep) : Run :=
  { r with steps := r.steps.map fun st => if st.die = die ∧ st.stepid = stepid then f st else st }

def LxStep.me (r : Run) (st : LxStep) : Nat × Nat := (partDev r st.part, st.die)
/-- The participants of both meshes, each once. -/
def LxStep.everyone (st : LxStep) : List (Nat × Nat) := (st.slay.parts ++ st.dlay.parts).eraseDups
def LxStep.destRank (r : Run) (st : LxStep) : Option Nat := st.dlay.rankOf (st.me r)
def LxStep.srcRank (r : Run) (st : LxStep) : Option Nat := st.slay.rankOf (st.me r)
/-- NCHUNK of this participant. -/
def LxStep.nchunk (r : Run) (st : LxStep) : Nat := if (st.destRank r).isSome then st.dlay.chunks else 0
/-- DEDUCED, log 83. -/
def LxStep.digest (st : LxStep) : List W64 := lxDigestOf st.stepid st.op st.slay st.dlay
def LxStep.chunksDone (r : Run) (st : LxStep) : Bool := (List.range (st.nchunk r)).all st.bits.contains

/-- What R345 step 4 refuses of the step itself; `resumed` leaves out what R351 does not ask. -/
def lxRejects (r : Run) (a : LxAsk) (x : LxRead) (op : Nat) (resumed : Bool) : Bool :=
  let me := a.me r
  let other := (findStep r a.die (progStepid x.head)).any fun st => st.active && !(resumed && st.prog == a.prog)
  !pairOk x.slay x.dlay op || !(x.slay.parts ++ x.dlay.parts).contains me || other || (!resumed && progStatus x.head == 1)

/-- Bytes of the bitmap. -/
def bitmapBytes (n : Nat) : Nat := ceilDiv n 8

/-- The end of a step (R348): STATUS, the completion posted once, LX_END. -/
def postLx (r : Run) (st : LxStep) (status : Nat) : Run :=
  match st.team with
  | none => r
  | some t =>
    match st.cmode with
    | 1 => arrive r t st.cpl 1
    | 3 => postRecord r t st.cpl [st.stepid, w32 (lxClass st.slay st.dlay * 16 + status)]
    | _ => r

/-- W1 of the progress record (R344). DEDUCED, log 84. -/
def LxStep.w1 (st : LxStep) : W64 :=
  w64 (st.flags * 2 ^ 48 + lxClass st.slay st.dlay * 2 ^ 40 + st.status * 2 ^ 36 + st.op * 2 ^ 32 + st.bits.length)

/-- What follows the end of a step: its completion, its events, and its queue record, which completes or halts (15 R394, R397). DEDUCED, log 71. -/
def announceEnd (r : Run) (st : LxStep) (status : Nat) : Run :=
  let r := postLx r st status
  let r := emit' r { lxeUnit st.die with index := status } 0x0013 st.stepid.toNat st.startEvent
  let r := emit' r (lxeUnit st.die) 0x0011 (0xCB + st.cmode * 2 ^ 8 + bit (status != 2) * 2 ^ 15) st.issueEvent
  match st.rec_ with
  | none => r
  | some src => if status = 2 then completeRec r src else haltRec r src 0x0C

/-- Whether a chunk of a destination waits for a page at this die, and whether the progress record does (R349). -/
def LxStep.chunkHeld (st : LxStep) (q chunk : Nat) : Bool := st.held.any fun h => h.2 == some (q, chunk)
def LxStep.recordHeld (st : LxStep) : Bool := st.held.any fun h => h.2.isNone

/-- Writes bytes of a progress record after acceptance; a page that is not there is waited for. Answers whether the write failed, with the bytes as
they were (R349). -/
def lxTry (r : Run) (die : Nat) (stepid : W32) (ofs : Nat) (bs : List Byte) : Run × Bool :=
  match findStep r die stepid with
  | none => (r, false)
  | some st =>
    if st.recordHeld then (r, false)
    else
      match writeVirt r (st.req 1) (w64 (st.prog + ofs)) bs with
      | .ok r => (r, false)
      | .error (.fault f, _) =>
        if f.kind = 1 || f.kind = 7 then
          let (tag, r) := faultHeld r (st.req 1) f (.lx die stepid)
          (updStep r die stepid fun st => { st with held := st.held ++ [(tag, none)] }, false)
        else (faultRecord r (st.req 1) f, true)
      | .error (.data .., r) => (r, true)

/-- The end of a step: STATUS in its record, the completion once (R348). A record that cannot be written makes the step FAULTED (R349). -/
def lxEnd (r : Run) (die : Nat) (stepid : W32) (status : Nat) : Run :=
  match findStep r die stepid with
  | none => r
  | some st =>
    if !st.active then r
    else
      match lxTry (updStep r die stepid fun st => { st with status }) die stepid 8 (leBytes 8 ({ st with status } : LxStep).w1.toNat) with
      | (r, false) => announceEnd r st status
      | (r, true) => announceEnd (updStep r die stepid fun st => { st with status := 4 }) st 4

/-- A write of the progress record of a running step, which ends it where it fails. -/
def lxPut (r : Run) (die : Nat) (stepid : W32) (ofs : Nat) (bs : List Byte) : Run :=
  match lxTry r die stepid ofs bs with
  | (r, false) => r
  | (r, true) => lxEnd r die stepid 4

/-- DEDUCED, log 84. DEDUCED, log 108. -/
def lxShow (r : Run) (die : Nat) (stepid : W32) : Run :=
  match findStep r die stepid with
  | some st => lxPut r die stepid 8 (leBytes 8 st.w1.toNat)
  | none => r

/-- A bitmap byte: the bits of chunks that are done, and above NCHUNK what stood there. -/
def bitmapByte (n : Nat) (bits : List Nat) (old i : Nat) : Byte :=
  BitVec.ofNat 8 ((List.range 8).foldl (fun acc k =>
    acc + (if 8 * i + k < n then bit (bits.contains (8 * i + k)) else bit (old.testBit k)) * 2 ^ k) 0)

/-- Writes the bitmap as the step holds it. DEDUCED, log 108. -/
def lxBitmap (r : Run) (die : Nat) (stepid : W32) : Run :=
  match findStep r die stepid with
  | none => r
  | some st =>
    let n := st.nchunk r
    (List.range (bitmapBytes n)).foldl (fun r i =>
      let old := match readVirt r (st.req 1) (w64 (st.prog + 64 + i)) 1 with | .ok (bs, _) => leNat bs | .error _ => 0
      lxPut r die stepid (64 + i) [bitmapByte n st.bits old i]) r

/-- The use of the STEPID that a new step belongs to: that of the latest step which this die has not
taken part in and of which one table names the other's die, or a new one. DEDUCED, log 91. -/
def lxEpoch (r : Run) (a : LxAsk) (x : LxRead) : Nat :=
  let stepid := progStepid x.head
  let mine := ((findStep r a.die stepid).map (·.epoch)).getD 0
  let parts := x.slay.parts ++ x.dlay.parts
  let named := r.steps.filter fun st => st.stepid == stepid && decide (mine < st.epoch) && (parts.contains (st.me r) ||
    (st.slay.parts ++ st.dlay.parts).contains (a.me r))
  let best := named.foldl (fun acc st => max acc st.epoch) 0
  if best = 0 then r.nextId + 1 else best

/-- Acceptance (R345, R351): the step replaces an earlier one of its die and STEPID, LVALID is cleared, the header is written. DEDUCED, log 82. DEDUCED, log 84. -/
def lxAccept (r : Run) (a : LxAsk) (x : LxRead) (op flags : Nat) (bits : List Nat) (issueEvent : W64) (fresh : Bool) : Run :=
  let stepid := progStepid x.head
  let old := findStep r a.die stepid
  let kept := if fresh then none else (old.filter fun st => st.prog == a.prog).map (·.startEvent)
  let (start, r) := match kept with
    | some e => (e, r)
    | none => emit r (lxeUnit a.die) 0x0012 stepid.toNat issueEvent
  let attempt := (old.map fun st => st.attempt + 1).getD 0
  let st : LxStep :=
    { die := a.die, part := a.part, stepid
      epoch := if fresh then lxEpoch r a x else (old.map (·.epoch)).getD (lxEpoch r a x), prog := a.prog, slay := x.slay, dlay := x.dlay, srcAddr := a.src, dstAddr := a.dst
      srcBase := (nthD 0 x.head 4).toNat, dstBase := (nthD 0 x.head 5).toNat, deadline := nthD 0 x.head 2, op, endp := a.endp
      team := a.team, rec_ := if a.rec_.isSome then a.rec_ else (old.filter LxStep.active).bind (·.rec_), cmode := a.cmode, cpl := a.cpl, status := 1, flags, bits, accepted := r.now a.die, issueEvent
      startEvent := start, digests := [], doneBy := [], watched := false, attempt := attempt % 256, reducer := [], got := [], held := []
      super := a.super, pc := a.pc, launchid := a.launchid, kernid := a.kernid, order := r.nextId }
  let r := { r.newId.2 with steps := (r.steps.filter fun y => !(y.die == a.die && y.stepid == stepid)) ++ [st] }
  let r := lxPut r a.die stepid 24 (leBytes 8 (fld (nthD 0 x.head 3) 62 0))
  let r := if fresh then
      let r := lxPut r a.die stepid 0 (leBytes 8 (stepid.toNat * 2 ^ 32 + st.nchunk r))
      let r := lxPut r a.die stepid 48 (leBytes 8 a.src ++ leBytes 8 a.dst)
      lxBitmap r a.die stepid
    else r
  lxShow r a.die stepid

/-- The chunks whose bit is set in memory. -/
def bitsInMemory (r : Run) (q : Req) (prog n : Nat) : AccOr (List Nat × Run) := do
  let (bs, r) ← readVirt r q (w64 (prog + 64)) (bitmapBytes n)
  .ok ((List.range n).filter fun k => (nthD 0 bs (k / 8)).getLsbD (k % 8), r)

/-! The instructions. -/

/-- A failure of the reads at issue: ENGINE is set in DETAIL (R345, 17 R449); what the reads leave stays. -/
def lxStop (c : Ctx) (q : Req) (e : AccFail) (reads : Run → Run) : Stop :=
  match e with
  | .data cause d va => accStop c q (c.lowest.getD 0) (.data cause (d ||| 4) va) reads
  | e => accStop c q (c.lowest.getD 0) e

def orStop {α : Type} (c : Ctx) (q : Req) (act : Run → AccOr α) (r : Run) : Except Stop α :=
  match act r with
  | .ok v => .ok v
  | .error (e, _) => .error (lxStop c q e fun r => match act r with | .ok _ => r | .error (_, r') => r')

def Ctx.lxAsk (c : Ctx) (src dst prog op : Nat) (endp : Bool) (cmode cpl : Nat) : LxAsk :=
  { part := c.part, die := c.t.die, super := c.grp.super, ctx := c.grp.ctx.getD 0, pc := c.pc, launchid := c.l.launchid
    kernid := c.l.kernid, src, dst, prog, op, endp, team := some c.grp.team, rec_ := none, cmode, cpl }

/-- ENGINE_ISSUE of an exchange. DEDUCED, log 71. -/
def issueEvent (r : Run) (c : Ctx) (opcode cmode : Nat) : W64 × Run := emitGrp r c.gid (lxeUnit c.t.die) 0x0010 (opcode + cmode * 2 ^ 8)

def execLxchg (f : Fields) (s : State) : Host.Outcome State Fault Refusal :=
  issue (.lxchg f)
    { cmp := fun _ => .engine
      body := whenActive fun c r =>
        let a := c.lxAsk (readUniform r c c.f.a .n64) (readUniform r c c.f.b .n64) (readUniform r c c.f.c .n64)
          (w2bits c.f 3 0) (w2bits c.f 24 24 == 1) (descMode c.f) (descCpl c.f)
        let t := curTeam r c
        if a.src % 64 != 0 || a.dst % 64 != 0 || a.prog % 64 != 0 then
          .error (c.misaligned (c.lowest.getD 0) (if a.src % 64 != 0 then a.src else if a.dst % 64 != 0 then a.dst else a.prog))
        else if !objIn t a.cmode a.cpl then .error (c.bound a.cpl)
        else do
          let (x, r) ← orStop c (a.req 0) (lxRead · a) r
          if lxRejects r a x a.op false || !objKindOk t a.cmode a.cpl 3 false then .error c.illegal
          else
            let n := if x.dlay.parts.contains (a.me r) then x.dlay.chunks else 0
            let r ← orStop c (a.req 1) (checkVirt · (a.req 1) (w64 a.prog) (64 + bitmapBytes n)) r
            if lxeFull r a.die then .error (engineWait 9)
            else
              let (id, r) := issueEvent r c 0xCB a.cmode
              .ok (lxAccept r a x a.op 0 [] id true) } s

def execLxstat (f : Fields) (s : State) : Host.Outcome State Fault Refusal :=
  issue (.lxstat f)
    { body := whenActive fun c r =>
        let a := readUniform r c c.f.a .n64
        if a % 64 != 0 then .error (c.misaligned (c.lowest.getD 0) a)
        else do
          let (bs, r) ← accRead r c (pathReq r c 5 0) (c.lowest.getD 0) (w64 (a + 8)) 8
          writeRes r c .w64 fun _ => leNat bs } s

def execLxresume (f : Fields) (s : State) : Host.Outcome State Fault Refusal :=
  issue (.lxresume f)
    { cmp := fun _ => .engine
      body := whenActive fun c r =>
        let prog := readUniform r c c.f.a .n64
        let cpl := readUniform r c c.f.b .n32
        let cmode := xbits c.f 1 0
        let a := c.lxAsk 0 0 prog 0 false cmode cpl
        if prog % 64 != 0 then .error (c.misaligned (c.lowest.getD 0) prog)
        else do
          checkObj c (curTeam r c) cmode cpl 3 false
          let (head, r) ← orStop c (a.req 0) (readWords · (a.req 0) prog 8) r
          let status := progStatus head
          if status = 0 || status = 1 || decide (6 < status) then .error c.illegal
          else if status = 2 then
            .ok (match cmode with
              | 1 => arrive r c.grp.team cpl 1
              | 3 => postRecord r c.grp.team cpl [progStepid head, w32 (fld (nthD 0 head 1) 47 40 * 16 + 2)]
              | _ => r)
          else
            let op := fld (nthD 0 head 1) 35 32
            let endp := (findStep r a.die (progStepid head)).any (·.endp)
            let a := { a with src := (nthD 0 head 6).toNat, dst := (nthD 0 head 7).toNat, op, endp }
            let (x, r) ← orStop c (a.req 0) (lxRead · a) r
            if lxRejects r a x op true then .error c.illegal
            else
              let n := if x.dlay.parts.contains (a.me r) then x.dlay.chunks else 0
              let (bits, r) ← orStop c (a.req 0) (bitsInMemory · (a.req 0) prog n) r
              if lxeFull r a.die && !(findStep r a.die (progStepid head)).any (·.active) then .error (engineWait 9)
              else
                let (id, r) := issueEvent r c 0xCD cmode
                .ok (lxAccept r a x op (fld (nthD 0 head 1) 50 48) bits id false) } s

end Sys2Proof.Machine
end

