-- ==== Sys2Proof/Machine/LxUnit.lean ====
section
/-! DEFINITION. What a die's LXE does with an accepted step: digests, pulls and reductions (11 R348, R349, 18 R467), the ends of steps, and
collective watchdogs (19 R483 to R485). -/
namespace Sys2Proof.Machine

/-! Steps of this device in one use of a STEPID. -/

/-- The part that a die of this device takes in the same use of a step. DEDUCED, log 91. -/
def partner (r : Run) (st : LxStep) (die : Nat) : Option LxStep := (findStep r die st.stepid).filter fun x => x.epoch == st.epoch

/-- Whether a participant has every other one's digest (R348). -/
def LxStep.digestsIn (r : Run) (st : LxStep) : Bool := st.everyone.all fun p => p == st.me r || st.digests.contains p

/-- Whether a step's LXE acts: it is RUNNING. -/
def LxStep.acts (st : LxStep) : Bool := st.status == 1

/-- Whether a chunk of a destination waits for a page at some participant of this device (R349). -/
def chunkWaits (r : Run) (st : LxStep) (q chunk : Nat) : Bool :=
  r.steps.any fun y => y.stepid == st.stepid && y.epoch == st.epoch && y.chunkHeld q chunk

def shareBytes (plan : List (List Nat × Nat)) (efmt p : Nat) : Nat := (sharePlaces plan p).length * elemSize efmt

/-! Reading and writing arrays. -/

/-- What comes of a chunk that is tried, with the die whose access failed. -/
inductive LxTried where
  | ready (bytes : List Byte) (r : Run)
  | waits (die : Nat) (q : Req) (f : FaultInfo) (r : Run)
  | fails (die cause : Nat) (r : Run)

def lxError (die : Nat) (q : Req) (e : AccFail × Run) : LxTried :=
  match e with
  | (.fault f, r) =>
    if f.kind = 1 || f.kind = 7 then .waits die q f r else .fails die (faultCause f.kind).code (faultRecord r q f)
  | (.data c _ _, r) => .fails die c.code (countData q.part c r)

/-- Runs of neighbouring places of an array, for reads: first place and length. -/
def placeRuns (ps : List Nat) : List (Nat × Nat) :=
  (ps.foldl (fun (acc : List (Nat × Nat)) p =>
    match acc with
    | (a, n) :: t => if a + n = p then (a, n + 1) :: t else (p, 1) :: acc
    | [] => [(p, 1)]) []).reverse

/-- Reads what a participant of this device contributes to a chunk. -/
def readShare (r : Run) (st : LxStep) (plan : List (List Nat × Nat)) (rank : Nat) : Except LxTried (List Byte × Run) :=
  let n := elemSize st.slay.efmt
  (placeRuns (sharePlaces plan rank)).foldlM (init := (([] : List Byte), r)) fun (acc : List Byte × Run) p =>
    match readVirt acc.2 (st.req 0) (w64 (st.srcBase + n * p.1)) (n * p.2) with
    | .ok (bs, r) => .ok (acc.1 ++ bs, r)
    | .error e => .error (lxError st.die (st.req 0) e)

/-! Reducers (18 R467). -/

/-- Whether an Atoll may reduce a chunk with some contributors. -/
def atollMay (r : Run) (st : LxStep) (ranks : List Nat) : Bool :=
  let e := st.slay.efmt
  !st.endp && (st.op == 1 && [0, 2, 4, 6, 7].contains e || (st.op == 2 || st.op == 3) && e != 8) &&
    ranks.any fun p => ((st.slay.parts[p]?).map (·.1)) != some (st.me r).1

/-- The reducer of a chunk: this device, or an Atoll; which one is free. -/
def chooseReducer (r : Run) (m : Mgmt) (st : LxStep) (ranks : List Nat) : Nat × Run :=
  let self := r.devid.toNat
  let atolls := (List.range Config.ports).filter fun a => (m.port a).state == .up && ranks.all fun p =>
    (st.slay.parts[p]?).all fun x => x.1 == (st.me r).1 || (usable m self x.1).contains a
  if !atollMay r st ranks || atolls.isEmpty then (self, r)
  else
    let n := Config.freeChoice r.fresh % (atolls.length + 1)
    (if n = 0 then self else 144 + nthD 0 atolls (n - 1), r.newFree.2)

def lxWord (stepid : W32) (chunk : Nat) : W64 := w64 (stepid.toNat * 2 ^ 32 + chunk)

/-- Pulls one chunk: the choice of its reducer and the requests for its contributions. Those of this device need none where it reduces. DEDUCED, log 85. -/
def pullChunk (m : Mgmt) (die : Nat) (stepid : W32) (r : Run) (chunk : Nat) : Run :=
  match findStep r die stepid with
  | none => r
  | some st =>
    match st.destRank r with
    | none => r
    | some q =>
      let ranks := chunkRanks (chunkPlan st.slay st.dlay q chunk) st.slay
      let self := r.devid.toNat
      let mine := (st.me r).1
      if ranks.all fun p => ((st.slay.parts[p]?).map (·.1)) == some mine then r
      else
        let (red, r) := chooseReducer r m st ranks
        let pkt := fun (p : Nat) =>
          let dev := ((st.slay.parts[p]?).map (·.1)).getD mine
          let dst := if dev = mine then self else dev
          if dev = mine && red = self then []
          else [({ type := 8, src := self, dst, inc := r.incarn.toNat, win := red, causal := st.issueEvent, offset := lxWord stepid chunk, tag := q
                   attempt := st.attempt, rank := p } : Packet)]
        let r := { r with outbox := r.outbox ++ ranks.flatMap pkt }
        updStep r die stepid fun st => { st with reducer := st.reducer.put chunk red, got := st.got.filter fun x => x.chunk != chunk }

/-- Pulls every chunk whose bit is clear. DEDUCED, log 92. -/
def pullChunks (r : Run) (m : Mgmt) (die : Nat) (stepid : W32) : Run :=
  match findStep r die stepid with
  | none => r
  | some st => ((List.range (st.nchunk r)).filter fun c => !st.bits.contains c).foldl (pullChunk m die stepid) r

/-- Pulls again, in a new attempt, what the loss of a reducer or a route may have cost (R467). -/
def pullAgain (r : Run) (m : Mgmt) : Run :=
  (r.steps.filter fun st => st.status == 1 && st.digestsIn r && st.everyone.any fun p => p.1 != (st.me r).1).foldl (fun r st =>
    pullChunks (updStep r st.die st.stepid fun x => { x with attempt := (x.attempt + 1) % 256 }) m st.die st.stepid) r

/-! Digests (R348). -/

/-- Whether a participant's digest, or its report that its chunks are done, may arrive now: a participant of this device tells what its own
step holds. One that this step's tables do not name has named this one in its own, so that their digests differ. DESIGN CHOICE, log 86. -/
def digestDue (r : Run) (m : Mgmt) (die : Nat) (stepid : W32) (from_ : Nat × Nat) (digest : List W64) (done : Bool) : Bool :=
  (findStep r die stepid).any fun st =>
    st.status == 1 && from_ != st.me r && (st.everyone.contains from_ || digest != st.digest) &&
      (!st.digests.contains from_ || (done && !st.doneBy.contains from_)) &&
      if from_.1 = (st.me r).1 then (partner r st from_.2).any fun y =>
        y.digest == digest && (!done || y.chunksDone r) && (st.everyone.contains from_ || y.everyone.contains (st.me r))
      else !m.deadDevs.contains from_.1

/-- DESIGN CHOICE, log 86. -/
def digestAct (m : Mgmt) (die : Nat) (stepid : W32) (from_ : Nat × Nat) (digest : List W64) (done : Bool) (r : Run) : Run :=
  match findStep r die stepid with
  | none => r
  | some st =>
    if digest ≠ st.digest then lxEnd r die stepid 6
    else
      let had := st.digestsIn r
      let add := fun (ps : List (Nat × Nat)) => if ps.contains from_ then ps else ps ++ [from_]
      let r := updStep r die stepid fun st => { st with digests := add st.digests, doneBy := if done then add st.doneBy else st.doneBy }
      if !had && (findStep r die stepid).any (LxStep.digestsIn r) then pullChunks r m die stepid else r

def execLxDigest (die stepid device fromDie : Nat) (digest : List W64) (done : Bool) (s : State) : Host.Outcome State Fault Refusal :=
  rowRun (digestDue s.run s.mgmt die (w32 stepid) (device, fromDie) digest done) s (digestAct s.mgmt die (w32 stepid) (device, fromDie) digest done)

/-! Chunks. -/

/-- Adds a packet in its place, once (18 R467). -/
def addPart (x : LxPart) : List LxPart → List LxPart
  | [] => [x]
  | y :: t =>
    if y.chunk = x.chunk ∧ y.rank = x.rank ∧ x.piece ≤ y.piece then (if y.piece = x.piece then y :: t else x :: y :: t)
    else y :: addPart x t

/-- What a step has received for a chunk from one contributor, or from an Atoll that reduced it, in order. -/
def LxStep.received (st : LxStep) (chunk : Nat) (rank : Option Nat) : List LxPart := st.got.filter fun x => x.chunk == chunk && x.rank == rank

/-- Whether a contribution to a chunk is read in this device itself: it is one of its dies', and the participant reduces. -/
def LxStep.isLocal (r : Run) (st : LxStep) (chunk p : Nat) : Bool :=
  ((st.slay.parts[p]?).map (·.1)) == some (st.me r).1 && Sparse.get r.devid.toNat st.reducer chunk == r.devid.toNat

/-- The part of a contributor of this device. -/
def LxStep.partnerOf (r : Run) (st : LxStep) (p : Nat) : Option LxStep := partner r st (((st.slay.parts[p]?).map (·.2)).getD 0)

/-- Reads or takes every contribution of a chunk and reduces it. None where something is still to come. -/
def tryChunk (r : Run) (st : LxStep) (q chunk : Nat) : Option (LxTried × Nat) :=
  let r := { r with accPc := st.pc }
  let plan := chunkPlan st.slay st.dlay q chunk
  let ranks := chunkRanks plan st.slay
  let bytes := plan.length * elemSize st.dlay.efmt
  let reduced := (st.received chunk none).flatMap (·.bytes)
  if !reduced.isEmpty then
    if reduced.length < bytes then none
    else some (.ready (reduced.take bytes) r, ((st.received chunk none).foldl (fun n x => n ||| x.flags) 0))
  else
    let local_ := st.isLocal r chunk
    let share := fun (p : Nat) => shareBytes plan st.slay.efmt p
    let got := fun (p : Nat) => (st.received chunk (some p)).flatMap (·.bytes)
    let readyRank := fun (p : Nat) =>
      if local_ p then (st.partnerOf r p).any LxStep.acts else decide (share p ≤ (got p).length)
    if !ranks.all readyRank then none
    else
      let gather : Except LxTried (List (Nat × List Byte) × Run) :=
        ranks.foldlM (init := (([] : List (Nat × List Byte)), r)) fun (acc : List (Nat × List Byte) × Run) p =>
          if local_ p then
            match st.partnerOf acc.2 p with
            | some y => (readShare acc.2 y plan p).map fun x => (acc.1 ++ [(p, x.1)], x.2)
            | none => .ok acc
          else .ok (acc.1 ++ [(p, got p)], acc.2)
      match gather with
      | .error e => some (e, 0)
      | .ok (shares, r) =>
        let (bs, flags) := assemble st.op st.slay.efmt plan fun p => ((shares.find? fun x => x.1 == p).map (·.2)).getD []
        some (.ready bs r, flags)

/-- The chunk as it is written to its destination. -/
def landChunk (r : Run) (st : LxStep) (q chunk : Nat) : Option (LxTried × Nat) :=
  (tryChunk r st q chunk).map fun x =>
    match x with
    | (.ready bs r, flags) =>
      match writeVirt r (st.req 1) (w64 (st.dstBase + chunkBytes * chunk)) bs with
      | .ok r => (.ready bs r, flags)
      | .error e => (lxError st.die (st.req 1) e, 0)
    | e => e

/-- What a chunk of a step comes to now; none where it cannot move. DEDUCED, log 92. -/
def chunkNow (r : Run) (die : Nat) (stepid : W32) (chunk : Nat) : Option (LxStep × LxTried × Nat) :=
  (findStep r die stepid).bind fun st =>
    if st.acts && st.digestsIn r && decide (chunk < st.nchunk r) && !st.bits.contains chunk then
      (st.destRank r).bind fun q => if chunkWaits r st q chunk then none else (landChunk r st q chunk).map fun x => (st, x.1, x.2)
    else none

def chunkDue (r : Run) (die : Nat) (stepid : W32) (chunk : Nat) : Bool :=
  (chunkNow r die stepid chunk).any fun x => match x.2.1 with | .fails .. => false | _ => true

/-- A chunk of a destination waits for a page at a die (R349). -/
def holdStep (r : Run) (die : Nat) (stepid : W32) (rank chunk : Nat) (q : Req) (f : FaultInfo) : Run :=
  let (tag, r) := faultHeld r q f (.lx die stepid)
  updStep r die stepid fun st => { st with held := st.held ++ [(tag, some (rank, chunk))] }

/-- A wait of a step is over: what its progress record still has to show is written. -/
def unholdStep (r : Run) (die : Nat) (stepid : W32) (tag : Nat) : Run :=
  let shown := (findStep r die stepid).any fun st => st.held.contains (tag, none)
  let r := updStep r die stepid fun st => { st with held := st.held.filter fun h => h.1 != tag }
  if shown then lxShow (lxBitmap r die stepid) die stepid else r

/-- A chunk is done (R348): its bit, NDONE, its flags and its counts (19 R489, R492). -/
def chunkAct (die : Nat) (stepid : W32) (chunk : Nat) (r : Run) : Run :=
  match chunkNow r die stepid chunk with
  | none => r
  | some (_, .fails _ _ r, _) => r
  | some (st, .waits d q f r, _) => holdStep r d stepid ((st.destRank r).getD 0) chunk q f
  | some (st, .ready bs r, flags) =>
    let byAtoll := Sparse.get r.devid.toNat st.reducer chunk != r.devid.toNat && !(st.received chunk none).isEmpty
    let r := updStep r die stepid fun st =>
      { st with bits := st.bits ++ [chunk], flags := st.flags ||| flags, got := st.got.filter fun x => x.chunk != chunk }
    let r := r.count st.part 3 3 1
    let r := if st.op = 0 then r else r.count st.part 3 (if byAtoll then 4 else 5) bs.length
    let r := sketchAdd r (lxeUnit die) st.kernid.toNat bs.length
    let i := chunk / 8
    let old := match readVirt r (st.req 1) (w64 (st.prog + 64 + i)) 1 with | .ok (b, _) => leNat b | .error _ => 0
    let bits := ((findStep r die stepid).map (·.bits)).getD []
    let r := lxPut r die stepid (64 + i) [bitmapByte (st.nchunk r) bits old i]
    if (findStep r die stepid).any LxStep.active then lxShow r die stepid else r

def execLxChunkDone (die stepid chunk : Nat) (s : State) : Host.Outcome State Fault Refusal :=
  rowRun (chunkDue s.run die (w32 stepid) chunk) s (chunkAct die (w32 stepid) chunk)

/-! Ends. -/

/-- DONE (R348): every participant's chunks are done. DESIGN CHOICE, log 86. -/
def stepDone (r : Run) (die : Nat) (stepid : W32) : Bool :=
  (findStep r die stepid).any fun st =>
    st.acts && st.held.isEmpty && st.digestsIn r && st.chunksDone r && st.everyone.all fun p => p == st.me r || st.doneBy.contains p

def execLxStepDone (die stepid : Nat) (s : State) : Host.Outcome State Fault Refusal :=
  rowRun (stepDone s.run die (w32 stepid)) s fun r => lxEnd r die (w32 stepid) 2

/-- The first failure that a step of this device meets at a die, among the chunks that could move: its cause. -/
def dataFailure (r : Run) (die : Nat) (stepid : W32) : Option (Nat × Run) :=
  (r.steps.filter fun st => st.stepid == stepid).findSome? fun st =>
    (List.range (st.nchunk r)).findSome? fun c =>
      match chunkNow r st.die stepid c with
      | some (_, .fails d cause r, _) => if d = die then some (cause, r) else none
      | _ => none

/-- Whether the progress record of a step cannot be written (R349). -/
def progressFails (r : Run) (st : LxStep) : Bool :=
  match writeVirt r (st.req 1) (w64 (st.prog + 8)) (leBytes 8 st.w1.toNat) with
  | .ok _ => false
  | .error (.fault f, _) => f.kind != 1 && f.kind != 7
  | .error (.data .., _) => true

/-- Whether a step has traffic with a dead device (R349). -/
def deadTraffic (m : Mgmt) (st : LxStep) : Bool := st.everyone.any fun p => m.deadDevs.contains p.1 && !st.doneBy.contains p

def lxFaultDue (r : Run) (m : Mgmt) (die : Nat) (stepid : W32) (f : LxFailure) : Bool :=
  (findStep r die stepid).any fun st => st.status == 1 &&
    match f with
    | .data cause => (dataFailure r die stepid).any fun x => x.1 == cause
    | .progressWrite => progressFails r st
    | .peerDead => deadTraffic m st

def lxFaultAct (die : Nat) (stepid : W32) (f : LxFailure) (r : Run) : Run :=
  match f with
  | .data _ => lxEnd (((dataFailure r die stepid).map (·.2)).getD r) die stepid 4
  | .progressWrite => lxEnd r die stepid 4
  | .peerDead => lxEnd r die stepid 5

def execLxFault (die stepid : Nat) (failure : LxFailure) (s : State) : Host.Outcome State Fault Refusal :=
  rowRun (lxFaultDue s.run s.mgmt die (w32 stepid) failure) s (lxFaultAct die (w32 stepid) failure)

/-! Late participants (19 R483 to R485). -/

/-- The rank of a participant: its source rank, or behind every source rank its destination rank. DEDUCED, log 93. -/
def LxStep.lateRank (st : LxStep) (p : Nat × Nat) : Nat := (st.slay.rankOf p).getD (st.slay.parts.length + (st.dlay.rankOf p).getD 0)

/-- The packets of a contributor that a reduction has taken, in order (18 R467). -/
def Reduction.given (x : Reduction) (rank : Nat) : List Byte := (x.got.filter fun g => g.1 / 256 == rank).flatMap (·.2)

/-- Whether the whole of a contribution to a chunk has reached the participant or the Atoll it chose. -/
def contributed (r : Run) (m : Mgmt) (st : LxStep) (q chunk rank : Nat) : Bool :=
  let share := shareBytes (chunkPlan st.slay st.dlay q chunk) st.slay.efmt rank
  let has := fun (bs : List Byte) => decide (share ≤ bs.length)
  if st.isLocal r chunk rank then (st.partnerOf r rank).any LxStep.acts
  else
    !(st.received chunk none).isEmpty || has ((st.received chunk (some rank)).flatMap (·.bytes)) ||
      match (m.atolls[Sparse.get 0 st.reducer chunk - 144]?) with
      | some a => decide (144 ≤ Sparse.get 0 st.reducer chunk) && a.reductions.any fun x =>
          x.stepid == st.stepid.toNat && x.dest == q && x.chunk == chunk && x.attempt == st.attempt && has (x.given rank)
      | none => false

/-- Participants that owe a contribution to a chunk whose bit is clear. -/
def owing (r : Run) (m : Mgmt) (st : LxStep) : List (Nat × Nat) :=
  match st.destRank r with
  | none => []
  | some q =>
    (((List.range (st.nchunk r)).filter fun c => !st.bits.contains c).flatMap fun c =>
      ((chunkRanks (chunkPlan st.slay st.dlay q c) st.slay).filter fun p => !contributed r m st q c p).filterMap fun p => st.slay.parts[p]?).eraseDups

/-- Puts participants in order of their ranks. -/
def insertRank (st : LxStep) (p : Nat × Nat) : List (Nat × Nat) → List (Nat × Nat)
  | [] => [p]
  | x :: t => if st.lateRank p < st.lateRank x then p :: x :: t else x :: insertRank st p t
def byRank (st : LxStep) (ps : List (Nat × Nat)) : List (Nat × Nat) := ps.foldl (fun acc p => insertRank st p acc) []

/-- The first of the sets of R485 that is not empty, with its category. DEDUCED, log 93. -/
def lateSet (r : Run) (m : Mgmt) (st : LxStep) : Option (Nat × List (Nat × Nat)) :=
  let me := st.me r
  let sets := [st.everyone.filter fun p => p != me && !st.digests.contains p, owing r m st,
    st.everyone.filter fun p => if p = me then !st.chunksDone r else !st.doneBy.contains p]
  ((List.range 3).zip sets).findSome? fun e => if e.2.isEmpty then none else some (e.1 + 1, byRank st e.2)

/-- The earliest step accepted on an LXE that is RUNNING. -/
def earliestStep (r : Run) (die : Nat) : Option LxStep :=
  (r.steps.filter fun st => st.die == die && st.status == 1).foldl (fun acc st =>
    match acc with
    | none => some st
    | some b => if st.accepted.toNat < b.accepted.toNat || (st.accepted == b.accepted && decide (st.order < b.order)) then some st else some b) none

/-- An overdue step, the step its late participant is taken from, the category and that participant. DEDUCED, log 93. -/
def overdue (r : Run) (m : Mgmt) (die : Nat) (stepid : W32) : Option (LxStep × LxStep × Nat × (Nat × Nat)) :=
  (findStep r die stepid).bind fun st =>
    if st.status == 1 && !st.recordHeld && st.deadline != 0 && !st.watched && decide (st.accepted.toNat + st.deadline.toNat < (r.now die).toNat) then
      (earliestStep r die).bind fun e => (lateSet r m e).bind fun x => x.2.head?.map fun p => (st, e, x.1, p)
    else none

def overdueAct (m : Mgmt) (die : Nat) (stepid : W32) (r : Run) : Run :=
  match overdue r m die stepid with
  | none => r
  | some (st, e, cat, p) =>
    let rank := e.lateRank p % 2 ^ 16
    let r := lxPut r die stepid 24 (leBytes 8 (2 ^ 63 + p.1 * 2 ^ 40 + p.2 * 2 ^ 32 + rank))
    let other := bit (e.stepid != st.stepid)
    if (findStep r die stepid).any LxStep.recordHeld then r
    else emit' (updStep r die stepid fun st => { st with watched := true }) (lxeUnit die) 0x0019 (rank + p.1 * 2 ^ 16 + p.2 * 2 ^ 24 + cat * 2 ^ 29 + other * 2 ^ 31) st.startEvent

def execStepOverdue (die stepid : Nat) (s : State) : Host.Outcome State Fault Refusal :=
  rowRun (overdue s.run s.mgmt die (w32 stepid)).isSome s (overdueAct s.mgmt die (w32 stepid))

/-! Suspension by a queue (15 R398). -/

/-- A step's part stops: STATUS becomes SUSPENDED. -/
def suspendStep (r : Run) (die : Nat) (stepid : W32) : Run :=
  lxShow (updStep r die stepid fun st => { st with status := 3 }) die stepid

end Sys2Proof.Machine
end

