-- ==== Sys2Proof/Machine/Wire.lean ====
section
/-! DEFINITION. The Strait ports (18 R456 to R459, R462, R465): receiving and replaying flits, heartbeats, lanes and widths, silence, and the
requests that are sent again. -/
namespace Sys2Proof.Machine

/-! Notices that an Atoll floods, and what it has for this device (R468, R469). -/

/-- A packet on all UP ports of an Atoll. DESIGN CHOICE, log 118. -/
def Atoll.flood (x : Atoll) (self : Nat) (now : W64) (p : Packet) : Atoll := (x.send self self now p).send self 255 now p

def noticeSubject (p : Packet) : Nat := fld p.offset 63 56
def noticeKey (p : Packet) : Nat × Nat × Nat × Nat := (p.type, p.src, noticeSubject p, p.tag)

/-- A notice that an Atoll originates. -/
def Atoll.notice (x : Atoll) (a type subject inc : Nat) : Packet × Atoll :=
  let p : Packet := { type, src := 144 + a, dst := 255, inc, offset := w64 (subject * 2 ^ 56 + (if type = 0x20 then a * 2 ^ 48 else 0)), tag := x.nseq % 65536 }
  (p, { x with nseq := x.nseq + 1, seen := x.seen ++ [noticeKey p] })

/-- The synthesised reply to a request towards a dead device (R468). DEDUCED, log 116. -/
def deadReply (a : Nat) (q : Packet) : Packet :=
  { type := q.type + 3, src := 144 + a, dst := q.src, inc := q.inc, win := q.win, size := q.size, status := 2, causal := q.causal, offset := q.offset
    tag := q.tag, route := a, data := if q.type = 2 then [] else List.replicate 32 0 }

/-- An Atoll isolates a port, and floods PORTDOWN (R468). -/
def Atoll.cutPort (x : Atoll) (a self m : Nat) (now : W64) : Atoll :=
  let inc := (x.port m).incarn
  let x := x.updPort m fun q => { q with up := false, queue := [] }
  let (p, x) := x.notice a 0x20 m inc
  x.flood self now p

/-- An Atoll finds a device DEAD: its port is isolated, its packets are discarded, requests towards it are answered (R468). DEDUCED, log 116. -/
def Atoll.findDead (x : Atoll) (a self m : Nat) (now : W64) : Atoll :=
  let x := if (x.port m).up then x.cutPort a self m now else x
  let x := x.updPort m fun q => { q with dead := true, queue := [] }
  let keep := fun (q : AtollPort) => { q with queue := q.queue.filter fun e => e.1.src != m }
  let x : Atoll := { x with ports := x.ports.map keep }
  let lost := x.forwarded.filter fun q => q.dst == m
  let x := lost.foldl (fun (x : Atoll) (q : Packet) => x.send self q.src now (deadReply a q)) x
  { x with forwarded := x.forwarded.filter fun q => q.dst != m }

/-- The first to find it floods DEATH. -/
def Atoll.announceDeath (x : Atoll) (a self m : Nat) (now : W64) : Atoll :=
  if (x.port m).dead then x
  else
    let inc := (x.port m).incarn
    let (p, x) := (x.findDead a self m now).notice a 0x21 m inc
    x.flood self now p

/-- An Atoll learns that one isolated a device's port; with all 72 the device is dead. -/
def Atoll.countIsolated (x : Atoll) (a self m by_ : Nat) (now : W64) : Atoll :=
  let x := x.updPort m fun q => { q with isolated := if q.isolated.contains by_ then q.isolated else q.isolated ++ [by_] }
  if Config.ports ≤ (x.port m).isolated.length then x.announceDeath a self m now else x

/-- An Atoll isolates a port, and counts its own notice. -/
def Atoll.isolate (x : Atoll) (a self m : Nat) (now : W64) : Atoll :=
  if (x.port m).up then (x.cutPort a self m now).countIsolated a self m a now else x

/-! States of a port (R459, R462). -/

def stateCode : PortState → Nat
  | .down => 0 | .training => 1 | .up => 2 | .isolated => 3

/-- A LINK event with a port's new width and state. -/
def linkEvent (s : Run × Mgmt) (a : Nat) : Run × Mgmt :=
  let p := s.2.port a
  (emit' s.1 (portUnit a) 0x0030 (p.width + stateCode p.state * 16) 0, s.2)

/-- A port that no longer carries packets: its flits are gone, its Atoll isolates the other end, and chunks that its loss may have cost are pulled
again (R467). DEDUCED, log 122. -/
def losePort (s : Run × Mgmt) (a : Nat) (st : PortState) : Run × Mgmt :=
  let self := s.1.devid.toNat
  let now := portNow s.1 a
  let m := s.2.updPort a fun p =>
    { p with state := st, width := 3, buffer := [], unsent := [], wire := [], partial_ := [], partialFlits := [], wantWidth := none
             retraining := none, mustReplay := false, nakSent := false, badRun := 0, freed := [], credits := [], refused := none }
  let m := m.updAtoll a fun x => x.isolate a self self now
  let (r, m) := linkEvent (s.1, m) a
  (pullAgain r m, m)

/-! Lanes and widths (R459). -/

/-- Retraining begins: what the receiver holds from the first flit of the oldest packet that it was receiving is discarded. DEDUCED, log 120. -/
def Port.retrain (p : Port) (now : W64) : Port :=
  let n := p.partialFlits.foldl (fun n e => max n e.2) 0
  { p with retraining := some now, lastSeq := (p.lastSeq + 4096 - n % 4096) % 4096, partial_ := [], partialFlits := [], wantWidth := none, badRun := 0 }

/-- DESIGN CHOICE, log 121. -/
def laneFailDue (m : Mgmt) (a lane : Nat) : Bool :=
  decide (a < Config.ports) && decide (lane < 8) && (m.port a).sends && (m.port a).laneok.getLsbD lane

def laneFailAct (a lane : Nat) (s : Run × Mgmt) : Run × Mgmt :=
  let old := s.2.port a
  let laneok := old.laneok &&& ~~~(1#8 <<< lane)
  let inUse := (trainedSet old.laneok old.width).any fun x => x.contains lane
  let m := s.2.updPort a fun p => { p with laneok }
  if !inUse then (s.1, m)
  else if (bestWidth laneok old.reqw).isNone then losePort (s.1, m) a .down
  else (s.1, m.updPort a fun p => p.retrain (portNow s.1 a))

def execLaneFail (port lane : Nat) (s : State) : Host.Outcome State Fault Refusal :=
  rowBoth (laneFailDue s.mgmt port lane) s (laneFailAct port lane)

def retrainTimeoutDue (r : Run) (m : Mgmt) (a : Nat) : Bool := decide (a < Config.ports) && (m.port a).retraining.any fun t => passed r a t ticks4us

def execRetrainTimeout (port : Nat) (s : State) : Host.Outcome State Fault Refusal :=
  rowBoth (retrainTimeoutDue s.run s.mgmt port) s fun x => losePort x port .down

/-- Training at bring-up, or forced retraining, that ends with the lanes that pass. -/
def retrainCompleteDue (m : Mgmt) (a : Nat) (_laneok : Byte) : Bool :=
  decide (a < Config.ports) && ((m.port a).retraining.isSome || ((m.port a).state == .training && (m.port a).width == 3))

/-- The width that it gives; with no passing set the port goes DOWN (R459). A port in bring-up then sends JOIN (R470), another sends again what was not
acknowledged. -/
def retrainCompleteAct (a : Nat) (laneok : Byte) (s : Run × Mgmt) : Run × Mgmt :=
  let old := s.2.port a
  let now := portNow s.1 a
  match bestWidth laneok old.reqw with
  | none => losePort (s.1, s.2.updPort a fun p => { p with laneok }) a .down
  | some width =>
    let m := s.2.updPort a fun p => { p with laneok, width, retraining := none, lastRx := now, mustReplay := !p.buffer.isEmpty }
    let m := if old.state = .training && old.retraining.isNone then m.updPort a fun p => p.enqueue (joinPacket s.1 a) else m
    linkEvent (s.1, m) a

def execRetrainComplete (port : Nat) (laneok : Byte) (s : State) : Host.Outcome State Fault Refusal :=
  rowBoth (retrainCompleteDue s.mgmt port laneok) s (retrainCompleteAct port laneok)

/-- A write of REQW (R462): the change waits for a packet to begin. -/
def reqwAct (a : Nat) (width : Nat) (m : Mgmt) : Mgmt :=
  m.updPort a fun p =>
    let new := bestWidth p.laneok width
    { p with reqw := width, wantWidth := if p.sends && new != some p.width then new else none }

def execReqw (port : Nat) (width : BitVec 2) (s : State) : Host.Outcome State Fault Refusal :=
  rowServed (decide (port < Config.ports) && width != 3) s fun x => (x.1, reqwAct port width.toNat x.2)

def widthChangeDue (m : Mgmt) (a : Nat) : Bool :=
  let p := m.port a
  decide (a < Config.ports) && p.wantWidth.isSome && p.sends && (p.unsent.head?).all (·.first)

def widthChangeAct (a : Nat) (s : Run × Mgmt) : Run × Mgmt :=
  linkEvent (s.1, s.2.updPort a fun p => { p with width := p.wantWidth.getD p.width, wantWidth := none }) a

def execWidthChange (port : Nat) (s : State) : Host.Outcome State Fault Refusal := rowBoth (widthChangeDue s.mgmt port) s (widthChangeAct port)

/-- A trained port that gets no flit for 10 µs is silent, and isolated (R462). DEDUCED, log 122. -/
def silentDue (r : Run) (m : Mgmt) (a : Nat) : Bool :=
  decide (a < Config.ports) && (m.port a).sends && passed r a (m.port a).lastRx ticks10us

def execPortSilent (port : Nat) (s : State) : Host.Outcome State Fault Refusal :=
  rowBoth (silentDue s.run s.mgmt port) s fun x => losePort x port .isolated

/-! Flits (R456, R458). -/

/-- Packets at the front of a class stream, and what is left of it. -/
def cutPackets (fuel : Nat) (ss : List (List Byte)) : List Packet × List (List Byte) :=
  match fuel, ss with
  | fuel + 1, head :: rest =>
    let n := slotCount head
    if rest.length < n then ([], ss)
    else
      let (ps, left) := cutPackets fuel (rest.drop n)
      (packetOf head (rest.take n).flatten :: ps, left)
  | _, _ => ([], ss)

/-- Drops what an ACKSEQ covers. -/
def ackedRest (buffer : List Flit) (ack : Nat) : List Flit :=
  match buffer.findIdx? fun f => f.seq == ack with
  | some i => buffer.drop (i + 1)
  | none => buffer

/-- A flit that is not accepted: NAK is sent once. -/
def Port.refuse (p : Port) : Port := if p.nakSent then p else ({ p with nakSent := true }).sendIdle true

/-- An accepted flit's slots join their class stream; whole packets are received. A partial packet counts the flits from its first one on, those of other
classes among them (R459). DEDUCED, log 119. -/
def Port.accept (p : Port) (now : W64) (h : FlitHead) (slots : List (List Byte)) : Port :=
  let old := Sparse.get [] p.partial_ h.cls
  let (ps, left) := cutPackets 64 (old ++ slots)
  let flits : Sparse Nat := p.partialFlits.map fun e => (e.1, e.2 + 1)
  { p with lastSeq := h.seq, nakSent := false, partial_ := if left.isEmpty then p.partial_.del h.cls else p.partial_.put h.cls left
           partialFlits := if left.isEmpty then flits.del h.cls else if old.isEmpty || !ps.isEmpty then flits.put h.cls 1 else flits
           inbox := p.inbox ++ (ps.filter fun q => (typeClass q.type).isSome).map fun q => (q, now) }

/-- The credits that a flit returns (R456). DEDUCED, log 157. -/
def Port.credit (p : Port) (h : FlitHead) : Port :=
  { p with credits := Sparse.set 0 p.credits h.crclass (Sparse.get 0 p.credits h.crclass + h.credits) }

/-- A flit arrives (R458). An IDLE flit takes no sequence number. DEDUCED, log 120. -/
def Port.receive (p : Port) (now : W64) (wire : List Byte) : Port :=
  match (bodyOf wire).bind flitOf with
  | none => { p.refuse with badRun := p.badRun + 1 }
  | some (h, slots) =>
    let p := { p with badRun := 0 }
    let next := h.seq == (p.lastSeq + 1) % 4096
    if h.cls != 0 && !next then p.refuse
    else
      let p := { p with buffer := ackedRest p.buffer h.ack, mustReplay := p.mustReplay || h.nak, lastRx := now }.credit h
      if h.cls = 0 then p else p.accept now h slots

def flitDue (m : Mgmt) (a : Nat) (wire : List Byte) : Bool := decide (a < Config.ports) && (m.port a).sends && wire.length == 256

/-- With the sixteenth flit in a row that must be NAKed a lane of the trained set fails; which one is free (R459). DEDUCED, log 120. -/
def flitAct (a : Nat) (wire : List Byte) (x : Run × Mgmt) : Run × Mgmt :=
  let m := x.2.updPort a fun p => p.receive (portNow x.1 a) wire
  let p := m.port a
  if p.badRun < 16 then (x.1, m)
  else
    let lanes := (trainedSet p.laneok p.width).getD [0]
    laneFailAct a (nthD 0 lanes (Config.freeChoice x.1.fresh % max lanes.length 1)) (x.1.newFree.2, m.updPort a fun p => { p with badRun := 0 })

def execFlitReceive (port : Nat) (wire : List Byte) (s : State) : Host.Outcome State Fault Refusal :=
  rowBoth (flitDue s.mgmt port wire) s (flitAct port wire)

def replayDue (m : Mgmt) (a : Nat) : Bool := decide (a < Config.ports) && (m.port a).sends && (m.port a).mustReplay

/-- Every unacknowledged flit is sent again, in order. DEDUCED, log 120. -/
def Port.replay (p : Port) (now : W64) : Port :=
  { p with wire := p.wire ++ p.buffer, mustReplay := false, lastTx := now
           replays := min (p.replays + p.buffer.length) 0xFFFFFFFF }

def execReplay (port : Nat) (s : State) : Host.Outcome State Fault Refusal :=
  rowBoth (replayDue s.mgmt port) s fun x => (x.1, x.2.updPort port fun p => p.replay (portNow x.1 port))

def heartbeatDue (r : Run) (m : Mgmt) (a : Nat) : Bool :=
  decide (a < Config.ports) && (m.port a).sends && passed r a (m.port a).lastTx ticks1us

def execHeartbeat (port : Nat) (s : State) : Host.Outcome State Fault Refusal :=
  rowBoth (heartbeatDue s.run s.mgmt port) s fun x =>
    (x.1, x.2.updPort port fun p => { p.sendIdle false with lastTx := portNow x.1 port })

/-! Requests that are sent again (R465), and packets that an Atoll discards. -/

def sentRequest (r : Run) (dev tag : Nat) : Option Request := r.reqs.find? fun q => q.pkt.dst == dev && q.pkt.tag == tag

/-- A request that has left, whose reply is late, or whose route is no longer usable. -/
def retransmitDue (r : Run) (m : Mgmt) (dev tag : Nat) : Bool :=
  (sentRequest r dev tag).any fun q =>
    !(r.outbox.any fun p => samePacket p q.pkt) &&
      (passed r q.pkt.route q.sent ticks50us ||
        (!(usable m r.devid.toNat dev).contains q.pkt.route && passed r q.pkt.route q.sent ticks25us))

/-- It is sent again with its TAG, or ends where its destination is dead; the fourth time emits an event. -/
def retransmitAct (dev tag : Nat) (s : Run × Mgmt) : Run × Mgmt :=
  match sentRequest s.1 dev tag with
  | none => s
  | some q =>
    if s.2.deadDevs.contains dev then (requestReply s.1 q 2 0 [], s.2)
    else
      let r := s.1.count q.part 4 2 1
      let r := if q.resent = 3 then emit' r (portUnit q.pkt.route) 0x0031 tag q.pkt.causal else r
      ({ r with outbox := r.outbox ++ [q.pkt]
                reqs := r.reqs.map fun x => if samePacket x.pkt q.pkt then { x with resent := x.resent + 1 } else x }, s.2)

def execRetransmit (device tag : Nat) (s : State) : Host.Outcome State Fault Refusal :=
  rowBoth (retransmitDue s.run s.mgmt device tag) s (retransmitAct device tag)

/-- The `index`-th packet that an Atoll holds for this device. -/
def heldPacket (r : Run) (m : Mgmt) (a index : Nat) : Option (Packet × W64) := ((m.atoll a).port r.devid.toNat).queue[index]?

def execAtollDiscard (atoll index : Nat) (s : State) : Host.Outcome State Fault Refusal :=
  rowBoth ((heldPacket s.run s.mgmt atoll index).any fun e => passed s.run atoll e.2 ticks10us) s fun x =>
    (x.1, x.2.updAtoll atoll fun y => y.updPort x.1.devid.toNat fun q => { q with queue := q.queue.eraseIdx index })

end Sys2Proof.Machine
end

