-- ==== Sys2Proof/Machine/Fabric.lean ====
section
/-! DEFINITION. Packets that arrive (18 R460 to R470): requests performed at this device's windows (14 R389), replies, the traffic of layout
exchange, JOIN and its answers, and the notices that are flooded. -/
namespace Sys2Proof.Machine

/-! What is there to arrive. -/

def sameClass (a b : Packet) : Bool := typeClass a.type == typeClass b.type

/-- Whether a packet is the first of its class among some (R463). -/
def firstOf (ps : List Packet) (p : Packet) : Bool := (ps.find? (sameClass p)) == some p

/-- The packets that an Atoll holds for this device. -/
def atollQueue (r : Run) (m : Mgmt) (a : Nat) : List Packet := ((m.atoll a).port r.devid.toNat).queue.map (·.1)

/-- Packets that have not been held too long: for 10 µs by an Atoll, or for 25 µs since they came (R465). -/
def young (r : Run) (a ticks : Nat) (es : List (Packet × W64)) : List Packet := (es.filter fun e => !passed r a e.2 ticks).map (·.1)

/-- The packets that a port has received and that may still be performed. -/
def portInbox (r : Run) (m : Mgmt) (a : Nat) : List Packet := young r a ticks25us (m.port a).inbox

/-- Whether a packet may reach this device through a port now: the port has received it, or its Atoll holds it; each is the first of its class there
(R463). -/
def available (r : Run) (m : Mgmt) (a : Nat) (p : Packet) : Bool :=
  decide (a < Config.ports) && (m.port a).sends &&
    (firstOf (portInbox r m a) p || firstOf (young r a ticks10us ((m.atoll a).port r.devid.toNat).queue) p)

/-- Whether it is the port that has received it. -/
def received (r : Run) (m : Mgmt) (a : Nat) (p : Packet) : Bool := firstOf (portInbox r m a) p

/-- Takes it from where it waits; a port's slots are freed (R456). -/
def takePacket (s : Run × Mgmt) (a : Nat) (p : Packet) : Run × Mgmt :=
  let (r, m) := s
  if received r m a p then
    (r, m.updPort a fun x => Port.free { x with inbox := x.inbox.eraseP fun e => e.1 == p } ((typeClass p.type).getD 0) (packetSlots p).length)
  else (r, m.updAtoll a fun x => x.updPort r.devid.toNat fun q => { q with queue := q.queue.eraseP fun e => e.1 == p })

/-! Requests (R461, R464, 14 R389). -/

def requestRight (p : Packet) : Nat := p.type - 1

/-- The DETAIL of the check that an arriving request fails (14 R389), or its owning partition and its address: INBASE and the offset added,
also where INBASE is no multiple of 65,536. DEDUCED, log 112. DESIGN CHOICE, log 167. -/
def arrivalCheck (r : Run) (die : Nat) (p : Packet) : Except Nat (Nat × W64) × Run :=
  match windowOwner r p.win with
  | none => (.error 2, r)
  | some part =>
    match windowEntry r part die p.win with
    | (none, r) => (.error 2, r)
    | (some e, r) =>
      (if !windowOpen e 62 then .error 2
       else if !windowAdmits e p.src then .error 3
       else if windowSize e < p.offset.toNat + sizeBytes p.size then .error 4
       else if !windowRight e 58 (requestRight p) then .error 5
       else .ok (part, nthD 0 e 2 + p.offset), r)

/-- The types that an arriving atomic may be of: a packet names its sub-operation and its width (R460). DESIGN CHOICE, log 113. -/
def atomTypes (wide : Bool) (aop : Nat) : List Elt :=
  let ints : List Elt := if wide then [.i64, .n64] else [.i32, .n32]
  let floats : List Elt := if wide then [.f64] else [.f32]
  if aop = 0 || aop = 5 || aop = 6 || aop = 7 then ints ++ floats
  else if aop = 8 || aop = 9 then ints.drop 1
  else ints

/-- The type of an atomic: that of this device's own request, or one that its packet allows; which one is free. DESIGN CHOICE, log 113. -/
def atomType (r : Run) (p : Packet) : Elt × Run :=
  let own := if p.src = r.devid.toNat then
      (sentRequest r p.dst p.tag).bind fun q => (r.grp q.group).bind fun g =>
        (g.remotes.find? fun x => x.atom && peerDev x.peer == p.dst && x.lanes.any fun l => l.tag == p.tag).map fun x => tyElt x.f.t
    else none
  match own with
  | some e => (e, r)
  | none =>
    let es := atomTypes (p.size == 3) p.aop
    (nthD .n32 es (Config.freeChoice r.fresh % es.length), r.newFree.2)

/-- Performs a request on the REMOTE path (05 R164): the data of its reply; none where it fails. DEDUCED, log 112. -/
def performRequest (r : Run) (part die : Nat) (va : W64) (p : Packet) : Option (List Byte) × Run :=
  let n := sizeBytes p.size
  let ofs := p.offset.toNat
  let q : Req := { part, die, core := 127, ctx := 0, launchid := 0, pc := 0, super := false, src := 4, kind := requestRight p }
  let failed := fun (e : AccFail × Run) =>
    match e with
    | (.fault f, r) => ((none : Option (List Byte)), faultRecord r q f)
    | (.data c .., r) => (none, countData part c r)
  if p.type = 2 then
    match writeVirt r q va (fromSlot ofs n p.data) with
    | .ok r => (some [], r)
    | .error e => failed e
  else
    match readVirt r q va n with
    | .error e => failed e
    | .ok (old, r) =>
      if p.type = 1 then (some (slotBytes ofs old), r)
      else
        let (e, r) := atomType r p
        let c := leNat ((p.data.drop (if p.aop = 10 then n else 0)).take n)
        let new := if p.aop = 10 then casNew (leNat (p.data.take n)) (leNat old) c else some (atomNew e p.aop (leNat old) c)
        match new with
        | none => (some (slotBytes 0 old), r)
        | some v =>
          match writeVirt r q va (leBytes n v) with
          | .ok r => (some (slotBytes 0 old), r)
          | .error e => failed e

/-- DEDUCED, log 115. -/
def replyTo (r : Run) (p : Packet) (status detail : Nat) (data : List Byte) : Packet :=
  { type := p.type + 3, src := r.devid.toNat, dst := p.src, inc := p.inc, win := p.win, size := p.size, status, detail, causal := p.causal
    offset := p.offset, tag := p.tag, data := if p.type = 2 then [] else if data.isEmpty then List.replicate 32 0 else data }

/-- Whether an ACKTAG passes a tag, in the order of tags modulo 65,536. -/
def ackPasses (ack tag : Nat) : Bool := let d := (ack + 65536 - tag % 65536) % 65536
                                        decide (0 < d) && decide (d < 32768)

/-- Replies that an ACKTAG ends. -/
def dropKept (kept : List (Nat × Nat × Packet)) (p : Packet) : List (Nat × Nat × Packet) :=
  kept.filter fun k => !(k.1 == p.src && k.2.2.inc == p.inc && ackPasses p.acktag k.2.1)

/-- What a well-formed request holds. DESIGN CHOICE, log 114. -/
def requestOk (p : Packet) : Bool :=
  decide (p.size ≤ 4) &&
    (if p.type = 1 then p.data.isEmpty else p.data.length == 32) &&
    (p.type != 3 || ((p.size == 2 || p.size == 3) && decide (p.aop ≤ 10)))

/-- The partition that a request counts for: its window's owner (19 R489). -/
def countArrival (r : Run) (p : Packet) : Run :=
  match windowOwner r p.win with
  | some part => r.count part 4 5 1
  | none => r

/-- A request arrives. One that the port has received has passed its Atoll, which drops and counts what fails its checks (R466). The kept reply of one that
was performed before is sent again; another is checked and performed. A parked port, and a request that is not well-formed, are answered with DETAIL 6
(20 R503). DEDUCED, log 115. DESIGN CHOICE, log 114. -/
def requestAct (a : Nat) (p : Packet) (s : Run × Mgmt) : Run × Mgmt :=
  let came := received s.1 s.2 a p
  let (r, m) := takePacket s a p
  if came && !atollChecks (m.atoll a) p.src p then (r, m.updAtoll a fun x => x.drop p.src)
  else
    let die := a / 3
    let r := sketchAdd (countArrival r p) (portUnit a) 0 (32 * (packetSlots p).length)
    let send := fun (r : Run) (q : Packet) => { r with outbox := r.outbox ++ [q] }
    let m := { m with kept := dropKept m.kept p }
    match m.kept.find? fun k => k.1 == p.src && k.2.1 == p.tag && k.2.2.inc == p.inc with
    | some k => (send r k.2.2, m)
    | none =>
      if (r.die die).parkedPorts then (send r (replyTo r p 1 6 []), m)
      else
        let (reply, r) :=
          if !requestOk p then (replyTo r p 1 6 [], r)
          else
            match arrivalCheck r die p with
            | (.error d, r) => (replyTo r p 1 d [], r)
            | (.ok (part, va), r) =>
              let (data, r) := performRequest r part die va p
              (match data with | some bs => replyTo r p 0 0 bs | none => replyTo r p 1 6 [], r)
        (send r reply, { m with kept := m.kept ++ [(p.src, p.tag, reply)] })

def requestDue (s : State) (a type : Nat) (p : Packet) : Bool :=
  p.type == type && p.dst == s.run.devid.toNat && available s.run s.mgmt a p

def execRdReq (port : Nat) (pkt : Packet) (s : State) : Host.Outcome State Fault Refusal :=
  rowBoth (requestDue s port 1 pkt) s (requestAct port pkt)

def execWrReq (port : Nat) (pkt : Packet) (s : State) : Host.Outcome State Fault Refusal :=
  rowBoth (requestDue s port 2 pkt) s (requestAct port pkt)

def execAtReq (port : Nat) (pkt : Packet) (s : State) : Host.Outcome State Fault Refusal :=
  rowBoth (requestDue s port 3 pkt) s (requestAct port pkt)

/-! Replies. -/

/-- A reply arrives: one of an old incarnation is discarded and counted (R470), one that nothing awaits is discarded (R468). -/
def replyAct (a : Nat) (p : Packet) (s : Run × Mgmt) : Run × Mgmt :=
  let came := received s.1 s.2 a p
  let (r, m) := takePacket s a p
  if came && decide (p.src < 144) && !atollChecks (m.atoll a) p.src p then (r, m.updAtoll a fun x => x.drop p.src)
  else if p.inc ≠ r.incarn.toNat then (r, m.updPort a fun x => { x with stalerep := min (x.stalerep + 1) 0xFFFFFFFF })
  else
    let m := m.updAtoll a fun x => { x with forwarded := x.forwarded.filter fun q => !(q.src == p.dst && q.tag == p.tag && q.type + 3 == p.type && q.inc == p.inc) }
    match r.reqs.find? fun q => q.pkt.tag == p.tag && q.pkt.type + 3 == p.type && (q.pkt.dst == p.src || (144 ≤ p.src && p.status == 2)) with
    | none => (r, m)
    | some q =>
      let r := { r with outbox := r.outbox.filter fun x => !samePacket x q.pkt }
      let r := sketchAdd r (portUnit a) q.kern (32 * (packetSlots p).length)
      (requestReply r q p.status p.detail p.data, m)

def replyDue (s : State) (a type : Nat) (p : Packet) : Bool :=
  p.type == type && decide (p.status ≤ 2) && p.dst == s.run.devid.toNat && available s.run s.mgmt a p

def execRdrep (port : Nat) (pkt : Packet) (s : State) : Host.Outcome State Fault Refusal :=
  rowBoth (replyDue s port 4 pkt) s (replyAct port pkt)

def execWrack (port : Nat) (pkt : Packet) (s : State) : Host.Outcome State Fault Refusal :=
  rowBoth (replyDue s port 5 pkt) s (replyAct port pkt)

def execAtrep (port : Nat) (pkt : Packet) (s : State) : Host.Outcome State Fault Refusal :=
  rowBoth (replyDue s port 6 pkt) s (replyAct port pkt)

/-! Layout exchange (R467). -/

def lxStepid (p : Packet) : W32 := w32 (fld p.offset 63 32)
def lxChunk (p : Packet) : Nat := fld p.offset 31 0

/-- The step of this device whose source participant a pull names. -/
def pulledStep (r : Run) (p : Packet) : Option LxStep :=
  r.steps.find? fun st => st.stepid == lxStepid p && st.status != 2 && (st.slay.parts[p.rank]?) == some (st.me r)

/-- The step of this device that a contribution or a result is for. -/
def destStep (r : Run) (p : Packet) : Option LxStep :=
  r.steps.find? fun st => st.stepid == lxStepid p && st.status == 1 && st.destRank r == some p.tag

/-- Cuts bytes into packets of at most eight whole slots, each with its place. -/
def numbered (pkt : Nat → List Byte → Packet) (bs : List Byte) : List Packet :=
  let parts := chunksOf (bs.length / 256 + 1) 256 bs
  ((List.range parts.length).zip parts).map fun e => pkt e.1 (e.2 ++ List.replicate ((32 - e.2.length % 32) % 32) 0)

/-- What a pull gives: the contribution in packets of at most eight slots, or a page to wait for, or a failure. DEDUCED, log 85. -/
def lxShare (r : Run) (st : LxStep) (p : Packet) : Except LxTried (List Packet × Run) :=
  let plan := chunkPlan st.slay st.dlay p.tag (lxChunk p)
  (readShare { r with accPc := st.pc } st plan p.rank).map fun x =>
    (numbered (fun i bs => { p with type := 9, src := x.2.devid.toNat, dst := p.win, inc := x.2.incarn.toNat, win := i, data := bs }) x.1, x.2)

/-- A pull reaches a contributor. One that waits for a page keeps the pull; one whose step is over drops it. DEDUCED, log 92. -/
def pullAct (a : Nat) (p : Packet) (s : Run × Mgmt) : Run × Mgmt :=
  match pulledStep s.1 p with
  | none => takePacket s a p
  | some st =>
    match lxShare s.1 st p with
    | .ok (ps, r) =>
      let (r, m) := takePacket (r, s.2) a p
      ({ r with outbox := r.outbox ++ ps }, m)
    | .error (.waits d q f r) => (holdStep r d st.stepid p.tag (lxChunk p) q f, s.2)
    | .error (.fails d _ r) =>
      let (r, m) := takePacket (r, s.2) a p
      (lxEnd r d st.stepid 4, m)
    | .error (.ready _ r) => (r, s.2)

/-- A contribution, or a reduced chunk with its conditions, reaches its destination participant; one of another attempt is discarded, and each packet is
taken once (R467). WIN has the place of a packet in its contribution. DEDUCED, log 85. -/
def contributionAct (a : Nat) (rank : Option Nat) (p : Packet) (s : Run × Mgmt) : Run × Mgmt :=
  let (r, m) := takePacket s a p
  match destStep r p with
  | none => (r, m)
  | some st =>
    if st.attempt ≠ p.attempt || st.bits.contains (lxChunk p) then (r, m)
    else (updStep r st.die st.stepid fun st =>
      { st with got := addPart { chunk := lxChunk p, rank, piece := p.win, bytes := p.data, flags := p.detail } st.got }, m)

/-! At an Atoll. -/

/-- Bytes of an Atoll's reduction store (R467). -/
def reductionStore : Nat := 2 ^ 28
def storedBytes (x : Atoll) : Nat := x.reductions.foldl (fun n y => n + y.size) 0

/-- Bytes of an element's accumulator: the fixed point of a sum, and the element itself for MIN and MAX (R467). DEDUCED, log 123. -/
def accumulatorBytes (op efmt : Nat) : Nat :=
  if op = 1 then (if efmt = 4 || efmt = 6 then 40 else 8) else elemSize efmt

/-- The entry that a contribution belongs to; those of lower attempts are discarded. None where a later attempt has begun. -/
def reductionFor (x : Atoll) (p : Packet) (bytes : Nat) : Option (Reduction × Atoll) :=
  let stepid := (lxStepid p).toNat
  let mine := fun (y : Reduction) => y.stepid == stepid && y.dest == p.tag && y.chunk == lxChunk p
  if x.reductions.any fun y => mine y && decide (p.attempt < y.attempt) then none
  else
    let x := { x with reductions := x.reductions.filter fun y => !(mine y && decide (y.attempt < p.attempt)) }
    let full := decide (reductionStore < storedBytes x + bytes)
    let fresh : Reduction :=
      { stepid, dest := p.tag, chunk := lxChunk p, attempt := p.attempt, got := [], size := if full then 0 else bytes, forward := full }
    let y := (x.reductions.find? mine).getD fresh
    some (y, { x with reductions := x.reductions.filter fun z => !mine z })

/-- A contribution reaches the Atoll that reduces for a participant of this device. DEDUCED, log 123. -/
def reduceAt (r : Run) (a : Nat) (st : LxStep) (p : Packet) (x : Atoll) : Atoll :=
  let self := r.devid.toNat
  let now := portNow r a
  let plan := chunkPlan st.slay st.dlay p.tag (lxChunk p)
  let ranks := chunkRanks plan st.slay
  match reductionFor x p (plan.length * accumulatorBytes st.op st.slay.efmt) with
  | none => x
  | some (y, x) =>
    let share := shareBytes plan st.slay.efmt p.rank
    let key := 256 * p.rank + p.win % 256
    if y.forward then { x with reductions := x.reductions ++ [y] }.send self self now { p with dst := self }
    else
      let y := if (y.got.find key).isNone then { y with got := y.got.put key (p.data.take (share - 256 * (p.win % 256))) } else y
      let given := y.given
      if ranks.all fun k => decide (shareBytes plan st.slay.efmt k ≤ (given k).length) then
        let (bs, flags) := assemble st.op st.slay.efmt plan given
        let pkt := fun (i : Nat) (bs : List Byte) =>
          ({ p with type := 10, src := 144 + a, dst := self, win := i, rank := 0, detail := flags, route := a, acktag := 0, data := bs } : Packet)
        (numbered pkt bs).foldl (fun (x : Atoll) p => x.send self self now p) x
      else { x with reductions := x.reductions ++ [y] }

/-- A packet of an exchange reaches an Atoll: it is dropped by R466, reduced there, or forwarded. DEDUCED, log 123. -/
def lxAtAtoll (r : Run) (a port : Nat) (p : Packet) (x : Atoll) : Atoll :=
  let self := r.devid.toNat
  let now := portNow r a
  if !atollChecks x port p then x.drop port
  else if p.dst ≠ 144 + a then x.send self p.dst now p
  else
    match destStep r p with
    | some st => reduceAt r a st p x
    | none =>
      match (r.steps.find? fun st => st.stepid == lxStepid p).bind fun st => st.dlay.parts[p.tag]? with
      | some q => if q.1 = self then x else x.send self q.1 now p
      | none => x

/-- Whether a packet may reach a party of an exchange now: an Atoll gets of this device what it has sent. DEDUCED, log 123. -/
def lxDue (s : State) (party : Party) (type : Nat) (p : Packet) : Bool :=
  p.type == type && decide (p.data.length ≤ 256) && p.data.length % 32 == 0 &&
    match party with
    | .device a => p.dst == s.run.devid.toNat && available s.run s.mgmt a p
    | .atoll a m => decide (a < Config.ports) && decide (m < Config.devices) &&
        (m != s.run.devid.toNat || firstOf (s.mgmt.atoll a).inbound p)

/-- DEDUCED, log 85. -/
def lxPacket (party : Party) (p : Packet) (device : Nat → Run × Mgmt → Run × Mgmt) (s : Run × Mgmt) : Run × Mgmt :=
  match party with
  | .device a => device a s
  | .atoll a m => (s.1, s.2.updAtoll a fun x =>
      lxAtAtoll s.1 a m p (if m = s.1.devid.toNat then { x with inbound := x.inbound.erase p } else x))

def execLxpull (party : Party) (pkt : Packet) (s : State) : Host.Outcome State Fault Refusal :=
  rowBoth (lxDue s party 8 pkt && pkt.data.isEmpty &&
      (match party with | .device _ => (pulledStep s.run pkt).all fun st => !st.active || (st.acts && !st.chunkHeld pkt.tag (lxChunk pkt)) | .atoll .. => true)) s
    (lxPacket party pkt fun a => pullAct a pkt)

def execLxdata (party : Party) (pkt : Packet) (s : State) : Host.Outcome State Fault Refusal :=
  rowBoth (lxDue s party 9 pkt) s (lxPacket party pkt fun a => contributionAct a (some pkt.rank) pkt)

/-- An Atoll sends a reduced chunk to its own port, so that no Atoll receives one. -/
def execLxres (party : Party) (pkt : Packet) (s : State) : Host.Outcome State Fault Refusal :=
  rowBoth (lxDue s party 10 pkt && (match party with | .device _ => true | .atoll .. => false)) s
    (lxPacket party pkt fun a => contributionAct a none pkt)

/-! JOIN (R469, R470). -/

/-- What an Atoll makes of a JOIN: a refusal of a wrong source or of a port that is not DEAD, else an acceptance, of which all learn. -/
def joinAct (atoll port : Nat) (pkt : Packet) (s : Run × Mgmt) : Run × Mgmt :=
  let self := s.1.devid.toNat
  let now := portNow s.1 atoll
  let answer : Packet := { type := 0x26, src := 144 + atoll, dst := pkt.src, inc := pkt.inc }
  (s.1, s.2.updAtoll atoll fun y =>
    let direct := fun (y : Atoll) (p : Packet) =>
      if port = self then y.updPort self fun q => { q with queue := q.queue ++ [(p, now)] } else { y with out := y.out ++ [(port, p)] }
    if pkt.src ≠ port then direct y { answer with offset := 2 }
    else if !(y.port port).dead then direct y { answer with offset := 1 }
    else
      let y := y.updPort port fun q => { q with up := true, dead := false, incarn := pkt.inc, isolated := [] }
      let y := direct y { answer with type := 0x25 }
      let (p, y) := y.notice atoll 0x22 port pkt.inc
      y.flood self now p)

def execJoin (atoll port : Nat) (pkt : Packet) (s : State) : Host.Outcome State Fault Refusal :=
  rowBoth (pkt.type == 0x1E && decide (atoll < Config.ports) && decide (port < Config.devices)) s (joinAct atoll port pkt)

/-- An Atoll's acceptance: its port is UP in this device's view. -/
def joinackAct (port : Nat) (pkt : Packet) (s : Run × Mgmt) : Run × Mgmt :=
  let (r, m) := takePacket s port pkt
  if pkt.inc = r.incarn.toNat && (m.port port).state == .training then linkEvent (r, m.updPort port fun p => { p with state := .up, refused := none }) port
  else (r, m)

def execJoinack (port : Nat) (pkt : Packet) (s : State) : Host.Outcome State Fault Refusal :=
  rowBoth (pkt.type == 0x25 && available s.run s.mgmt port pkt) s (joinackAct port pkt)

/-- A refusal: JOIN is sent again 10 µs later (R470). DEDUCED, log 122. -/
def joinrefuseAct (port : Nat) (pkt : Packet) (s : Run × Mgmt) : Run × Mgmt :=
  let (r, m) := takePacket s port pkt
  (r, if pkt.inc = r.incarn.toNat && (m.port port).state == .training then m.updPort port fun p => { p with refused := some (portNow r port) } else m)

def execJoinrefuse (port : Nat) (pkt : Packet) (s : State) : Host.Outcome State Fault Refusal :=
  rowBoth (pkt.type == 0x26 && available s.run s.mgmt port pkt) s (joinrefuseAct port pkt)

/-- A DOWN flit from a device: it is DEAD at the Atoll (R468). -/
def downAct (atoll port : Nat) (pkt : Packet) (s : Run × Mgmt) : Run × Mgmt :=
  let self := s.1.devid.toNat
  let now := portNow s.1 atoll
  (s.1, s.2.updAtoll atoll fun y =>
    if pkt.src == port && pkt.inc == (y.port port).incarn then (y.isolate atoll self port now).announceDeath atoll self port now
    else y.drop port)

def execDown (atoll port : Nat) (pkt : Packet) (s : State) : Host.Outcome State Fault Refusal :=
  rowBoth (pkt.type == 0x1F && decide (atoll < Config.ports) && decide (port < Config.devices)) s (downAct atoll port pkt)

/-! Notices (R468, R469). -/

/-- What a notice does at an Atoll, beside going on. -/
def atollNotice (a self : Nat) (now : W64) (p : Packet) (x : Atoll) : Atoll :=
  let m := noticeSubject p
  match p.type with
  | 0x20 => x.countIsolated a self m (fld p.offset 55 48) now
  | 0x21 => if (x.port m).dead || (x.port m).incarn != p.inc then x else x.findDead a self m now
  | _ => x

/-- Ends what awaits retransmission towards a dead device (R468): what has not left, and what left 25 µs ago. DEDUCED, log 116. -/
def endRequests (s : Run × Mgmt) (dev : Nat) : Run × Mgmt :=
  let r := s.1
  let ends := r.reqs.filter fun q => q.pkt.dst == dev &&
    (r.outbox.any (fun p => samePacket p q.pkt) || passed r q.pkt.route q.sent ticks25us)
  let r := { r with outbox := r.outbox.filter fun p => p.dst != dev }
  (ends.foldl (fun r q => requestReply r q 2 0 []) r, s.2)

def noticeAtolls (p : Packet) : List (Nat × Nat) :=
  [fld p.offset 55 48, fld p.offset 47 40, fld p.offset 39 32].map fun a => (noticeSubject p, a)

/-- What a notice does at this device. DEDUCED, log 117. -/
def deviceNotice (a : Nat) (p : Packet) (s : Run × Mgmt) : Run × Mgmt :=
  let (r, m) := s
  let d := noticeSubject p
  let peer := d + p.inc % 256 * 2 ^ 8
  match p.type with
  | 0x20 =>
    let m := { m with portsDown := m.portsDown ++ [(d, fld p.offset 55 48)] }
    (pullAgain r m, m)
  | 0x21 =>
    if d = r.devid.toNat then s
    else endRequests (emit' r (portUnit a) 0x0032 peer 0,
      { m with deadDevs := if m.deadDevs.contains d then m.deadDevs else m.deadDevs ++ [d], kept := m.kept.filter fun k => k.1 != d }) d
  | 0x22 =>
    if d = r.devid.toNat then s
    else (emit' r (portUnit a) 0x0033 peer 0,
      { m with deadDevs := m.deadDevs.filter (· != d)
               portsDown := m.portsDown.filter fun x => x.1 != d, parked := m.parked.filter fun x => x.1 != d })
  | 0x23 =>
    let m := { m with parked := m.parked ++ (noticeAtolls p).filter fun x => !m.parked.contains x }
    (pullAgain r m, m)
  | _ => (r, { m with parked := m.parked.filter fun x => !(noticeAtolls p).contains x })

/-- A notice reaches a party: it acts on it and passes it on, once for each (TYPE, SRC, subject, NSEQ); this device also to the control node, over both
Ferry links (R468). DEDUCED, log 117. -/
def noticeAct (party : Party) (p : Packet) (s : Run × Mgmt) : Run × Mgmt :=
  match party with
  | .device a =>
    let (r, m) := takePacket s a p
    if m.seen.contains (noticeKey p) then (r, m)
    else
      let told := ((List.range m.ferries.length).filter fun f => (m.ferries[f]?).any (·.trained)).map fun f => (f, Reply.notice p)
      deviceNotice a p (r, floodDevice { m with seen := m.seen ++ [noticeKey p], replies := m.replies ++ told } (some a) p)
  | .atoll a _ =>
    let self := s.1.devid.toNat
    let now := portNow s.1 a
    (s.1, s.2.updAtoll a fun x =>
      if x.seen.contains (noticeKey p) then x
      else ((atollNotice a self now p { x with seen := x.seen ++ [noticeKey p] }).flood self now p))

def noticeDue (s : State) (party : Party) (type : Nat) (p : Packet) : Bool :=
  p.type == type && decide (noticeSubject p < Config.devices) &&
    match party with
    | .device a => available s.run s.mgmt a p
    | .atoll a m => decide (a < Config.ports) && decide (m < Config.devices) && ((s.mgmt.atoll a).port m).up

def execPortdown (party : Party) (pkt : Packet) (s : State) : Host.Outcome State Fault Refusal :=
  rowBoth (noticeDue s party 0x20 pkt) s (noticeAct party pkt)

def execDeath (party : Party) (pkt : Packet) (s : State) : Host.Outcome State Fault Refusal :=
  rowBoth (noticeDue s party 0x21 pkt) s (noticeAct party pkt)

def execAlive (party : Party) (pkt : Packet) (s : State) : Host.Outcome State Fault Refusal :=
  rowBoth (noticeDue s party 0x22 pkt) s (noticeAct party pkt)

def execPark (party : Party) (pkt : Packet) (s : State) : Host.Outcome State Fault Refusal :=
  rowBoth (noticeDue s party 0x23 pkt) s (noticeAct party pkt)

def execUnpark (party : Party) (pkt : Packet) (s : State) : Host.Outcome State Fault Refusal :=
  rowBoth (noticeDue s party 0x24 pkt) s (noticeAct party pkt)

end Sys2Proof.Machine
end

