-- ==== Sys2Proof/Machine/Launcher.lean ====
section
/-! DEFINITION. The Graph Launcher (15 R391 to R406, R522): taking records, their checks and effects, graphs, completions, and the controls of a
queue. A unit's own words are read and written with privilege (DEDUCED, log 30). -/
namespace Sys2Proof.Machine

/-! Taking a record (R392). -/

/-- The slot that a queue's launcher would take, with its words; no words where the slot cannot be read. None where nothing may be taken. DEDUCED, log 97. -/
def takeable (r : Run) (part q : Nat) : Option (Nat × Option (List W64)) :=
  let s := queueState r part q
  match queueRing r part q with
  | none => none
  | some ring =>
    match sizeLog r part ring with
    | none => none
    | some log =>
      let taken := s.taken.toNat
      if s.suspended || s.halted || decide ((headerWord r part ring 0).toNat ≤ taken) then none
      else
        match launcherWords r part (slotAt ring log taken) 8 with
        | none => some (taken, none)
        | some ws =>
          let w := nthD 0 ws 0
          if w.getLsbD 8 && fld w 31 16 == taken % 2 ^ 16 then some (taken, some ws) else none

/-- DEDUCED, log 97. -/
def takeAct (part q : Nat) (r : Run) : Run :=
  match takeable r part q, queueRing r part q with
  | some (slot, ws), some ring =>
    let log := (sizeLog r part ring).getD 4
    let r := launcherSeen (ringSeen r part q) part (slotAt ring log slot) 8
    let r := launcherPut r part (ring + 8) (w64 (slot + 1))
    let r := updQueue r part q fun s => { s with taken := w64 (slot + 1), recs := s.recs ++ [{ slot, words := ws.getD [], state := .taken, code := 0 }] }
    if ws.isNone then haltRec r (.ring part q slot) 0x07 else r
  | _, _ => r

def execLauncherTake (part queue : Nat) (s : State) : Host.Outcome State Fault Refusal :=
  rowRun (takeable s.run part queue).isSome s (takeAct part queue)

/-! Checks of records (R393, R397, R405). -/

def word (ws : List W64) (n : Nat) : W64 := nthD 0 ws n
/-- Whether a word has a bit set above the `n` low ones. -/
def above (w : W64) (n : Nat) : Bool := decide (2 ^ n ≤ w.toNat)
def zeroFrom (ws : List W64) (n : Nat) : Bool := (ws.drop n).all (· == 0)

/-- Whether a record has a reserved type, or a reserved bit set. DEDUCED, log 95. -/
def recReserved (ws : List W64) : Bool :=
  headReserved ws ||
    match recType ws with
    | 1 => above (word ws 3) 56 || above (word ws 4) 58 || (word ws 4).getLsbD 32 || above (word ws 5) 56 || above (word ws 6) 56 ||
        above (word ws 7) 29
    | 2 => above (word ws 1) 56 || !zeroFrom ws 2
    | 3 => above (word ws 4) 25 || fld (word ws 4) 23 4 != 0 || decide (3 < fld (word ws 4) 3 0) || above (word ws 5) 5 || !zeroFrom ws 6
    | 4 => above (word ws 1) 56 || above (word ws 3) 1 || !zeroFrom ws 4
    | 5 => above (word ws 1) 56 || !zeroFrom ws 3
    | 6 => above (word ws 1) 56 || above (word ws 2) 6 || !zeroFrom ws 3
    | 7 => above (word ws 1) 56 || above (word ws 2) 6 || !zeroFrom ws 3
    | 8 => !zeroFrom ws 1
    | _ => true

/-- Whether a record of one of some types may start now. -/
def recDue (r : Run) (src : RecSrc) (ok : Nat → Bool) : Bool := mayStart r src fun ws => ok (recType ws)

/-- The words of a record that may start. -/
def wordsOf (r : Run) (src : RecSrc) : List W64 := (recWords r src).getD []

/-- What reading the words of a record at its start leaves: those of a node are in memory. -/
def recSeen (r : Run) (src : RecSrc) : Run :=
  match src with
  | .ring .. => r
  | .node part gr i => (((r.part part).graphs.find gr).map fun g => launcherSeen r part (nodeAt g i) 8).getD r

/-- A record starts: it halts its queue with the code of the check that it fails, or has its effect. -/
def startRec (r : Run) (src : RecSrc) (effect : Run → List W64 → Except (Nat × Run) Run) : Run :=
  let r := beginRec r src
  let words := recWords r src
  let r := recSeen r src
  match words with
  | none => haltRec r src 0x07
  | some ws =>
    if recReserved ws then haltRec r src 0x01
    else
      match effect r ws with
      | .ok r => r
      | .error (code, r) => haltRec r src code

/-! LAUNCH (R198, R399, R400, R406, R522). -/

def clusterShapes : List (Nat × Nat) :=
  [(1, 1), (1, 2), (2, 1), (1, 3), (3, 1), (1, 4), (2, 2), (4, 1), (2, 3), (3, 2), (2, 4), (4, 2), (3, 3), (3, 4), (4, 3), (2, 6), (6, 2), (1, 12)]

/-- Whether the launcher rejects an image header (R198). -/
def headerRejected (h : List W64) : Bool :=
  let w0 := word h 0
  let w1 := word h 1
  let w5 := word h 5
  fld w0 31 0 != 0x4D49594B || fld w0 47 32 != 1 || fld w0 63 48 != 0 || fld w1 63 46 != 0 || w1.getLsbD 23 || fld w1 7 2 != 0 || fld w5 63 48 != 0 ||
    fld w1 1 0 == 3 || !clusterShapes.contains (fld w1 27 24, fld w1 31 28) || decide (12288 < fld w1 45 32) ||
    fld w5 39 32 == 0 || decide (64 < fld w5 39 32) || decide (64 < fld w5 47 40)

/-- The dies that may hold the launch's teams. -/
def launchDies (r : Run) (part mask : Nat) : List Nat :=
  (List.range Config.dies).filter fun d => (r.part part).pdies.getLsbD d && (mask == 0 || mask.testBit d)

/-- Whether a team fits some empty core of its die set, with the pages pinned there kept (01 R20). A fenced core, which no team can use, is no empty
core here; R20 does not name fencing. DESIGN CHOICE, log 145. -/
def fitsSomewhere (r : Run) (l : Launch) : Bool :=
  decide (l.ngroups ≤ Config.contexts) && decide (l.ngroups * l.groupLines ≤ Config.registerLines) &&
    l.dies.any fun d => (List.range Config.coresPerDie).any fun k =>
      !(r.core d k).fenced && decide (l.lines + Config.corePageLines * corePins r d k ≤ Config.sramLines)

/-- Log records of the Shoal from `first` to `last`; a later record replaces an earlier one of its key (19 R495). -/
def replayRecords (m : Mgmt) (first last : Nat) : List EvRec :=
  (List.range (last + 1 - first)).filterMap fun i => m.shoal.find ((first + i) % Config.shoalSlots)

def evType (e : EvRec) : Nat := fld e.w3 63 48

/-- Log records of a recorded launch (R495). -/
def isLog (e : EvRec) : Bool := decide (0x50 ≤ evType e) && decide (evType e ≤ 0x52)

/-- The number of the first log record of a range of the Shoal. -/
def firstLogOf (m : Mgmt) (first last : Nat) : Option Nat :=
  ((List.range (last + 1 - first)).map fun i => first + i).find? fun n => (m.shoal.find (n % Config.shoalSlots)).any isLog

def replayLog (es : List EvRec) : List LogEntry :=
  es.foldl (fun log e =>
    if evType e = 0x50 then
      (log.filter fun x => x.key != e.w1) ++ [{ key := e.w1, where_ := e.w2, old := w64 (fld e.w3 31 0) }]
    else if evType e = 0x51 then
      log.map fun x => if x.key = e.w1 then { x with old := w64 (fld x.old 31 0 + fld e.w3 31 0 * 2 ^ 32) } else x
    else log) []

def replayBursts (es : List EvRec) : List (W64 × Nat × Nat) :=
  es.foldl (fun log e =>
    if evType e = 0x52 then
      (log.filter fun x => !(x.1 == e.w1 && x.2.2 == fld e.w3 31 0)) ++ [(e.w1, e.w2.toNat, fld e.w3 31 0)]
    else log) []

/-- A launch as its record and its image header give it. DEDUCED, log 35. -/
def launchOfRec (r : Run) (m : Mgmt) (src : RecSrc) (ws h : List W64) : Launch :=
  let part := recPart src
  let q := recQueue r src
  let image := fld (word ws 1) 55 0
  let mode := Sparse.get ReplayMode.off (r.part part).modes q
  let es := match mode with | .replay a b => replayRecords m a b | _ => []
  { part, src, prio := ((queueRing r part q).map (queuePrio r part)).getD 0, startOrder := r.nextId, kernid := w32 (fld (word ws 0) 63 32)
    launchid := w32 (fld (word ws 2) 63 32), nteams := fld (word ws 2) 31 0, ngroups := fld (word ws 7) 28 24 + 1
    width := 32 * 2 ^ fld (word h 1) 1 0, vregs := fld (word h 1) 15 8 + 1, gregs := fld (word h 1) 21 16 + 1, prot := (word h 1).getLsbD 22
    rows := fld (word h 1) 27 24, cols := fld (word h 1) 31 28, lines := fld (word h 1) 45 32, codeBase := image + fld (word h 2) 31 0
    codeSize := fld (word h 2) 63 32, entries := [], handlers := [], args := [], utvec := word ws 4, utrap := fld (word ws 5) 55 0
    lrec := fld (word ws 6) 55 0, dies := launchDies r part (fld (word ws 7) 23 0), teamsLeft := fld (word ws 2) 31 0, mode
    log := replayLog es, bursts := replayBursts es, startEvent := 0, diverged := false, errors := 0, complete := false
    firstLog := match mode with | .replay a b => firstLogOf m a b | _ => none }

/-- The checks of a LAUNCH record in the order of R522, and the launch. DEDUCED, log 35. -/
def launchChecks (r : Run) (m : Mgmt) (src : RecSrc) (ws : List W64) : Except (Nat × Run) (Launch × Run) :=
  let part := recPart src
  let narg := fld (word ws 1) 63 56
  let image := fld (word ws 1) 55 0
  let args := fld (word ws 3) 55 0
  let mask := fld (word ws 7) 23 0
  if decide (32 < narg) || image % 64 != 0 || args % 8 != 0 || fld (word ws 6) 5 0 != 0 then .error (0x05, r)
  else if (List.range Config.dies).any fun d => mask.testBit d && !(r.part part).pdies.getLsbD d then .error (0x06, r)
  else do
    let (h, r) ← launcherRead r part image 8
    let l := launchOfRec r m src ws h
    if headerRejected h then .error (0x02, r)
    else if l.gregs < narg then .error (0x05, r)
    else if l.nteams = 0 || l.nteams % (l.rows * l.cols) != 0 then .error (0x03, r)
    else if !fitsSomewhere r l then .error (0x04, r)
    else do
      let ne := fld (word h 5) 39 32
      let nh := fld (word h 5) 47 40
      let (es, r) ← launcherRead r part (image + fld (word h 5) 31 0) (ne + nh)
      let (as, r) ← launcherRead r part args narg
      .ok ({ l with entries := (es.take ne).map (fld · 31 0), handlers := (es.drop ne).map (fld · 31 0), args := as }, r)

/-- The clusters of a launch, each with the GD of its die (R406). -/
def newClusters (r : Run) (lid : Nat) (l : Launch) : Run :=
  (List.range (l.nteams / (l.rows * l.cols))).foldl (fun r k =>
    let (id, r) := r.newId
    let c : Cluster :=
      { launch := lid, num := k, die := nthD 0 l.dies (k % l.dies.length), at_ := none, evicted := false, leaving := false, ended := false, teams := [], slots := [] }
    { r with clusters := r.clusters.put id c }) r

/-- A LAUNCH starts: LAUNCH_START, what LREC tells of the start (19 R487), its clusters. -/
def startLaunch (r : Run) (l : Launch) : Run :=
  let die := (l.dies.head?).getD 0
  let (id, r) := emit r (gdUnit die) 0x0001 l.launchid.toNat 0
  let l := { l with startEvent := id }
  let (lid, r) := r.newId
  let r := { r with launches := r.launches.put lid l }
  let (w, r) := lrecRead r l 0
  let r := lrecWrite r l 0 [w64 (l.launchid.toNat * 2 ^ 32 + fld w 31 0)]
  newClusters (lrecWrite r l 0x30 [r.now die]) lid l

/-- PROTECT has the lowest of the first log records of the recorded and replayed launches that run; all ones when there is none (19 R476, R495). -/
def protectLog (r : Run) (m : Mgmt) : Mgmt :=
  let firsts := r.launches.filterMap fun e => if e.2.mode = .off then none else e.2.firstLog
  { m with protect := w64 (firsts.foldl min (2 ^ 64 - 1)) }

def launchAct (src : RecSrc) (x : Run × Mgmt) : Run × Mgmt :=
  let r := startRec x.1 src fun r ws => (launchChecks r x.2 src ws).map fun y => startLaunch y.2 y.1
  (r, protectLog r x.2)

/-- A LAUNCH record starts. A record of a reserved type starts as a work record and halts its queue. -/
def execLaunchRecord (src : RecSrc) (s : State) : Host.Outcome State Fault Refusal :=
  rowBoth (recDue s.run src fun t => t == 1 || t == 0 || decide (8 < t)) s (launchAct src)

/-! Graphs (R401 to R404). -/

/-- The checks of one node. -/
def nodeOk (n : Nat) (ws : List W64) : Bool :=
  let rec_ := ws.take 8
  let succ := fld (word ws 9) 4 0
  [1, 3, 4, 5, 6, 7].contains (recType rec_) && !recReserved rec_ && !recWaitPrev rec_ && !above (word ws 9) 5 && decide (succ ≤ 24) &&
    (List.range succ).all fun s => decide (fld (word ws (10 + s / 4)) (16 * (s % 4) + 15) (16 * (s % 4)) < n)

/-- The successors of a node, in list order. -/
def successors (ws : List W64) : List Nat :=
  (List.range (fld (word ws 9) 4 0)).map fun s => fld (word ws (10 + s / 4)) (16 * (s % 4) + 15) (16 * (s % 4))

def graphOf (r : Run) (part gr : Nat) : Option Graph := (r.part part).graphs.find gr

/-- A graph with nothing ready or running and nodes left is stalled: its queue halts. -/
def stallCheck (r : Run) (part gr : Nat) : Run :=
  match graphOf r part gr with
  | none => r
  | some g =>
    if !g.halted && g.ready.isEmpty && g.running.isEmpty && g.finished.isEmpty && g.left != 0 then
      haltRec (updGraph r part gr fun g => { g with halted := true }) (.ring part g.queue g.slot) 0x0A
    else r

/-- Writes PENDING of a node (R402). -/
def putPending (part table : Nat) (r : Run) (node n : Nat) : Run :=
  let q := unitReq part (partDie r part) 0 1
  match writeVirt r q (w64 (table + 64 + 128 * node + 68)) (leBytes 4 n) with
  | .ok r => r
  | .error e => unitFail q e

/-- The nodes of a table, each as its 16 words. -/
def readNodes (r : Run) (part table n : Nat) : Except (Nat × Run) (List (List W64) × Run) :=
  (List.range n).foldlM (init := ([], r)) fun (acc : List (List W64) × Run) i =>
    (launcherRead acc.2 part (table + 64 + 128 * i) 16).map fun x => (acc.1 ++ [x.1], x.2)

/-- A GRAPH record's own checks, and its start. DEDUCED, log 95. -/
def startGraph (src : RecSrc) (r : Run) (ws : List W64) : Except (Nat × Run) Run :=
  let part := recPart src
  let table := fld (word ws 1) 55 0
  if table % 64 != 0 then .error (0x05, r)
  else do
    let (h, r) ← launcherRead r part table 8
    let n := fld (word h 0) 31 0
    if above (word h 0) 32 || n = 0 || decide (65535 < n) || fld (word h 1) 62 32 != 0 || !zeroFrom h 2 then .error (0x01, r)
    else do
      let (nodes, r) ← readNodes r part table n
      if !nodes.all (nodeOk n) then .error (0x01, r)
      else if (word h 1).getLsbD 63 then .error (0x08, r)
      else
        let r := launcherPut r part (table + 8) (w64 (2 ^ 63 + n))
        let deps := nodes.map fun ws => fld (word ws 8) 31 0
        let r := ((List.range n).zip deps).foldl (fun r e => putPending part table r e.1 e.2) r
        let (gid, r) := r.newId
        let slot := match src with | .ring _ _ s => s | .node .. => 0
        let g : Graph :=
          { queue := recQueue r src, slot, table, nnodes := n, pending := deps, left := n, ready := (List.range n).filter fun i => nthD 0 deps i == 0
            running := [], finished := [], halted := false, dropped := false }
        .ok (stallCheck (r.updPart part fun p => { p with graphs := p.graphs.put gid g }) part gid)

def execGraphRecord (src : RecSrc) (s : State) : Host.Outcome State Fault Refusal :=
  rowRun (recDue s.run src (· == 2)) s fun r => startRec r src (startGraph src)

/-- One successor of a completed node; an error is the halt of R403. PENDING is the launcher's own: what software stores over it changes nothing (R402). -/
def dropPending (part gr : Nat) (acc : Run × Bool) (s : Nat) : Run × Bool :=
  let (r, bad) := acc
  match bad, graphOf r part gr with
  | false, some g =>
    let n := nthD 0 g.pending s
    if n = 0 then (r, true)
    else
      let r := updGraph r part gr fun g =>
        { g with pending := updAt g.pending s fun _ => n - 1, ready := if n = 1 then g.ready ++ [s] else g.ready }
      (putPending part g.table r s (n - 1), false)
  | _, _ => acc

/-- The node whose completion a graph acts on next; a halted graph acts on none until it goes on. -/
def nodeDue (r : Run) (src : RecSrc) : Bool :=
  match src with
  | .node part gr i => (graphOf r part gr).any fun g => !g.halted && g.finished.head? == some i
  | .ring .. => false

/-- A node's completion (R403): its successors, NLEFT, the end of the graph's record. -/
def nodeAct (src : RecSrc) (r : Run) : Run :=
  match src with
  | .ring .. => r
  | .node part gr i =>
    match graphOf r part gr with
    | none => r
    | some g =>
      let r := updGraph r part gr fun g => { g with finished := g.finished.tail }
      if g.halted then r
      else
        let (ws, r) := match launcherRead r part (nodeAt g i) 16 with
          | .ok x => x
          | .error (_, r) => ([], r)
        let (r, bad) := (successors ws).foldl (dropPending part gr) (r, false)
        if bad then haltRec (updGraph r part gr fun g => { g with halted := true }) (.ring part g.queue g.slot) 0x09
        else
          let left := g.left - 1
          let r := updGraph r part gr fun g => { g with left }
          let r := launcherPut r part (g.table + 8) (w64 ((if left = 0 then 0 else 2 ^ 63) + left))
          if left = 0 then
            completeRec (r.updPart part fun p => { p with graphs := p.graphs.del gr }) (.ring part g.queue g.slot)
          else stallCheck r part gr

def execGraphNodeComplete (src : RecSrc) (s : State) : Host.Outcome State Fault Refusal := rowRun (nodeDue s.run src) s (nodeAct src)

/-! LX records (R405). -/

/-- What an LX record asks of its die's LXE. DEDUCED, log 94. -/
def recAsk (src : RecSrc) (ws : List W64) : LxAsk :=
  { part := recPart src, die := fld (word ws 5) 4 0, super := true, ctx := 0, pc := 0, launchid := 0, kernid := 0, src := (word ws 1).toNat
    dst := (word ws 2).toNat, prog := (word ws 3).toNat, op := fld (word ws 4) 3 0, endp := (word ws 4).getLsbD 24, team := none, rec_ := some src
    cmode := 0, cpl := 0 }

/-- The checks of R345, then the acceptance. DEDUCED, log 94. -/
def startLx (src : RecSrc) (r : Run) (ws : List W64) : Except (Nat × Run) Run :=
  let a := recAsk src ws
  if !(r.part a.part).pdies.getLsbD a.die || a.src % 64 != 0 || a.dst % 64 != 0 || a.prog % 64 != 0 then .error (0x0B, r)
  else
    match lxRead r a with
    | .error e => .error (0x0B, unitFail (a.req 0) e)
    | .ok (x, r) =>
      if lxRejects r a x a.op false then .error (0x0B, r)
      else
        let n := if x.dlay.parts.contains (a.me r) then x.dlay.chunks else 0
        match checkVirt r (a.req 1) (w64 a.prog) (64 + bitmapBytes n) with
        | .error e => .error (0x0B, unitFail (a.req 1) e)
        | .ok r =>
          let (id, r) := emit r (lxeUnit a.die) 0x0010 0xCB 0
          .ok (lxAccept r a x a.op 0 [] id true)

/-- An LX record starts once its LXE has a free step slot (11 R323). -/
def execLxRecord (src : RecSrc) (s : State) : Host.Outcome State Fault Refusal :=
  rowRun (recDue s.run src (· == 3)) s fun r => startRec r src (startLx src)

/-! Events, counters and fences (R405, 19 R491). -/

def startSignal (src : RecSrc) (r : Run) (ws : List W64) : Except (Nat × Run) Run :=
  let part := recPart src
  let a := w64 (fld (word ws 1) 55 0)
  let q := unitReq part (partDie r part) 0 2
  if a.toNat % 8 != 0 then .error (0x05, r)
  else
    match readVirtWord r q a with
    | .error e => .error (0x07, unitFail q e)
    | .ok (old, r) =>
      match writeVirt r q a (leBytes 8 (if (word ws 3).getLsbD 0 then word ws 2 else old + word ws 2).toNat) with
      | .error e => .error (0x07, unitFail q e)
      | .ok r => .ok (completeRec r src)

def execSignal (src : RecSrc) (s : State) : Host.Outcome State Fault Refusal :=
  rowRun (recDue s.run src (· == 4)) s fun r => startRec r src (startSignal src)

def startWait (src : RecSrc) (r : Run) (ws : List W64) : Except (Nat × Run) Run :=
  let a := fld (word ws 1) 55 0
  if a % 8 != 0 then .error (0x05, r) else (launcherRead r (recPart src) a 1).map (·.2)

def execWaitev (src : RecSrc) (s : State) : Host.Outcome State Fault Refusal :=
  rowRun (recDue s.run src (· == 5)) s fun r => startRec r src (startWait src)

/-- Whether a record has started and is not complete. -/
def recRuns (r : Run) (src : RecSrc) : Bool :=
  match src with
  | .ring part q slot => (queueState r part q).recs.any fun x => x.slot == slot && x.state == .started
  | .node part gr i => (graphOf r part gr).any fun g => g.running.contains i

def waitevDue (r : Run) (src : RecSrc) : Bool :=
  let ws := wordsOf r src
  recRuns r src && recType ws == 5 && (launcherWord r (recPart src) (fld (word ws 1) 55 0)).any fun v => decide ((word ws 2).toNat ≤ v.toNat)

def execWaitevComplete (src : RecSrc) (s : State) : Host.Outcome State Fault Refusal :=
  rowRun (waitevDue s.run src) s fun r => completeRec r src

/-- Latches the named banks into an area of a launch record. DEDUCED, log 95. -/
def startLatch (ofs : Nat) (src : RecSrc) (r : Run) (ws : List W64) : Except (Nat × Run) Run :=
  let part := recPart src
  let lrec := fld (word ws 1) 55 0
  let q := unitReq part (partDie r part) 0 1
  let banks := (r.part part).banks
  if lrec % 64 != 0 then .error (0x05, r)
  else
    let latch := fun (r : Run) (b : Nat) =>
      match writeVirt r q (w64 (lrec + ofs + 512 * b)) ((nthD [] banks b).flatMap fun (w : W64) => leBytes 8 w.toNat) with
      | .ok r => (.ok r : Except (Nat × Run) Run)
      | .error e => .error (0x07, unitFail q e)
    (((List.range 6).filter fun b => (word ws 2).getLsbD b).foldlM latch r).map fun r => completeRec r src

def execCstart (src : RecSrc) (s : State) : Host.Outcome State Fault Refusal :=
  rowRun (recDue s.run src (· == 6)) s fun r => startRec r src (startLatch 0x1000 src)

def execCstop (src : RecSrc) (s : State) : Host.Outcome State Fault Refusal :=
  rowRun (recDue s.run src (· == 7)) s fun r => startRec r src (startLatch 0x4000 src)

def execFenceRecord (src : RecSrc) (s : State) : Host.Outcome State Fault Refusal :=
  rowRun (recDue s.run src (· == 8)) s fun r => startRec r src fun r _ => .ok (completeRec r src)

/-! Completion of a launch (R394). -/

/-- Whether every team has ended and everything its teams wrote is performed. DEDUCED, log 103. -/
def launchOver (r : Run) (lid : Nat) : Bool :=
  (r.launch lid).any fun l =>
    l.teamsLeft == 0 &&
      (r.teams.all fun e => e.2.launch != lid ||
        (e.2.committed.isEmpty && (r.ops.all fun o => o.2.team != e.1) && r.steps.all fun st => st.team != some e.1 || !st.active)) &&
      r.reqs.all fun q => q.pkt.type == 1 ||
        match r.grp q.group with
        | some g => (r.team g.team).all fun t => t.launch != lid
        | none => q.part != l.part

/-- LAUNCH_END, T1, the count, the record; what the launch held is dropped, its replicas (04 R123) and steal requests (R408) among it (19 R487, R489).
DEDUCED, log 103. -/
def launchEnd (lid : Nat) (r : Run) : Run :=
  match r.launch lid with
  | none => r
  | some l =>
    let die := (l.dies.head?).getD 0
    let r := lrecWrite r l 0x38 [r.now die]
    let r := emit' r (gdUnit die) 0x0002 l.launchid.toNat l.startEvent
    let r := r.count l.part 0 10 1
    let r := completeRec r l.src
    let idle := fun (d : Die) =>
      { d with replicas := d.replicas.filter fun x => x.launch != lid, steal := d.steal.filter fun x => x.1 != lid }
    { r with launches := r.launches.del lid, clusters := r.clusters.filter fun e => e.2.launch != lid, dies := r.dies.map idle
             groups := r.groups.filter fun e => !((r.team e.2.team).any fun t => t.launch == lid)
             teams := r.teams.filter fun e => e.2.launch != lid }

def execLaunchComplete (launch : Nat) (s : State) : Host.Outcome State Fault Refusal :=
  rowBoth (launchOver s.run launch) s fun x => let r := launchEnd launch x.1
                                               (r, protectLog r x.2)

/-! CTRL (R397, R398). -/

def ctrlIs (r : Run) (part q n : Nat) : Bool := (queueRing r part q).any fun ring => queueCtrl r part ring == n

/-- The launcher writes CTRL := RUN. -/
def ctrlRun (r : Run) (part q : Nat) : Run :=
  match queueRing r part q with
  | some ring => let w := headerWord r part ring 4
                 launcherPut (ringSeen r part q) part (ring + 32) (w &&& ~~~3#64)
  | none => r

/-- The steps of a queue's records. -/
def queueSteps (r : Run) (part q : Nat) : List LxStep :=
  r.steps.filter fun st => st.part == part && st.rec_.any fun src => recQueue r src == q

def suspendAct (part q : Nat) (r : Run) : Run :=
  let steps := (queueSteps r part q).filter fun st => st.status == 1
  let r := showState (updQueue r part q fun s => { s with suspended := true }) part q none
  steps.foldl (fun r st => suspendStep r st.die st.stepid) r

def execSuspend (part queue : Nat) (s : State) : Host.Outcome State Fault Refusal :=
  rowRun (ctrlIs s.run part queue 1 && !(queueState s.run part queue).suspended) s (suspendAct part queue)

/-- A step of a record goes on as LXRESUME restarts it (11 R351): its records are read and checked again. DEDUCED, log 94. -/
def resumeStep (r : Run) (st : LxStep) : Run :=
  let a : LxAsk :=
    { part := st.part, die := st.die, super := st.super, ctx := 0, pc := st.pc, launchid := st.launchid, kernid := st.kernid, src := st.srcAddr
      dst := st.dstAddr, prog := st.prog, op := st.op, endp := st.endp, team := st.team, rec_ := st.rec_, cmode := st.cmode, cpl := st.cpl }
  let go : AccOr Run := do
    let (head, r) ← readWords r (a.req 0) st.prog 8
    let a := { a with src := (nthD 0 head 6).toNat, dst := (nthD 0 head 7).toNat, op := fld (nthD 0 head 1) 35 32 }
    let (x, r) ← lxRead r a
    if lxRejects r a x a.op true then .ok ((st.rec_.map fun src => haltRec r src 0x0B).getD r)
    else
      let n := if x.dlay.parts.contains (a.me r) then x.dlay.chunks else 0
      let (bits, r) ← bitsInMemory r (a.req 0) st.prog n
      .ok (lxAccept r a x a.op (fld (nthD 0 head 1) 50 48) bits st.issueEvent false)
  match go with
  | .ok r => r
  | .error e =>
    let r := unitFail (a.req 0) e
    match st.rec_ with
    | some src => haltRec r src 0x0B
    | none => r

def runAct (part q : Nat) (r : Run) : Run :=
  let steps := (queueSteps r part q).filter fun st => st.status == 3
  let r := showState (updQueue r part q fun s => { s with suspended := false }) part q none
  steps.foldl resumeStep r

def execRun (part queue : Nat) (s : State) : Host.Outcome State Fault Refusal :=
  rowRun (ctrlIs s.run part queue 0 && (queueState s.run part queue).suspended) s (runAct part queue)

/-- The record that halted a queue: the one that ERRSLOT names (R397). -/
def haltedRec (r : Run) (part q : Nat) : Option TakenRec :=
  let s := queueState r part q
  s.recs.find? fun x => x.state == .halted && x.slot % 2 ^ 48 == fld s.err 63 16

/-- The graph run of a queue's record. -/
def graphRun (r : Run) (part q slot : Nat) : Option (Nat × Graph) :=
  (r.part part).graphs.find? fun e => e.2.queue == q && e.2.slot == slot && !e.2.dropped

/-- A graph run of a queue's record is given up; its running nodes go on. DEDUCED, log 96. -/
def dropGraph (r : Run) (part q slot : Nat) : Run :=
  match graphRun r part q slot with
  | none => r
  | some (gr, g) =>
    let r := updGraph r part gr fun g => { g with dropped := true, halted := true, ready := [], finished := [] }
    forgetGraph (launcherPut r part (g.table + 8) (w64 g.left)) part gr

/-- A queue goes on, or stays HALTED for another record that has failed, which ERRSLOT then names: the first in the ring (R397). DEDUCED, log 96. -/
def unhalt (r : Run) (part q : Nat) : Run :=
  let next := (queueState r part q).recs.find? fun x => x.state == .halted
  let r := updQueue r part q fun s => { s with halted := next.isSome }
  ctrlRun (showState r part q (next.map fun x => (x.slot, x.code))) part q

/-- DEDUCED, log 96. -/
def skipAct (part q : Nat) (r : Run) : Run :=
  match haltedRec r part q with
  | none => r
  | some x => unhalt (completeRec (dropGraph r part q x.slot) (.ring part q x.slot)) part q

def execSkip (part queue : Nat) (s : State) : Host.Outcome State Fault Refusal :=
  rowRun (ctrlIs s.run part queue 2 && (haltedRec s.run part queue).isSome) s (skipAct part queue)

/-- The steps that a halted record began, itself or by its nodes, and that ended FAULTED, PEERDEAD or MISMATCH. -/
def failedSteps (r : Run) (part q slot : Nat) : List LxStep :=
  r.steps.filter fun st => decide (4 ≤ st.status) && st.rec_.any fun src =>
    match src with
    | .ring .. => src == .ring part q slot
    | .node p gr _ => p == part && (graphRun r part q slot).any fun e => e.1 == gr

/-- The code with which the launcher halted a queue. -/
def haltCode (r : Run) (part q : Nat) : Nat := ((haltedRec r part q).map (·.code)).getD 0

/-- A failed step goes on: its node runs again. -/
def resumeFailed (r : Run) (st : LxStep) : Run :=
  let r := match st.rec_ with
    | some (.node part gr i) => updGraph r part gr fun g => { g with running := g.running.filter (· != i) ++ [i] }
    | _ => r
  resumeStep r st

/-- A graph run of a queue's record starts nodes again. -/
def unhaltGraph (r : Run) (part q slot : Nat) : Run :=
  match graphRun r part q slot with
  | some (gr, _) => updGraph r part gr fun g => { g with halted := false }
  | none => r

/-- RETRY: a record halted with code 0x0C goes on as LXRESUME does; another one is taken again (R397, R398). DEDUCED, log 96. -/
def retryAct (part q : Nat) (r : Run) : Run :=
  match haltedRec r part q, queueRing r part q with
  | some x, some ring =>
    let src := RecSrc.ring part q x.slot
    let steps := if haltCode r part q = 0x0C then failedSteps r part q x.slot else []
    if !steps.isEmpty then steps.foldl resumeFailed (unhaltGraph (unhalt (setRec r part q x.slot .started) part q) part q x.slot)
    else
      let r := unhalt (setRec (dropGraph r part q x.slot) part q x.slot .taken) part q
      let log := fld (headerWord r part ring 3) 3 0
      match launcherRead r part (slotAt ring log x.slot) 8 with
      | .error (code, r) => haltRec r src code
      | .ok (ws, r) => updQueue r part q fun s => { s with recs := s.recs.map fun y => if y.slot = x.slot then { y with words := ws } else y }
  | _, _ => r

/-- Steps of an LXE that are not over. -/
def lxeActive (r : Run) (die : Nat) : Nat := (r.steps.filter fun st => st.die == die && st.active).length

/-- Whether a RETRY may act: an LXRESUME waits for a free step slot (11 R323), and each failed step needs one. -/
def retryDue (r : Run) (part q : Nat) : Bool :=
  ctrlIs r part q 3 && (haltedRec r part q).any fun x =>
    haltCode r part q != 0x0C ||
      let steps := failedSteps r part q x.slot
      (List.range Config.dies).all fun d => let n := (steps.filter fun st => st.die == d).length
                                            n == 0 || decide (lxeActive r d + n ≤ Config.lxeSteps)

def execRetry (part queue : Nat) (s : State) : Host.Outcome State Fault Refusal :=
  rowRun (retryDue s.run part queue) s (retryAct part queue)

end Sys2Proof.Machine
end

