-- ==== Sys2Proof/Machine/Place.lean ====
section
/-! DEFINITION. The Grid Distributors (15 R407 to R412): placement of clusters, steal requests, pre-emption, resumption; and the limit of a
pre-emption that waits under MSK (14 R371). -/
namespace Sys2Proof.Machine

/-! What a team asks of a core (01 R20). -/

structure Demand where
  groups : Nat
  lines : Nat
  scratch : Nat
  tiles : Nat
  spawned : Nat
  deriving DecidableEq, Repr

def liveGroups (r : Run) (tid : Nat) : List (Nat × Grp) := (teamGroups r tid).filter fun e => !e.2.ended

/-- The demand of the team at a place of a cluster: a new one, or one that was evicted; an ended one asks nothing. -/
def demandAt (r : Run) (l : Launch) (c : Cluster) (j : Nat) : Demand :=
  match c.teams[j]? with
  | none => { groups := l.ngroups, lines := l.ngroups * l.groupLines, scratch := l.lines, tiles := 0, spawned := 0 }
  | some tid =>
    match r.team tid with
    | none => ⟨0, 0, 0, 0, 0⟩
    | some t =>
      if t.ended then ⟨0, 0, 0, 0, 0⟩
      else
        let gs := liveGroups r tid
        { groups := gs.length, lines := gs.length * l.groupLines, scratch := t.size / 128, tiles := t.tiles.length
          spawned := (gs.filter fun e => e.2.spawned).length }

def tilesOn (r : Run) (d k : Nat) : Nat := ((teamsOn r d k).map fun e => e.2.tiles.length).foldl (· + ·) 0
def spawnedOn (r : Run) (d k : Nat) : Nat := (takenSpawns r d k).length
def prioOf (r : Run) (lid : Nat) : Nat := ((r.launch lid).map (·.prio)).getD 0

/-- Whether an evicted group of a team on a core stands before work of a priority there (R412). DEDUCED, log 98. -/
def coreBlocked (r : Run) (d k prio : Nat) : Bool :=
  r.groups.any fun e => e.2.handler.isNone && !e.2.ended && e.2.ctx.isNone &&
    (r.team e.2.team).any fun t => t.resident && t.die == d && t.core == k && decide (prio ≤ prioOf r t.launch)

/-- Whether a core can admit a team now. DEDUCED, log 98. -/
def admits (r : Run) (d k prio : Nat) (x : Demand) : Bool :=
  !(r.core d k).fenced && !coreBlocked r d k prio && decide ((contextsOn r d k).length + x.groups ≤ Config.contexts) &&
    decide (linesUsed r d k + x.lines ≤ Config.registerLines) && decide (x.scratch ≤ poolFree r d k) &&
    decide (tilesOn r d k + x.tiles ≤ Config.tiles) && decide (spawnedOn r d k + x.spawned ≤ Config.spawnSlots)

/-! Rectangles (R407). -/

/-- Base cores of the rectangles of a shape, lowest first. -/
def rectBases (rows cols : Nat) : List Nat :=
  (List.range (Config.meshRows + 1 - rows)).flatMap fun i => (List.range (Config.meshCols + 1 - cols)).map fun j => i * Config.meshCols + j

/-- The core of a place of a rectangle. -/
def rectCore (base cols j : Nat) : Nat := base + j / cols * Config.meshCols + j % cols
def rectCores (l : Launch) (base : Nat) : List Nat := (List.range (l.rows * l.cols)).map (rectCore base l.cols)

/-- The cores that the rolled-back teams of a cluster leave. -/
def avoidOf (r : Run) (c : Cluster) : List (Nat × Nat) := c.teams.filterMap fun tid => (r.team tid).bind (·.avoid)

/-- The rectangles on which a die of the partition can place a cluster now (14 R379). -/
def openRects (r : Run) (d : Nat) (l : Launch) (c : Cluster) : List Nat :=
  if (r.die d).state != .running || !(r.part l.part).pdies.getLsbD d || decide (Config.dieSlots < slotsOn r d + c.slots.length) then []
  else (rectBases l.rows l.cols).filter fun base =>
    (List.range (l.rows * l.cols)).all fun j => admits r d (rectCore base l.cols j) l.prio (demandAt r l c j)

/-- The first of them without a core that a rollback leaves. -/
def clearRect (r : Run) (d : Nat) (l : Launch) (c : Cluster) : Option Nat :=
  (openRects r d l c).find? fun base => !(rectCores l base).any fun k => (avoidOf r c).contains (d, k)

/-- The rectangle on which a die places a cluster now; one with a core that a rollback leaves only where no die of the launch has another
(17 R447). -/
def chooseRect (r : Run) (d : Nat) (l : Launch) (c : Cluster) : Option Nat :=
  match clearRect r d l c with
  | some base => some base
  | none => if l.dies.any fun d => (clearRect r d l c).isSome then none else (openRects r d l c).head?

/-! The order of a GD's clusters (R407). -/

/-- DEDUCED, log 99. -/
def unplacedAt (r : Run) (d : Nat) : List (Nat × Cluster × Launch) :=
  (r.clusters.filter fun e => e.2.at_.isNone && !e.2.ended).filterMap fun e =>
    (r.launch e.2.launch).bind fun l => if (if e.2.evicted then l.dies.contains d else e.2.die == d) then some (e.1, e.2, l) else none

def standsBefore (a b : Cluster × Launch) : Bool :=
  if a.2.prio ≠ b.2.prio then decide (b.2.prio < a.2.prio)
  else if a.1.evicted ≠ b.1.evicted then a.1.evicted
  else if a.2.startOrder ≠ b.2.startOrder then decide (a.2.startOrder < b.2.startOrder)
  else decide (a.1.num < b.1.num)

def insertCluster (x : Nat × Cluster × Launch) : List (Nat × Cluster × Launch) → List (Nat × Cluster × Launch)
  | [] => [x]
  | y :: t => if standsBefore x.2 y.2 then x :: y :: t else y :: insertCluster x t

def gdOrder (r : Run) (d : Nat) : List (Nat × Cluster × Launch) := (unplacedAt r d).foldl (fun acc x => insertCluster x acc) []

/-! Resumption of a group (R412, 17 R441, R442). -/

/-- Reads a range without its bytes: every region is translated, and a block that fails is marked (17 R448). -/
def scanVirt (r : Run) (q : Req) (va n : Nat) : Except (AccFail × Run) Run :=
  (regions va n).foldlM (init := r) fun r p =>
    match translate r q (w64 p.1) with
    | (.error f, r) => .error (.fault f, r)
    | (.ok l, r) =>
      match rangeFail r (keyOf r q.part l) (l.pa (w64 p.1)) p.2 with
      | some (_, c, d) => .error (.data c d (w64 p.1), leafRead r q.part l (w64 p.1) p.2)
      | none => .ok (leafRead r q.part l (w64 p.1) p.2)

/-- Reads the save area of a team that was evicted (04 R129, R135, 10 R318): it has what `saveTeam` and `saveHeld` wrote. DESIGN CHOICE, log 143. -/
def fetchTeam (r : Run) (gid tid : Nat) : Except (AccFail × Run) Run :=
  match r.team tid with
  | some t =>
    if t.saved then
      (scanVirt r { contextReq r gid 0 with ctx := 0 } t.save (saveBytes (t.size / 128))).map fun r => r.updTeam tid fun t => { t with saved := false }
    else .ok r
  | none => .ok r

/-- Fetches a group's control lines, and answers the group as it resumes; none where a line fails its check (17 R441, R442). Its saved register
lines are absent until they are touched (02 R76), but for those of a checkpoint copy, which are fetched and are then dirty. DEDUCED, log 101. -/
def fetchContext (r : Run) (gid : Nat) (g : Grp) (l : Launch) : Except (AccFail × Run) (Option Grp × Run) := do
  let n := 128 * (16 + l.width / 4)
  match g.ctlKey with
  | none => .ok (some g, r)
  | some k =>
    let (ctl, r) ← readVirt r (contextReq r gid 0) (w64 (g.ctxArea + g.copy * areaBytes l)) n
    if !(List.range n).all fun i => nthD 0 ctl i == Config.controlByte gid i k then .ok (none, r)
    else if g.copy = 0 then .ok (some { g with absent := g.saved }, r)
    else do
      let (g, r) ← fetchLines r gid g l g.saved
      .ok (some { g with copy := 0, dirty := (g.dirty ++ g.saved).eraseDups, saved := [], absent := [], ctlKey := none }, r)

/-- A group that was evicted at the limit of R371 starts its supervisor handler again, with REENTER in its record (17 R440). -/
def reenterGroup (r : Run) (gid : Nat) (g : Grp) (t : Team) (l : Launch) : Run :=
  let a := slotAddr l t g
  let r := match unitWord r l.part t.die a with
    | (some w, r) => pokeWords r l.part t.die a [w ||| (1#64 <<< 60)]
    | (none, r) => r
  let pc := superVector r g
  let f := entryFrag g
  r.updGrp gid fun g => { g with reenter := false, super := true, msk := true, slices := g.slices.map (Slice.enter pc f) }

/-- A group takes a context of its team's core again; its undo copies are restored (10 R316). DEDUCED, log 102. -/
def resumeOn (r : Run) (gid : Nat) : Run :=
  match r.grp gid with
  | none => r
  | some g =>
    match r.team g.team, launchOf r g with
    | some t, some l =>
      match (fetchTeam r gid g.team).bind fun r => fetchContext r gid g l with
      | .error (e, r) => settleCluster (contextFail r gid 0 e) t.cluster
      | .ok (none, r) => killWithRecord r gid (contextTrap .integrity 0 (w64 g.ctxArea))
      | .ok (some g, r) =>
        let ctx := (lowestFree Config.contexts (takenContexts r t.die t.core)).getD 0
        let slot := if g.spawned then lowestFree Config.spawnSlots (takenSpawns r t.die t.core) else none
        let r := restoreUndo (r.updGrp gid fun _ => { g with ctx := some ctx, spawnSlot := slot }) gid
        let r := (emitGrp r gid (coreUnit t.die t.core) 0x0008 (ctx + t.core * 64)).2
        if g.reenter then reenterGroup r gid g t l else r
    | _, _ => r

/-! Placement (R407, R400). -/

/-- Takes the areas of the groups of a team, and of its save area (16 R431). -/
def takeTeamAreas (r : Run) (d : Nat) (l : Launch) : Option (List Nat × Nat × Run) :=
  ((List.range l.ngroups).foldl (fun (acc : Option (List Nat × Run)) _ =>
    acc.bind fun x => (takeArea x.2 d l).map fun y => (x.1 ++ [y.1], y.2)) (some ([], r))).bind fun x =>
      (takeBytes x.2 d l.part (saveBytes l.lines)).map fun y => (x.1, y.1, y.2)

/-- A team as it starts on a core, with its save area. -/
def newTeam (r : Run) (cid : Nat) (c : Cluster) (l : Launch) (d k j tid save : Nat) (id : W64) : Team :=
  { launch := c.launch, num := c.num * (l.rows * l.cols) + j, cluster := cid, cteam := j, die := d, core := k, resident := true, ended := false, killed := false
    size := 128 * l.lines, scratch := [], lines := [], lineWaiters := [], bars := List.replicate 16 Barrier.reset
    cfg := { mb := 0, nb := 0, kb := 0, nt := 0, lda := 0, ldb := 0 }, tiles := [], pins := [], held := [], sbuf := [], committed := []
    checkpoint := none, rollbacks := 0, avoid := none, save, saved := false, queue := [], admitted := tid, tstart := r.now d, evicts := 0
    banks := [], startEvent := id }

/-- A launched group as it starts. One of a launch that has diverged is parked (19 R497). -/
def newGroup (r : Run) (l : Launch) (d tid i : Nat) (id : W64) : Grp :=
  { Grp.start tid i (visibleWidth l) (w64 (l.codeBase + nthD 0 l.entries 0)) l.utvec id l.args with
    lastIssue := r.tick, parked := if l.diverged then some (0, r.now d) else none }

/-- A team starts on a core: TEAM_START, its groups and their areas; the first checkpoint of a protected one (17 R445). DEDUCED, log 104. -/
def startTeam (r : Run) (cid : Nat) (c : Cluster) (l : Launch) (d k j : Nat) : Run :=
  match takeTeamAreas r d l with
  | none => r
  | some (areas, save, r) =>
    let (id, r) := emit r (gdUnit d) 0x0003 (c.num * (l.rows * l.cols) + j) l.startEvent
    let (tid, r) := r.newId
    let r := { r with teams := r.teams.put tid (newTeam r cid c l d k j tid save id) }
    let r := (List.range l.ngroups).foldl (fun r i =>
      let ctx := (lowestFree Config.contexts (takenContexts r d k)).getD 0
      let (gid, r) := r.newId
      { r with groups := r.groups.put gid { newGroup r l d tid i id with ctx := some ctx, ctxArea := nthD 0 areas i } }) r
    let r := r.updCluster cid fun c => { c with teams := c.teams ++ [tid] }
    if !l.prot then r
    else
      let first := fun (gs : Sparse Grp) (r : Run) => r.updTeam tid fun t =>
        { t with checkpoint := some { area := 1, queue := [], groups := gs, cfg := t.cfg, tiles := t.tiles, bars := t.bars } }
      match writeCheckpoint r tid 1 l with
      | .ok (gs, r) => first gs r
      | .error e => settleCluster (commitStop (first (teamGroups r tid) r) e) cid

/-- A team that was evicted goes on at a core; its transfers and its accepted matrix work go on there. -/
def resumeTeam (r : Run) (tid d k : Nat) : Run :=
  let (n, r) := r.newId
  let queue := ((r.team tid).map (·.queue)).getD []
  let r := r.updTeam tid fun t => { t with resident := true, die := d, core := k, avoid := none, admitted := n, queue := [] }
  let r := r.updCore d k fun x => { x with matrix := x.matrix ++ queue }
  let r := { r with ops := r.ops.map fun e => if e.2.team = tid then (e.1, { e.2 with die := d, core := k }) else e }
  (liveGroups r tid).foldl (fun r e => if contextHeld r e.1 then r else resumeOn r e.1) r

/-- Whether the context pool has areas for every team of a new cluster (16 R431). -/
def areasFree (r : Run) (d : Nat) (l : Launch) (c : Cluster) : Bool :=
  !c.teams.isEmpty || ((List.range (l.rows * l.cols)).foldl (fun (acc : Option Run) _ =>
    acc.bind fun r => (takeTeamAreas r d l).map fun x => x.2.2) (some r)).isSome

/-- Whether a cluster waits for the answer to the record of a page of the context pool (16 R431). -/
def admissionHeld (r : Run) (l : Launch) (cid : Nat) : Bool := (r.part l.part).faults.any fun f => f.waiter == some (.admission cid)

/-- The cluster that a GD places next, and where. -/
def placeNext (r : Run) (d : Nat) : Option (Nat × Cluster × Launch × Nat) :=
  (gdOrder r d).findSome? fun x =>
    if admissionHeld r x.2.2 x.1 then none
    else (chooseRect r d x.2.2 x.2.1).bind fun base => if areasFree r d x.2.2 x.2.1 then some (x.1, x.2.1, x.2.2, base) else none

/-- The cluster of a GD that waits for a page of the context pool that is not there, without a record of it yet (16 R431). DEDUCED, log 51. -/
def poolWait (r : Run) (d : Nat) : Option (Nat × Req × FaultInfo) :=
  (gdOrder r d).findSome? fun x =>
    if (chooseRect r d x.2.2 x.2.1).isNone || areasFree r d x.2.2 x.2.1 || admissionHeld r x.2.2 x.1 then none
    else (poolFault r x.2.2.part d).map fun f => (x.1, f.1, f.2)

def placeAct (d : Nat) (r : Run) : Run :=
  match placeNext r d, poolWait r d with
  | some (cid, c, l, base), _ =>
    let r := r.updCluster cid fun c => { c with die := d, at_ := some base, evicted := false }
    if c.teams.isEmpty then
      (List.range (l.rows * l.cols)).foldl (fun r j => startTeam r cid c l d (rectCore base l.cols j) j) r
    else
      ((List.range c.teams.length).zip c.teams).foldl (fun r e =>
        if (r.team e.2).any (·.ended) then r else resumeTeam r e.2 d (rectCore base l.cols e.1)) r
  | none, some (cid, q, f) => (faultHeld r q f (.admission cid)).2
  | none, none => r

/-- Whether a GD has a cluster to place, or a page of the context pool to ask for. -/
def placeDue (r : Run) (d : Nat) : Bool := (placeNext r d).isSome || (poolWait r d).isSome

def execClusterPlace (die : Nat) (s : State) : Host.Outcome State Fault Refusal := rowRun (placeDue s.run die) s (placeAct die)

/-! Steal requests (R408). -/

/-- The die after one in a launch's die set. -/
def nextDie (l : Launch) (d : Nat) : Nat := ((l.dies.find? fun x => d < x).orElse fun _ => l.dies.head?).getD d

/-- Whether a GD is dry for a launch. -/
def gdDry (r : Run) (d : Nat) (lid : Nat) (l : Launch) : Bool :=
  let fresh : Cluster := { launch := lid, num := 0, die := d, at_ := none, evicted := false, leaving := false, ended := false, teams := [], slots := [] }
  l.dies.contains d && decide (1 < l.dies.length) && (chooseRect r d l fresh).isSome &&
    (unplacedAt r d).all fun x => x.2.1.launch != lid && decide (x.2.2.prio < l.prio)

/-- The cluster of a launch that a victim gives: its highest-numbered unplaced one, where it cannot place it now. -/
def stolen (r : Run) (d lid : Nat) : Option Nat :=
  let mine := (unplacedAt r d).filter fun x => x.2.1.launch == lid && !x.2.1.evicted
  (mine.foldl (fun (acc : Option (Nat × Cluster × Launch)) x =>
    match acc with
    | none => some x
    | some b => if b.2.1.num < x.2.1.num then some x else some b) none).bind fun x =>
      if (chooseRect r d x.2.2 x.2.1).isNone then some x.1 else none

/-- DEDUCED, log 99. -/
def stealDue (r : Run) (d lid : Nat) : Bool :=
  match (r.die d).steal with
  | some (x, _) => x == lid
  | none => (r.launch lid).any (gdDry r d lid)

/-- A request is sent, or acts at the die it is at (R408). DEDUCED, log 99. -/
def stealAct (d lid : Nat) (r : Run) : Run :=
  let put := fun (r : Run) (v : Option (Nat × Nat)) => r.updDie d fun x => { x with steal := v }
  match r.launch lid with
  | none => put r none
  | some l =>
    match (r.die d).steal with
    | none => put r (some (lid, nextDie l d))
    | some (_, at_) =>
      if at_ = d then put r none
      else
        match stolen r at_ lid with
        | some cid => put (r.updCluster cid fun c => { c with die := d }) none
        | none => put r (some (lid, nextDie l at_))

def execStealRequest (die launch : Nat) (s : State) : Host.Outcome State Fault Refusal :=
  rowRun (stealDue s.run die launch) s (stealAct die launch)

/-! Pre-emption (R410). -/

/-- Victims of a rectangle: whole clusters, and single groups. -/
structure Victims where
  clusters : List Nat
  groups : List Nat
  deriving DecidableEq, Repr

/-- The order of victim teams: lowest priority, then youngest. -/
def victimBefore (r : Run) (a b : Nat × Team) : Bool :=
  let pa := prioOf r a.2.launch
  let pb := prioOf r b.2.launch
  decide (pa < pb) || (pa == pb && decide (b.2.admitted < a.2.admitted))

def insertVictim (r : Run) (x : Nat × Team) : List (Nat × Team) → List (Nat × Team)
  | [] => [x]
  | y :: t => if victimBefore r x y then x :: y :: t else y :: insertVictim r x t

def victimTeams (r : Run) (d k prio : Nat) : List (Nat × Team) :=
  ((teamsOn r d k).filter fun e => decide (prioOf r e.2.launch < prio)).foldl (fun acc x => insertVictim r x acc) []

/-- A team's groups that hold a context, highest `%groupid` first. -/
def insertNum (x : Nat × Grp) : List (Nat × Grp) → List (Nat × Grp)
  | [] => [x]
  | y :: t => if y.2.num < x.2.num then x :: y :: t else y :: insertNum x t
def heldGroups (r : Run) (tid : Nat) : List (Nat × Grp) :=
  ((liveGroups r tid).filter fun e => e.2.ctx.isSome).foldl (fun acc x => insertNum x acc) []

def linesOfGrp (r : Run) (g : Grp) : Nat := ((launchOf r g).map Launch.groupLines).getD 0

/-- The groups with which evicting whole clusters frees contexts of a core, ended ones that still have theirs included (01 R37). -/
def freedBy (r : Run) (d k : Nat) (cs : List Nat) : List (Nat × Grp) :=
  (contextsOn r d k).filter fun e => (r.team e.2.team).any fun t => cs.contains t.cluster

/-- The clusters that one core must give besides those that go already: while its scratch pool, or the tiles that a resumed team needs, is
short, the next whole team goes with its cluster. -/
def coreClusters (r : Run) (d k prio : Nat) (x : Demand) (cs : List Nat) : Option (List Nat) :=
  let gone := (teamsOn r d k).filter fun e => cs.contains e.2.cluster
  let teams := (victimTeams r d k prio).filter fun e => !cs.contains e.2.cluster
  if (r.core d k).fenced || coreBlocked r d k prio then none
  else
    ((List.range (teams.length + 1)).find? fun n =>
      let out := gone ++ teams.take n
      decide (x.scratch ≤ poolFree r d k + (out.map fun e => e.2.size / 128).foldl (· + ·) 0) &&
        decide (tilesOn r d k - (out.map fun e => e.2.tiles.length).foldl (· + ·) 0 + x.tiles ≤ Config.tiles)).map fun n =>
      (cs ++ (teams.take n).map fun e => e.2.cluster).eraseDups

/-- The groups that one core must give besides: while contexts, register lines or spawn slots are short, the next group goes. -/
def coreGroups (r : Run) (d k prio : Nat) (x : Demand) (cs : List Nat) : Option (List Nat) :=
  let freed := freedBy r d k cs
  let rest := ((victimTeams r d k prio).filter fun e => !cs.contains e.2.cluster).flatMap fun e => heldGroups r e.1
  let lines := fun (gs : List (Nat × Grp)) => (gs.map fun e => linesOfGrp r e.2).foldl (· + ·) 0
  let enough := fun (m : Nat) =>
    let out := freed ++ rest.take m
    decide ((contextsOn r d k).length - out.length + x.groups ≤ Config.contexts) &&
      decide (linesUsed r d k - lines out + x.lines ≤ Config.registerLines) &&
      decide (spawnedOn r d k - (out.filter fun e => e.2.spawnSlot.isSome).length + x.spawned ≤ Config.spawnSlots)
  ((List.range (rest.length + 1)).find? enough).map fun m => (rest.take m).map (·.1)

/-- Every group that leaves its core. -/
def leaving (r : Run) (v : Victims) : List Nat :=
  ((v.clusters.flatMap fun c => (r.teams.filter fun e => e.2.cluster == c && e.2.resident && !e.2.ended).flatMap fun e =>
    (heldGroups r e.1).map (·.1)) ++ v.groups).eraseDups

/-- The clusters that must go for a die's holding slots to suffice, after those that go already, in the order of the victims of a rectangle.
The manual's order of victims names no holding slots. DEDUCED, log 100. -/
def slotClusters (r : Run) (d prio need : Nat) (cores cs : List Nat) : Option (List Nat) :=
  let held := fun (cs : List Nat) => (cs.map fun c => ((r.clusters.find c).map (·.slots.length)).getD 0).foldl (· + ·) 0
  let more := ((cores.flatMap fun k => victimTeams r d k prio).map fun e => e.2.cluster).eraseDups.filter fun c => !cs.contains c
  ((List.range (more.length + 1)).find? fun n => decide (slotsOn r d - held (cs ++ more.take n) + need ≤ Config.dieSlots)).map fun n => cs ++ more.take n

/-- What a rectangle gives: clusters first, core by core, then the groups that are short when those have gone. -/
def rectVictims (r : Run) (d base : Nat) (l : Launch) (c : Cluster) : Option Victims :=
  let places := (List.range (l.rows * l.cols)).map fun j => (rectCore base l.cols j, demandAt r l c j)
  (places.foldl (fun (acc : Option (List Nat)) x => acc.bind fun cs => coreClusters r d x.1 l.prio x.2 cs) (some [])).bind fun cs =>
    (slotClusters r d l.prio c.slots.length (rectCores l base) cs).bind fun cs =>
      (places.foldl (fun (acc : Option (List Nat)) x => acc.bind fun gs => (coreGroups r d x.1 l.prio x.2 cs).map fun more => gs ++ more)
        (some [])).map fun gs => { clusters := cs, groups := gs }

/-- What the first cluster of a GD evicts, where no rectangle admits it, and the rectangle: the one that evicts the fewest groups. -/
def preemptPlan (r : Run) (d : Nat) : Option (Nat × Victims) :=
  match (gdOrder r d).head? with
  | none => none
  | some (_, c, l) =>
    if (r.die d).state != .running || !(r.part l.part).pdies.getLsbD d || (chooseRect r d l c).isSome || !areasFree r d l c then none
    else
      (rectBases l.rows l.cols).foldl (fun (best : Option (Nat × Victims)) base =>
        match best, rectVictims r d base l c with
        | none, v => v.map (Prod.mk base)
        | some b, some v => if (leaving r v).length < (leaving r b.2).length then some (base, v) else some b
        | some b, none => some b) none

/-- Whether the room of a core is kept for the first cluster of its GD, of a higher priority, which is to be placed there or has
pre-empted there (R410). DEDUCED, log 100. -/
def coreKept (r : Run) (d k prio : Nat) : Bool :=
  match (gdOrder r d).head? with
  | none => false
  | some (_, c, l) =>
    decide (prio < l.prio) &&
      ((if areasFree r d l c then chooseRect r d l c else none).orElse fun _ => (preemptPlan r d).map (·.1)).any fun base => (rectCores l base).contains k

/-- A group whose eviction waits: it is in its handler with MSK set (14 R371). DEDUCED, log 100. -/
def masked (g : Grp) : Bool := g.super && g.msk

/-- Asks for one group: it leaves now, or at the end of its mask. DEDUCED, log 100. -/
def askEvict (r : Run) (d gid : Nat) : Run :=
  match r.grp gid with
  | none => r
  | some g =>
    if masked g then r.updGrp gid fun g => { g with heldEvict := if g.heldEvict.isSome then g.heldEvict else some (r.now d) } else evictGroup r gid

/-- A whole cluster leaves once none of its groups waits. DEDUCED, log 100. -/
def askCluster (r : Run) (d cid : Nat) : Run :=
  let gs := leaving r { clusters := [cid], groups := [] }
  if gs.any fun g => (r.grp g).any masked then gs.foldl (fun r g => askEvict r d g) r else evictCluster r cid

/-- Whether one of some clusters can be asked now: it is not leaving yet, and none of its groups waits, or one that does has not been asked. -/
def asksLeft (r : Run) (cs : List Nat) : Bool :=
  cs.any fun c => !(r.clusters.find c).any (·.leaving) &&
    let gs := leaving r { clusters := [c], groups := [] }
    !gs.any (fun g => (r.grp g).any masked) || gs.any fun g => (r.grp g).any fun x => masked x && x.heldEvict.isNone

/-- Whether asking changes something: some victim has not been asked before. -/
def preemptDue (r : Run) (d : Nat) : Bool :=
  (preemptPlan r d).any fun x =>
    (leaving r x.2).any (fun g => (r.grp g).any fun x => !x.evicting && !(masked x && x.heldEvict.isSome)) ||
      x.2.clusters.any fun c => (leaving r { clusters := [c], groups := [] }).isEmpty && !(r.clusters.find c).any (·.leaving)

def preemptAct (d : Nat) (r : Run) : Run :=
  match preemptPlan r d with
  | none => r
  | some (_, v) => v.groups.foldl (fun r g => askEvict r d g) (v.clusters.foldl (fun r c => askCluster r d c) r)

def execPreempt (die : Nat) (s : State) : Host.Outcome State Fault Refusal := rowRun (preemptDue s.run die) s (preemptAct die)

/-- Cycles for which MSK holds a pre-emption (14 R371), in ticks of 0.25 ns. -/
def preemptTicks : Nat := 2 * 65536

def limitDue (r : Run) (gid : Nat) : Bool :=
  (r.grp gid).any fun g => g.ctx.isSome && g.heldEvict.any fun t => decide (t.toNat + preemptTicks ≤ (r.now (dieOfGrp r g)).toNat)

def execPreemptLimit (group : Nat) (s : State) : Host.Outcome State Fault Refusal :=
  rowRun (limitDue s.run group) s fun r => evictGroup r group

/-! Resumption (R412). -/

/-- An evicted group of a resident team whose core has room for it, where its cluster is not to leave and no cluster of a higher priority has
made that room for itself. -/
def resumeDue (r : Run) (gid : Nat) : Bool :=
  (r.grp gid).any fun g =>
    g.handler.isNone && !g.ended && g.ctx.isNone && !contextHeld r gid &&
      (r.team g.team).any fun t => t.resident && !(r.clusters.find t.cluster).any (·.leaving) &&
        !(r.groups.any fun e => e.2.heldEvict.isSome && !e.2.ended && (r.team e.2.team).any fun x => x.cluster == t.cluster) &&
        !coreKept r t.die t.core (prioOf r t.launch) &&
        (launchOf r g).any fun l => groupRoom r t.die t.core l 1 && (!g.spawned || decide (spawnedOn r t.die t.core < Config.spawnSlots))

def execGroupResume (group : Nat) (s : State) : Host.Outcome State Fault Refusal :=
  rowRun (resumeDue s.run group) s fun r => resumeOn r group

end Sys2Proof.Machine
end

