-- ==== Sys2Proof/Machine/Paging.lean ====
section
/-! DEFINITION. The command ring of a partition (16 R427 to R430), its held fault records (R426), and writes of system and configuration
registers through the configuration ports (14 R381, R382, R386, R390, 16 R415, 20 R502). -/
namespace Sys2Proof.Machine

/-! The command ring (R427). -/

/-- The address and the words of the next command; none where there is none. DEDUCED, log 105. -/
def nextCommand (r : Run) (part : Nat) : Option (Nat × List W64) :=
  (r.part part).cb.bind fun cb =>
    if readWord r (cb.addr + 40) = cb.cqhead then none
    else
      let a := cb.cqbase + 32 * (cb.cqhead.toNat % 2 ^ cb.cqlog)
      some (a, (List.range 4).map fun i => readWord r (a + 8 * i))

def commandOp (ws : List W64) : Nat := fld (word ws 0) 7 0
/-- Whether W0 has a bit set that no command gives a meaning. DEDUCED, log 105. -/
def commandReserved (ws : List W64) : Bool := above (word ws 0) 8

/-- A command ends: W3 with DONE and STATUS, then CQHEAD, which only hardware advances. DEDUCED, log 141. -/
def endCommand (r : Run) (part a status : Nat) : Run :=
  match (r.part part).cb with
  | none => r
  | some cb =>
    let r := ownWrite r part (a + 24) (w64 (2 ^ 63 + status))
    (ownWrite r part (cb.addr + 48) (cb.cqhead + 1)).updCb part fun c => { c with cqhead := cb.cqhead + 1 }

/-- Runs the next command, where it is one of some OPs: what it does, and its STATUS. CQTAIL and the record are read through their home slice. -/
def commandAct (part : Nat) (act : Run → List W64 → Run × Nat) (r : Run) : Run :=
  match nextCommand r part, (r.part part).cb with
  | some (a, ws), some cb =>
    let (r, status) := act (ownRead (ownRead r part (cb.addr + 40) 8) part a 32) ws
    endCommand r part a status
  | _, _ => r

def commandDue (r : Run) (part : Nat) (ok : Nat → Bool) : Bool := (nextCommand r part).any fun x => ok (commandOp x.2)

/-- The range of an INVAL; none where the command is none. -/
def invalRange (ws : List W64) : Option (Nat × Nat) :=
  let va := (word ws 1).toNat
  if commandOp ws ≠ 1 || commandReserved ws || va % 0x10000 != 0 || above (word ws 2) 32 then none else some (va, fld (word ws 2) 31 0 * 0x10000)

/-- Whether an access of a partition that has been translated with some entry is still to be performed (R428, R430): accepted matrix work, also
that with which a team would resume, and buffered stores. -/
def leafInUse (r : Run) (part : Nat) (hit : Leaf → Bool) : Bool :=
  let work := fun (m : MatOp) => m.leaves.any fun e => hit e.2
  let store := fun (b : BufStore) => match b.dest with | .mem l => hit l | _ => false
  let mine := fun (tid : Nat) => (teamWhere r tid).1 == part
  r.dies.any (fun d => d.cores.any fun c => c.matrix.any fun m => mine m.team && work m) ||
    r.teams.any fun e => mine e.1 && !e.2.ended &&
      (e.2.queue.any work || e.2.buffered.any store || e.2.checkpoint.any fun c => c.queue.any work)

/-- INVAL (R428), and every OP that is no command. Stores that have issued are performed before it ends. DEDUCED, log 105. -/
def invalCommand (part : Nat) (r : Run) (ws : List W64) : Run × Nat :=
  match invalRange ws with
  | some x => (dropLeaves (settleLate r fun b => b.part == part) part x, 0)
  | none => (r, 3)

/-- It ends when every access translated with a discarded entry has been performed. -/
def invalDue (r : Run) (part : Nat) : Bool :=
  commandDue r part (fun op => op = 1 || op = 0 || decide (4 < op)) &&
    (nextCommand r part).any fun x => (invalRange x.2).all fun y => !leafInUse r part (inRange y)

def execInval (part : Nat) (s : State) : Host.Outcome State Fault Refusal := rowRun (invalDue s.run part) s (commandAct part (invalCommand part))

/-! RESOLVE (R429). -/

/-- Whether a waiter still waits on a tag. -/
def waitsOn (r : Run) (tag : Nat) : Waiter → Bool
  | .piece op i => (r.ops.find op).any fun o => (o.pieces[i]?).any fun p => p.state == .waiting tag
  | .handler gid => (r.grp gid).any fun g => g.handler.isSome
  | .lx die stepid => (findStep r die stepid).any fun st => st.held.any fun h => h.1 == tag
  | .context gid => (r.grp gid).any fun g => !g.ended
  | .admission cid => (r.clusters.find cid).any fun c => !c.ended && c.at_.isNone

/-- The request that a record is of. -/
def recordReq (r : Run) (part : Nat) (ws : List W64) (w : Waiter) : Req :=
  let super := match w with
    | .piece op _ => (r.ops.find op).any (·.super)
    | .handler gid => (r.grp gid).any (·.super)
    | .lx die stepid => (findStep r die stepid).any (·.super)
    | .context _ => true
    | .admission _ => true
  { part, die := fld (word ws 1) 47 43, core := fld (word ws 1) 42 36, ctx := fld (word ws 1) 35 30, launchid := w32 (fld (word ws 2) 63 32)
    pc := word ws 3, super, src := fld (word ws 1) 51 48, kind := fld (word ws 1) 55 52 }

/-- The cause of a rejected wait, with its KIND: that of a new walk, or PAGE_FAULT. DEDUCED, log 107. -/
def rejectCause (r : Run) (part : Nat) (ws : List W64) (w : Waiter) : Cause × Nat :=
  match (translate r (recordReq r part ws w) (word ws 0)).1 with
  | .error f => (faultCause f.kind, f.kind)
  | .ok _ => (.pageFault, fld (word ws 1) 63 56)

/-- A handler slice runs its region again, at its first entry with the registers of its burst. -/
def retryHandler (r : Run) (gid : Nat) : Run :=
  r.updGrp gid fun g =>
    let burst := (g.handler.map (·.burst)).getD []
    let keep := g.v.filter fun e => decide (8 ≤ e.1 / 128)
    { g with slices := g.slices.map Slice.resume, v := (burstRegs burst).foldl (fun m e => m.put e.1 e.2) keep, lat := [] }

/-- A context access is made again: by the instruction or the resumption that waits for it, or by the eviction that it is part of. -/
def retryContext (r : Run) (gid : Nat) : Run :=
  match r.grp gid with
  | none => r
  | some g =>
    let r := if g.slices.any fun s => s.wait.any fun w => w.kind == 11 then dropWaits r gid else r
    if g.evicting then evictGroup r gid else settleCluster r (clusterOf r gid)

/-- DEDUCED, log 108. -/
def retryWait (r : Run) (tag : Nat) : Waiter → Run
  | .piece op i => resumePiece r op i
  | .handler gid => retryHandler r gid
  | .lx die stepid => unholdStep r die stepid tag
  | .context gid => retryContext r gid
  | .admission _ => r

/-- A cluster whose areas are refused never runs: each of its teams is killed, with a record in the slot of its group 0 (16 R431, 17 R452, R453).
DEDUCED, log 107. -/
def rejectCluster (r : Run) (cid : Nat) (i : TrapInfo) : Run :=
  match r.clusters.find cid, (r.clusters.find cid).bind fun x => r.launch x.launch with
  | some x, some l =>
    (List.range (l.rows * l.cols)).foldl (fun r j =>
      let (tid, r) := r.newId
      let r := { r with teams := r.teams.put tid (newTeam r cid x l x.die 0 j tid (2 ^ 64) l.startEvent) }
      let (gid, r) := r.newId
      let r := { r with groups := r.groups.put gid { newGroup r l x.die tid 0 l.startEvent with ctxArea := 2 ^ 64 } }
      killWithRecord (r.updCluster cid fun c => { c with teams := c.teams ++ [tid] }) gid i) r
  | _, _ => r

/-- A rejected wait (R429, R431); a handler slice ends with `PAGE_FAULT` whatever the new walk finds (01 R44). DEDUCED, log 107. -/
def rejectWait (r : Run) (tag : Nat) (ws : List W64) (c : Cause) (kind : Nat) : Waiter → Run
  | .piece op i => failPiece r op i c kind (word ws 0)
  | .handler gid =>
    endHandler r gid (some { cause := .pageFault, detail := fld (word ws 1) 63 56, lane := 0, code := 0, pc := word ws 3, addr := word ws 0, aux := 0
                             deferred := false })
  | .lx die stepid => lxEnd (updStep r die stepid fun st => { st with held := st.held.filter fun h => h.1 != tag }) die stepid 4
  | .context gid => settleCluster (killWithRecord r gid (contextTrap c kind (word ws 0))) (clusterOf r gid)
  | .admission cid => rejectCluster r cid (contextTrap c kind (word ws 0))

def resolveCommand (part : Nat) (r : Run) (ws : List W64) : Run × Nat :=
  let tag := fld (word ws 1) 31 0
  if commandReserved ws || above (word ws 1) 32 || above (word ws 2) 1 then (r, 3)
  else
    match (r.part part).faults.find? fun x => x.tag == tag && x.written && x.waiter.any (waitsOn r tag) with
    | none => (r, 4)
    | some x =>
      let r1 := r.updPart part fun p => { p with faults := p.faults.filter fun y => y.tag != tag }
      match x.waiter with
      | none => (r1, 4)
      | some w =>
        if (word ws 2) = 0 then (retryWait r1 tag w, 0)
        else
          let (c, kind) := rejectCause r part x.words w
          (rejectWait r1 tag x.words c kind w, 0)

def execResolve (part : Nat) (s : State) : Host.Outcome State Fault Refusal :=
  rowRun (commandDue s.run part (· == 2)) s (commandAct part (resolveCommand part))

/-! PIN and UNPIN (R430). -/

/-- The frame that a command names; none where it names no frame that its partition could pin. DEDUCED, log 106. -/
def commandFrame (r : Run) (part : Nat) (ws : List W64) : Option PinnedFrame :=
  let w := word ws 2
  let core := w.getLsbD 2
  let size := pageBytes (fld w 1 0)
  let frame := (word ws 1).toNat
  let die := fld w 11 7
  let unit := fld w 18 12
  if commandReserved ws || above w 19 || fld w 6 3 != 0 || decide (2 ≤ fld w 1 0) || (core && fld w 1 0 != 0) || frame % size != 0 ||
      decide (Config.storageEnd ≤ frame) || !inShare (r.part part) frame || !((r.part part).pdies.getLsbD die && decide (die < Config.dies)) ||
      decide ((if core then Config.coresPerDie else Config.slices) ≤ unit) then none
  else some { frame, size, core, die, unit }

/-- Bytes pinned in an L2 slice. -/
def slicePinned (r : Run) (die unit : Nat) : Nat :=
  ((r.pinned.filter fun p => !p.core && p.die == die && p.unit == unit).map (·.size)).foldl (· + ·) 0

/-- Pages that a core holds at most, and pinned bytes of a slice (04 R117, R137). -/
def corePinMax : Nat := 24
def slicePinBytes : Nat := 0x200000

/-- A frame that becomes pinned is copied into its unit (R430): no line of it stays in a slice, and a slice that holds the copy evicts what the
copy takes the room of. -/
def pinFrame (r : Run) (part : Nat) (p : PinnedFrame) : Run :=
  let inside := fun (line : Nat) => decide (p.frame ≤ 128 * line) && decide (128 * line < p.frame + p.size)
  let clear := fun (d : Die) => { d with held := d.held.filter fun e => !inside e.1, replicas := d.replicas.filter fun e => !inside e.line }
  let r := { r with pinned := r.pinned ++ [p], dies := r.dies.map clear }
  let r := r.count part 2 2 p.size
  if p.core then r else sliceRoom (p.size / 128) r part p.die p.unit

/-- DEDUCED, log 106. -/
def pinCommand (part : Nat) (r : Run) (ws : List W64) : Run × Nat :=
  match commandFrame r part ws with
  | none => (r, 3)
  | some p =>
    if r.pinned.any fun x => overlaps x.frame x.size p.frame p.size then (r, 3)
    else if p.core && !(teamsOn r p.die p.unit).isEmpty then (r, 1)
    else if (if p.core then decide (corePinMax ≤ corePins r p.die p.unit) else decide (slicePinBytes < slicePinned r p.die p.unit + p.size)) then (r, 2)
    else (pinFrame r part p, 0)

def execPin (part : Nat) (s : State) : Host.Outcome State Fault Refusal :=
  rowRun (commandDue s.run part (· == 3)) s (commandAct part (pinCommand part))

/-- DEDUCED, log 106. -/
def unpinCommand (part : Nat) (r : Run) (ws : List W64) : Run × Nat :=
  match commandFrame r part ws with
  | none => (r, 3)
  | some p =>
    if !r.pinned.contains p then (r, 4)
    else if p.core && !(teamsOn r p.die p.unit).isEmpty then (r, 1)
    else let r := settleLate r fun _ => true
         (({ r with pinned := r.pinned.filter (· != p) }).count part 2 3 p.size, 0)

/-- It waits until every access in progress on the pinned copy has been performed. -/
def unpinDue (r : Run) (part : Nat) : Bool :=
  commandDue r part (· == 4) && (nextCommand r part).any fun x =>
    (commandFrame r part x.2).all fun p =>
      !r.pinned.contains p || !(List.range Config.partitions).any fun n => leafInUse r n fun l => overlaps l.pbase l.size p.frame p.size

def execUnpin (part : Nat) (s : State) : Host.Outcome State Fault Refusal := rowRun (unpinDue s.run part) s (commandAct part (unpinCommand part))

/-! Held records (R426). -/

/-- The oldest held record, where the queue has room for it. DEDUCED, log 140. -/
def heldFault (r : Run) (part : Nat) : Option FaultRec :=
  ((r.part part).faults.find? fun x => !x.written).filter fun x => (putRecord r part x.words).1

def heldFaultAct (part : Nat) (r : Run) : Run :=
  match heldFault r part with
  | none => r
  | some x =>
    (putRecord r part x.words).2.updPart part fun p =>
      { p with faults := p.faults.map fun y => if y.tag = x.tag then { y with written := true } else y }

def execFaultRecordWrite (part : Nat) (s : State) : Host.Outcome State Fault Refusal :=
  rowRun (heldFault s.run part).isSome s (heldFaultAct part)

/-! Writes through the configuration ports. -/

/-- Whether a port may write a value to a system register of a partition (R382). DEDUCED, log 109. -/
def portWrites (r : Run) (part n : Nat) (v : W64) : Bool := decide (part < Config.partitions) && sysAccepts (r.part part) n v

def execPtroot (part : Nat) (value : W64) (s : State) : Host.Outcome State Fault Refusal :=
  rowServed (portWrites s.run part 0x028 value) s fun x => (setPtroot x.1 part value, x.2)

/-- Advances the generation of an entry of the capability table (R386); an entry that cannot be read or written stays. DESIGN CHOICE, log 166. -/
def revokeAct (part : Nat) (v : W64) (r : Run) : Run :=
  let a := (r.part part).capbase.toNat + 16 * v.toNat
  match launcherRead r part a 1 with
  | .ok (ws, r) => launcherPut r part a (revoked (nthD 0 ws 0))
  | .error (_, r) => r

def execCaprevoke (part : Nat) (value : W64) (s : State) : Host.Outcome State Fault Refusal :=
  rowServed (portWrites s.run part 0x01A value) s fun x => (revokeAct part value x.1, x.2)

def execWinsync (part : Nat) (value : W64) (s : State) : Host.Outcome State Fault Refusal :=
  rowServed (portWrites s.run part 0x021 value && !windowBusy s.run part value.toNat (s.run.now (partDie s.run part))) s
    fun x => (syncWindow x.1 part (partDie x.1 part) value.toNat, x.2)

/-- Whether a die holds a resident team, an engine operation or a step (R381, 20 R502). A transfer of an evicted team is where its team goes on. DEDUCED, log 110. -/
def dieBusy (r : Run) (d : Nat) : Bool :=
  r.teams.any (fun e => e.2.resident && !e.2.ended && e.2.die == d) || r.ops.any (fun e => e.2.die == d && opRuns r e.2) ||
    r.steps.any fun st => st.die == d && st.active

/-- A write of PDIES (R381, 19 R489): it is ignored where a die that it adds or removes holds work, or one that it adds belongs to another
partition (R379); a partition that gets its first die counts
from 0. DEDUCED, log 110. -/
def setPdies (r : Run) (part : Nat) (v : W64) : Run :=
  let old := (r.part part).pdies
  let new : BitVec 24 := v.truncate 24
  let others := fun (d : Nat) => (List.range Config.partitions).any fun n => n != part && (r.part n).pdies.getLsbD d
  if (List.range Config.dies).any fun d => old.getLsbD d != new.getLsbD d && (dieBusy r d || (new.getLsbD d && others d)) then r
  else r.updPart part fun p =>
    { p with pdies := new, banks := if old = 0 then List.replicate 6 (List.replicate 16 0) else p.banks }

/-- A write of a die's control word (20 R502): SLOT and CMD are written, ERR is cleared by a 1. A command takes place as its own row. -/
def setControl (r : Run) (die : Nat) (v : W64) : Run :=
  r.updDie die fun d => { d with slot := v.getLsbD 10, cmd := fld v 3 0, err := d.err && !v.getLsbD 11 }

/-- A new queue table: queues of which the launcher holds no record count from 0 there. DEDUCED, log 109. -/
def setQueueTable (r : Run) (part : Nat) (v : W64) : Run :=
  r.updPart part fun p => { p with queueTable := v, queues := p.queues.filter fun e => !e.2.recs.isEmpty }

end Sys2Proof.Machine
end

