-- ==== Sys2Proof/Machine/ConfigSpace.lean ====
section
/-! DEFINITION. The configuration space (20 R499, R500): its blocks, what their words read, and writes. -/
namespace Sys2Proof.Machine

/-! Layout. The manual gives the bodies; the offsets of the entries are the model's. DESIGN CHOICE, log 159. -/

/-- Blocks by identifier: words of the body. -/
def blockWords (id : Nat) : Nat :=
  match id with
  | 1 => 3 | 2 => 144 | 3 => 48 | 4 => 256 | 5 => 2 | 6 => 96 | 7 => 4 | 8 => 4 | 9 => 24 | _ => 0

def blockIds : List Nat := [1, 2, 3, 4, 5, 6, 7, 8, 9, 10]

/-- Bytes of an entry, its header included. -/
def blockLen (id : Nat) : Nat := 8 + 8 * blockWords id

/-- Where an entry begins: the entries follow the two words at the front, in the order of their identifiers. -/
def blockStart (id : Nat) : Nat := (List.range id).foldl (fun n j => if j = 0 then n else n + blockLen j) 16

/-- The header of an entry (R499). -/
def blockHeader (id : Nat) : W64 :=
  w64 (id * 2 ^ 48 + 2 ^ 40 + blockLen id * 2 ^ 20 + (if id = 10 then 0 else blockStart (id + 1)))

/-- The entry at an offset, and the word of its body there, or its header. -/
def blockAt (ofs : Nat) : Option (Nat × Option Nat) :=
  (blockIds.find? fun id => decide (blockStart id ≤ ofs) && decide (ofs < blockStart id + blockLen id)).map fun id =>
    (id, if ofs = blockStart id then none else some ((ofs - blockStart id) / 8 - 1))

/-! What the words read. -/

def modCode : ModState → Nat
  | .booting => 0 | .ready => 1 | .recovery => 2

/-- A port's status pair (18 R462). -/
def portWord (p : Port) (second : Bool) : W64 :=
  if second then w64 (p.replays * 2 ^ 32 + p.stalerep) else w64 (p.laneok.toNat * 2 ^ 8 + stateCode p.state * 2 ^ 4 + p.width * 2 ^ 2 + p.reqw)

/-- A key slot's word (R509). -/
def keyWord (k : KeySlot) : W64 := w64 (k.keyid.toNat * 2 ^ 32 + bit k.loaded * 2 ^ 8 + k.part)

/-- A word of a health block (R506). -/
def healthWord (d : Die) (i : Nat) : W64 :=
  match i with
  | 0 => w64 (d.eol * 2 ^ 56 + d.age * 2 ^ 48 + d.tmax * 2 ^ 40 + d.tnow * 2 ^ 32 + d.vcore * 2 ^ 16 + d.power)
  | 1 => w64 (d.cehour * 2 ^ 32 + d.uecount % 2 ^ 32)
  | 2 => w64 (d.rows % 2 ^ 16 * 2 ^ 48 + d.pending % 2 ^ 16 * 2 ^ 32)
  | _ => 0

def fwStateCode : FwState → Nat
  | .empty => 0 | .pending => 1 | .active => 2 | .invalid => 3

/-- A word of the firmware slot table (R511). -/
def slotWord (x : FwSlot) : W64 := w64 (x.svn * 2 ^ 48 + fwStateCode x.state * 4)

def dieCode : DieState → Nat
  | .running => 0 | .draining => 1 | .drained => 2 | .quarantined => 3 | .restarting => 4 | .failed => 5

def fencedCount (d : Die) : Nat := (d.cores.filter (·.fenced)).length

/-- A die's control word (R502). -/
def controlWord (d : Die) : W64 :=
  w64 (fencedCount d * 2 ^ 16 + d.spares * 2 ^ 12 + bit d.err * 2 ^ 11 + bit d.slot * 2 ^ 10 + dieCode d.state * 2 ^ 4 + d.cmd)

/-- A word of a block's body (R500). The words of REPAIR are the model's. DESIGN CHOICE, log 159. -/
def blockWord (r : Run) (m : Mgmt) (id i : Nat) : W64 :=
  match id with
  | 1 => nthD 0 [m.serial, w64 r.incarn.toNat, w64 (modCode m.state)] i
  | 2 => portWord (m.port (i / 2)) (i % 2 == 1)
  | 3 => if i % 2 = 0 then (r.part (i / 2)).queueTable else w64 (bit (r.part (i / 2)).queueEnable)
  | 4 => (r.keys[i]?).elim 0 keyWord
  | 5 => w64 (nthD 0 [m.pending.length, m.hardRepairs] i)
  | 6 => healthWord (r.die (i / 4)) (i % 4)
  | 7 => slotWord (nthD FwSlot.reset (m.mmpSlots ++ m.dcpSlots) i)
  | 8 => nthD 0 [m.wptr, m.filter.zeroExtend 64, m.dropped, m.protect] i
  | 9 => controlWord (r.die i)
  | _ => 0

/-- A word of the configuration space (R499); outside of every entry it reads 0. DESIGN CHOICE, log 159. -/
def configWord (r : Run) (m : Mgmt) (ofs : Nat) : W64 :=
  if ofs = 0 then w64 (2 ^ 32 + 0x4B594354)
  else if ofs = 8 then w64 (blockStart 1)
  else
    match blockAt ofs with
    | some (id, none) => blockHeader id
    | some (id, some i) => blockWord r m id i
    | none => 0

/-! Writes. -/

/-- Whether an offset is that of an aligned word of the space. -/
def configOfs (ofs : Nat) : Bool := decide (ofs < 2 ^ 20) && ofs % 8 == 0

/-- The register at an offset that can be written as a whole; none where the word is read-only or has a behaviour of its own. -/
def regAt (ofs : Nat) : Option ConfigReg :=
  match blockAt ofs with
  | some (3, some i) => some (if i % 2 = 0 then .queueTable (i / 2) else .queueEnable (i / 2))
  | some (8, some 1) => some .shoalFilter
  | some (9, some d) => some (.dieControl d)
  | _ => none

/-- Whether a port takes a write. One of a read-only register or word is taken and ignored (00 R10); every block of the space has such words, its
header among them (20 R499). -/
def configDue (r : Run) (reg : ConfigReg) (v : W64) : Bool :=
  match reg with
  | .sys part n => portWrites r part n v && ([0x000, 0x001, 0x002, 0x003, 0x004, 0x005, 0x006, 0x007, 0x008, 0x010, 0x011, 0x012, 0x013, 0x018, 0x019, 0x020, 0x030, 0x031].contains n)
  | .queueTable part => decide (part < Config.partitions)
  | .queueEnable part => decide (part < Config.partitions)
  | .shoalFilter => true
  | .dieControl die => decide (die < Config.dies)
  | .readOnly block => blockIds.contains block
  | .word ofs => configOfs ofs

/-- A write of a register by its name. DEDUCED, log 109. -/
def configPut (reg : ConfigReg) (v : W64) (s : Run × Mgmt) : Run × Mgmt :=
  match reg with
  | .sys part n => (if n = 0x001 then setPdies s.1 part v else sysPut s.1 part n v, s.2)
  | .queueTable part => (setQueueTable s.1 part v, s.2)
  | .queueEnable part => (s.1.updPart part fun p => { p with queueEnable := v.getLsbD 0 }, s.2)
  | .shoalFilter => (s.1, { s.2 with filter := v.truncate 32 })
  | .dieControl die => (setControl s.1 die v, s.2)
  | .readOnly _ | .word _ => s

/-- A write of a register, or of the word at an offset: REQW of a port takes effect as its own row does, but for the reserved value 3 (18 R462).
DEDUCED, log 109. -/
def configAct (reg : ConfigReg) (v : W64) (s : Run × Mgmt) : Run × Mgmt :=
  match reg with
  | .word ofs =>
    match regAt ofs, blockAt ofs with
    | some reg, _ => configPut reg v s
    | none, some (2, some i) => if i % 2 = 0 && fld v 1 0 != 3 then (s.1, reqwAct (i / 2) (fld v 1 0) s.2) else s
    | none, _ => s
  | reg => configPut reg v s

def execConfigWrite (reg : ConfigReg) (value : W64) (s : State) : Host.Outcome State Fault Refusal :=
  rowServed (configDue s.run reg value) s (configAct reg value)

/-- A read of a word of the space, as the control node asks for it (20 R499). -/
def readConfig (ofs : Nat) (s : State) : Host.Outcome State Fault Refusal :=
  rowBoth (served s.mgmt && configOfs ofs) s fun x => (x.1, answer x.2 (.word (configWord x.1 x.2 ofs)))

end Sys2Proof.Machine
end

