-- ==== Sys2Proof/Machine/Control.lean ====
section
/-! DEFINITION. Control flow and synchronisation of class 4 (01 R26 to R38, 09 R268 to R272, R277 to R284). -/
namespace Sys2Proof.Machine

/-! Branches (R26, R268 to R271). -/

/-- The distinct next addresses of a slice's lanes, ascending, with their lanes (R269). -/
def insertPath (pc : W64) (k : Nat) : List (W64 × BitVec 4) → List (W64 × BitVec 4)
  | [] => [(pc, 1#4 <<< k)]
  | (a, m) :: t =>
    if pc = a then (a, m ||| 1#4 <<< k) :: t
    else if pc.toNat < a.toNat then (pc, 1#4 <<< k) :: (a, m) :: t
    else (a, m) :: insertPath pc k t

def slicePaths (s : Slice) (next : Nat → W64) : List (W64 × BitVec 4) :=
  ((List.range 4).filter fun k => s.mask.getLsbD k).foldl (fun ps k => insertPath (next k) k ps) []

/-- The two sides of a slice under a vote: the taken one first, whatever their addresses (R26). -/
def voteSides (tgt fall : W64) (taken : BitVec 4) (s : Slice) : List (W64 × BitVec 4) :=
  [(tgt, s.mask &&& taken), (fall, s.mask &&& ~~~taken)].filter fun p => p.2 != 0

/-- How a branch moves slices: the address where a slice without lanes goes, the ways on of a slice with their lanes, of which the first becomes
current, whether a JOIN entry is pushed, and the reconvergence point. -/
structure Branch where
  none_ : W64
  ways : Nat → Slice → List (W64 × BitVec 4)
  join : Bool
  rpc : Option W64

/-- Stack entries that a slice needs (R26, R269, R271). -/
def Branch.need (b : Branch) (n : Nat) (s : Slice) : Nat :=
  let k := (b.ways n s).length
  if k ≤ 1 then 0 else if b.join then k else k - 1

/-- A slice goes on at an address, from a branch of `len` bytes at `from_`. A taken backward branch is a back-edge: where the span from its target to
itself fits 64 words, the loop buffer takes the words of the span that the slice has decoded, but none that an `ICINV` has made stale (09 R290, R291). -/
def Slice.goTo (pc from_ : W64) (len : Nat) (s : Slice) : Slice :=
  if pc.toNat ≤ from_.toNat then
    let e := from_.toNat + len
    let fits := decide (e ≤ pc.toNat + 512)
    { s with pc, stale := [], staleLeft := 0, loopStale := false
             loopAt := if fits then some (pc, e) else none
             buffer := if s.loopStale then [] else if fits then s.buffer.filter fun w => decide (pc.toNat ≤ w.1) && decide (w.1 < e) else s.buffer }
  else { s with pc }

/-- DEDUCED, log 138. -/
def Branch.move (b : Branch) (from_ : W64) (len n : Nat) (s : Slice) : Slice :=
  match b.ways n s with
  | [] => s.goTo b.none_ from_ len
  | [(pc, _)] => s.goTo pc from_ len
  | (pc, m) :: rest =>
    let e : W64 × BitVec 4 → RcEntry := fun p => { pc := some p.1, mask := p.2, rpc := if b.join then b.rpc else s.crp, kind := .path }
    let join : List RcEntry := if b.join then [{ pc := b.rpc, mask := s.mask, rpc := s.crp, kind := .join }] else []
    (Slice.goTo pc from_ len { s with mask := m, crp := if b.join then b.rpc else s.crp, stack := rest.map e ++ join ++ s.stack }).beginRegion

/-- An issuing slice as it stood before the branch. -/
def Ctx.sliceOf (c : Ctx) (n : Nat) : Slice := (c.grp.slice n).getD (Slice.start c.pc)

/-- Every issuing slice has the free stack entries that the branch needs (R26, R268). -/
def Branch.fits (b : Branch) (c : Ctx) : Bool := c.slices.all fun n => decide ((c.sliceOf n).stack.length + b.need n (c.sliceOf n) ≤ 8)

/-- The issuing slices move, and part by R25. A slice that diverges begins a region. -/
def Branch.moves (b : Branch) (c : Ctx) (r : Run) : Run :=
  let r := if c.slices.any fun n => b.need n (c.sliceOf n) != 0 then groupRegionStart r c.gid else r
  r.updGrp c.gid fun g => (c.slices.foldl (fun g n => g.updSlice n (b.move c.pc c.len n)) g).parted c.frag

/-- A branch of the issuing fragment: the stack check of every slice before any changes. -/
def branch (c : Ctx) (r : Run) (b : Branch) : Except Stop Run := if b.fits c then .ok (b.moves c r) else .error c.illegal

def branchTarget (c : Ctx) : W64 := c.pc + wrap64 (8 * (tofsOf c.f).toInt)
/-- The reconvergence point: RCOFS 0 is none (R26). DEDUCED, log 138. -/
def branchRpc (c : Ctx) : Option W64 := if rcofsOf c.f = 0 then none else some (c.pc + wrap64 (8 * (rcofsOf c.f).toInt))

/-- The vote of `BRA` and `CALL`: the guard is true in the active lanes. A slice without an enabled lane goes to the target. -/
def voteBranch (c : Ctx) : Branch :=
  { none_ := branchTarget c, ways := fun n s => voteSides (branchTarget c) c.nextPc (nibble c.active n) s, join := true, rpc := branchRpc c }

def execBra (f : Fields) (s : State) : Host.Outcome State Fault Refusal :=
  issue (.bra f) { body := fun c r => branch c r (voteBranch c) } s

/-- CALL (R270): the link is the code offset of the next instruction. Latches that a divergence clears, it clears before the link shifts in (02 R71);
with no active lane nothing is written, and every slice goes on at the next instruction. -/
def execCall (f : Fields) (s : State) : Host.Outcome State Fault Refusal :=
  issue (.call f)
    { body := fun c r => do
        let link := (c.nextPc - w64 (codeBase r c.grp c.grp.super)).toNat
        if c.active = 0 then .ok r
        else
          let r ← branch c r (voteBranch c)
          writeRes r c .n32 fun _ => link % 2 ^ 32 } s

/-- The next address of a lane under `BRX` and `RET`: A's code offset, or, where it is not active, the instruction after (R269, R271). -/
def laneNext (c : Ctx) (r : Run) (l : Nat) : W64 :=
  if c.active.getLsbD l then w64 (codeBase r c.grp c.grp.super + c.aAs r .n32 l) else c.nextPc

/-- `BRX` with a JOIN entry, `RET` without one (R269, R271). -/
def laneBranch (c : Ctx) (r : Run) (join : Bool) : Branch :=
  { none_ := c.nextPc, ways := fun n s => slicePaths s fun k => laneNext c r (4 * n + k), join, rpc := if join then branchRpc c else none }

/-- Per-lane targets of `BRX` and `RET` with their checks (R268). -/
def offsetBranch (c : Ctx) (r : Run) (join : Bool) : Except Stop Run :=
  let ofs := fun (l : Nat) => c.aAs r .n32 l
  match c.lanes.find? fun l => ofs l % 8 != 0 with
  | some l => .error (c.fail .misaligned l)
  | none =>
    match c.lanes.find? fun l => decide (codeSize r c.grp c.grp.super ≤ ofs l) with
    | some l => .error (c.fail .illegalOperand l)
    | none => branch c r (laneBranch c r join)

def execBrx (f : Fields) (s : State) : Host.Outcome State Fault Refusal :=
  issue (.brx f) { body := fun c r => offsetBranch c r true } s
def execRet (f : Fields) (s : State) : Host.Outcome State Fault Refusal :=
  issue (.ret f) { body := fun c r => offsetBranch c r false } s

/-! Joins and paths (R29 to R31, R35). -/

/-- What is waited for after an instruction that has completed: its slices go on waiting (19 R480). -/
def waitAfter (c : Ctx) (r : Run) (waits : Slice → Bool) (kind reason : Nat) (object : W64) : Run :=
  let now := r.now c.t.die
  r.updGrp c.gid fun g => g.updSlices c.slices fun s =>
    if waits s then { s with wait := some { kind, reason, object, since := now, aux := 0, switch := true } } else s

/-- REGANG (R29, R272). -/
def execRegang (f : Fields) (s : State) : Host.Outcome State Fault Refusal :=
  issue (.regang f)
    { body := fun c r =>
        let set := namedSlices (maskReg c.grp (regIndex c.f.a 16)) c.grp.width
        if set = 0 || !c.slices.all (fun n => set.getLsbD n) then .error c.illegal
        else .ok (joinAll 32 (r.updGrp c.gid fun g => g.updSlices c.slices fun s => { s with arrived := some (set, s.pc) }) c.gid)
      fin := fun c r => waitAfter c r (fun s => s.arrived.isSome) 2 12 ((maskReg c.grp (regIndex c.f.a 16)).truncate 64) } s

/-- SPLITS (R31). -/
def execSplits (f : Fields) (s : State) : Host.Outcome State Fault Refusal :=
  issue (.splits f)
    { body := fun c r =>
        let ns := if xbit c.f 0 then c.grp.liveSlices else c.slices
        .ok (writeMask r c c.f.d (ns.foldl (fun m n => m ||| sliceBits n 0xF) 0)) } s

/-- BACKOFF in one slice (R35): the lowest PATH entry becomes current. `pc` is already the address after. -/
def Slice.backoff (s : Slice) : Slice :=
  let up := s.stack.reverse
  match up.findIdx? fun e => e.kind == .path with
  | none => s
  | some k =>
    match up[k]? with
    | none => s
    | some e =>
      let new : RcEntry := { pc := some s.pc, mask := s.mask, rpc := s.crp, kind := .path }
      { s with pc := e.pc.getD s.pc, mask := e.mask, crp := e.rpc, stack := new :: (up.eraseIdx k).reverse }.beginRegion

def execBackoff (f : Fields) (s : State) : Host.Outcome State Fault Refusal :=
  issue (.backoff f)
    { body := fun c r => .ok (r.updGrp c.gid fun g => (g.updSlices c.slices Slice.backoff).parted c.frag) } s

/-! Team barriers (R277, R278). -/

def barNumber (c : Ctx) : Nat := xbits c.f 3 0
def curBarrier (r : Run) (c : Ctx) : Barrier := nthD Barrier.reset (curTeam r c).bars (barNumber c)

/-- The generation of a slice's `BARA` that no `BAR` has matched. DEDUCED, log 12. -/
def Slice.splitPhase (s : Slice) (n : Nat) : Option Nat := (s.bara.find? fun e => e.1 == n).map (·.2)

/-- The arrival of slices at a barrier's generation. DEDUCED, log 12. -/
def arriveSlices (r : Run) (c : Ctx) (ns : List Nat) : Run :=
  let n := barNumber c
  let bits := ns.foldl (fun (m : BitVec 32) k => m ||| 1#32 <<< k) 0
  let r := r.updTeam c.grp.team fun t => { t with bars := updAt t.bars n fun b =>
    { b with spawnedForm := some (b.spawnedForm.getD (xbit c.f 4))
             arrived := b.arrived.put c.gid (Sparse.get 0 b.arrived c.gid ||| bits) } }
  r.updTeam c.grp.team fun t => { t with bars := updAt t.bars n fun b =>
    if c.grp.spawned && b.spawnedForm == some false && (r.grp c.gid).any (fun g => arrivedGroup b (c.gid, g)) && !b.joined.contains c.gid then
      { b with joined := b.joined ++ [c.gid] } else b }

/-- BAR and BARA. Every issue is held to the `.SPAWNED` value of the current generation, and the first one fixes it (R277). A slice whose `BARA` a
`BAR` matches waits for that generation, or leaves at once; a later `BARA` supersedes the group's unmatched ones (R278). DEDUCED, log 12. -/
def barBody (bara : Bool) (c : Ctx) (r : Run) : Except Stop Run :=
  let n := barNumber c
  let b := curBarrier r c
  let phase := fun (k : Nat) => if bara then none else (c.sliceOf k).splitPhase n
  let passed := fun (k : Nat) => (phase k).any fun g => decide (g < b.gen)
  let rest := c.slices.filter fun k => !passed k
  let drop := fun (s : Slice) => { s with bara := s.bara.filter fun e => e.1 != n }
  let older := fun (s : Slice) => { s with bara := s.bara.filter fun e => !(e.1 == n && decide (e.2 < b.gen)) }
  if b.spawnedForm.any (· != xbit c.f 4) then .error c.illegal
  else if bara && arrivedGroup b (c.gid, c.grp) then .error c.illegal
  else
    let r := arriveSlices r c (rest.filter fun k => (phase k).isNone)
    let mark := fun (s : Slice) =>
      if bara then { drop s with bara := (drop s).bara ++ [(n, b.gen)] } else { drop s with bar := some (n, b.gen) }
    let r := r.updGrp c.gid fun g =>
      ((if bara then { g with slices := g.slices.map older } else g).updSlices (c.slices.filter passed) drop).updSlices rest mark
    .ok (checkBarrier r c.grp.team n)

def barWork (bara : Bool) : Work :=
  { body := barBody bara, fin := fun c r => waitAfter c r (fun s => s.bar.isSome) 1 6 (w64 (barNumber c)) }

def execBar (f : Fields) (s : State) : Host.Outcome State Fault Refusal := issue (.bar f) (barWork false) s
def execBara (f : Fields) (s : State) : Host.Outcome State Fault Refusal := issue (.bara f) (barWork true) s

/-! Ends and beginnings (R37, R279 to R283). -/

/-- The active lanes end (R37). -/
def endActive (c : Ctx) (r : Run) : Run :=
  r.updGrp c.gid fun g =>
    (c.slices.foldl (fun g n => g.updSlice n fun s => (s.endLanes (nibble c.active n)).shed) g).parted c.frag

/-- EXIT (R279): what is outstanding is awaited, after a protected group's buffered `RST`s have left; then the lanes end, and a protected team
commits (01 R54). Where that commit does not take place, no lane has ended. DEDUCED, log 41. -/
def exitBody (c : Ctx) (r : Run) : Except Stop Run := do
  let leave := fun (r : Run) => leaveGroup (endActive c r) c.gid
  if c.active = 0 then .ok r
  else
    sendBuffered c r fun _ => true
    awaitStores c false fun _ => true
    if c.shadowed then
      match commitAfter r c.grp.team leave with
      | (r, true) => .ok (performCommitted r c.grp.team)
      | (_, false) => .error (.undone fun r => (commitAfter r c.grp.team leave).1)
    else .ok (leave r)

def execExit (f : Fields) (s : State) : Host.Outcome State Fault Refusal :=
  issue (.exit f) { body := exitBody, fin := fun c r => tryEndTeam r c.grp.team } s

/-- REGION (R280). It ends the state in which a delegable cause goes to the supervisor (14 R369). -/
def execRegion (f : Fields) (s : State) : Host.Outcome State Fault Refusal :=
  issue (.region f) { body := fun c r => .ok (r.updGrp c.gid fun g => { g with uin := false }) } s

/-- A destination of `SPAWN` that is no `g` register, where the status is not discarded (R281). -/
def spawnDest (f : Fields) : Bool := f.w || (match f.d with | .g _ => true | _ => false)

/-- SPAWN (R281, 01 R40): the entry index is held to NENTRY before D to a `g` register; with no active lane the index is not looked at.
DESIGN CHOICE, log 156. -/
def execSpawn (f : Fields) (s : State) : Host.Outcome State Fault Refusal :=
  issue (.spawn f)
    { body := fun c r =>
        if c.active = 0 then if spawnDest c.f then .ok r else .error c.illegal
        else
          match c.l.entries[xbits c.f 5 0]? with
          | none => .error (c.fail .spawnEntry (c.lowest.getD 0))
          | some ofs =>
            if !spawnDest c.f then .error c.illegal
            else
              let (status, r) :=
                match spawnGroup r c.gid c.grp c.t c.l (w64 (c.l.codeBase + ofs)) (w64 (readUniform r c c.f.a .n64)) with
                | some (num, r) => (w64 num, r)
                | none => (0xFFFFFFFFFFFFFFFF, r)
              if c.f.w then .ok r
              else
                match c.f.d with
                | .g n => .ok (r.updGrp c.gid fun g => setG g n.toNat status)
                | _ => .ok r } s

/-- LIVE (R282, 02 R77): dead registers read zero. -/
def execLive (f : Fields) (s : State) : Host.Outcome State Fault Refusal :=
  issue (.live f)
    { body := fun c r =>
        let named := ((List.range 64).filter fun i => c.f.w2.getLsbD i).map (64 * xbits c.f 1 0 + ·)
        if named.any (fun k => decide (c.l.vregs ≤ k)) || !c.grp.liveSlices.all (fun n => c.slices.contains n) then .error c.illegal
        else .ok (r.updGrp c.gid fun g =>
          { g with v := g.v.filter fun e => !named.contains (e.1 / 128), dirty := g.dirty.filter fun k => !named.contains (k / 4)
                   saved := g.saved.filter fun k => !named.contains (k / 4)
                   absent := g.absent.filter fun k => !named.contains (k / 4) }) } s

def execYield (f : Fields) (s : State) : Host.Outcome State Fault Refusal := issue (.yield f) { body := fun _ r => .ok r } s
def execNop (f : Fields) (s : State) : Host.Outcome State Fault Refusal := issue (.nop f) { body := fun _ r => .ok r } s

end Sys2Proof.Machine
end

