-- ==== Sys2Proof/Machine/Convert.lean ====
section
/-! DEFINITION. Class 2: conversions (07 R226 to R229), FP8 and L6 packing and arithmetic (R230 to R235), format words (R236), halves
(R237) and the flags register (R238). -/
namespace Sys2Proof.Machine

/-! Conversions. -/

def execCvtif (f : Fields) (s : State) : Host.Outcome State Fault Refusal :=
  issue (.cvtif f) (flagWork (fun f => eltRes (fmtElt (fnOf f % 8))) fun c r l =>
    intToFloat c.elt (fmtElt (fnOf c.f % 8)) (rmOf c.f) (satOf c.f) (c.aAs r c.elt l)) s

/-- The narrowed range of CVTFI (R227). -/
def narrowed (t : Ty) (width : Nat) : Elt :=
  match t, width with
  | .i32, 1 => .i16 | .i32, 2 => .i8 | .n32, 1 => .n16 | .n32, 2 => .n8
  | t, _ => tyElt t

def cvtfiLane (c : Ctx) (r : Run) (l : Nat) : Nat × BitVec 5 :=
  let src := fmtElt (fnOf c.f % 8)
  let dst := narrowed c.f.t (fnOf c.f / 8 % 4)
  let (b, fl) := floatToInt src dst (rmOf c.f) (c.aAs r src l)
  (lowBits c.elt.bits (readI dst b), fl)

def execCvtfi (f : Fields) (s : State) : Host.Outcome State Fault Refusal := issue (.cvtfi f) (flagWork tyRes cvtfiLane) s

/-- CVTFF; equal codes copy A, with a NaN made quiet (R229). -/
def cvtffLane (c : Ctx) (r : Run) (l : Nat) : Nat × BitVec 5 :=
  let src := fmtElt (fnOf c.f % 8)
  let dst := fmtElt (fnOf c.f / 8)
  let a := c.aAs r src l
  if src = dst then
    let v := readF src a
    (if v.isNan then (if src = .l6 then 0x20 else quiet src a) else if src = .l6 then a % 64 else a, fl v.isSnan flagNV)
  else convF src dst (rmOf c.f) (satOf c.f) a

def execCvtff (f : Fields) (s : State) : Host.Outcome State Fault Refusal :=
  issue (.cvtff f) (flagWork (fun f => eltRes (fmtElt (fnOf f / 8))) cvtffLane) s

def execCvtii (f : Fields) (s : State) : Host.Outcome State Fault Refusal :=
  issue (.cvtii f) (laneWork tyRes fun c r l =>
    let src := intElt (fnOf c.f)
    let v := readI src (c.aAs r src l)
    lowBits c.elt.bits (if satOf c.f then satInt c.elt v else v)) s

/-! FP8 packing (R230, R231). -/

def fp8Of (f : Fields) : Elt := if auxOf f then .e5m2 else .e4m3

/-- x times a scale of the FP8 format, converted into that format with one rounding; the scale's NaN is a source after x. -/
def cvt8 (t d : Elt) (rm : Nat) (sat : Bool) (x scale : Nat) : Nat × BitVec 5 :=
  let vx := readF t x
  let vs := readF d scale
  let snan := vx.isSnan || vs.isSnan
  if vx.isNan then (convNan t x d, fl snan flagNV)
  else if vs.isNan then (quiet d scale, fl snan flagNV)
  else
    match mulVal vx vs with
    | some v => roundVal d rm sat v
    | none => invalidOp d

def fp8One (d : Elt) : Nat := (roundDy d 0 false false ⟨1, 0⟩).1

/-- The pair of FP8 numbers of an immediate form; 1 and `other` in a register form. -/
def immPair (f : Fields) (d : Elt) (other : Nat) : Nat × Nat :=
  if imfOf f then ((imm16Of f).toNat / 256, (imm16Of f).toNat % 256) else (fp8One d, other)

def pk8Lane (c : Ctx) (r : Run) (l : Nat) : Nat × BitVec 5 :=
  let d := fp8Of c.f
  let (x, y) := immPair c.f d (fp8One d)
  let (hi, f1) := cvt8 c.elt d (rmOf c.f) (satOf c.f) (c.aAs r c.elt l) x
  let (lo, f2) := cvt8 c.elt d (rmOf c.f) (satOf c.f) (c.bAs r c.elt l) y
  (hi * 256 + lo, f1 ||| f2)

def execPk8 (f : Fields) (s : State) : Host.Outcome State Fault Refusal := issue (.pk8 f) (flagWork (fun _ => .n32) pk8Lane) s

/-- Byte j of A, j = B[1:0]. -/
def selByte (c : Ctx) (r : Run) (l : Nat) : Nat := c.aAs r .n32 l / 2 ^ (8 * (c.bAs r .n32 l % 4)) % 256

/-- value × x + y in format t with one rounding (R231); NaNs in the order value, x, y. A NaN y is the result also of 0 × ∞, without NV unless a
source is signalling: R215 says otherwise of FFMA alone. DEDUCED, log 151. -/
def unpk8 (t d : Elt) (rm : Nat) (b x y : Nat) : Nat × BitVec 5 :=
  let vs := [b, x, y].map (readF d)
  let snan := vs.any FVal.isSnan
  let prod := mulVal (readF d b) (readF d x)
  match [b, x, y].find? fun b => (readF d b).isNan with
  | some n => (convNan d n t, fl snan flagNV)
  | none =>
    match prod with
    | some p => addVal t rm p (readF d y)
    | none => invalidOp t

def unpk8Lane (c : Ctx) (r : Run) (l : Nat) : Nat × BitVec 5 :=
  let d := fp8Of c.f
  let b := selByte c r l
  if imfOf c.f then
    let (x, y) := immPair c.f d 0
    unpk8 c.elt d (rmOf c.f) b x y
  else convF d c.elt (rmOf c.f) false b

def execUnpk8 (f : Fields) (s : State) : Host.Outcome State Fault Refusal := issue (.unpk8 f) (flagWork tyRes unpk8Lane) s

/-! L6 (R232 to R235). -/

def pkl6Lane (c : Ctx) (r : Run) (l : Nat) : Nat × BitVec 5 :=
  let (hi, f1) := convF c.elt .l6 (rmOf c.f) false (c.aAs r c.elt l)
  let (lo, f2) := convF c.elt .l6 (rmOf c.f) false (c.bAs r c.elt l)
  (hi * 256 + lo, f1 ||| f2)

def execPkl6 (f : Fields) (s : State) : Host.Outcome State Fault Refusal := issue (.pkl6 f) (flagWork (fun _ => .n32) pkl6Lane) s
def execUnpkl6 (f : Fields) (s : State) : Host.Outcome State Fault Refusal :=
  issue (.unpkl6 f) (flagWork tyRes fun c r l => convF .l6 c.elt (rmOf c.f) false (selByte c r l)) s

/-- The product of two L6 codes as a code (R233). -/
def l6mul (rm a b : Nat) : Nat × BitVec 5 :=
  let e1 := a % 32
  let e2 := b % 32
  let neg := (a / 32 % 2 == 1) != (b / 32 % 2 == 1)
  let sg := bit neg * 32
  if a % 64 = 0x20 || b % 64 = 0x20 then (0x20, 0)
  else if e1 = 0 || e2 = 0 then (0, 0)
  else if 31 + 16 < e1 + e2 then (sg + 31, flagOF ||| flagNX)
  else if 16 < e1 + e2 then (sg + (e1 + e2 - 16), 0)
  else
    let up := match rm with
      | 0 => decide (14 ≤ e1 + e2)
      | 1 => false
      | 2 => !neg
      | _ => neg
    (if up then sg + 1 else 0, flagUF ||| flagNX)

def byteN (v i : Nat) : Nat := v / 2 ^ (8 * i) % 256

def l6mulLane (c : Ctx) (r : Run) (l : Nat) : Nat × BitVec 5 :=
  let a := c.aAs r .n32 l
  let b := c.bAs r .n32 l
  (List.range 4).foldl (fun acc i =>
    let (v, fl) := l6mul (rmOf c.f) (byteN a i) (byteN b i)
    (acc.1 + v * 2 ^ (8 * i), acc.2 ||| fl)) (0, 0)

def execL6mul (f : Fields) (s : State) : Host.Outcome State Fault Refusal := issue (.l6mul f) (flagWork (fun _ => .n32) l6mulLane) s

def l6linLane (c : Ctx) (r : Run) (l : Nat) : Nat × BitVec 5 :=
  let a := c.aAs r .n32 l
  let b := c.bAs r .n32 l
  let ps := (List.range 4).map fun i => l6Product (byteN a i) (byteN b i)
  let sum := ps.foldl (fun acc p => acc + p.getD 0) (readI .i64 (c.cAs r .i64 l))
  (lowBits 64 (satX48 sum), fl (ps.any Option.isNone) flagNV ||| fl (satX48 sum != sum) flagOF)

def execL6lin (f : Fields) (s : State) : Host.Outcome State Fault Refusal := issue (.l6lin f) (flagWork tyRes l6linLane) s

/-- The largest magnitude of an SCLX target. -/
def sclxMax (fn : Nat) : Dy := match fn with | 0 => ⟨448, 0⟩ | 1 => ⟨57344, 0⟩ | 2 => ⟨6889, -9⟩ | _ => ⟨127, 0⟩

/-- The smallest scale code that brings |A| within the target (R235). -/
def sclx (t : Elt) (fn a : Nat) : Nat × BitVec 5 :=
  match readF t a with
  | .nan s => (255, fl s flagNV)
  | .inf _ => (255, 0)
  | .fin _ m e => (((List.range 255).find? fun (c : Nat) => !Dy.lt (sclxMax fn) ⟨m, e + 127 - (c : Int)⟩).getD 254, 0)

def execSclx (f : Fields) (s : State) : Host.Outcome State Fault Refusal :=
  issue (.sclx f) (flagWork (fun _ => .n32) fun c r l => sclx c.elt (fnOf c.f) (c.aAs r c.elt l)) s

/-! Format words (R236) and halves (R237). -/

/-- Whether AFMT, BFMT, CFMT and SCALE may stand together (03 R97). -/
def formatOk (a b c scale : Nat) : Bool :=
  match a, b with
  | 0, 0 => c == 0 && scale == 0
  | 1, 1 => c == 1 && scale == 0
  | 6, 6 => (c == 6 || c == 1) && scale == 0
  | a, b =>
    if (a == 2 || a == 3) && (b == 2 || b == 3) then c == 1 || c == 2 || c == 3
    else if (a == 4 || a == 5) && (b == 4 || b == 5) then c == 1 || c == 2 || c == 3
    else if (a == 7 || a == 8) && (b == 7 || b == 8) then c == 7 && scale == 0
    else false

def fmtwLane (c : Ctx) (r : Run) (l : Nat) : Nat :=
  let a := c.aAs r .n32 l % 16
  let b := c.bAs r .n32 l % 16
  let d := c.cAs r .n32 l % 16
  let fn := fnOf c.f
  if formatOk a b d (fn % 4) then a + b * 16 + d * 256 + fn % 4 * 4096 + fn / 4 % 2 * 16384 + fn / 8 % 2 * 32768 else 0xFFFFFFFF

def execFmtw (f : Fields) (s : State) : Host.Outcome State Fault Refusal := issue (.fmtw f) (laneWork (fun _ => .n32) fmtwLane) s

def pkhLane (c : Ctx) (r : Run) (l : Nat) : Nat × BitVec 5 :=
  let (hi, f1) := convF .f32 c.elt (rmOf c.f) (satOf c.f) (c.aAs r .f32 l)
  let (lo, f2) := convF .f32 c.elt (rmOf c.f) (satOf c.f) (c.bAs r .f32 l)
  (hi * 2 ^ 16 + lo, f1 ||| f2)

def execPkh (f : Fields) (s : State) : Host.Outcome State Fault Refusal := issue (.pkh f) (flagWork (fun _ => .n32) pkhLane) s
def execUnpkh (f : Fields) (s : State) : Host.Outcome State Fault Refusal :=
  issue (.unpkh f) (flagWork (fun _ => .n32) fun c r l =>
    let a := c.aAs r .n32 l
    convF c.elt .f32 0 false (if auxOf c.f then a / 2 ^ 16 else a % 2 ^ 16)) s

/-! The flags register (R238). -/

def fflagBody (c : Ctx) (r : Run) : Except Stop Run :=
  let old := fun (l : Nat) => Sparse.get (0 : BitVec 5) c.grp.fflags l
  let m := fun (l : Nat) => BitVec.ofNat 5 (c.aAs r .n32 l)
  let r' := match fnOf c.f with
    | 0 => r
    | 1 => putFlags r c fun l => old l &&& ~~~(m l)
    | _ => putFlags r c fun l => old l ||| m l
  writeRes r' c .n32 fun l => (old l).toNat

def execFflag (f : Fields) (s : State) : Host.Outcome State Fault Refusal := issue (.fflag f) { body := fflagBody } s

end Sys2Proof.Machine
end

