-- ==== Sys2Proof/Machine/GroupOps.lean ====
section
/-! DEFINITION. Class 4: votes, shuffles, reductions and masks (09 R273 to R276, R284). -/
namespace Sys2Proof.Machine

/-- VOTE (R273): the value that every active lane receives. -/
def voteValue (c : Ctx) : Bool :=
  let p := c.predAt c.f.a
  match xbits c.f 1 0 with
  | 0 => c.lanes.all p
  | 1 => c.lanes.any p
  | _ => c.lanes.all p || !c.lanes.any p

def execVote (f : Fields) (s : State) : Host.Outcome State Fault Refusal :=
  issue (.vote f) (predWork fun c _ _ => voteValue c) s

/-- The ballot (R274). -/
def ballot (c : Ctx) (r : Run) : W128 := maskOf (c.lanes.filter fun l => (c.aAs r .n32 l).testBit (c.bAs r .n32 l % 32))

def execBallot (f : Fields) (s : State) : Host.Outcome State Fault Refusal :=
  issue (.ballot f)
    { body := fun c r =>
        let b := ballot c r
        if xbit c.f 3 then .ok (writeMask r c c.f.d b)
        else
          let n := c.elt.bits
          let h := if n = 64 then xbits c.f 0 0 else xbits c.f 1 0
          writeRes r c (tyRes c.f) fun _ => b.toNat / 2 ^ (n * h) % 2 ^ n } s

/-- The lane that SHFL reads from, where it is valid (R275); `s` is the segment size and `b` the lane's B. -/
def shflSource (mode s l b : Nat) : Option Nat :=
  let base := l - l % s
  match mode with
  | 0 => some (base + b % s)
  | 1 => if base + b ≤ l then some (l - b) else none
  | 2 => if l + b < base + s then some (l + b) else none
  | _ => some (base + ((l - base) ^^^ (b % s)))

/-- The segment size of SHFL. -/
def shflSegment (c : Ctx) : Nat := if xbits c.f 4 2 = 0 then c.grp.width else 2 ^ (xbits c.f 4 2 + 1)

def execShfl (f : Fields) (s : State) : Host.Outcome State Fault Refusal :=
  issue (.shfl f)
    { body := fun c r =>
        let seg := shflSegment c
        if c.grp.width < seg then .error c.illegal
        else
          let from_ := fun (l : Nat) =>
            match shflSource (xbits c.f 1 0) seg l (c.bAs r .n32 l) with
            | some j => if c.active.getLsbD j then j else l
            | none => l
          writeRes r c (tyRes c.f) fun l => c.aAs r c.elt (from_ l) } s

/-! Reductions (R276). -/

/-- The sum of float values: one exact sum, rounded once. DEDUCED, log 67. -/
def sumValues (e : Elt) (rm : Nat) (xs : List Nat) : Nat × BitVec 5 :=
  let vs := xs.map (readF e)
  let both := vs.contains (.inf false) && vs.contains (.inf true)
  match xs.find? fun b => (readF e b).isNan with
  | some b => (quiet e b, fl (vs.any FVal.isSnan || both) flagNV)
  | none =>
    if both then invalidOp e
    else if vs.contains (.inf false) then (infBits e false, 0)
    else if vs.contains (.inf true) then (infBits e true, 0)
    else roundDy e rm false (!vs.isEmpty && vs.all fun v => v.isZero && v.neg) (sumDy (vs.map FVal.dy))

/-- MIN and MAX of float values; of none, the infinity that is neutral. NV is raised as for a sum: for a signalling NaN and for both infinities
(R276). DEDUCED, log 67. -/
def extremeF (e : Elt) (isMax : Bool) (xs : List Nat) : Nat × BitVec 5 :=
  let vs := xs.map (readF e)
  xs.foldl (fun (acc : Nat × BitVec 5) x =>
    let (b, flags) := fminmax e isMax acc.1 x
    (b, acc.2 ||| flags)) (infBits e isMax, fl (vs.contains (.inf false) && vs.contains (.inf true)) flagNV)

/-- The combination of integer values. -/
def combineI (e : Elt) (op : Nat) (sat : Bool) (xs : List Nat) : Nat :=
  let vs := xs.map (readI e)
  match op with
  | 0 =>
    let sum := vs.foldl (· + ·) 0
    lowBits e.bits (if sat then satInt e sum else sum)
  | 1 => lowBits e.bits (vs.foldl min (intMax e))
  | 2 => lowBits e.bits (vs.foldl max (intMin e))
  | 3 => xs.foldl (· &&& ·) (2 ^ e.bits - 1)
  | 4 => xs.foldl (· ||| ·) 0
  | _ => xs.foldl (· ^^^ ·) 0

/-- The combination of values with the flags of its rounding. DEDUCED, log 67. -/
def combineValues (f : Fields) (e : Elt) (xs : List Nat) : Nat × BitVec 5 :=
  let op := xbits f 2 0
  if isFloatElt e then
    if op = 0 then sumValues e (xbits f 6 5) xs else extremeF e (op == 2) xs
  else (combineI e op (xbit f 3) xs, 0)

/-- A reduction in which each lane combines the values of some active lanes. -/
def reduceWork (set : Ctx → Nat → List Nat) : Work :=
  { body := fun c r =>
      if c.active = 0 then .ok r
      else
        let val := fun (l : Nat) => combineValues c.f c.elt ((set c l).map fun j => c.aAs r c.elt j)
        writeRes (raiseFlags r c fun l => (val l).2) c (tyRes c.f) fun l => (val l).1 }

def execGred (f : Fields) (s : State) : Host.Outcome State Fault Refusal :=
  issue (.gred f) (reduceWork fun c _ => c.lanes) s

def execGscan (f : Fields) (s : State) : Host.Outcome State Fault Refusal :=
  issue (.gscan f) (reduceWork fun c l => c.lanes.filter fun j => decide (j < l) || (j == l && !xbit c.f 4)) s

/-! Masks (R284). -/

/-- The mask that a mask-writing form of MMOV writes. -/
def mmovValue (r : Run) (c : Ctx) : W128 :=
  let a := maskReg c.grp (regIndex c.f.a 16)
  let b := maskReg c.grp (regIndex c.f.b 16)
  match xbits c.f 2 0 with
  | 0 => a
  | 1 => BitVec.ofNat 128 (readUniform r c c.f.a .n64 + readUniform r c c.f.b .n64 * 2 ^ 64)
  | 3 => a &&& b
  | 4 => a ||| b
  | _ => a &&& ~~~b

def execMmov (f : Fields) (s : State) : Host.Outcome State Fault Refusal :=
  issue (.mmov f)
    { body := fun c r =>
        if xbits c.f 2 0 = 2 then
          let half := (maskReg c.grp (regIndex c.f.a 16)).toNat / 2 ^ (64 * bit (xbit c.f 3)) % 2 ^ 64
          match c.f.w, c.f.d with
          | false, .g n => .ok (r.updGrp c.gid fun g => setG g n.toNat (w64 half))
          | _, _ => .ok r
        else .ok (writeMask r c c.f.d (mmovValue r c)) } s

end Sys2Proof.Machine
end

