-- ==== Sys2Proof/Machine/Int.lean ====
section
/-! DEFINITION. Class 0: integer arithmetic, logic, shifts, bit fields, comparison, selection and moves (07 R206 to R214). -/
namespace Sys2Proof.Machine

/-- The pattern of an exact result: wrapped, or saturated with SAT (03 R80). -/
def intResult (e : Elt) (sat : Bool) (x : Int) : Nat := lowBits e.bits (if sat then satInt e x else x)

/-- Exact integer operations of R206. -/
def exact1 (op : Int → Int) : Work := tyWork1 fun f e a => intResult e (satOf f) (op (readI e a))
def exact2 (op : Int → Int → Int) : Work := tyWork2 fun f e a b => intResult e (satOf f) (op (readI e a) (readI e b))

def execIadd (f : Fields) (s : State) : Host.Outcome State Fault Refusal := issue (.iadd f) (exact2 (· + ·)) s
def execIsub (f : Fields) (s : State) : Host.Outcome State Fault Refusal := issue (.isub f) (exact2 (· - ·)) s
def execImul (f : Fields) (s : State) : Host.Outcome State Fault Refusal := issue (.imul f) (exact2 (· * ·)) s
def execImulh (f : Fields) (s : State) : Host.Outcome State Fault Refusal :=
  issue (.imulh f) (tyWork2 fun _ e a b => lowBits (2 * e.bits) (readI e a * readI e b) / 2 ^ e.bits) s
def execImad (f : Fields) (s : State) : Host.Outcome State Fault Refusal :=
  issue (.imad f) (tyWork3 fun f e a b c => intResult e (satOf f) (readI e a * readI e b + readI e c)) s
def execImin (f : Fields) (s : State) : Host.Outcome State Fault Refusal := issue (.imin f) (exact2 fun a b => min a b) s
def execImax (f : Fields) (s : State) : Host.Outcome State Fault Refusal := issue (.imax f) (exact2 fun a b => max a b) s
def execIabs (f : Fields) (s : State) : Host.Outcome State Fault Refusal := issue (.iabs f) (exact1 fun a => a.natAbs) s
def execIneg (f : Fields) (s : State) : Host.Outcome State Fault Refusal := issue (.ineg f) (exact1 fun a => -a) s
/-- A + the immediate, an I16 value whatever T is (03 R95: the widening is exact; DEDUCED, log 19). -/
def execIaddi (f : Fields) (s : State) : Host.Outcome State Fault Refusal :=
  issue (.iaddi f) (tyWork1 fun f e a => intResult e (satOf f) (readI e a + sext 16 (imm16Of f).toNat)) s

/-! Division (R207). -/

/-- Quotient and remainder of one lane; `sat` is `IDIV.SAT`. -/
def divide (e : Elt) (sat : Bool) (a b : Nat) : Nat × Nat :=
  let x := readI e a
  let y := readI e b
  if y = 0 then (2 ^ e.bits - 1, a)
  else if x = intMin e && y = -1 then (if sat then lowBits e.bits (intMax e) else a, 0)
  else (lowBits e.bits (Int.tdiv x y), lowBits e.bits (Int.tmod x y))

/-- The lowest active lane whose divisor is zero, with `.TRAP`. -/
def zeroDivisor (c : Ctx) (r : Run) : Option Nat :=
  if auxOf c.f then c.lanes.find? fun l => c.bAs r c.elt l == 0 else none

def divWork (pick : Nat × Nat → Nat) : Work :=
  { body := fun c r =>
      match zeroDivisor c r with
      | some l => .error (c.fail .arith l)
      | none => writeRes r c (tyRes c.f) fun l => pick (divide c.elt (satOf c.f) (c.aAs r c.elt l) (c.bAs r c.elt l)) }

def execIdiv (f : Fields) (s : State) : Host.Outcome State Fault Refusal := issue (.idiv f) (divWork Prod.fst) s
def execIrem (f : Fields) (s : State) : Host.Outcome State Fault Refusal := issue (.irem f) (divWork Prod.snd) s

/-! Carries (R208) and byte products (R209). -/

/-- The unsigned sum or difference with its carry or borrow. -/
def addCarry (n : Nat) (sub : Bool) (a b cin : Nat) : Nat × Bool :=
  if sub then ((a + 2 ^ (n + 1) - b - cin) % 2 ^ n, decide (a < b + cin)) else ((a + b + cin) % 2 ^ n, decide (2 ^ n ≤ a + b + cin))

def iaddxLane (c : Ctx) (r : Run) (l : Nat) : Nat × Bool :=
  let cin := !(fnOf c.f % 2 == 1) && regIndex c.f.c 8 != 7 && c.predAt c.f.c l
  addCarry c.elt.bits (auxOf c.f) (c.aAs r c.elt l) (c.bAs r c.elt l) (bit cin)

def execIaddx (f : Fields) (s : State) : Host.Outcome State Fault Refusal :=
  issue (.iaddx f) { body := fun c r => do
    let r' ← writeRes r c (tyRes c.f) fun l => (iaddxLane c r l).1
    .ok (writePred r' c c.f.c fun l => (iaddxLane c r l).2) } s

/-- Byte i of a 32-bit operand as N8 or I8. -/
def byteOf (signed : Bool) (v i : Nat) : Int :=
  let b := v / 2 ^ (8 * i) % 256
  if signed then sext 8 b else b

def dot4 (sa sb : Bool) (a b : Nat) : Int :=
  ((List.range 4).map fun i => byteOf sa a i * byteOf sb b i).foldl (· + ·) 0

def execIdot4 (f : Fields) (s : State) : Host.Outcome State Fault Refusal :=
  issue (.idot4 f) (laneWork tyRes fun c r l =>
    intResult c.elt (satOf c.f) (readI c.elt (c.cAs r c.elt l) +
      dot4 (fnOf c.f % 2 == 1) (fnOf c.f / 2 % 2 == 1) (c.aAs r .n32 l) (c.bAs r .n32 l))) s

/-! Logic, shifts and bit fields (R210, R211). -/

def execLand (f : Fields) (s : State) : Host.Outcome State Fault Refusal := issue (.land f) (tyWork2 fun _ _ a b => a &&& b) s
def execLor (f : Fields) (s : State) : Host.Outcome State Fault Refusal := issue (.lor f) (tyWork2 fun _ _ a b => a ||| b) s
def execLxor (f : Fields) (s : State) : Host.Outcome State Fault Refusal := issue (.lxor f) (tyWork2 fun _ _ a b => a ^^^ b) s

/-- The number whose bit i, below n, is `p i`. -/
def bitsFrom (n : Nat) (p : Nat → Bool) : Nat := (List.range n).foldl (fun acc i => acc + bit (p i) * 2 ^ i) 0

def lop3 (n lut a b c : Nat) : Nat :=
  bitsFrom n fun i => lut.testBit (4 * bit (a.testBit i) + 2 * bit (b.testBit i) + bit (c.testBit i))

def execLop3 (f : Fields) (s : State) : Host.Outcome State Fault Refusal :=
  issue (.lop3 f) (tyWork3 fun f e a b c => lop3 e.bits (w2bits f 7 0) a b c) s

def shiftLeft (n a k : Nat) : Nat := if n ≤ k then 0 else a * 2 ^ k % 2 ^ n
def shiftRight (n a k : Nat) : Nat := if n ≤ k then 0 else a / 2 ^ k
def shiftArith (n a k : Nat) : Nat := lowBits n (sext n a / (2 ^ min k n : Nat))
def rotateLeft (n a k : Nat) : Nat :=
  let k := k % n
  a * 2 ^ k % 2 ^ n + a / 2 ^ (n - k)
def funnelLeft (n a b k : Nat) : Nat := (a * 2 ^ n + b) * 2 ^ (k % n) / 2 ^ n % 2 ^ n

def execShl (f : Fields) (s : State) : Host.Outcome State Fault Refusal := issue (.shl f) (countWork fun e => shiftLeft e.bits) s
def execShrl (f : Fields) (s : State) : Host.Outcome State Fault Refusal := issue (.shrl f) (countWork fun e => shiftRight e.bits) s
def execShra (f : Fields) (s : State) : Host.Outcome State Fault Refusal := issue (.shra f) (countWork fun e => shiftArith e.bits) s
def execRotl (f : Fields) (s : State) : Host.Outcome State Fault Refusal := issue (.rotl f) (countWork fun e => rotateLeft e.bits) s
def execFshl (f : Fields) (s : State) : Host.Outcome State Fault Refusal :=
  issue (.fshl f) (laneWork tyRes fun c r l => funnelLeft c.elt.bits (c.aAs r c.elt l) (c.bAs r c.elt l) (c.cAs r .n32 l)) s

/-- The clipped length of a field (R211). -/
def fieldLen (n ctl : Nat) : Nat :=
  let pos := ctl % 256
  if n ≤ pos then 0 else min (ctl / 256 % 256) (n - pos)

def bitExtract (e : Elt) (a ctl : Nat) : Nat :=
  let n := e.bits
  let len := fieldLen n ctl
  let v := a / 2 ^ (ctl % 256) % 2 ^ len
  if len = 0 then 0 else if intMin e < 0 then lowBits n (sext len v) else v

def bitInsert (n a b ctl : Nat) : Nat :=
  let pos := ctl % 256
  let len := fieldLen n ctl
  if len = 0 then b else b / 2 ^ (pos + len) * 2 ^ (pos + len) + a % 2 ^ len * 2 ^ pos + b % 2 ^ pos

def execBfx (f : Fields) (s : State) : Host.Outcome State Fault Refusal := issue (.bfx f) (countWork bitExtract) s
def execBfi (f : Fields) (s : State) : Host.Outcome State Fault Refusal :=
  issue (.bfi f) (laneWork tyRes fun c r l => bitInsert c.elt.bits (c.aAs r c.elt l) (c.bAs r c.elt l) (c.cAs r .n32 l)) s

def popCount (n a : Nat) : Nat := ((List.range n).filter a.testBit).length
def leadingZeros (n a : Nat) : Nat := n - bitLen a
def bitReverse (n a : Nat) : Nat := bitsFrom n fun i => a.testBit (n - 1 - i)

def execPopc (f : Fields) (s : State) : Host.Outcome State Fault Refusal := issue (.popc f) (tyWork1 fun _ e => popCount e.bits) s
def execClz (f : Fields) (s : State) : Host.Outcome State Fault Refusal := issue (.clz f) (tyWork1 fun _ e => leadingZeros e.bits) s
def execBrev (f : Fields) (s : State) : Host.Outcome State Fault Refusal := issue (.brev f) (tyWork1 fun _ e => bitReverse e.bits) s

/-! Comparison, selection and moves (R212 to R214). -/

def intCond (fn : Nat) (a b : Int) : Bool :=
  match fn with
  | 0 => a == b
  | 1 => a != b
  | 2 => decide (a < b)
  | 3 => decide (a ≤ b)
  | 4 => decide (b < a)
  | _ => decide (b ≤ a)

def execIcmp (f : Fields) (s : State) : Host.Outcome State Fault Refusal :=
  issue (.icmp f) (predWork fun c r l =>
    combine c (intCond (fnOf c.f) (readI c.elt (c.aAs r c.elt l)) (readI c.elt (c.bAs r c.elt l))) l) s

def execSel (f : Fields) (s : State) : Host.Outcome State Fault Refusal :=
  issue (.sel f) (laneWork tyRes fun c r l => if c.predAt c.f.c l then c.aAs r c.elt l else c.bAs r c.elt l) s

def execMov (f : Fields) (s : State) : Host.Outcome State Fault Refusal := issue (.mov f) (tyWork1 fun _ _ a => a) s

/-- The immediate of MOVI (06 R171). -/
def moviValue (f : Fields) : Nat :=
  let v := f.w2.toNat
  match f.t with
  | .i32 | .n32 | .f32 => v % 2 ^ 32
  | .f16 | .bf16 => v % 2 ^ 16
  | .i64 => lowBits 64 (sext 48 v)
  | .n64 => v % 2 ^ 48
  | .f64 => v % 2 ^ 48 * 2 ^ 16

def execMovi (f : Fields) (s : State) : Host.Outcome State Fault Refusal := issue (.movi f) (laneWork tyRes fun c _ _ => moviValue c.f) s

end Sys2Proof.Machine
end

