-- ==== Sys2Proof/Machine/Matrix.lean ====
section
/-! DEFINITION. Class 5, matrix instructions at issue: their checks, waits and acceptance (10 R297 to R317). -/
namespace Sys2Proof.Machine

/-! Shared checks. -/

/-- The fragment check of the collective instructions (01 R39). -/
def wholeGroup (c : Ctx) : Except Stop Unit := if c.grp.liveSlices.all fun n => c.slices.contains n then .ok () else .error c.illegal

/-- The tile that a field names, which must be one of the team's (R294). -/
def tileField (r : Run) (c : Ctx) (o : Opnd) : Except Stop Nat :=
  let n := regIndex o 8
  if (curTeam r c).cfg.nt ≤ n then .error c.illegal else .ok n

/-- The format word that every active lane holds (03 R97). -/
def formatWord (c : Ctx) : Except Stop W32 :=
  let word := fun (l : Nat) => match c.f.c with | .v n => vReg c.grp n.toNat l | _ => 0
  match c.lanes with
  | [] => .error (c.fail .formatDivergence 0)
  | l :: ls => if ls.all fun k => word k == word l then .ok (word l) else .error (c.fail .formatDivergence l)

/-- No group owns the tile (R305). -/
def tokenFree (r : Run) (c : Ctx) (n : Nat) : Except Stop Unit :=
  if (teamTile r c.grp.team n).owner.isSome then .error (c.fail .accToken (c.lowest.getD 0)) else .ok ()

/-- The issuing group owns the tile (R305). -/
def tokenHeld (r : Run) (c : Ctx) (n : Nat) : Except Stop Unit :=
  if (teamTile r c.grp.team n).owner = some c.gid then .ok () else .error (c.fail .accToken (c.lowest.getD 0))

def matrixQueue (r : Run) (c : Ctx) : List MatOp := (r.core c.t.die c.t.core).matrix

/-- The container width that an accepted instruction leaves its tile with. DEDUCED, log 60. -/
def MatOp.widthAfter (op : MatOp) : Option Nat :=
  match op.opcode with
  | 0xA7 => some (if op.wide then 8 else 4)
  | 0xA8 => none
  | _ => some (accWidth (fmtC op.fmt))

/-- A tile's w once everything accepted on it has been performed. DEDUCED, log 60. -/
def tileWidth (r : Run) (c : Ctx) (n : Nat) : Nat :=
  (((matrixQueue r c).filter fun m => m.team == c.grp.team && m.tile == n).filterMap MatOp.widthAfter).getLast?.getD (teamTile r c.grp.team n).w

/-- The wait for a tile (19 R480). -/
def tileWait (n : Nat) : Stop := Ctx.wait 8 10 (w64 n) fun _ r => r

/-- Whether another group of the team has a region hold on a tile (R317). -/
def heldByOther (r : Run) (c : Ctx) (n : Nat) : Bool :=
  (teamGroups r c.grp.team).any fun e => e.1 != c.gid && e.2.holds.any fun h => h.1 % 8 == n

/-- The waits of an instruction whose checks have passed: region holds (R317) and the unit's queue (R299). -/
def unitReady (r : Run) (c : Ctx) (n : Nat) : Except Stop Unit :=
  if heldByOther r c n || decide (Config.matrixQueue ≤ (matrixQueue r c).length) then .error (tileWait n) else .ok ()

/-- Translates every page of some ranges, by 64 KiB region (R301 step 6, R309 step 4). -/
def translateAll (r : Run) (c : Ctx) (q : Req) (ranges : List (Nat × Nat)) : Except Stop (List (Nat × Leaf) × Run) :=
  (ranges.flatMap fun p => regions p.1 p.2).foldlM (init := (([] : List (Nat × Leaf)), r)) fun (acc : List (Nat × Leaf) × Run) p =>
    if acc.1.any fun e => e.1 == p.1 / 0x10000 then .ok acc
    else
      match translate acc.2 q (w64 p.1) with
      | (.error f, _) => .error (accStop c q (c.lowest.getD 0) (.fault f))
      | (.ok l, r) => .ok (acc.1 ++ [(p.1 / 0x10000, l)], r)

def matReq (r : Run) (c : Ctx) (kind : Nat) : Req := grpReq r c.gid c.grp c.pc 2 kind

/-- A tile write in issue order: the region hold it begins, and whether an undo copy is due (R316, R317). -/
def tileWrite (n : Nat) (copy : Bool) (g : Grp) : Grp :=
  let k := holdKey n g.super
  if g.holds.any fun h => h.1 == k then g else { g with holds := g.holds ++ [(k, copy)] }
def copyDue (r : Run) (c : Ctx) (n : Nat) (copy : Bool) : Bool := copy && !(r.grp c.gid).any fun g => g.holds.any fun h => h.1 == holdKey n g.super

def blankOp (r : Run) (c : Ctx) (opcode n : Nat) : MatOp :=
  { group := c.gid, team := c.grp.team, opcode, tile := n, pc := c.pc, fmt := 0, base := 0, base2 := 0, stride := 0, cfg := (curTeam r c).cfg
    lane := c.lowest.getD 0, super := c.grp.super, wide := false, region := ((r.grp c.gid).map (·.regionNo)).getD 0, undo := false, leaves := [] }

/-- Accepts an instruction (R299). `write` says whether it writes the tile, `copy` whether it reads it first. -/
def accept (r : Run) (c : Ctx) (op : MatOp) (write copy : Bool) : Run :=
  let op := { op with undo := write && copyDue r c op.tile copy }
  let r := if write then r.updGrp c.gid (tileWrite op.tile copy) else r
  r.updCore c.t.die c.t.core fun k => { k with matrix := k.matrix ++ [op] }

/-! TCFG (R295, R315). -/

/-- Physical tiles of the core that no resident team has. DEDUCED, log 65. -/
def tilesFree (r : Run) (c : Ctx) : Nat :=
  Config.tiles - ((teamsOn r c.t.die c.t.core).map fun e => e.2.tiles.length).foldl (· + ·) 0

/-- Step 3: the team's tiles, pins and tokens and the group's undo copies are released. DEDUCED, log 65. -/
def releaseTiles (c : Ctx) (r : Run) : Run :=
  (r.updTeam c.grp.team fun t => { t with tiles := [], pins := [], cfg := { t.cfg with nt := 0 } }).updGrp c.gid fun g =>
    { g with undo := [], holds := [] }

/-- Step 5. DEDUCED, log 65. -/
def configure (c : Ctx) (shape stride : W64) (r : Run) : Run :=
  let nt := fld shape 19 16
  let cfg : TileCfg := { mb := fld shape 3 0, nb := fld shape 7 4, kb := fld shape 13 8, nt, lda := fld stride 15 0, ldb := fld stride 31 16 }
  let r := r.updTeam c.grp.team fun t => { t with cfg, tiles := List.replicate nt Tile.fresh }
  (teamGroups r c.grp.team).foldl (fun r e => r.updGrp e.1 fun g => { g with staged := [] }) r

def execTcfg (f : Fields) (s : State) : Host.Outcome State Fault Refusal :=
  issue (.tcfg f)
    { body := fun c r => do
        wholeGroup c
        if c.active = 0 then .ok r
        else
          let shape := w64 (readUniform r c c.f.a .n64)
          let stride := w64 (readUniform r c c.f.b .n64)
          if fld shape 63 20 != 0 || fld shape 15 14 != 0 || fld stride 63 32 != 0 || decide (9 ≤ fld shape 19 16) then .error c.illegal
          else
            let busy := (matrixQueue r c).find? fun m => m.team == c.grp.team
            let held := (teamGroups r c.grp.team).find? fun e => e.1 != c.gid && !e.2.holds.isEmpty
            match busy, held with
            | some m, _ => .error (tileWait m.tile)
            | none, some e => .error (tileWait ((e.2.holds.head?.map fun h => h.1 % 8).getD 0))
            | none, none =>
              let r := releaseTiles c r
              if tilesFree r c < fld shape 19 16 then
                .error (.sent { kind := 8, reason := 10, object := 0, since := 0, aux := 0 } (releaseTiles c))
              else .ok (configure c shape stride r) } s

/-! TMMA and TMMAZ (R301). -/

/-- Check 3. DEDUCED, log 60. -/
def mmaShapeOk (cfg : TileCfg) (w : W32) (z : Bool) (width : Nat) : Bool :=
  !(accWidth (fmtC w) == 8 && decide (8192 < cfg.m * cfg.n)) && !(fmtScale w == 2 && cfg.k % 32 != 0) &&
    decide (cfg.k * operandBytes (fmtA w) ≤ cfg.lda16) && decide (cfg.n * operandBytes (fmtB w) ≤ cfg.ldb16) &&
    (z || width == accWidth (fmtC w))

def mmaBody (z : Bool) (c : Ctx) (r : Run) : Except Stop Run := do
  wholeGroup c
  let w ← formatWord c
  if !mmaFormats w then .error (c.fail .formatReserved (c.lowest.getD 0))
  else
    let n ← tileField r c c.f.d
    let cfg := (curTeam r c).cfg
    if !mmaShapeOk cfg w z (tileWidth r c n) then .error c.illegal
    else do
      tokenFree r c n
      let a := readUniform r c c.f.a .n64
      let b := readUniform r c c.f.b .n64
      if a % 16 != 0 || b % 16 != 0 then .error (c.misaligned (c.lowest.getD 0) (if a % 16 != 0 then a else b))
      else do
        let ranges := aRanges w cfg a ++ bRanges w cfg b ++ [aScaleRange w cfg a, bScaleRange w cfg b]
        let (leaves, r) ← translateAll r c (matReq r c 0) ranges
        unitReady r c n
        .ok (accept r c { blankOp r c (if z then 0xA2 else 0xA1) n with fmt := w, base := w64 a, base2 := w64 b, leaves } true (!z))

def execTmma (f : Fields) (s : State) : Host.Outcome State Fault Refusal := issue (.tmma f) { body := mmaBody false } s
def execTmmaz (f : Fields) (s : State) : Host.Outcome State Fault Refusal := issue (.tmmaz f) { body := mmaBody true } s

/-! Tokens and elements (R305 to R308). -/

/-- TACQ (R306). DEDUCED, log 64. -/
def execTacq (f : Fields) (s : State) : Host.Outcome State Fault Refusal :=
  issue (.tacq f)
    { body := fun c r => do
        wholeGroup c
        let n ← tileField r c c.f.a
        let owner := (teamTile r c.grp.team n).owner
        if owner = some c.gid then .ok r
        else if owner.isSome || heldByOther r c n || ((matrixQueue r c).any fun m => m.team == c.grp.team && m.tile == n) then .error (tileWait n)
        else .ok (updTile r c.grp.team n fun x => { x with owner := some c.gid }) } s

/-- DEDUCED, log 64. -/
def execTrel (f : Fields) (s : State) : Host.Outcome State Fault Refusal :=
  issue (.trel f)
    { body := fun c r => do
        wholeGroup c
        let n ← tileField r c c.f.a
        tokenHeld r c n
        .ok (updTile r c.grp.team n fun x => { x with owner := none }) } s

/-- The checks of TRD and TWR: the tile, and each lane's element (R307). -/
def elementCheck (r : Run) (c : Ctx) (tile row col : Opnd) : Except Stop (Nat × (Nat → Nat)) := do
  wholeGroup c
  let n ← tileField r c tile
  tokenHeld r c n
  let cfg := (curTeam r c).cfg
  let rowOf := fun (l : Nat) => readSrc r c row .n32 l
  let colOf := fun (l : Nat) => readSrc r c col .n32 l
  if (teamTile r c.grp.team n).w != c.elt.bits / 8 then .error c.illegal
  else
    match c.lanes.find? fun l => decide (cfg.m ≤ rowOf l ∨ cfg.n ≤ colOf l) with
    | some l => .error (c.fail .illegalOperand l)
    | none => .ok (n, fun l => rowOf l * cfg.n + colOf l)

def tileElem (x : Tile) (w i : Nat) : Nat := leNat ((List.range w).map fun b => Sparse.get (0 : Byte) x.bytes (w * i + b))
def putElem (w i v : Nat) (x : Tile) : Tile :=
  { x with bytes := Sparse.setAll (0 : Byte) x.bytes (((List.range w).map (w * i + ·)).zip (leBytes w v)) }

/-- TRD; with no active lane it changes nothing, latches included (R298). -/
def execTrd (f : Fields) (s : State) : Host.Outcome State Fault Refusal :=
  issue (.trd f)
    { body := fun c r => do
        let (n, at_) ← elementCheck r c c.f.a c.f.b c.f.c
        let x := teamTile r c.grp.team n
        if c.active = 0 then .ok r else writeRes r c (tyRes c.f) fun l => tileElem x x.w (at_ l) } s

/-- TWR: in ascending lane order; it is a tile write (R316). -/
def execTwr (f : Fields) (s : State) : Host.Outcome State Fault Refusal :=
  issue (.twr f)
    { body := fun c r => do
        let (n, at_) ← elementCheck r c c.f.d c.f.a c.f.b
        if c.active = 0 then .ok r
        else
          let vals := c.lanes.map fun l => (at_ l, c.cAs r c.elt l)
          let r := if copyDue r c n true then undoCopy r c.gid c.grp.team n c.grp.super else r
          let r := r.updGrp c.gid (tileWrite n true)
          .ok (updTile r c.grp.team n fun x => vals.foldl (fun x e => putElem x.w e.1 e.2 x) x) } s

/-- TZERO (R308). DEDUCED, log 64. -/
def execTzero (f : Fields) (s : State) : Host.Outcome State Fault Refusal :=
  issue (.tzero f)
    { body := fun c r => do
        wholeGroup c
        let n ← tileField r c c.f.d
        tokenFree r c n
        unitReady r c n
        .ok (accept r c { blankOp r c 0xA7 n with wide := xbit c.f 0 } true false) } s

/-! Loads and stores (R309). -/

def moveBody (store : Bool) (c : Ctx) (r : Run) : Except Stop Run := do
  wholeGroup c
  let w ← formatWord c
  if !moveFormats w then .error (c.fail .formatReserved (c.lowest.getD 0))
  else
    let n ← tileField r c c.f.d
    let cfg := (curTeam r c).cfg
    let stride := readUniform r c c.f.b .n32
    let e := moveBytes w
    let cw := accWidth (fmtC w)
    if (cw == 8 && decide (8192 < cfg.m * cfg.n)) || stride % 16 != 0 || decide (stride < cfg.n * e) || (store && tileWidth r c n != cw) then
      .error c.illegal
    else do
      tokenFree r c n
      let base := readUniform r c c.f.a .n64
      if base % 16 != 0 then .error (c.misaligned (c.lowest.getD 0) base)
      else do
        let (leaves, r) ← translateAll r c (matReq r c (bit store)) (rowRanges base cfg.m stride (cfg.n * e))
        unitReady r c n
        .ok (accept r c { blankOp r c (if store then 0xA8 else 0xA9) n with fmt := w, base := w64 base, stride, leaves } (!store) false)

def execTstore (f : Fields) (s : State) : Host.Outcome State Fault Refusal := issue (.tstore f) { body := moveBody true } s
def execTload (f : Fields) (s : State) : Host.Outcome State Fault Refusal := issue (.tload f) { body := moveBody false } s

/-! Counters, waits and pins (R300, R313, R314). -/

/-- Whether the group's earlier instructions on a tile, or on any, are not complete. -/
def ownWork (r : Run) (c : Ctx) (tile : Option Nat) : Option MatOp :=
  (matrixQueue r c).find? fun m => m.group == c.gid && tile.all (· == m.tile)

/-- TCNT: the permanent count with the group's own staged increments (03 R106). -/
def execTcnt (f : Fields) (s : State) : Host.Outcome State Fault Refusal :=
  issue (.tcnt f)
    { body := fun c r => do
        let n ← tileField r c c.f.a
        match ownWork r c (some n) with
        | some _ => .error (tileWait n)
        | none =>
          let staged := (((r.grp c.gid).map (·.staged)).getD []).filter fun s => s.tile == n
          let x := staged.foldl (fun (x : Tile) s => x.counted ⟨s.nan, s.inv, s.ovf⟩) (teamTile r c.grp.team n)
          let v := match xbits c.f 1 0 with | 0 => x.nan | 1 => x.inv | _ => x.ovf
          writeRes r c .n32 fun _ => v.toNat } s

def execTwait (f : Fields) (s : State) : Host.Outcome State Fault Refusal :=
  issue (.twait f)
    { body := fun c r => do
        let tile ← if xbit c.f 0 then .ok none else (tileField r c c.f.a).map some
        match ownWork r c tile with
        | some m => .error (tileWait m.tile)
        | none => .ok r } s

/-- Pins one line, where it can be (R314). DEDUCED, log 63. -/
def pinLine (c : Ctx) (q : Req) (acc : Nat × Run) (va : Nat) : Nat × Run :=
  match translate acc.2 q (w64 va) with
  | (.error _, _) => acc
  | (.ok l, r) =>
    let line := l.pa (w64 va) / 128
    let slice := homeSlice line
    let pins := allPins r
    if l.home != 0 || framePinned r (128 * line) || pins.any (fun p => p.1 == line) || decide (pinBudget ≤ (pins.filter fun p => p.2 == slice).length) then (acc.1, r)
    else (acc.1 + 128, (markLine (touchLine r c.part l (128 * line) 1 false) c.part l (128 * line)).updTeam c.grp.team fun t =>
      { t with pins := t.pins ++ [(line, slice)] })

/-- Releases one line where the team has it pinned. DEDUCED, log 63. -/
def unpinLine (c : Ctx) (q : Req) (acc : Nat × Run) (va : Nat) : Nat × Run :=
  match translate acc.2 q (w64 va) with
  | (.error _, _) => acc
  | (.ok l, r) =>
    let line := l.pa (w64 va) / 128
    if (curTeam r c).pins.any fun p => p.1 == line then
      (acc.1 + 128, r.updTeam c.grp.team fun t => { t with pins := t.pins.filter fun p => p.1 != line })
    else (acc.1, r)

def execTpin (f : Fields) (s : State) : Host.Outcome State Fault Refusal :=
  issue (.tpin f)
    { body := fun c r =>
        if c.active = 0 then .ok r
        else
          let base := readUniform r c c.f.a .n64
          let len := readUniform r c c.f.b .n32
          let vas := (linesOf base len).map (128 * ·)
          let q := matReq r c 0
          let (n, r) := vas.foldl (if xbit c.f 0 then unpinLine c q else pinLine c q) (0, r)
          writeRes r c .n32 fun _ => n % 2 ^ 32 } s

end Sys2Proof.Machine
end

