-- ==== Sys2Proof/WellFormed.lean ====
section
/-! DEFINITION. Which terms of `Instr` are instructions: the checks of step 3 of 06 R184 on the fields of a
word, each with a name. The rows without an encoding carry typed arguments and have nothing to check here. -/
namespace Sys2Proof
open Sys2Proof.Machine

/-- The T value is one the opcode accepts (06 R172). -/
def typeOk (sh : OpShape) (f : Fields) : Bool := sh.types.contains f.t

/-- The guard is not GN = 1 with p7, and an unguarded opcode has GN = 0 with p7 (06 R173). -/
def guardOk (sh : OpShape) (f : Fields) : Bool :=
  if sh.guarded then !(f.gn && f.gp == 7) else !f.gn && f.gp == 7

/-- W = 1 only where the instruction has a lane result or a destination (06 R174). -/
def suppressOk (sh : OpShape) (f : Fields) : Bool := !f.w || sh.wOk

/-- Fields the instruction does not use are zero (06 R177); with W = 1 the D field is not read (R174). -/
def unusedOk (sh : OpShape) (f : Fields) : Bool :=
  (sh.d != .none || f.w || f.d.bits == 0) && (sh.a != .none || f.a.bits == 0) &&
    (sh.b != .none || f.b.bits == 0) && (sh.c != .none || sh.immC || f.c.bits == 0)

/-- The X field holds only assigned values (06 R179 to R183). -/
def modifierOk (sh : OpShape) : Bool := sh.xOk

/-- The second word holds only assigned values, and a short instruction has none (06 R170, R171). -/
def secondWordOk (sh : OpShape) (f : Fields) : Bool := if sh.word2 == .short then f.w2 == 0 else sh.w2Ok

/-- All the checks of one word (06 R184 step 3). -/
def fieldsOk (sh : OpShape) (f : Fields) : Bool :=
  typeOk sh f && guardOk sh f && suppressOk sh f && unusedOk sh f && modifierOk sh && secondWordOk sh f

/-- A well-formed instruction. -/
def Instr.wf (i : Instr) : Bool :=
  match shape i, fieldsOf i with
  | some sh, some f => fieldsOk sh f
  | _, _ => true

/-- An instruction of the opcode map (06 R185), as against a row without an encoding. -/
def Instr.coded (i : Instr) : Bool := (shape i).isSome

end Sys2Proof
end

