-- ==== Sys2Proof/Decode.lean ====
section
/-! DEFINITION. From words to instructions and back (06 R168 to R187). `decodeWords` is total: words that are
no instruction are rejected with the name of the check of R184 step 3 that fails. The encoder follows. -/
namespace Sys2Proof
open Sys2Proof.Machine

/-- Why words are no instruction; each is the trap ILLEGAL_OPCODE (06 R184). -/
inductive Reject where
  | reservedOpcode
  | type
  | guard
  | writeSuppress
  | unusedField
  | modifier
  | secondWord
  | truncated
  deriving DecidableEq, Repr

/-- The fields of the first word and the second word, unread. -/
structure RawWord where
  op : BitVec 8
  t : BitVec 3
  gn : BitVec 1
  gp : BitVec 3
  w : BitVec 1
  d : BitVec 9
  a : BitVec 9
  b : BitVec 9
  c : BitVec 9
  x : BitVec 12
  deriving DecidableEq, Repr

/-- What a 9-bit operand field names (06 R175). -/
def opndOf (n : BitVec 9) : Opnd :=
  if n.extractLsb' 8 1 = 0 then .v (n.extractLsb' 0 8)
  else if n.extractLsb' 6 3 = 0b100#3 then .g (n.extractLsb' 0 6)
  else if n.extractLsb' 3 6 = 0b101000#6 then .b (n.extractLsb' 0 3)
  else if n.extractLsb' 3 6 = 0b101001#6 then .q (n.extractLsb' 0 3)
  else if n.extractLsb' 4 5 = 0b10101#5 then .k (n.extractLsb' 0 4)
  else if n.extractLsb' 5 4 = 0b1011#4 then .sr (n.extractLsb' 0 5)
  else .bad (n.extractLsb' 0 7)

/-- The bit positions of 06 R168. -/
def splitWord (v : W64) : RawWord :=
  { op := v.extractLsb' 56 8, t := v.extractLsb' 53 3, gn := v.extractLsb' 52 1, gp := v.extractLsb' 49 3
    w := v.extractLsb' 48 1, d := v.extractLsb' 39 9, a := v.extractLsb' 30 9, b := v.extractLsb' 21 9
    c := v.extractLsb' 12 9, x := v.extractLsb' 0 12 }

def joinWord (r : RawWord) : W64 :=
  r.op ++ r.t ++ r.gn ++ r.gp ++ r.w ++ r.d ++ r.a ++ r.b ++ r.c ++ r.x

def fieldsOfRaw (r : RawWord) (w2 : W64) : Fields :=
  { t := tyOfCode r.t, gn := r.gn == 1, gp := r.gp, w := r.w == 1, d := opndOf r.d, a := opndOf r.a
    b := opndOf r.b, c := opndOf r.c, x := r.x, w2 }

def rawOfFields (code : Nat) (f : Fields) : RawWord :=
  { op := BitVec.ofNat 8 code, t := tyCode f.t, gn := BitVec.ofBool f.gn, gp := f.gp, w := BitVec.ofBool f.w
    d := f.d.bits, a := f.a.bits, b := f.b.bits, c := f.c.bits, x := f.x }

/-- The opcodes that take two words (06 R186). -/
def longOp (op : BitVec 8) : Bool :=
  match ofCode op.toNat {} with
  | some i =>
    match shape i with
    | some sh => sh.word2 != .short
    | none => false
  | none => false

/-- Whether the first word of an instruction is followed by a second one. -/
def longWord (w1 : W64) : Bool := longOp (w1.extractLsb' 56 8)

/-- The first check of R184 step 3 that the fields fail. -/
def rejectOf (sh : OpShape) (f : Fields) : Option Reject :=
  if !typeOk sh f then some .type
  else if !guardOk sh f then some .guard
  else if !suppressOk sh f then some .writeSuppress
  else if !unusedOk sh f then some .unusedField
  else if !modifierOk sh then some .modifier
  else if !secondWordOk sh f then some .secondWord
  else none

/-- The instruction of a first word and, for a long opcode, its second word (06 R169, R184). -/
def decodeWords (w1 w2 : W64) : Except Reject Instr :=
  let r := splitWord w1
  match ofCode r.op.toNat (fieldsOfRaw r (if longOp r.op then w2 else 0)) with
  | none => .error .reservedOpcode
  | some i =>
    match shape i, fieldsOf i with
    | some sh, some f =>
      match rejectOf sh f with
      | some e => .error e
      | none => .ok i
    | _, _ => .error .reservedOpcode

/-- A little-endian word of eight bytes (00 R4). -/
def wordOfBytes (bs : List Byte) : W64 := BitVec.ofNat 64 (bs.foldr (fun b acc => b.toNat + 256 * acc) 0)

def bytesOfWord (w : W64) : List Byte := (List.range 8).map fun i => w.extractLsb' (8 * i) 8

/-- Decoding of bytes, first word at the front: the instruction and the bytes after it. -/
def decodeBytes (bs : List Byte) : Except Reject (Instr × List Byte) :=
  if bs.length < 8 then .error .truncated
  else
    let w1 := wordOfBytes (bs.take 8)
    let n := if longWord w1 then 16 else 8
    if bs.length < n then .error .truncated
    else
      match decodeWords w1 (wordOfBytes ((bs.drop 8).take 8)) with
      | .ok i => .ok (i, bs.drop n)
      | .error e => .error e

/-- The words of an instruction (06 R168, R170); none for a row without an encoding. -/
def encode (i : Instr) : List W64 :=
  match shape i, fieldsOf i with
  | some sh, some f =>
    let w1 := joinWord (rawOfFields sh.code f)
    if sh.word2 == .short then [w1] else [w1, f.w2]
  | _, _ => []

/-- The bytes of an instruction as they stand in memory. -/
def encodeBytes (i : Instr) : List Byte := (encode i).flatMap bytesOfWord

/-- The bytes an instruction's first word takes up with its second (06 R169). -/
def sizeOfWord (w1 : W64) : Nat := if longWord w1 then 16 else 8

/-- The host's reading of a table row: bit 0 is the least significant bit of the first word. -/
def decodeTableWord (_nbits w : Nat) : Option Instr :=
  match decodeBytes (bytesOfWord (BitVec.ofNat 64 w) ++ bytesOfWord (BitVec.ofNat 64 (w / 2 ^ 64))) with
  | .ok (i, _) => some i
  | .error _ => none

end Sys2Proof
end

