-- ==== Sys2Proof/Machine/Fetch.lean ====
section
/-! DEFINITION. Fetching an instruction (06 R169, R184 steps 1 to 3; 09 R290 to R292): a core's instruction cache, the words a slice may
still hold from before an `ICINV`, and what a fetch raises. -/
namespace Sys2Proof.Machine

/-- Whether a protected team is stopped for slices of a group: another of its fragments has an `RATOM` in flight (17 R446). -/
def teamStopped (r : Run) (gid : Nat) (g : Grp) (ns : List Nat) : Bool :=
  g.handler.isNone && isProtected r g.team &&
    (teamGroups r g.team).any fun e => e.2.remotes.any fun x => x.atom && (e.1 != gid || !ns.contains x.slice)

/-- A fragment that another party does not keep from issuing (15 R413): it is on a core, not parked, held by no context access (16 R431), and at
no barrier, `REGANG` or fault record. -/
def readyFrag (r : Run) (gid : Nat) (g : Grp) (f : Nat) : Bool :=
  let ns := g.fragSlices f
  !g.ended && !g.evicting && !contextHeld r gid && !teamStopped r gid g ns && (g.ctx.isSome || g.handler.isSome) && g.parked.isNone && !ns.isEmpty &&
    ns.all fun n => (g.slice n).all fun s => s.arrived.isNone && s.bar.isNone && s.wait.all fun w => w.kind != 11

/-- The word at a physical address as a core's fetch sees it. A cached word that memory no longer holds may be used or not; which one is
free (09 R291). A fill takes the 8 words of a fetch buffer, as far as the cache has them not. DEDUCED, log 43. -/
def cachedWord (r : Run) (q : Req) (l : Leaf) (pa : Nat) : W64 × Run :=
  let m := readWord r pa
  let ahead := fun (c : Sparse W64) => (List.range 7).foldl (fun c i =>
    let a := pa + 8 * (i + 1)
    if (c.find a).isSome then c else c.put a (readWord r a)) c
  let fill := fun (r : Run) => (touchLine r q.part l pa 8 false).updCore q.die q.core fun x => { x with icache := ahead (x.icache.put pa m) }
  match (r.core q.die q.core).icache.find pa with
  | some w =>
    if w = m then (m, r)
    else
      let (n, r) := r.newFree
      if Config.freeChoice n % 2 = 0 then (w, r) else (m, fill r)
  | none => (m, fill r)

/-- Where a slice's instruction word comes from: its loop buffer, what its fetch buffer holds from before an `ICINV`, or the instruction cache and
memory (09 R290, R291). -/
inductive WordFrom where
  | loop
  | old
  | new
  deriving DecidableEq, Repr

/-- The word that a slice's loop buffer has for an address (09 R290). -/
def Slice.loopWord (s : Slice) (a : W64) : Option W64 := if s.loopAt.isSome then s.buffer.find a.toNat else none

/-- The word that a slice's fetch buffer may have for an address from before an `ICINV` (09 R291). -/
def Slice.oldWord (s : Slice) (a : W64) : Option W64 := if s.staleLeft = 0 then none else s.stale.find a.toNat

/-- A slice that has taken a word. Once it has fetched it issues no older word; what it decodes it keeps as far as a loop buffer reaches. -/
def Slice.took (a w : W64) (k : WordFrom) (s : Slice) : Slice :=
  match k with
  | .loop => s
  | .old => { s with staleLeft := s.staleLeft - 1 }
  | .new => { s with stale := [], staleLeft := 0
                     buffer := Sparse.put (s.buffer.filter fun e => decide (a.toNat < e.1 + 512) && decide (e.1 < a.toNat + 512)) a.toNat w }

/-- The word of an instruction for a slice that has it in no loop buffer. -/
def sliceWord (r : Run) (q : Req) (l : Leaf) (s : Slice) (a : W64) (pa : Nat) : W64 × WordFrom × Run :=
  let new := fun (r : Run) => let x := cachedWord r q l pa; (x.1, WordFrom.new, x.2)
  match s.oldWord a with
  | some w =>
    let (n, r) := r.newFree
    if Config.freeChoice n % 2 = 0 then (w, .old, r) else new r
  | none => new r

/-- A slice at its next instruction: outside the span of its loop buffer it has left that (09 R290). -/
def Slice.atPc (s : Slice) : Slice :=
  match s.loopAt with
  | some (top, e) =>
    if decide (top.toNat ≤ s.pc.toNat) && decide (s.pc.toNat < e) then s
    else { s with loopAt := none, loopStale := false, buffer := if s.loopStale then [] else s.buffer }
  | none => s

/-- What a fetch raises: the trap, the translation faults behind it, and what it leaves behind. -/
structure FetchStop where
  trap : TrapInfo
  faults : List (Req × FaultInfo) := []
  keep : Run → Run := id

def fetchTrap (cause : Cause) (detail : Nat) (pc addr : W64) : TrapInfo :=
  { cause, detail, lane := 0, code := 0, pc, addr, aux := 0, deferred := false }

/-- Fetches one word of the instruction at `pc`. A word that fails is consumed (17 R448); one of the loop buffer is issued from there (09 R290). -/
def fetchWord (r : Run) (gid : Nat) (g : Grp) (s : Slice) (pc a : W64) : Except FetchStop (W64 × WordFrom × Run) :=
  match s.loopWord a with
  | some w => .ok (w, .loop, r)
  | none =>
    let q := grpReq r gid g pc 6 3
    match translate r q a with
    | (.error f, _) => .error { trap := fetchTrap (faultCause f.kind) f.kind pc f.va, faults := [(q, f)] }
    | (.ok l, r) =>
      let pa := l.pa a
      match rangeFail r (keyOf r q.part l) pa 8 with
      | some (b, c, d) =>
        .error { trap := fetchTrap c d pc a
                 keep := fun r => (markBlock r b (c, d)).count q.part 5 (if c = .poison then 1 else 2) 1 }
      | none => .ok (sliceWord (correctRange r q.part (keyOf r q.part l) pa 8) q l s a pa)

/-- Fetches and decodes the instruction of a fragment. -/
def fetch (r : Run) (gid : Nat) (g : Grp) (s : Slice) : Except FetchStop (Instr × Run) :=
  let pc := s.pc
  if pc.toNat % 8 != 0 then .error { trap := fetchTrap .misaligned 0 pc pc }
  else
    match fetchWord r gid g s pc pc with
    | .error e => .error e
    | .ok (w1, k1, r) =>
      let second : Except FetchStop (W64 × WordFrom × Run) :=
        if longWord w1 then fetchWord r gid g (s.took pc w1 k1) pc (pc + 8) else .ok (0, .loop, r)
      match second with
      | .error e => .error e
      | .ok (w2, k2, r) =>
        match decodeWords w1 w2 with
        | .ok i => .ok (i, r.updGrp gid fun g => g.updSlices (g.fragSlices s.frag) fun x => (x.took pc w1 k1).took (pc + 8) w2 k2)
        | .error _ => .error { trap := fetchTrap .illegalOpcode 0 pc 0 }

/-- What a fragment's turn comes to: an instruction to issue, or a state after a fetch that raised a trap. -/
inductive Turn where
  | instr (i : Instr) (r : Run)
  | done (r : Run)

/-- The turn of a fragment: the pops of 01 R28, then the fetch. A fragment that R28 has emptied, and one that is none, do nothing. -/
def fragTurn (r : Run) (gid frag : Nat) : Turn :=
  let r := (settleFrag r gid frag).updGrp gid fun g => g.updSlices (g.fragSlices frag) Slice.atPc
  match r.grp gid with
  | none => .done r
  | some g =>
    match (g.fragSlices frag).head?.bind g.slice with
    | none => .done r
    | some s =>
      match fetch r gid g s with
      | .ok (i, r) => .instr i { r with issuing := some (gid, frag) }
      | .error e => .done (trapAt r gid (g.fragSlices frag) e.trap e.faults e.keep)

end Sys2Proof.Machine
end

