-- ==== Sys2Proof/Machine/Stall.lean ====
section
/-! DEFINITION. Why a group does not issue (19 R486): the fragment whose wait counts, and the counter. -/
namespace Sys2Proof.Machine

def stallOther : Nat := 0
def stallBarrier : Nat := 6
def stallRegang : Nat := 12
def stallSlot : Nat := 13
def stallThrottle : Nat := 14
def stallDrain : Nat := 15

/-- The tick at which a fragment issued last. -/
def fragLast (g : Grp) (f : Nat) : Nat := ((g.fragSlices f).filterMap fun n => (g.slice n).map (·.last)).foldl max 0

/-- The fragment that issued least recently; among equals the one with the lowest slice. -/
def leastRecent (g : Grp) : Option Nat :=
  g.frags.foldl (fun acc f =>
    match acc with
    | none => some f
    | some b => if fragLast g f < fragLast g b then some f else some b) none

/-- What a slice waits for. -/
def sliceReason (s : Slice) : Nat :=
  match s.wait with
  | some w => w.reason
  | none => if s.arrived.isSome then stallRegang else if s.bar.isSome then stallBarrier else stallSlot

/-- The issue slot of a group or a handler slice (15 R413). -/
def issueSlot (g : Grp) : Nat := ((g.handler.map (·.slot)).getD (g.ctx.getD 0)) % 4

def slotThrottled (r : Run) (g : Grp) : Bool := (r.core (dieOfGrp r g) (coreOfGrp r g)).throttled.getLsbD (issueSlot g)

/-- A slice whose event waits for room in its unit's buffer (19 R473). -/
def Slice.waitsRecord (s : Slice) : Bool := s.wait.any fun w => w.kind == 0 && w.reason == stallOther

/-- The counter of a cycle in which a group issues nothing: a candidate's is SLOT, but for one whose record waits (R473). DEDUCED, log 133. -/
def stallReason (r : Run) (gid : Nat) (g : Grp) : Nat :=
  if !g.slices.any Slice.live then stallDrain
  else if slotThrottled r g then stallThrottle
  else
    match leastRecent g with
    | none => stallOther
    | some f =>
      if g.parked.isSome || teamStopped r gid g (g.fragSlices f) then stallOther
      else
        match (g.fragSlices f).head?.bind g.slice with
        | none => stallOther
        | some s => if r.ready.contains (gid, f) && !s.waitsRecord then stallSlot else sliceReason s

end Sys2Proof.Machine
end

