-- ==== Sys2Proof/Machine/Observe.lean ====
section
/-! DEFINITION. What tools and the control node read and set (19 R474, R475, R479 to R481, R492 to R494): time, losses, wait descriptors, sketches,
samples, replay modes; parked groups (14 R377), kills by firmware (17 R432), injections (21 R515), the control node's accesses of memory
(20 R501), and power throttling (15 R414). -/
namespace Sys2Proof.Machine

/-- Whether a handle has a right in a partition (14 R385). -/
def handleHolds (r : Run) (part : Nat) (h : W64) (right : Nat) : Bool := holds r part (partDie r part) h right

/-- A request for a tool, whose handle must hold a right in a partition: without it, it is refused. -/
def rowAsked (due : Bool) (part : Nat) (h : W64) (right : Nat) (s : State) (act : Run × Mgmt → Run × Mgmt) : Host.Outcome State Fault Refusal :=
  rowBoth (served s.mgmt && decide (part < Config.partitions) && due) s fun x =>
    let seen := rightsSeen x.1 part (partDie x.1 part) h
    if handleHolds x.1 part h right then act (seen, x.2) else (seen, answer x.2 .refused)

/-- Such a request that has its effect and is answered. -/
def rowToldAsked (due : Bool) (part : Nat) (h : W64) (right : Nat) (s : State) (act : Run × Mgmt → Run × Mgmt) : Host.Outcome State Fault Refusal :=
  rowAsked due part h right s fun x => let y := act x
                                       (y.1, answer y.2 .done)

/-- The partition that has a die, by its place. -/
def partOfDie (r : Run) (d : Nat) : Option Nat := (List.range r.parts.length).find? fun n => (r.part n).pdies.getLsbD d

/-! Time (R474). -/

/-- Ticks in one second. -/
def ticks1s : Nat := 4000000000

/-- Both Ferry links have been silent for 1 s (20 R498). The MMP's clock is that of die 0. DEDUCED, log 109. -/
def ferriesSilent (r : Run) (m : Mgmt) : Bool := m.ferries.all fun f => decide (f.lastRx.toNat + ticks1s ≤ (r.now 0).toNat)

def execHoldover (s : State) : Host.Outcome State Fault Refusal :=
  rowBoth (s.mgmt.powered && s.mgmt.state == .ready && s.mgmt.locked && !s.mgmt.holdover && ferriesSilent s.run s.mgmt) s fun x =>
    (emit' x.1 mmpUnit 0x0043 1 0, { x.2 with holdover := true })

/-- Whether some partition has a started record. -/
def recordStarted (r : Run) : Bool := r.parts.any fun p => p.queues.any fun q => q.2.recs.any fun x => x.state == .started

/-- The timebase locks, or is stepped forward while no record runs. DESIGN CHOICE, log 121. -/
def timesyncDue (s : State) (stepTo : Option W64) : Bool :=
  served s.mgmt &&
    match stepTo with
    | none => !s.mgmt.locked || s.mgmt.holdover
    | some t => !recordStarted s.run && s.run.dies.all fun d => decide (d.time.toNat ≤ t.toNat)

def timesyncAct (stepTo : Option W64) (s : Run × Mgmt) : Run × Mgmt :=
  match stepTo with
  | none => (emit' s.1 mmpUnit 0x0043 0 0, { s.2 with locked := true, holdover := false })
  | some t => (emit' { s.1 with dies := s.1.dies.map fun d => { d with time := t } } mmpUnit 0x0043 2 0, s.2)

def execTimesync (stepTo : Option W64) (s : State) : Host.Outcome State Fault Refusal := rowBoth (timesyncDue s stepTo) s (timesyncAct stepTo)

/-! Losses (R475). -/

def lossOf (r : Run) (u : UnitId) : Option Nat :=
  ((r.units.find? fun b => b.unit == u).filter fun b => decide (0 < b.drops) && decide (b.recs.length < Config.eventBuffer)).map (·.drops)

def lossAct (u : UnitId) (r : Run) : Run :=
  match lossOf r u with
  | none => r
  | some n =>
    let r := { r with units := r.units.map fun b => if b.unit = u then { b with drops := 0 } else b }
    let r := match partOfDie r u.die with | some p => r.count p 5 4 n | none => r
    emit' r u 0x0041 n 0

def execLoss (unit : UnitId) (s : State) : Host.Outcome State Fault Refusal := rowRun (lossOf s.run unit).isSome s (lossAct unit)

/-! Wait descriptors (R479 to R481). -/

/-- An awaited party. -/
structure WaitParty where
  kind : Nat
  dev : Nat := 0
  die : Nat := 0
  id16 : Nat := 0
  id64 : W64 := 0
  deriving DecidableEq, Repr

def WaitParty.words (p : WaitParty) : List W64 := [w64 (p.kind * 2 ^ 60 + p.dev * 2 ^ 48 + p.die * 2 ^ 40 + p.id16 % 2 ^ 16), p.id64]

/-- A wait as its descriptor shows it. -/
structure WaitView where
  kind : Nat
  object : W64
  since : W64
  parties : List WaitParty
  deriving DecidableEq, Repr

/-- The sixteen words of a descriptor. -/
def descriptor (dev die groupid team launch : Nat) (v : WaitView) : List W64 :=
  let n := v.parties.length
  let w0 := v.kind * 2 ^ 56 + min n 255 * 2 ^ 48 + bit (decide (6 < n)) * 2 ^ 47 + dev * 2 ^ 32 + die * 2 ^ 27 + groupid
  let ps := (v.parties.take 6).flatMap WaitParty.words
  [w64 w0, w64 (team * 2 ^ 32 + launch), v.object, v.since] ++ ps ++ List.replicate (12 - ps.length) 0

def noWait : WaitView := { kind := 0, object := 0, since := 0, parties := [] }

def groupParty (r : Run) (g : Grp) : WaitParty :=
  { kind := 0, dev := r.devid.toNat, die := dieOfGrp r g, id16 := g.num
    id64 := w64 ((((r.team g.team).map (·.num)).getD 0) * 2 ^ 32 + ((launchOf r g).map (·.launchid.toNat)).getD 0) }

/-- Puts something in its place among things by number. -/
def insertBy {α : Type} (key : α → Nat) (x : α) : List α → List α
  | [] => [x]
  | y :: t => if key x < key y then x :: y :: t else y :: insertBy key x t
def sortBy {α : Type} (key : α → Nat) (l : List α) : List α := l.foldl (fun acc x => insertBy key x acc) []

/-- Transfers of a team by acceptance, with the causal IDs of their ENGINE_ISSUE, where their completion names an object. -/
def transfersAt (r : Run) (tid : Nat) (named : Nat → Nat → Bool) : List WaitParty :=
  let ops := (r.ops.filter fun e => e.2.team == tid && named e.2.cmode e.2.cpl).map fun e => (e.1, e.2.causal)
  let steps := (r.steps.filter fun st => st.team == some tid && st.active && named st.cmode st.cpl).map fun st => (st.order, st.issueEvent)
  (sortBy (·.1) (ops ++ steps)).map fun e => { kind := 1, id64 := e.2 }

/-- Transfers that mark one of some scratch lines FILLING. -/
def fillersOf (r : Run) (tid : Nat) (lines : List Nat) : List WaitParty :=
  (r.ops.filter fun e => e.2.team == tid && (opLines e.2).any lines.contains).map fun e => { kind := 1, id64 := e.2.causal }

/-- Expected tags that no post has carried (11 R340). DEDUCED, log 126. -/
def semTags (r : Run) (part die : Nat) (a : W64) : List WaitParty :=
  let w := fun (i : Nat) => (peekWord r part die (a.toNat + 8 * i)).getD 0
  let tag := fun (i : Nat) => fld (w (2 + i / 2)) (32 * (i % 2) + 31) (32 * (i % 2))
  ((List.range 4).filter fun i => tag i != 0 && !(w 1).getLsbD (8 + i)).map fun i => { kind := 3, id64 := w64 (tag i) }

/-- Slices that a join still awaits. -/
def notArrived (g : Grp) (s : Slice) : List WaitParty :=
  match s.arrived with
  | none => []
  | some (set, _) =>
    let open_ := g.liveSlices.filter fun n => set.getLsbD n && (g.slice n).all fun x => (x.arrived.map (·.1)) != some set
    [{ kind := 4, id64 := w64 (open_.foldl (fun acc n => acc + 2 ^ n) 0) }]

/-- Who holds a tile that a group waits for. -/
def tileHolders (r : Run) (gid tid tile : Nat) : List WaitParty :=
  let owner := ((r.team tid).bind fun t => t.tiles[tile]?).bind (·.owner)
  let holders := (teamGroups r tid).filter fun e => e.1 != gid && (owner == some e.1 || e.2.holds.any fun h => h.1 % 8 == tile)
  holders.map fun e => groupParty r e.2

/-- Devices that a group awaits replies of. -/
def awaitedDevices (g : Grp) : List WaitParty :=
  let open_ := (g.remotes ++ g.rsts).filter fun x => !x.done
  (sortBy id ((open_.map fun x => peerDev x.peer).eraseDups)).map fun d => { kind := 5, dev := d }

/-- The awaited parties of a slice's wait (R480). DEDUCED, log 126. -/
def partiesOf (r : Run) (gid : Nat) (g : Grp) (s : Slice) (w : Wait) : List WaitParty :=
  match w.kind with
  | 1 =>
    let n := w.object.toNat
    let b := ((r.team g.team).map fun t => nthD Barrier.reset t.bars n).getD Barrier.reset
    (sortBy (fun e => e.2.num) ((expectedGroups r g.team b).filter fun e => !arrivedGroup b e)).map fun e => groupParty r e.2
  | 2 => notArrived g s
  | 3 => transfersAt r g.team fun mode cpl => mode == 1 && cpl == w.object.toNat
  | 4 => fillersOf r g.team w.lines
  | 5 | 6 => transfersAt r g.team fun mode cpl => decide (2 ≤ mode) && cpl == w.object.toNat
  | 7 => if w.reason = 8 then semTags r (partOf r g) (dieOfGrp r g) w.object else []
  | 8 => tileHolders r gid g.team w.object.toNat
  | 9 => awaitedDevices g
  | _ => []

/-- The waits of a group: of its slices in order, also those that they go on with after a supervisor handler (01 R51), parked, and held by a context
access. -/
def groupWaits (r : Run) (gid : Nat) (g : Grp) : List WaitView :=
  let view := fun (s : Slice) (w : Wait) => { kind := w.kind, object := w.object, since := w.since, parties := partiesOf r gid g s w : WaitView }
  let back := fun (s : Slice) => (s.kept.map fun k => { s with arrived := k.arrived, bar := k.bar, wait := k.wait }).getD s
  let before := { g with slices := g.slices.map back }
  let slices := (g.slices.filterMap fun s => s.wait.map (view s)) ++
    before.slices.filterMap fun s => if s.kept.isSome then s.wait.map fun w => { view s w with parties := partiesOf r gid before s w } else none
  let parked := g.parked.toList.map fun p => { kind := 12, object := w64 p.1, since := p.2, parties := [] }
  let held := (r.part (partOf r g)).faults.filterMap fun x =>
    if x.waiter = some (.context gid) then some { kind := 11, object := nthD 0 x.words 0, since := x.since, parties := [] } else none
  slices ++ parked ++ held

/-- The descriptor of a group: its oldest wait; one that R480 does not name is shown as none. DEDUCED, log 54. -/
def groupView (r : Run) (gid : Nat) (g : Grp) : WaitView :=
  let v := (groupWaits r gid g).foldl (fun (acc : Option WaitView) v =>
    match acc with
    | none => some v
    | some b => if v.since.toNat < b.since.toNat then some v else some b) none
  match v with
  | some v => if v.kind = 0 || decide (12 < v.kind) then noWait else v
  | none => noWait

def groupDescriptor (r : Run) (gid : Nat) (g : Grp) : List W64 :=
  let p := groupParty r g
  descriptor p.dev p.die g.num (fld p.id64 63 32) (fld p.id64 31 0) (groupView r gid g)

def stepDescriptor (r : Run) (m : Mgmt) (st : LxStep) : List W64 :=
  let party := fun (p : Nat × Nat) => { kind := 2, dev := p.1, die := p.2, id16 := st.lateRank p, id64 := w64 st.stepid.toNat }
  let ps := ((lateSet r m st).map fun x => x.2.map party).getD []
  descriptor r.devid.toNat st.die 0 (st.lateRank (st.me r) % 2 ^ 16) st.stepid.toNat { kind := 10, object := w64 st.stepid.toNat, since := st.accepted, parties := ps }

def waitDescriptors (r : Run) (m : Mgmt) (part : Nat) : List W64 :=
  let groups := r.groups.filter fun e => e.2.handler.isNone && !e.2.ended && partOf r e.2 == part
  let steps := r.steps.filter fun st => st.status == 1 && (r.part part).pdies.getLsbD st.die
  groups.flatMap (fun e => groupDescriptor r e.1 e.2) ++ steps.flatMap (stepDescriptor r m)

/-- The team of a semaphore tag, in the runtime's format (11 R339): tag, device, die, `%teamid`. -/
def tagTeam (tag : Nat) : Nat × Nat × Nat × Nat := (tag, nfld tag 31 24, nfld tag 23 16, nfld tag 15 0)

/-- The semaphore tags that some descriptors name. -/
def tagsNamed (ws : List W64) : List Nat :=
  ((chunksOf ws.length 16 ws).flatMap fun d => (List.range 6).filterMap fun i =>
    if fld (nthD 0 d (4 + 2 * i)) 63 60 = 3 then some (fld (nthD 0 d (5 + 2 * i)) 31 0) else none).eraseDups

def execWaitDescriptorRead (handle : W64) (part : Nat) (s : State) : Host.Outcome State Fault Refusal :=
  rowAsked true part handle rightWaitgraph s fun x =>
    let ws := waitDescriptors x.1 x.2 part
    (x.1, answer x.2 (.waits ws ((tagsNamed ws).map tagTeam)))

/-! Sketches (R492). -/

def sketchMax : Nat := 2 ^ 48 - 1

/-- The counts of a row: each sum under its key's column. DEDUCED, log 90. -/
def sketchRow (k : Sketch) (row : Nat) : List Nat :=
  let cols := k.sums.foldl (fun (m : Sparse Nat) e =>
    let c := Config.sketchColumn k.seed row e.1 % 2048
    m.put c (min sketchMax (Sparse.get 0 m c + e.2))) []
  (List.range 2048).map (Sparse.get 0 cols)

def sketchUnit (u : UnitId) : Bool :=
  decide (u.die < Config.dies) &&
    ((u.kind == 1 && decide (u.index < Config.slices)) || (u.kind == 4 && decide (u.index < 3)) || (u.kind == 3 && u.index == 0))

/-- DEDUCED, log 90. -/
def sketchAct (u : UnitId) (s : Run × Mgmt) : Run × Mgmt :=
  let empty : Sketch := { unit := u, seed := 0, sums := [] }
  let k := (s.1.sketches.find? fun x => x.unit == u).getD empty
  let (seed, r) := s.1.newFree
  ({ r with sketches := (r.sketches.filter fun x => x.unit != u) ++ [{ unit := u, seed, sums := [] }] },
   answer s.2 (.sketch ((List.range 4).map (sketchRow k))))

def execSketchRead (unit : UnitId) (s : State) : Host.Outcome State Fault Refusal :=
  rowBoth (served s.mgmt && sketchUnit unit) s (sketchAct unit)

/-! Samples (R493). -/

def execSampleInterval (handle : W64) (part n : Nat) (s : State) : Host.Outcome State Fault Refusal :=
  rowToldAsked (decide (10 ≤ n) && decide (n ≤ 30)) part handle rightSample s fun x =>
    (x.1.updPart part fun p => { p with sampleLog := some n }, x.2)

/-- The interval that a core is in: its number, from 1. A cycle is two ticks. -/
def sampleTurn (r : Run) (d : Nat) : Option Nat :=
  (partOfDie r d).bind fun p => (r.part p).sampleLog.map fun n => (r.now d).toNat / 2 / 2 ^ n + 1

/-- The group after the one last sampled, in context order. DEDUCED, log 125. -/
def sampleGroup (r : Run) (d k : Nat) : Option (Nat × Grp) :=
  let last := (r.core d k).lastSample
  let gs := sortBy (fun e => (e.2.ctx.getD 0 + Config.contexts - (last + 1) % Config.contexts) % Config.contexts) (contextsOn r d k)
  gs.head?

def sampleDue (r : Run) (d k : Nat) : Bool :=
  decide (d < Config.dies) && decide (k < Config.coresPerDie) && (sampleGroup r d k).isSome && (sampleTurn r d).any fun n => (r.core d k).sampled != n

/-- What a sample says of a group: reason, address, slices. DEDUCED, log 125. -/
def sampleOf (r : Run) (gid : Nat) (g : Grp) : Nat × W64 × Nat :=
  let bits := fun (f : Nat) => (g.fragSlices f).foldl (fun acc n => acc + 2 ^ n) 0
  let pcOf := fun (f : Nat) => (((g.fragSlices f).head?.bind g.slice).map (·.pc)).getD 0
  if !g.slices.any Slice.live then
    let last := g.slices.foldl (fun (acc : Nat × W64) s => if acc.1 ≤ s.last then (s.last, s.lastPc) else acc) (0, 0)
    (stallDrain, last.2, 0)
  else
    match leastRecent g with
    | some f => (stallReason r gid g, pcOf f, bits f)
    | none => (stallOther, 0, 0)

/-- The fragment of a group that issued at this tick. DEDUCED, log 125. -/
def issuedNow (r : Run) (g : Grp) : Option Nat :=
  if g.lastIssue = r.tick then g.frags.find? fun f => fragLast g f == r.tick else none

/-- A SAMPLE record: as an event, with PARENT replaced. -/
def emitSample (r : Run) (d k : Nat) (w2 : W64) (payload : Nat) : Run :=
  let r := { emitRaw r (coreUnit d k) 0x0040 payload (nextCausal r d) w2 with evTimes := r.evTimes.put (nextCausal r d).toNat (r.now d) }
  r.updDie d fun x => { x with seq := x.seq + 1 }

def sampleAct (d k : Nat) (r : Run) : Run :=
  match sampleGroup r d k with
  | none => r
  | some (gid, g) =>
    let ctx := g.ctx.getD 0
    let (issued, reason, pc, bits) := match issuedNow r g with
      | some f => (true, 0, (((g.fragSlices f).head?.bind g.slice).map (·.lastPc)).getD 0, (g.fragSlices f).foldl (fun acc n => acc + 2 ^ n) 0)
      | none => (false, sampleOf r gid g)
    let w2 := w64 (ctx * 2 ^ 58 + bit issued * 2 ^ 57 + reason * 2 ^ 53 + fld pc 55 3)
    let r := emitSample r d k w2 bits
    r.updCore d k fun x => { x with lastSample := ctx, sampled := (sampleTurn r d).getD 0 }

def execSample (die core : Nat) (s : State) : Host.Outcome State Fault Refusal := rowRun (sampleDue s.run die core) s (sampleAct die core)

/-! Replay, parked groups, kills, injections. -/

def execReplayMode (handle : W64) (part queue : Nat) (mode : ReplayMode) (s : State) : Host.Outcome State Fault Refusal :=
  rowToldAsked (decide (queue < Config.queues)) part handle rightReplay s fun x =>
    (x.1.updPart part fun p => { p with modes := p.modes.put queue mode }, x.2)

/-- A group that HALT parked goes on after it. One that a divergence parked stays parked (R497). DEDUCED, log 131. -/
def releaseDue (r : Run) (gid : Nat) : Bool := (r.grp gid).any fun g => g.parked.isSome && !(launchOf r g).any (·.diverged)

/-- It is released for the control node, or for a tool whose handle must hold BREAK in the group's partition. -/
def execHaltRelease (release : Release) (s : State) : Host.Outcome State Fault Refusal :=
  let act := fun (x : Run × Mgmt) => (x.1.updGrp release.group fun g => { g with parked := none }, x.2)
  match release.handle with
  | none => rowServed (releaseDue s.run release.group) s act
  | some h => rowToldAsked (releaseDue s.run release.group) (((s.run.grp release.group).map (partOf s.run)).getD 0) h rightBreak s act

/-- Firmware kills a team (17 R432, R452): its record is in the slot of group 0. -/
def watchdogAct (tid : Nat) (r : Run) : Run :=
  let i := { contextTrap .watchdog 0 0 with pc := 0 }
  match (teamGroups r tid).find? fun e => e.2.num == 0 with
  | some (gid, _) => settleCluster (killWithRecord r gid i) (clusterOf r gid)
  | none => r

def execWatchdogKill (team : Nat) (s : State) : Host.Outcome State Fault Refusal :=
  rowServed ((s.run.team team).any fun t => !t.ended) s fun x => (watchdogAct team x.1, x.2)

/-- Arms a mismatch injection (21 R515). -/
def execInjectionArm (handle : W64) (part die core count bit : Nat) (s : State) : Host.Outcome State Fault Refusal :=
  rowToldAsked (decide (core < Config.coresPerDie) && decide (die < Config.dies) &&
      (s.run.part part).pdies.getLsbD die && decide (1 ≤ count) && decide (count < 2 ^ 32) && decide (bit < 32))
    part handle rightBreak s fun x =>
      (x.1.updCore die core fun k => { k with inject := some (count, bit) }, x.2)

/-- Throttling holds or releases an issue slot (15 R414). -/
def execPowerThrottle (die core slot : Nat) (hold : Bool) (s : State) : Host.Outcome State Fault Refusal :=
  rowRun (decide (die < Config.dies) && decide (core < Config.coresPerDie) && decide (slot < 4) && (s.run.core die core).throttled.getLsbD slot != hold) s
    fun r => r.updCore die core fun k =>
      { k with throttled := if hold then k.throttled ||| (1#4 <<< slot) else k.throttled &&& ~~~(1#4 <<< slot) }

/-! The control node's accesses (20 R501). -/

def hostReq (r : Run) (part kind : Nat) : Req := unitReq part (partDie r part) 0 kind

def hostDue (s : State) (ferry part bytes : Nat) : Bool :=
  ferryServed s.mgmt ferry && decide (part < Config.partitions) && decide (bytes ≤ 4096)

/-- An answer on a Ferry port. -/
def answerOn (ferry : Nat) (m : Mgmt) (x : Reply) : Mgmt := { m with replies := m.replies ++ [(ferry, x)] }

/-- The answer to an access that fails, which has no other effect; data that fails is counted and stays marked (17 R451, 19 R489). -/
def hostFail (ferry part : Nat) (e : AccFail × Run) (x : Run × Mgmt) : Run × Mgmt :=
  match e with
  | (.fault f, _) => (x.1, answerOn ferry x.2 (.fault f.kind))
  | (.data c .., r) => (countData part c r, answerOn ferry x.2 (.dataError c.code))

/-- DEDUCED, log 124. -/
def hostRead (ferry part : Nat) (va : W64) (bytes : Nat) (x : Run × Mgmt) : Run × Mgmt :=
  match readVirt x.1 (hostReq x.1 part 0) va bytes with
  | .ok (bs, r) => (r, answerOn ferry x.2 (.data bs))
  | .error e => hostFail ferry part e x

/-- DEDUCED, log 124. -/
def hostWrite (ferry part : Nat) (va : W64) (data : List Byte) (x : Run × Mgmt) : Run × Mgmt :=
  match writeVirt x.1 (hostReq x.1 part 1) va data with
  | .ok r => (r, answerOn ferry x.2 .done)
  | .error e => hostFail ferry part e x

def execHostmemRead (ferry part : Nat) (va : W64) (bytes : Nat) (_acquire : Bool) (s : State) : Host.Outcome State Fault Refusal :=
  rowBoth (hostDue s ferry part bytes) s (hostRead ferry part va bytes)

def execHostmemWrite (ferry part : Nat) (va : W64) (data : List Byte) (_release : Bool) (s : State) : Host.Outcome State Fault Refusal :=
  rowBoth (hostDue s ferry part data.length) s (hostWrite ferry part va data)

/-- An atomic of 64 bits: the old value, and the new one where there is one. DEDUCED, log 124. -/
def hostAtomic (ferry part : Nat) (va : W64) (new : W64 → Option W64) (x : Run × Mgmt) : Run × Mgmt :=
  let q := hostReq x.1 part 2
  match readVirtWord x.1 q va with
  | .error e => hostFail ferry part e x
  | .ok (old, r) =>
    match new old with
    | none => (r, answerOn ferry x.2 (.old old))
    | some v =>
      match writeVirt r q va (leBytes 8 v.toNat) with
      | .ok r => (r, answerOn ferry x.2 (.old old))
      | .error e => hostFail ferry part e x

def execAdd64 (ferry part : Nat) (va addend : W64) (s : State) : Host.Outcome State Fault Refusal :=
  rowBoth (hostDue s ferry part 8 && va.toNat % 8 == 0) s (hostAtomic ferry part va fun old => some (old + addend))

def execCas64 (ferry part : Nat) (va compare new : W64) (s : State) : Host.Outcome State Fault Refusal :=
  rowBoth (hostDue s ferry part 8 && va.toNat % 8 == 0) s (hostAtomic ferry part va fun old => if old = compare then some new else none)

end Sys2Proof.Machine
end

