-- ==== Sys2Proof/Machine/Narrows.lean ====
section
/-! DEFINITION. The Narrows and the Shoal (19 R475, R476): records go from their units' buffers into the circular store. -/
namespace Sys2Proof.Machine

/-- Whether the next record would overwrite the slot that PROTECT keeps. -/
def shoalFull (m : Mgmt) : Bool := m.protect != w64 (2 ^ 64 - 1) && decide (m.protect.toNat + Config.shoalSlots ≤ m.wptr.toNat)

/-- Whether FILTER lets a record through; a lossless one always passes. -/
def shoalTakes (m : Mgmt) (e : EvRec) : Bool := e.lossless || m.filter.getLsbD (evType e / 2048)

/-- One record is written at WPTR; the first log record of a launch moves PROTECT (R495). DESIGN CHOICE, log 132. -/
def shoalWrite (r : Run) (m : Mgmt) (e : EvRec) : Run × Mgmt :=
  let n := m.wptr.toNat
  let m := { m with shoal := m.shoal.put (n % Config.shoalSlots) { e with launch := none }, wptr := m.wptr + 1 }
  match e.launch with
  | none => (r, m)
  | some lid =>
    let r := r.updLaunch lid fun l => { l with firstLog := l.firstLog.orElse fun _ => some n }
    (r, protectLog r m)

/-- The records of one unit in order: those that stay are lossless and wait. -/
def drainRecs (u : UnitId) (recs : List EvRec) (s : Run × Mgmt) : List EvRec × (Run × Mgmt) :=
  match recs with
  | [] => ([], s)
  | e :: t =>
    let (r, m) := s
    if !shoalTakes m e then drainRecs u t s
    else if !shoalFull m then drainRecs u t (shoalWrite r m e)
    else if e.lossless then (recs, s)
    else
      let r := match partOfDie r u.die with | some p => r.count p 5 4 1 | none => r
      drainRecs u t (r, { m with dropped := m.dropped + 1 })

/-- The buffers of all units reach the Shoal. DEDUCED, log 36. DESIGN CHOICE, log 132. -/
def narrows (s : Run × Mgmt) : Run × Mgmt :=
  let (left, r, m) := s.1.units.foldl (fun (acc : List UnitBuffer × (Run × Mgmt)) b =>
    let (recs, x) := drainRecs b.unit b.recs acc.2
    (if recs.isEmpty && b.drops == 0 then acc.1 else acc.1 ++ [{ b with recs }], x)) ([], s)
  ({ r with units := left }, m)

/-- Whether every record has reached the Shoal. DESIGN CHOICE, log 132. -/
def allWritten (r : Run) : Bool := r.units.all fun b => b.recs.isEmpty

end Sys2Proof.Machine
end

