-- ==== Sys2Proof/Machine/Sha3.lean ====
section
/-! DEFINITION. SHA3-256, by which firmware images and the pending repair list are digested (20 R510, R512). The function is that of the
published standard, which the manual names (PRESUMED, log 26). -/
namespace Sys2Proof.Machine

def rotl64 (w : W64) (n : Nat) : W64 := w.rotateLeft (n % 64)

/-- The lanes in the order in which the standard numbers their rotations, as x + 5 y: lane `t` of the walk from (1, 0) by (x, y) to (y, 2 x + 3 y). -/
def keccakWalk (t : Nat) : Nat :=
  let p := (List.range t).foldl (fun (p : Nat × Nat) _ => (p.2, (2 * p.1 + 3 * p.2) % 5)) (1, 0)
  p.1 + 5 * p.2

/-- The rotation of each lane: triangular numbers along the walk, none for lane 0. -/
def keccakRots : Sparse Nat := (List.range 24).foldl (fun m t => m.put (keccakWalk t) ((t + 1) * (t + 2) / 2 % 64)) []

/-- The state of the constants' shift register, of polynomial x^8 + x^6 + x^5 + x^4 + 1, after `t` steps. -/
def keccakShift (t : Nat) : Nat := (List.range t).foldl (fun n _ => if n < 128 then 2 * n else (2 * n) ^^^ 0x171) 1

/-- The constant of a round: seven bits of the register, at the places 2^j - 1. -/
def keccakConst (round : Nat) : W64 :=
  w64 ((List.range 7).foldl (fun acc j => acc + keccakShift (7 * round + j) % 2 * 2 ^ (2 ^ j - 1)) 0)

/-- One round on 25 lanes, lane x + 5 y at that index. -/
def keccakRound (s : List W64) (rc : W64) : List W64 :=
  let at_ := fun (l : List W64) (x y : Nat) => nthD 0 l (x % 5 + 5 * (y % 5))
  let c := (List.range 5).map fun x => (List.range 5).foldl (fun acc y => acc ^^^ at_ s x y) 0#64
  let d := (List.range 5).map fun x => nthD 0 c ((x + 4) % 5) ^^^ rotl64 (nthD 0 c ((x + 1) % 5)) 1
  let t := (List.range 25).map fun i => nthD 0 s i ^^^ nthD 0 d (i % 5)
  let b := (List.range 25).map fun i =>
    let y := i % 5
    let x := 3 * (i / 5 + 15 - 3 * y) % 5
    rotl64 (nthD 0 t (x + 5 * y)) (Sparse.get 0 keccakRots (x + 5 * y))
  (List.range 25).map fun i =>
    let v := nthD 0 b i ^^^ (~~~(at_ b (i + 1) (i / 5)) &&& at_ b (i + 2) (i / 5))
    if i = 0 then v ^^^ rc else v

/-- PRESUMED, log 26. -/
def keccak (s : List W64) : List W64 := (List.range 24).foldl (fun s i => keccakRound s (keccakConst i)) s

/-- Pads a message to whole blocks of 136 bytes. PRESUMED, log 26. -/
def sha3Pad (bs : List Byte) : List Byte :=
  let n := 136 - bs.length % 136
  bs ++ (List.range n).map fun i => BitVec.ofNat 8 (bit (i == 0) * 6 + bit (i + 1 == n) * 128)

def sha3Absorb (s : List W64) (block : List Byte) : List W64 :=
  keccak ((List.range 25).map fun i => nthD 0 s i ^^^ (if i < 17 then w64 (leNat ((block.drop (8 * i)).take 8)) else 0))

/-- SHA3-256. PRESUMED, log 26. -/
def sha3 (bs : List Byte) : List Byte :=
  let s := (chunksOf (bs.length / 136 + 1) 136 (sha3Pad bs)).foldl sha3Absorb (List.replicate 25 0)
  (s.take 4).flatMap fun w => leBytes 8 w.toNat

end Sys2Proof.Machine
end

