-- ==== Sys2Proof/Machine/Reliability.lean ====
section
/-! DEFINITION. Dies that are drained and restarted, fenced cores (20 R502 to R504), DRAM repair and health (R505 to R507), keys (R508, R509), firmware
and attestation (R510 to R512), and the resets of the module (R513, R514; 19 R477). -/
namespace Sys2Proof.Machine

/-! Notices of parking (R503). -/

/-- The ports of a die. -/
def diePorts (die : Nat) : List Nat := [3 * die, 3 * die + 1, 3 * die + 2]

/-- PARK or UNPARK of a die's three ports: flooded, and counted by this device. -/
def floodPark (s : Run × Mgmt) (type die : Nat) : Run × Mgmt :=
  let (r, m) := s
  let self := r.devid.toNat
  let ofs := self * 2 ^ 56 + (3 * die) * 2 ^ 48 + (3 * die + 1) * 2 ^ 40 + (3 * die + 2) * 2 ^ 32
  let p : Packet := { type, src := self, dst := 255, inc := r.incarn.toNat, offset := w64 ofs, tag := m.nseq % 65536 }
  let mine := (diePorts die).map fun a => (self, a)
  let m := { m with nseq := m.nseq + 1, seen := m.seen ++ [noticeKey p] }
  let m := if type = 0x23 then { m with parked := m.parked ++ mine.filter fun x => !m.parked.contains x }
           else { m with parked := m.parked.filter fun x => !mine.contains x }
  (r, floodDevice m none p)

/-! The commands of a die control word (R502). -/

/-- DEDUCED, log 111. -/
def refuseCommand (r : Run) (die : Nat) : Run := r.updDie die fun d => { d with err := true, cmd := 0 }

/-- Clusters with a team on a die. -/
def clustersOn (r : Run) (die : Nat) : List Nat :=
  ((r.teams.filter fun e => e.2.resident && !e.2.ended && e.2.die == die).map fun e => e.2.cluster).eraseDups

/-- A draining die asks its clusters to leave, and gives those it has not placed to another die of their launch's set. -/
def emptyDie (r : Run) (die : Nat) : Run :=
  let other := fun (lid : Nat) => (r.launch lid).bind fun l => l.dies.find? fun d => d != die && (r.die d).state == .running && (r.part l.part).pdies.getLsbD d
  let move := fun (c : Cluster) =>
    if c.die = die && c.at_.isNone && !c.ended && !c.evicted then { c with die := (other c.launch).getD die } else c
  let r := { r with clusters := r.clusters.map fun e => (e.1, move e.2) }
  (clustersOn r die).foldl (fun r c => askCluster r die c) r

def drainDueAt (r : Run) (die : Nat) : Bool :=
  decide (die < Config.dies) && ((r.die die).cmd == 1 || ((r.die die).state == .draining && (!dieBusy r die || asksLeft r (clustersOn r die))))

/-- DRAIN: accepted from RUNNING, and done once nothing is left on the die. -/
def drainDie (die : Nat) (r : Run) : Run :=
  let d := r.die die
  if d.cmd = 1 then
    if d.state = .running then emptyDie (r.updDie die fun d => { d with state := .draining, cmd := 0 }) die else refuseCommand r die
  else if !dieBusy r die then r.updDie die fun d => { d with state := .drained }
  else emptyDie r die

def execDrain (die : Nat) (s : State) : Host.Outcome State Fault Refusal := rowRun (drainDueAt s.run die) s (drainDie die)

/-- What QUARANTINE asks: no partition has the die or a frame of it, and no page is pinned on it. -/
def mayQuarantine (r : Run) (die : Nat) : Bool :=
  (r.die die).state == .drained && (r.die die).parking.isNone &&
    r.parts.all (fun p => !p.pdies.getLsbD die && (List.range 8).all fun i => !inShare p ((8 * die + i) * Config.frameBytes)) &&
    r.pinned.all fun p => p.die != die

/-- Whether the wait of R503 is over: the die's ports hold no request without a reply, of this device or of a peer, or 25 µs have passed. DEDUCED, log 160. -/
def parkingOver (r : Run) (m : Mgmt) (die : Nat) : Bool :=
  let own := r.reqs.any fun q => (diePorts die).contains q.pkt.route && !r.outbox.any (samePacket q.pkt)
  let peers := (diePorts die).any fun a => (portInbox r m a ++ atollQueue r m a).any isRequest
  (r.die die).parking.any fun t => (!own && !peers) || decide (t.toNat + ticks25us ≤ (r.now die).toNat)

def commandGiven (r : Run) (die cmd : Nat) : Bool := decide (die < Config.dies) && (r.die die).cmd == cmd

def quarantineDue (r : Run) (m : Mgmt) (die : Nat) : Bool := commandGiven r die 2 || (decide (die < Config.dies) && parkingOver r m die)

/-- QUARANTINE: its notice is flooded (R503); after the wait the ports are parked and the L2, which has been written back, is empty. DEDUCED, log 160. -/
def quarantineAct (die : Nat) (s : Run × Mgmt) : Run × Mgmt :=
  if (s.1.die die).cmd = 2 then
    if mayQuarantine s.1 die then floodPark (s.1.updDie die fun d => { d with cmd := 0, parking := some d.time }, s.2) 0x23 die
    else (refuseCommand s.1 die, s.2)
  else (s.1.updDie die fun d => { d with state := .quarantined, parking := none, parkedPorts := true, held := [], replicas := [] }, s.2)

def execQuarantine (die : Nat) (s : State) : Host.Outcome State Fault Refusal :=
  rowBoth (quarantineDue s.run s.mgmt die) s (quarantineAct die)

/-- RESET is the first record after a reset (19 R477). -/
def emitReset (kind : Nat) (r : Run) : Run := emit' r mmpUnit 0x0042 (kind + r.incarn.toNat * 256) 0

/-! Spares and restarts (R502, R504, R511). -/

/-- Cores that fail their test, or were fenced, are mapped to spare sites in order; with none left they stay fenced. -/
def mapSpares (d : Die) (failed : List Nat) : Die :=
  (List.range d.cores.length).foldl (fun d k =>
    let c := nthD Core.reset d.cores k
    if !c.fenced && !failed.contains k then d
    else if 0 < d.spares then
      { d with spares := d.spares - 1, cores := updAt d.cores k fun c => { c with fenced := false, spare := some (Config.coresPerDie + Config.spareSites - d.spares) } }
    else { d with cores := updAt d.cores k fun c => { c with fenced := true } }) d

/-- A die after a reset: what R513 keeps of it is outside the die, its spares, and what it counts since manufacture. -/
def Die.restarted (d : Die) : Die :=
  { Die.reset with
    time := d.time, seq := d.seq, spares := d.spares, uecount := d.uecount, slot := d.slot, parkedPorts := d.parkedPorts
    cores := d.cores.map fun c => { Core.reset with fenced := c.fenced, spare := c.spare } }

/-- Whether a slot's image is accepted (R510). -/
def FwSlot.accepted (x : FwSlot) (floor : Nat) : Bool := x.good && decide (floor ≤ x.svn)
def slotOf (xs : List FwSlot) (b : Bool) : FwSlot := nthD FwSlot.reset xs (bit b)

def rowRepair : Repair → Bool
  | .row .. => true
  | _ => false

/-- Fuses the rows of a die's pending list, of which the spares are then free; what was only remapped ends with the reset, and pins and banks stay as
they are (R505). DEDUCED, log 129. -/
def fuseRepairs (m : Mgmt) (die : Nat) : Mgmt :=
  let rows := fun (e : Nat × Repair) => e.1 == die && rowRepair e.2
  { m with pending := m.pending.filter fun e => !rows e
           remaps := m.remaps.filter fun e => !rows e, hardRepairs := m.hardRepairs + (m.pending.filter rows).length }

/-- RESTART: the die is reset, its cores mapped and its stacks repaired, and it waits for its DCP; or the DCP reports ready. DEDUCED, log 111. -/
def restartAct (die : Nat) (failed : List Nat) (s : Run × Mgmt) : Run × Mgmt :=
  let (r, m) := narrows s
  let d := r.die die
  if d.cmd ≠ 3 then (r.updDie die fun d => { d with state := .quarantined }, m)
  else if d.state ≠ .quarantined then (refuseCommand r die, m)
  else
    let m := fuseRepairs m die
    let d := mapSpares d.restarted failed
    let ok := (slotOf m.dcpSlots d.slot).accepted m.dcpFloor && decide (fencedCount d ≤ 16)
    let d := { d with state := if ok then .restarting else .failed, dcpSlot := d.slot, dcpTries := 1, restartAt := d.time }
    (emitReset 3 (r.updDie die fun _ => d), m)

/-- DEDUCED, log 111. -/
def restartDue (r : Run) (die : Nat) (slot : Bool) (failed : List Nat) : Bool :=
  decide (die < Config.dies) && failed.all (fun k => decide (k < Config.coresPerDie)) &&
    if (r.die die).cmd = 3 then (r.die die).slot == slot else (r.die die).state == .restarting && (r.die die).dcpSlot == slot && failed.isEmpty

def execRestart (die : Nat) (slot : Bool) (failed : List Nat) (s : State) : Host.Outcome State Fault Refusal :=
  rowBoth (restartDue s.run die slot failed) s (restartAct die failed)

def dcpTimeoutDue (r : Run) (die : Nat) : Bool :=
  decide (die < Config.dies) && (r.die die).state == .restarting && decide ((r.die die).restartAt.toNat + ticks1s ≤ (r.now die).toNat)

/-- A DCP that is not ready is restarted with the other slot, once. -/
def dcpTimeoutAct (die : Nat) (s : Run × Mgmt) : Run × Mgmt :=
  let d := s.1.die die
  let other := !d.dcpSlot
  if d.dcpTries = 1 && (slotOf s.2.dcpSlots other).accepted s.2.dcpFloor then
    let (r, m) := narrows s
    (emitReset 3 (r.updDie die fun d => { d with dcpSlot := other, dcpTries := 2, restartAt := d.time }), m)
  else (s.1.updDie die fun d => { d with state := .failed }, s.2)

def execDcpReadyTimeout (die : Nat) (s : State) : Host.Outcome State Fault Refusal :=
  rowBoth (dcpTimeoutDue s.run die) s (dcpTimeoutAct die)

def releaseAct (die : Nat) (s : Run × Mgmt) : Run × Mgmt :=
  if (s.1.die die).state = .quarantined then floodPark (s.1.updDie die fun d => { d with state := .running, cmd := 0, parkedPorts := false }, s.2) 0x24 die
  else (refuseCommand s.1 die, s.2)

def execRelease (die : Nat) (s : State) : Host.Outcome State Fault Refusal := rowBoth (commandGiven s.run die 4) s (releaseAct die)

/-- Clusters with a team on a core, that are not leaving it yet. -/
def clustersAt (r : Run) (die core : Nat) : List Nat :=
  (((teamsOn r die core).map fun e => e.2.cluster).eraseDups).filter fun c => !(r.clusters.find c).any (·.leaving)

/-- A core is fenced and its clusters leave; one of which a group waits under MSK is asked again after it (R504, 14 R371). -/
def fenceAct (die core : Nat) (r : Run) : Run :=
  let r := r.updCore die core fun k => { k with fenced := true }
  (clustersAt r die core).foldl (fun r c => askCluster r die c) r

def fenceDue (r : Run) (die core : Nat) : Bool :=
  decide (die < Config.dies) && decide (core < Config.coresPerDie) && (!(r.core die core).fenced || asksLeft r (clustersAt r die core))

def execCoreFence (die core : Nat) (s : State) : Host.Outcome State Fault Refusal :=
  rowRun (fenceDue s.run die core) s (fenceAct die core)

/-! DRAM repair and health (R505 to R507). -/

/-- Entries that the pending list holds. DEDUCED, log 129. -/
def pendingMax : Nat := 4096

/-- Repairs in use that take a spare of the same kind: of a bank's rows, of a channel's pins, of a channel's bank. -/
def sameSpares (m : Mgmt) (die : Nat) (x : Repair) : Nat :=
  (m.remaps.filter fun e => e.1 == die &&
    match e.2, x with
    | .row s c b _, .row s' c' b' _ => s == s' && c == c' && b == b'
    | .pin s c _, .pin s' c' _ => s == s' && c == c'
    | .bank s c _, .bank s' c' _ => s == s' && c == c'
    | _, _ => false).length

/-- Spares of each kind: 8 rows of a bank, 2 pins and 1 bank of a channel. -/
def spareLimit : Repair → Nat
  | .row .. => 8
  | .pin .. => 2
  | .bank .. => 1

/-- Ticks in one minute and in one hour. -/
def ticks1min : Nat := 60 * ticks1s
def ticks1h : Nat := 60 * ticks1min

/-- The corrected errors of the last hour. -/
def lastHour (d : Die) : List Corrected := d.corrected.filter fun e => decide (d.time.toNat < e.time.toNat + ticks1h)

/-- Where a 64-byte block of a die is: stack, channel, bank and row. -/
def blockPlace (block : Nat) : Nat × Nat × Nat × Nat := (stackOf (64 * block), Config.dramPlace block)

/-- What triggers a repair (R505). DEDUCED, log 129. -/
def repairTrigger (d : Die) (m : Mgmt) (die : Nat) : Repair → Bool
  | .row s c b r =>
    d.failedBlocks.any (fun k => blockPlace k == (s, c, b, r)) || decide (3 ≤ ((lastHour d).filter fun e => blockPlace e.block == (s, c, b, r)).length)
  | .pin s c p =>
    decide (16 ≤ ((lastHour d).filter fun e => e.pin == p && (blockPlace e.block).1 == s && (blockPlace e.block).2.1 == c).length)
  | .bank s c b => decide (sameSpares m die (.row s c b 0) = spareLimit (.row s c b 0))

/-- A repair takes place where its trigger stands, it is not in use, and there is a spare for it. -/
def repairDue (r : Run) (m : Mgmt) (die : Nat) (x : Repair) : Bool :=
  decide (die < Config.dies) && repairTrigger (r.die die) m die x && !m.remaps.contains (die, x) && decide (sameSpares m die x < spareLimit x)

def pendingOf (m : Mgmt) (die : Nat) : Nat := (m.pending.filter fun e => e.1 == die).length

/-- A repair is in use from now on, and entered in the pending list where that has room; no stored value and no mark changes. DEDUCED, log 129. -/
def repairAct (die : Nat) (x : Repair) (s : Run × Mgmt) : Run × Mgmt :=
  (s.1.updDie die fun d => { d with rows := d.rows + bit (rowRepair x) },
   { s.2 with remaps := s.2.remaps ++ [(die, x)]
              pending := if s.2.pending.length < pendingMax then s.2.pending ++ [(die, x)] else s.2.pending })

def execDramRepair (die : Nat) (repair : Repair) (s : State) : Host.Outcome State Fault Refusal :=
  rowBoth (repairDue s.run s.mgmt die repair) s (repairAct die repair)

/-- Whether a die's DCP runs: a quarantined die's clocks have stopped (R502). -/
def dcpRuns (d : Die) : Bool := d.state == .running || d.state == .draining || d.state == .drained

/-- Whether some ticks have passed on a die since a time. -/
def diePassed (d : Die) (since : W64) (ticks : Nat) : Bool := decide (since.toNat + ticks ≤ d.time.toNat)

/-- The update of a minute (R506). DESIGN CHOICE, log 121. -/
def healthDue (r : Run) (die : Nat) (x : HealthReading) : Bool :=
  decide (die < Config.dies) && dcpRuns (r.die die) && (r.die die).healthAt.all (fun t => diePassed (r.die die) t ticks1min) &&
    decide (x.age ≤ 100) && decide (x.tnow < 256) && decide (x.vcore < 65536) && decide (x.power < 65536)

def healthAct (die : Nat) (x : HealthReading) (s : Run × Mgmt) : Run × Mgmt :=
  (s.1.updDie die fun d =>
    { d with age := x.age, tnow := x.tnow, tmax := max d.tmax x.tnow, vcore := x.vcore, power := x.power, cehour := (lastHour d).length
             pending := pendingOf s.2 die, corrected := lastHour d, healthAt := some d.time }, s.2)

def execHealthUpdate (die : Nat) (reading : HealthReading) (s : State) : Host.Outcome State Fault Refusal :=
  rowBoth (healthDue s.run die reading) s (healthAct die reading)

/-- Ticks in a day, and in a month of 30 days. DESIGN CHOICE, log 121. -/
def ticksDay : Nat := 24 * ticks1h
def ticksMonth : Nat := 30 * ticksDay

/-- Months until a straight line through two samples reaches a limit: none where it never does. DESIGN CHOICE, log 121. -/
def monthsTo (limit t0 y0 t1 y1 : Nat) : Option Nat :=
  if limit ≤ y1 then some 0 else if y1 ≤ y0 || t1 ≤ t0 then none else some ((limit - y1) * (t1 - t0) / (y1 - y0) / ticksMonth)

/-- The samples of AGE and of an hour's corrected errors of the last 90 days, with one taken now. -/
def samplesNow (d : Die) : List HealthSample :=
  (d.history.filter fun h => !diePassed d h.time (90 * ticksDay)) ++ [{ time := d.time, age := d.age, cehour := (lastHour d).length }]

/-- Months, at most 255, until a trend from the oldest to the newest sample reaches a limit. DESIGN CHOICE, log 121. -/
def trend (limit : Nat) (y : HealthSample → Nat) (l : List HealthSample) : Nat :=
  match l.head?, l.getLast? with
  | some old, some new => min 255 ((monthsTo limit old.time.toNat (y old) new.time.toNat (y new)).getD 255)
  | _, _ => 255

/-- An hour since the latest sample; the months are those that the trends of AGE and of CEHOUR give (R507). -/
def eolDue (r : Run) (die ageMonths errorMonths : Nat) : Bool :=
  let d := r.die die
  decide (die < Config.dies) && dcpRuns d && diePassed d ((d.history.getLast?).elim 0 (·.time)) ticks1h &&
    trend 100 (·.age) (samplesNow d) == ageMonths && trend 1000 (·.cehour) (samplesNow d) == errorMonths

/-- EOL is the earlier date, and the samples are kept. DESIGN CHOICE, log 121. -/
def eolAct (die ageMonths errorMonths : Nat) (r : Run) : Run :=
  r.updDie die fun d => { d with history := samplesNow d, eol := min ageMonths errorMonths }

def execEolUpdate (die ageMonths errorMonths : Nat) (s : State) : Host.Outcome State Fault Refusal :=
  rowRun (eolDue s.run die ageMonths errorMonths) s (eolAct die ageMonths errorMonths)

/-! Keys (R508, R509). -/

/-- A key slot changes at once on every die: no piece of a store is then left between the old key and the new one. -/
def setKey (slot : Nat) (k : KeySlot → KeySlot) (s : Run × Mgmt) : Run × Mgmt :=
  let r := settleLate s.1 fun _ => true
  ({ r with keys := updAt r.keys slot k }, s.2)

def execKeyLoad (slot : Nat) (keyid : W32) (part : Nat) (s : State) : Host.Outcome State Fault Refusal :=
  rowServed (decide (slot < Config.keySlots) && decide (part < Config.partitions)) s
    (setKey slot fun k => { keyid, loaded := true, part, gen := k.gen + 1 })

def execKeyClear (slot : Nat) (s : State) : Host.Outcome State Fault Refusal :=
  rowServed (decide (slot < Config.keySlots)) s (setKey slot fun k => { keyid := 0, loaded := false, part := 0, gen := k.gen + 1 })

/-! Firmware (R510, R511). -/

def fwCode : FwKind → Nat
  | .mmp => 1 | .dcp => 2

def signatureBytes : Nat := 3309
def slotBytesMax : Nat := 0x200000

/-- A slot's content after an image has been written into it and verified. -/
def verifyImage (kind : FwKind) (floor : Nat) (image : List Byte) : FwSlot :=
  let w := fun (i : Nat) => w64 (leNat ((image.drop (8 * i)).take 8))
  let len := fld (w 2) 63 32
  let body := (image.drop 64).take len
  let sig := image.drop (64 + len)
  let digest := (image.drop 32).take 32
  let good := fld (w 0) 63 32 == 0x46574B59 && fld (w 0) 31 16 == fwCode kind && image.length == 64 + len + signatureBytes &&
    digest == sha3 body && Config.signatureValid (sha3 (image.take (64 + len))) sig && decide (floor ≤ fld (w 0) 15 0)
  { svn := fld (w 0) 15 0, state := if good then .pending else .invalid, digest, good }

def fwSlots (m : Mgmt) : FwKind → List FwSlot
  | .mmp => m.mmpSlots
  | .dcp => m.dcpSlots
def fwFloor (m : Mgmt) : FwKind → Nat
  | .mmp => m.mmpFloor
  | .dcp => m.dcpFloor
/-- DEDUCED, log 128. -/
def setSlots (m : Mgmt) (kind : FwKind) (xs : List FwSlot) (floor : Nat) : Mgmt :=
  match kind with
  | .mmp => { m with mmpSlots := xs, mmpFloor := floor }
  | .dcp => { m with dcpSlots := xs, dcpFloor := floor }

/-- Whether image writes are served: in RECOVERY too. -/
def imageServed (m : Mgmt) : Bool := m.powered && m.state != .booting && m.asked.any fun f => (m.ferries[f]?).any (·.trained)

def writeImage (kind : FwKind) (slot : Bool) (image : List Byte) (m : Mgmt) : Mgmt :=
  answer (setSlots m kind (updAt (fwSlots m kind) (bit slot) fun _ => verifyImage kind (fwFloor m kind) image) (fwFloor m kind)) .done

def execFirmwareWrite (kind : FwKind) (slot : Bool) (image : List Byte) (s : State) : Host.Outcome State Fault Refusal :=
  rowBoth (imageServed s.mgmt && (slotOf (fwSlots s.mgmt kind) slot).state != .active && decide (image.length ≤ slotBytesMax)) s
    fun x => (x.1, writeImage kind slot image x.2)

/-- The slot that a commit makes ACTIVE. DEDUCED, log 128. -/
def pendingSlot (m : Mgmt) (kind : FwKind) : Option Nat := (fwSlots m kind).findIdx? fun x => x.state == .pending

/-- DEDUCED, log 128. -/
def commitAct (kind : FwKind) (m : Mgmt) : Mgmt :=
  match pendingSlot m kind with
  | none => m
  | some i =>
    let xs := fwSlots m kind
    let other := fun (x : FwSlot) => if x.state = .empty then x else { x with state := .pending }
    setSlots m kind (updAt (xs.map other) i fun x => { x with state := .active }) (max (fwFloor m kind) (nthD FwSlot.reset xs i).svn)

def execFirmwareCommit (kind : FwKind) (s : State) : Host.Outcome State Fault Refusal :=
  rowServed (pendingSlot s.mgmt kind).isSome s fun x => (x.1, commitAct kind x.2)

/-! Attestation (R512). -/

/-- DESIGN CHOICE, log 130. -/
def repairBytes (e : Nat × Repair) : List Byte :=
  let enc := fun (k s c a b : Nat) => leBytes 1 e.1 ++ leBytes 1 k ++ leBytes 1 s ++ leBytes 1 c ++ leBytes 4 a ++ leBytes 8 b
  match e.2 with
  | .row s c b r => enc 0 s c b r
  | .pin s c p => enc 1 s c 0 p
  | .bank s c b => enc 2 s c b 0

/-- What the report holds, in the order of R512; an empty slot has a digest of zeros. DESIGN CHOICE, log 130. -/
def reportBody (r : Run) (m : Mgmt) (nonce : List Byte) : List Byte :=
  let slot := fun (x : FwSlot) => (List.range 32).map (fun i => nthD 0 x.digest i) ++ leBytes 2 x.svn
  nonce ++ (m.mmpSlots ++ m.dcpSlots).flatMap slot ++ r.dies.flatMap (fun d => leBytes 1 (bit d.dcpSlot)) ++ leBytes 1 r.incarn.toNat ++
    sha3 (m.pending.flatMap repairBytes)

def execAttestation (nonce : List Byte) (s : State) : Host.Outcome State Fault Refusal :=
  rowBoth (served s.mgmt && nonce.length == 32) s fun x =>
    let body := reportBody x.1 x.2 nonce
    (x.1, answer x.2 (.report body (Config.signature body)))

/-! Resets (R513, R514; 19 R477). -/

/-- The slot that a boot runs: the ACTIVE one first, then the other; none with neither accepted (R511). -/
def bootSlot (xs : List FwSlot) (floor : Nat) : Option Bool :=
  let first := (slotOf xs true).state == .active
  [first, !first].find? fun b => (slotOf xs b).accepted floor

/-- A DOWN flit on every UP port, which makes this device DEAD at their Atolls (18 R468, R469). -/
def sendDown (r : Run) (m : Mgmt) (kind : Nat) : Mgmt :=
  let self := r.devid.toNat
  (List.range m.ports.length).foldl (fun m a =>
    if (m.port a).state != .up then m
    else
      let p : Packet := { type := 0x1F, src := self, dst := 144 + a, inc := r.incarn.toNat, offset := w64 kind }
      let m := m.updPort a fun x => (packetFlits p).foldl Port.sendNext x
      let now := portNow r a
      m.updAtoll a fun x => (x.isolate a self self now).announceDeath a self self now) m

/-- A field without a reset value keeps what it held, or is 0 (00 R11): which one is free. DESIGN CHOICE, log 1. -/
def keptOrZero (r : Run) (k v : Nat) : Nat := if Config.freeChoice (r.fresh + k) % 2 = 0 then v else 0

/-- What executes, after a reset of the device: the repair store keeps the spares, INCARN and the counts since manufacture; a timebase copy never
decreases; keys are cleared, and a new random one is drawn (R509). DEDUCED, log 127. -/
def resetRun (r : Run) : Run :=
  { Run.reset with
    incarn := r.incarn + 1, devid := BitVec.ofNat 8 (keptOrZero r 0 r.devid.toNat), keySeed := r.keySeed + 1, fresh := r.fresh + 1 + 2 * Config.partitions
    parts := (List.range Config.partitions).map fun n =>
      { Partition.reset n with partid := keptOrZero r (1 + 2 * n) (r.part n).partid
                               devid := BitVec.ofNat 8 (keptOrZero r (2 + 2 * n) (r.part n).devid.toNat) }
    tick := r.tick, nextId := r.nextId
    keys := r.keys.map fun k => { keyid := 0, loaded := false, part := 0, gen := k.gen + 1 }
    dies := r.dies.map fun d => { d.restarted with seq := 0, slot := false, parkedPorts := false } }

/-- The management plane after it: the Shoal with its header, the repair store and the rest of the pod stay. DEDUCED, log 127. -/
def resetMgmt (now : W64) (m : Mgmt) : Mgmt :=
  { Mgmt.reset with
    serial := m.serial, atolls := m.atolls, wptr := m.wptr, dropped := m.dropped, protect := m.protect, shoal := m.shoal
    mmpSlots := m.mmpSlots, dcpSlots := m.dcpSlots, mmpFloor := m.mmpFloor, dcpFloor := m.dcpFloor, pending := m.pending
    remaps := m.remaps, hardRepairs := m.hardRepairs, mmpRuns := m.mmpRuns
    ports := m.ports.map (fun p => { Port.reset with wire := p.wire }), ferries := m.ferries.map fun f => { f with lastRx := now } }

/-- Step 3 and step 4 of bring-up on a die: a DCP image, and spares for the cores that fail the self-test; a die that fails ends in FAILED with its ports parked. -/
def bringUpDie (m : Mgmt) (failed : List Nat) (d : Die) : Die :=
  let d := mapSpares d failed
  match bootSlot m.dcpSlots m.dcpFloor with
  | some b => if fencedCount d ≤ 16 then { d with dcpSlot := b, state := .running } else { d with state := .failed, parkedPorts := true }
  | none => { d with state := .failed, parkedPorts := true }

/-- Dies in FAILED. -/
def failedDies (r : Run) : List Nat := (List.range r.dies.length).filter fun d => (r.die d).state == .failed

/-- The cores of a die among some that fail. -/
def failedCores (failed : List (Nat × Nat)) (die : Nat) : List Nat := (failed.filter fun x => x.1 == die).map (·.2)

/-- Bring-up (R514) up to the training of the Straits, which it then awaits; `failed` names the cores that fail their self-test. Without an accepted MMP
image the module is in RECOVERY. DEDUCED, log 127. -/
def bringUp (kind : Nat) (failed : List (Nat × Nat)) (s : Run × Mgmt) : Run × Mgmt :=
  let r := emitReset kind s.1
  match bootSlot s.2.mmpSlots s.2.mmpFloor with
  | none => (r, { s.2 with state := .recovery })
  | some b =>
    let r := { r with dies := ((List.range r.dies.length).zip r.dies).map fun e => bringUpDie s.2 (failedCores failed e.1) e.2 }
    let m := (List.range Config.dies).foldl fuseRepairs s.2
    let parked := (failedDies r).flatMap fun d => (diePorts d).map fun a => (r.devid.toNat, a)
    (r, { m with ports := m.ports.map (fun p => { p with state := .training }), mmpRuns := b, booting := true, parked })

/-- The end of bring-up (R514): no Strait trains any more, the timebase locks, and the module is READY; the ports of failed dies are parked for every
source (R503). DEDUCED, log 127. -/
def finishBoot (s : Run × Mgmt) : Run × Mgmt :=
  if s.2.booting && s.2.ports.all fun p => p.state != .training then
    (failedDies s.1).foldl (fun x d => floodPark x 0x23 d) (emit' s.1 mmpUnit 0x0043 0 0, { s.2 with booting := false, locked := true, state := .ready })
  else s

def coresOk (failed : List (Nat × Nat)) : Bool := failed.all fun x => decide (x.1 < Config.dies) && decide (x.2 < Config.coresPerDie)

/-- DEDUCED, log 127. -/
def powerReset (x : Run × Mgmt) : Run × Mgmt :=
  bringUp 0 x.2.failing (resetRun x.1, resetMgmt (x.1.now 0) (if x.2.powered then sendDown x.1 x.2 0 else x.2))

def execPowerReset (s : State) : Host.Outcome State Fault Refusal := rowBoth (coresOk s.mgmt.failing) s powerReset

/-- The buffers are drained into the Shoal first (19 R477); the reset waits for records that it cannot take yet. -/
def moduleReset (x : Run × Mgmt) : Run × Mgmt :=
  let (r, m) := narrows x
  bringUp 1 x.2.failing (resetRun r, resetMgmt (r.now 0) (sendDown r m 1))

def execModuleReset (s : State) : Host.Outcome State Fault Refusal :=
  rowBoth (s.mgmt.powered && allWritten (narrows (s.run, s.mgmt)).1 && coresOk s.mgmt.failing) s moduleReset

/-- The MMP alone: the dies keep running, INCARN stays, and the Ferry ports train again. DEDUCED, log 127. -/
def mmpReset (x : Run × Mgmt) : Run × Mgmt :=
  let (r, m) := narrows x
  let m := { m with replies := [], ferries := m.ferries.map fun f => { f with trained := false } }
  (emitReset 2 r, if (bootSlot m.mmpSlots m.mmpFloor).isSome then m else { m with state := .recovery })

def execMmpReset (s : State) : Host.Outcome State Fault Refusal := rowBoth s.mgmt.powered s mmpReset

/-- A loss of power: records not yet written are lost, and nothing is sent. -/
def powerLoss (x : Run × Mgmt) : Run × Mgmt :=
  let r := resetRun x.1
  ({ r with incarn := x.1.incarn }, { resetMgmt (x.1.now 0) x.2 with powered := false, ports := x.2.ports.map fun _ => Port.reset })

def execPowerLoss (s : State) : Host.Outcome State Fault Refusal := rowBoth s.mgmt.powered s powerLoss

end Sys2Proof.Machine
end

