-- ==== Sys2Proof/Machine/SuperSys.lean ====
section
/-! DEFINITION. Class 7, SUPERVISOR instructions (14 R373 to R378). `PRIVILEGE` at USER level is one of the checks that every instruction
shares (06 R184, R187). -/
namespace Sys2Proof.Machine

/-- A pre-emption that waited takes place (14 R371, R375, 17 R440). -/
def heldEviction (c : Ctx) (r : Run) : Run :=
  match (r.grp c.gid).bind (·.heldEvict) with
  | some _ => evictGroup r c.gid
  | none => r

/-- TRET (R374, 17 R439). -/
def execTret (f : Fields) (s : State) : Host.Outcome State Fault Refusal :=
  issue (.tret f)
    { body := fun c r =>
        match returnFrom r c.gid with
        | some (r, true) => .ok r
        | some (_, false) => .error (.undone fun r => ((returnFrom r c.gid).map (·.1)).getD r)
        | none => .error c.illegal
      fin := heldEviction } s

/-- TMASK (R375). -/
def execTmask (f : Fields) (s : State) : Host.Outcome State Fault Refusal :=
  issue (.tmask f)
    { body := fun c r => .ok (r.updGrp c.gid fun g => { g with msk := xbit c.f 0 })
      fin := fun c r => if xbit c.f 0 then r else heldEviction c r } s

/-! System registers (R376). -/

def execSysr (f : Fields) (s : State) : Host.Outcome State Fault Refusal :=
  issue (.sysr f)
    { body := fun c r => if c.active = 0 then .ok r else writeRes r c .w64 fun _ => (sysRead r c.part c.grp.utvec c.f.x.toNat).toNat } s

/-- A write of CAPREVOKE, one step at the entry's home slice (R386). -/
def revokeBody (c : Ctx) (r : Run) (i : Nat) : Except Stop Run := do
  let lane := c.lowest.getD 0
  let q := Ctx.req r c 2
  let a := w64 ((r.part c.part).capbase.toNat + 16 * i)
  let (bs, r) ← accRead r c q lane a 8
  accWrite r c q lane a (leBytes 8 (revoked (w64 (leNat bs))).toNat)

/-- A write of WINSYNC: the entry as it stands takes effect, and what passed the old one is awaited (R390). DEDUCED, log 58. -/
def winsyncBody (c : Ctx) (r : Run) (w : Nat) : Except Stop Run :=
  let wait : Wait := { kind := 0, reason := 0, object := w64 w, since := 0, aux := 0 }
  let begun := c.slices.findSome? fun n => ((c.grp.slice n).bind (·.wait)).bind fun x => if sameWait x wait then some x.since else none
  match begun with
  | some since => if windowBusy r c.part w since then .error (.wait wait fun _ r => r) else .ok r
  | none =>
    let sync := fun (r : Run) => syncWindow r c.part c.t.die w
    if windowBusy r c.part w (r.now c.t.die) then .error (.wait wait fun first r => if first then sync r else r) else .ok (sync r)

def execSysw (f : Fields) (s : State) : Host.Outcome State Fault Refusal :=
  issue (.sysw f)
    { body := fun c r =>
        if c.active = 0 then .ok r
        else
          let n := c.f.x.toNat
          let v := w64 (readUniform r c c.f.a .n64)
          if !sysWritable n || !sysAccepts (r.part c.part) n v then .error c.illegal
          else if n = 0x01A then revokeBody c r v.toNat
          else if n = 0x021 then winsyncBody c r v.toNat
          else if n = 0x014 then .ok (r.updGrp c.gid fun g => { g with utvec := v })
          else if n = 0x028 then .ok (setPtroot r c.part v)
          else .ok (sysPut r c.part n v) } s

/-! Context and halt. -/

/-- Writes the group's lines back; a page that is not there holds the group, and the instruction is issued again (R378, 16 R431). -/
def flushBody (c : Ctx) (r : Run) : Except Stop Run :=
  match flushContext r c.gid with
  | .ok r => .ok r
  | .error e => .error (.undone fun r => settleCluster (contextFail r c.gid 1 e) (clusterOf r c.gid))

/-- HALT (R377): writes back, emits its event and parks the group. -/
def execHalt (f : Fields) (s : State) : Host.Outcome State Fault Refusal :=
  issue (.halt f)
    { body := fun c r =>
        let u := coreUnit c.t.die c.t.core
        if !unitHasRoom r.units u then .error (Ctx.wait 0 0 0 fun _ r => r)
        else do
          let r ← flushBody c r
          let code := c.f.x.toNat
          let ofs := (c.pc - w64 (codeBase r c.grp true)).toNat
          .ok ((emitGrp r c.gid u (0xD000 ||| code) ofs).2.updGrp c.gid fun g => { g with parked := some (code, r.now c.t.die) }) } s

def execCtxfl (f : Fields) (s : State) : Host.Outcome State Fault Refusal := issue (.ctxfl f) { body := flushBody } s

end Sys2Proof.Machine
end

