-- ==== Sys2Proof/Machine/UserSys.lean ====
section
/-! DEFINITION. Class 7, user system instructions (09 R285 to R293). -/
namespace Sys2Proof.Machine

/-! Traps by instruction (R285). -/

/-- TRAP and BRK complete and then trap, naming the lowest active lane. -/
def softTrap (cause : Cause) : Work :=
  { body := fun c r =>
      match c.lowest with
      | none => .ok r
      | some l =>
        let t := { c.trap cause 0 l 0 with code := c.f.x.toNat }
        .error (.report t fun r => countIssue c (advance c (endWaits r c.gid c.slices))) }

def execTrap (f : Fields) (s : State) : Host.Outcome State Fault Refusal := issue (.trap f) (softTrap .software) s
def execBrk (f : Fields) (s : State) : Host.Outcome State Fault Refusal := issue (.brk f) (softTrap .breakpoint) s

/-! Events (R286). -/

/-- One record of a type with A of the lowest active lane; it waits until the recorder can accept it. -/
def eventWork (type : Fields → Nat) : Work :=
  { body := fun c r =>
      if c.active = 0 then .ok r
      else
        let u := coreUnit c.t.die c.t.core
        if unitHasRoom r.units u then .ok (emitGrp r c.gid u (type c.f) (readUniform r c c.f.a .n32)).2
        else .error (Ctx.wait 0 0 0 fun _ r => r) }

def execEvent (f : Fields) (s : State) : Host.Outcome State Fault Refusal := issue (.event f) (eventWork fun f => 0xF000 ||| f.x.toNat) s
def execMark (f : Fields) (s : State) : Host.Outcome State Fault Refusal := issue (.mark f) (eventWork fun f => 0xE000 + xbits f 1 0) s

/-! Counters and time (R287, R288). -/

/-- Counters that a bank has (19 R489). -/
def bankSize (b : Nat) : Nat := match b with | 0 => 11 | 1 => 16 | 2 => 9 | 3 => 6 | 4 => 6 | 5 => 5 | _ => 0

/-- RDCNT (R288): selector and handle are those of the lowest active lane; of the handle the manual does not say so. DESIGN CHOICE, log 163. -/
def execRdcnt (f : Fields) (s : State) : Host.Outcome State Fault Refusal :=
  issue (.rdcnt f)
    { body := fun c r =>
        if c.active = 0 then writeRes r c .w64 fun _ => 0
        else
          let sel := readUniform r c c.f.a .n32
          let bank := nfld sel 23 16
          if nfld sel 31 24 != 0 || decide (bankSize bank ≤ nfld sel 15 0) then .error c.illegal
          else if !holds r c.part c.t.die (w64 (readUniform r c c.f.b .n64)) rightCounter then .error (c.fail .capability (c.lowest.getD 0))
          else
            writeRes (rightsSeen r c.part c.t.die (w64 (readUniform r c c.f.b .n64))) c .w64
              fun _ => (nthD 0 (nthD [] (r.part c.part).banks bank) (nfld sel 15 0)).toNat } s

/-- A wait that has no kind in R480. -/
def unnamedWait : Nat := 13

/-- Whether a group has matrix work that is not complete. DEDUCED, log 70. -/
def matrixBusy (r : Run) (c : Ctx) : Bool := r.dies.any fun d => d.cores.any fun k => k.matrix.any fun m => m.group == c.gid

/-- RDTIME; with `.ORD` it waits for the matrix instructions, which complete after they issue (10 R299). DEDUCED, log 70. -/
def execRdtime (f : Fields) (s : State) : Host.Outcome State Fault Refusal :=
  issue (.rdtime f)
    { body := fun c r =>
        if xbit c.f 0 && matrixBusy r c then .error (Ctx.wait unnamedWait 10 0 fun _ r => r)
        else writeRes r c .w64 fun _ => (r.now c.t.die).toNat } s

/-! Capabilities (R289). -/

def execCapchk (f : Fields) (s : State) : Host.Outcome State Fault Refusal :=
  issue (.capchk f)
    { body := fun c r =>
        let has := fun (l : Nat) => rights r c.part c.t.die (w64 (c.aAs r .n64 l))
        let want := fun (l : Nat) => c.bAs r .n32 l
        match c.lanes.find? fun l => decide (128 ≤ want l) with
        | some l => .error (c.fail .illegalOperand l)
        | none =>
          match (if xbit c.f 0 then c.lanes.find? fun l => has l &&& want l != want l else none) with
          | some l => .error (c.fail .capability l)
          | none => writeRes (c.lanes.foldl (fun x l => rightsSeen x c.part c.t.die (w64 (c.aAs r .n64 l))) r) c .n32 has } s

/-! Code rewriting (R290 to R292). -/

/-- The words at and after a slice's pc as the core's cache has them: the next 8, and the one at the pc, which may be the `ICINV`. DEDUCED, log 43. -/
def heldWords (r : Run) (gid : Nat) (g : Grp) (s : Slice) : Sparse W64 :=
  ((List.range 9).map fun i => s.pc + w64 (8 * i)).foldl (fun ws a =>
    match (translate r (grpReq r gid g s.pc 6 3) a).1 with
    | .error _ => ws
    | .ok l => ws.put a.toNat (((r.core (dieOfGrp r g) (coreOfGrp r g)).icache.find (l.pa a)).getD (readWord r (l.pa a)))) []

/-- What a slice holds after its core's cache is invalidated: a loop buffer becomes stale, and its iteration goes on with the decoded words; any other
slice may issue the next 8 words of its fetch buffer, where it may still have older ones (R291). DEDUCED, log 43. -/
def Slice.keepStale (ws : Sparse W64) (s : Slice) : Slice :=
  if s.loopAt.isSome then { s with loopStale := true }
  else
    let older := s.stale.filter fun e => decide (e.1 < s.pc.toNat + 8 * s.staleLeft)
    { s with stale := older.foldl (fun m e => m.put e.1 e.2) ws, staleLeft := 8, buffer := [] }

/-- ICINV's second step on the dies of its scope. DEDUCED, log 43. -/
def invalidate (r : Run) (die : Option Nat) : Run :=
  let inScope := fun (d : Nat) => die.all (· == d)
  let mark := fun (e : Nat × Grp) =>
    if inScope (dieOfGrp r e.2) then (e.1, { e.2 with slices := e.2.slices.map fun s => s.keepStale (heldWords r e.1 e.2 s) }) else e
  let drop := fun (e : Nat × Die) => if inScope e.1 then { e.2 with cores := e.2.cores.map fun k => { k with icache := [] } } else e.2
  { r with groups := r.groups.map mark, dies := ((List.range r.dies.length).zip r.dies).map drop }

/-- ICINV (R291). A protected team's earlier stores are visible when they are committed and performed, so buffered ones of the group are committed
first. DEDUCED, log 44. -/
def execIcinv (f : Fields) (s : State) : Host.Outcome State Fault Refusal :=
  issue (.icinv f)
    { body := fun c r =>
        let t := curTeam r c
        if c.shadowed && t.sbuf.any fun b => b.group == c.gid then .error (.undone fun r => (commitNow r c.grp.team).1)
        else
          let r := if c.shadowed && t.committed.any fun b => b.group == c.gid then performCommitted r c.grp.team else r
          .ok (invalidate r (if scopeOf c.f = 3 then some c.t.die else none)) } s

def execIsync (f : Fields) (s : State) : Host.Outcome State Fault Refusal :=
  issue (.isync f)
    { body := fun c r => .ok (r.updGrp c.gid fun g => g.updSlices c.slices Slice.refetch) } s

/-! Commits (R293). -/

/-- A commit that does not take place leaves the instruction to be issued again, at the checkpoint of a rollback or once the team is held no longer. -/
def execTcommit (f : Fields) (s : State) : Host.Outcome State Fault Refusal :=
  issue (.tcommit f)
    { body := fun c r =>
        if c.shadowed then
          match commitTeam r c.grp.team with
          | (r, true) => .ok r
          | (_, false) => .error (.undone fun r => (commitTeam r c.grp.team).1)
        else .ok r } s

end Sys2Proof.Machine
end

