-- ==== Sys2Proof/Machine/Dispatch.lean ====
section
/-! DEFINITION. One arm for each constructor of `Instr`. -/
namespace Sys2Proof.Machine

/-- The effect of an instruction, or of a row without an encoding, on the machine. -/
def exec (i : Instr) (s : State) : Host.Outcome State Fault Refusal :=
  match i with
  | .iadd f => Sys2Proof.Machine.execIadd f s
  | .isub f => Sys2Proof.Machine.execIsub f s
  | .imul f => Sys2Proof.Machine.execImul f s
  | .imulh f => Sys2Proof.Machine.execImulh f s
  | .imad f => Sys2Proof.Machine.execImad f s
  | .idiv f => Sys2Proof.Machine.execIdiv f s
  | .irem f => Sys2Proof.Machine.execIrem f s
  | .imin f => Sys2Proof.Machine.execImin f s
  | .imax f => Sys2Proof.Machine.execImax f s
  | .iabs f => Sys2Proof.Machine.execIabs f s
  | .ineg f => Sys2Proof.Machine.execIneg f s
  | .iaddx f => Sys2Proof.Machine.execIaddx f s
  | .land f => Sys2Proof.Machine.execLand f s
  | .lor f => Sys2Proof.Machine.execLor f s
  | .lxor f => Sys2Proof.Machine.execLxor f s
  | .lop3 f => Sys2Proof.Machine.execLop3 f s
  | .shl f => Sys2Proof.Machine.execShl f s
  | .shrl f => Sys2Proof.Machine.execShrl f s
  | .shra f => Sys2Proof.Machine.execShra f s
  | .rotl f => Sys2Proof.Machine.execRotl f s
  | .fshl f => Sys2Proof.Machine.execFshl f s
  | .bfx f => Sys2Proof.Machine.execBfx f s
  | .bfi f => Sys2Proof.Machine.execBfi f s
  | .popc f => Sys2Proof.Machine.execPopc f s
  | .clz f => Sys2Proof.Machine.execClz f s
  | .brev f => Sys2Proof.Machine.execBrev f s
  | .icmp f => Sys2Proof.Machine.execIcmp f s
  | .sel f => Sys2Proof.Machine.execSel f s
  | .iaddi f => Sys2Proof.Machine.execIaddi f s
  | .movi f => Sys2Proof.Machine.execMovi f s
  | .mov f => Sys2Proof.Machine.execMov f s
  | .idot4 f => Sys2Proof.Machine.execIdot4 f s
  | .fadd f => Sys2Proof.Machine.execFadd f s
  | .fsub f => Sys2Proof.Machine.execFsub f s
  | .fmul f => Sys2Proof.Machine.execFmul f s
  | .ffma f => Sys2Proof.Machine.execFfma f s
  | .fmin f => Sys2Proof.Machine.execFmin f s
  | .fmax f => Sys2Proof.Machine.execFmax f s
  | .fabs f => Sys2Proof.Machine.execFabs f s
  | .fcmp f => Sys2Proof.Machine.execFcmp f s
  | .fclass f => Sys2Proof.Machine.execFclass f s
  | .fdiv f => Sys2Proof.Machine.execFdiv f s
  | .fsqrt f => Sys2Proof.Machine.execFsqrt f s
  | .frcp f => Sys2Proof.Machine.execFrcp f s
  | .frsq f => Sys2Proof.Machine.execFrsq f s
  | .fexp2 f => Sys2Proof.Machine.execFexp2 f s
  | .flog2 f => Sys2Proof.Machine.execFlog2 f s
  | .fsin f => Sys2Proof.Machine.execFsin f s
  | .fcos f => Sys2Proof.Machine.execFcos f s
  | .faddi f => Sys2Proof.Machine.execFaddi f s
  | .fmuli f => Sys2Proof.Machine.execFmuli f s
  | .ffmai f => Sys2Proof.Machine.execFfmai f s
  | .fscale f => Sys2Proof.Machine.execFscale f s
  | .fround f => Sys2Proof.Machine.execFround f s
  | .fdot2 f => Sys2Proof.Machine.execFdot2 f s
  | .cvtif f => Sys2Proof.Machine.execCvtif f s
  | .cvtfi f => Sys2Proof.Machine.execCvtfi f s
  | .cvtff f => Sys2Proof.Machine.execCvtff f s
  | .cvtii f => Sys2Proof.Machine.execCvtii f s
  | .pk8 f => Sys2Proof.Machine.execPk8 f s
  | .unpk8 f => Sys2Proof.Machine.execUnpk8 f s
  | .pkl6 f => Sys2Proof.Machine.execPkl6 f s
  | .unpkl6 f => Sys2Proof.Machine.execUnpkl6 f s
  | .l6mul f => Sys2Proof.Machine.execL6mul f s
  | .l6lin f => Sys2Proof.Machine.execL6lin f s
  | .sclx f => Sys2Proof.Machine.execSclx f s
  | .fmtw f => Sys2Proof.Machine.execFmtw f s
  | .pkh f => Sys2Proof.Machine.execPkh f s
  | .unpkh f => Sys2Proof.Machine.execUnpkh f s
  | .fflag f => Sys2Proof.Machine.execFflag f s
  | .ld f => Sys2Proof.Machine.execLd f s
  | .st f => Sys2Proof.Machine.execSt f s
  | .lds f => Sys2Proof.Machine.execLds f s
  | .sts f => Sys2Proof.Machine.execSts f s
  | .ldg f => Sys2Proof.Machine.execLdg f s
  | .atom f => Sys2Proof.Machine.execAtom f s
  | .acas f => Sys2Proof.Machine.execAcas f s
  | .atoms f => Sys2Proof.Machine.execAtoms f s
  | .red f => Sys2Proof.Machine.execRed f s
  | .fence f => Sys2Proof.Machine.execFence f s
  | .xfence f => Sys2Proof.Machine.execXfence f s
  | .pref f => Sys2Proof.Machine.execPref f s
  | .cinv f => Sys2Proof.Machine.execCinv f s
  | .cwb f => Sys2Proof.Machine.execCwb f s
  | .sfill f => Sys2Proof.Machine.execSfill f s
  | .sstat f => Sys2Proof.Machine.execSstat f s
  | .rld f => Sys2Proof.Machine.execRld f s
  | .rst f => Sys2Proof.Machine.execRst f s
  | .ratom f => Sys2Proof.Machine.execRatom f s
  | .rfence f => Sys2Proof.Machine.execRfence f s
  | .bra f => Sys2Proof.Machine.execBra f s
  | .brx f => Sys2Proof.Machine.execBrx f s
  | .call f => Sys2Proof.Machine.execCall f s
  | .ret f => Sys2Proof.Machine.execRet f s
  | .regang f => Sys2Proof.Machine.execRegang f s
  | .splits f => Sys2Proof.Machine.execSplits f s
  | .backoff f => Sys2Proof.Machine.execBackoff f s
  | .vote f => Sys2Proof.Machine.execVote f s
  | .ballot f => Sys2Proof.Machine.execBallot f s
  | .shfl f => Sys2Proof.Machine.execShfl f s
  | .gred f => Sys2Proof.Machine.execGred f s
  | .gscan f => Sys2Proof.Machine.execGscan f s
  | .bar f => Sys2Proof.Machine.execBar f s
  | .bara f => Sys2Proof.Machine.execBara f s
  | .exit f => Sys2Proof.Machine.execExit f s
  | .region f => Sys2Proof.Machine.execRegion f s
  | .spawn f => Sys2Proof.Machine.execSpawn f s
  | .live f => Sys2Proof.Machine.execLive f s
  | .yield f => Sys2Proof.Machine.execYield f s
  | .nop f => Sys2Proof.Machine.execNop f s
  | .mmov f => Sys2Proof.Machine.execMmov f s
  | .tcfg f => Sys2Proof.Machine.execTcfg f s
  | .tmma f => Sys2Proof.Machine.execTmma f s
  | .tmmaz f => Sys2Proof.Machine.execTmmaz f s
  | .tacq f => Sys2Proof.Machine.execTacq f s
  | .trel f => Sys2Proof.Machine.execTrel f s
  | .trd f => Sys2Proof.Machine.execTrd f s
  | .twr f => Sys2Proof.Machine.execTwr f s
  | .tzero f => Sys2Proof.Machine.execTzero f s
  | .tstore f => Sys2Proof.Machine.execTstore f s
  | .tload f => Sys2Proof.Machine.execTload f s
  | .tcnt f => Sys2Proof.Machine.execTcnt f s
  | .twait f => Sys2Proof.Machine.execTwait f s
  | .tpin f => Sys2Proof.Machine.execTpin f s
  | .qbind f => Sys2Proof.Machine.execQbind f s
  | .qunbind f => Sys2Proof.Machine.execQunbind f s
  | .qstat f => Sys2Proof.Machine.execQstat f s
  | .copy f => Sys2Proof.Machine.execCopy f s
  | .copym f => Sys2Proof.Machine.execCopym f s
  | .cdrain f => Sys2Proof.Machine.execCdrain f s
  | .hread f => Sys2Proof.Machine.execHread f s
  | .hend f => Sys2Proof.Machine.execHend f s
  | .abinit f => Sys2Proof.Machine.execAbinit f s
  | .abwait f => Sys2Proof.Machine.execAbwait f s
  | .abadd f => Sys2Proof.Machine.execAbadd f s
  | .lxchg f => Sys2Proof.Machine.execLxchg f s
  | .lxstat f => Sys2Proof.Machine.execLxstat f s
  | .lxresume f => Sys2Proof.Machine.execLxresume f s
  | .sempost f => Sys2Proof.Machine.execSempost f s
  | .semwait f => Sys2Proof.Machine.execSemwait f s
  | .tret f => Sys2Proof.Machine.execTret f s
  | .tmask f => Sys2Proof.Machine.execTmask f s
  | .sysr f => Sys2Proof.Machine.execSysr f s
  | .sysw f => Sys2Proof.Machine.execSysw f s
  | .halt f => Sys2Proof.Machine.execHalt f s
  | .ctxfl f => Sys2Proof.Machine.execCtxfl f s
  | .trap f => Sys2Proof.Machine.execTrap f s
  | .event f => Sys2Proof.Machine.execEvent f s
  | .mark f => Sys2Proof.Machine.execMark f s
  | .rdcnt f => Sys2Proof.Machine.execRdcnt f s
  | .rdtime f => Sys2Proof.Machine.execRdtime f s
  | .brk f => Sys2Proof.Machine.execBrk f s
  | .icinv f => Sys2Proof.Machine.execIcinv f s
  | .isync f => Sys2Proof.Machine.execIsync f s
  | .tcommit f => Sys2Proof.Machine.execTcommit f s
  | .capchk f => Sys2Proof.Machine.execCapchk f s
  | .ptroot part value => Sys2Proof.Machine.execPtroot part value s
  | .caprevoke part value => Sys2Proof.Machine.execCaprevoke part value s
  | .winsync part value => Sys2Proof.Machine.execWinsync part value s
  | .configWrite reg value => Sys2Proof.Machine.execConfigWrite reg value s
  | .preemptLimit group => Sys2Proof.Machine.execPreemptLimit group s
  | .committedStorePerform team => Sys2Proof.Machine.execCommittedStorePerform team s
  | .matrixPerform die core index => Sys2Proof.Machine.execMatrixPerform die core index s
  | .copyPiece op piece => Sys2Proof.Machine.execCopyPiece op piece s
  | .copyPieceFail op piece => Sys2Proof.Machine.execCopyPieceFail op piece s
  | .drainLand op => Sys2Proof.Machine.execDrainLand op s
  | .burstReturn op burst => Sys2Proof.Machine.execBurstReturn op burst s
  | .heldBurstStart op burst => Sys2Proof.Machine.execHeldBurstStart op burst s
  | .heldRecordPush team ring => Sys2Proof.Machine.execHeldRecordPush team ring s
  | .lxDigest die stepid device fromDie digest done => Sys2Proof.Machine.execLxDigest die stepid device fromDie digest done s
  | .lxChunkDone die stepid chunk => Sys2Proof.Machine.execLxChunkDone die stepid chunk s
  | .lxStepDone die stepid => Sys2Proof.Machine.execLxStepDone die stepid s
  | .lxFault die stepid failure => Sys2Proof.Machine.execLxFault die stepid failure s
  | .stepOverdue die stepid => Sys2Proof.Machine.execStepOverdue die stepid s
  | .launcherTake part queue => Sys2Proof.Machine.execLauncherTake part queue s
  | .launchRecord src => Sys2Proof.Machine.execLaunchRecord src s
  | .graphRecord src => Sys2Proof.Machine.execGraphRecord src s
  | .lxRecord src => Sys2Proof.Machine.execLxRecord src s
  | .signal src => Sys2Proof.Machine.execSignal src s
  | .waitev src => Sys2Proof.Machine.execWaitev src s
  | .waitevComplete src => Sys2Proof.Machine.execWaitevComplete src s
  | .cstart src => Sys2Proof.Machine.execCstart src s
  | .cstop src => Sys2Proof.Machine.execCstop src s
  | .fenceRecord src => Sys2Proof.Machine.execFenceRecord src s
  | .graphNodeComplete src => Sys2Proof.Machine.execGraphNodeComplete src s
  | .launchComplete launch => Sys2Proof.Machine.execLaunchComplete launch s
  | .run part queue => Sys2Proof.Machine.execRun part queue s
  | .suspend part queue => Sys2Proof.Machine.execSuspend part queue s
  | .skip part queue => Sys2Proof.Machine.execSkip part queue s
  | .retry part queue => Sys2Proof.Machine.execRetry part queue s
  | .clusterPlace die => Sys2Proof.Machine.execClusterPlace die s
  | .stealRequest die launch => Sys2Proof.Machine.execStealRequest die launch s
  | .preempt die => Sys2Proof.Machine.execPreempt die s
  | .groupResume group => Sys2Proof.Machine.execGroupResume group s
  | .inval part => Sys2Proof.Machine.execInval part s
  | .resolve part => Sys2Proof.Machine.execResolve part s
  | .pin part => Sys2Proof.Machine.execPin part s
  | .unpin part => Sys2Proof.Machine.execUnpin part s
  | .faultRecordWrite part => Sys2Proof.Machine.execFaultRecordWrite part s
  | .flitReceive port wire => Sys2Proof.Machine.execFlitReceive port wire s
  | .replay port => Sys2Proof.Machine.execReplay port s
  | .heartbeat port => Sys2Proof.Machine.execHeartbeat port s
  | .laneFail port lane => Sys2Proof.Machine.execLaneFail port lane s
  | .retrainTimeout port => Sys2Proof.Machine.execRetrainTimeout port s
  | .reqw port width => Sys2Proof.Machine.execReqw port width s
  | .widthChange port => Sys2Proof.Machine.execWidthChange port s
  | .portSilent port => Sys2Proof.Machine.execPortSilent port s
  | .atollDiscard atoll index => Sys2Proof.Machine.execAtollDiscard atoll index s
  | .retransmit device tag => Sys2Proof.Machine.execRetransmit device tag s
  | .rdReq port pkt => Sys2Proof.Machine.execRdReq port pkt s
  | .wrReq port pkt => Sys2Proof.Machine.execWrReq port pkt s
  | .atReq port pkt => Sys2Proof.Machine.execAtReq port pkt s
  | .rdrep port pkt => Sys2Proof.Machine.execRdrep port pkt s
  | .wrack port pkt => Sys2Proof.Machine.execWrack port pkt s
  | .atrep port pkt => Sys2Proof.Machine.execAtrep port pkt s
  | .lxpull party pkt => Sys2Proof.Machine.execLxpull party pkt s
  | .lxdata party pkt => Sys2Proof.Machine.execLxdata party pkt s
  | .lxres party pkt => Sys2Proof.Machine.execLxres party pkt s
  | .join atoll port pkt => Sys2Proof.Machine.execJoin atoll port pkt s
  | .joinack port pkt => Sys2Proof.Machine.execJoinack port pkt s
  | .joinrefuse port pkt => Sys2Proof.Machine.execJoinrefuse port pkt s
  | .down atoll port pkt => Sys2Proof.Machine.execDown atoll port pkt s
  | .portdown party pkt => Sys2Proof.Machine.execPortdown party pkt s
  | .death party pkt => Sys2Proof.Machine.execDeath party pkt s
  | .alive party pkt => Sys2Proof.Machine.execAlive party pkt s
  | .park party pkt => Sys2Proof.Machine.execPark party pkt s
  | .unpark party pkt => Sys2Proof.Machine.execUnpark party pkt s
  | .powerReset => Sys2Proof.Machine.execPowerReset s
  | .moduleReset => Sys2Proof.Machine.execModuleReset s
  | .mmpReset => Sys2Proof.Machine.execMmpReset s
  | .holdover => Sys2Proof.Machine.execHoldover s
  | .timesync stepTo => Sys2Proof.Machine.execTimesync stepTo s
  | .loss unit => Sys2Proof.Machine.execLoss unit s
  | .hostmemRead ferry part va bytes acquire => Sys2Proof.Machine.execHostmemRead ferry part va bytes acquire s
  | .hostmemWrite ferry part va data release => Sys2Proof.Machine.execHostmemWrite ferry part va data release s
  | .add64 ferry part va addend => Sys2Proof.Machine.execAdd64 ferry part va addend s
  | .cas64 ferry part va compare new => Sys2Proof.Machine.execCas64 ferry part va compare new s
  | .drain die => Sys2Proof.Machine.execDrain die s
  | .quarantine die => Sys2Proof.Machine.execQuarantine die s
  | .restart die slot failed => Sys2Proof.Machine.execRestart die slot failed s
  | .release die => Sys2Proof.Machine.execRelease die s
  | .dcpReadyTimeout die => Sys2Proof.Machine.execDcpReadyTimeout die s
  | .coreFence die core => Sys2Proof.Machine.execCoreFence die core s
  | .dramRepair die repair => Sys2Proof.Machine.execDramRepair die repair s
  | .healthUpdate die reading => Sys2Proof.Machine.execHealthUpdate die reading s
  | .eolUpdate die ageMonths errorMonths => Sys2Proof.Machine.execEolUpdate die ageMonths errorMonths s
  | .keyLoad slot keyid part => Sys2Proof.Machine.execKeyLoad slot keyid part s
  | .keyClear slot => Sys2Proof.Machine.execKeyClear slot s
  | .firmwareWrite kind slot image => Sys2Proof.Machine.execFirmwareWrite kind slot image s
  | .firmwareCommit kind => Sys2Proof.Machine.execFirmwareCommit kind s
  | .attestation nonce => Sys2Proof.Machine.execAttestation nonce s
  | .waitDescriptorRead handle part => Sys2Proof.Machine.execWaitDescriptorRead handle part s
  | .sketchRead unit => Sys2Proof.Machine.execSketchRead unit s
  | .sampleInterval handle part n => Sys2Proof.Machine.execSampleInterval handle part n s
  | .sample die core => Sys2Proof.Machine.execSample die core s
  | .replayMode handle part queue mode => Sys2Proof.Machine.execReplayMode handle part queue mode s
  | .haltRelease release => Sys2Proof.Machine.execHaltRelease release s
  | .watchdogKill team => Sys2Proof.Machine.execWatchdogKill team s
  | .injectionArm handle part die core count bit => Sys2Proof.Machine.execInjectionArm handle part die core count bit s
  | .powerLoss => Sys2Proof.Machine.execPowerLoss s
  | .powerThrottle die core slot hold => Sys2Proof.Machine.execPowerThrottle die core slot hold s
  | .retrainComplete port laneok => Sys2Proof.Machine.execRetrainComplete port laneok s

end Sys2Proof.Machine
end

