-- ==== Sys2Proof/Machine/Schedule.lean ====
section
/-! DEFINITION. Which fragment or unit acts next (15 R413, R414; DESIGN CHOICE, log 4), the time that passes (19 R474, R486, R489; DESIGN CHOICE, log 5), and what follows every
act: the ready windows, the packets and records that leave. -/
namespace Sys2Proof.Machine

/-! Candidates (R413). -/

/-- What a fragment's slices wait for, and where they stand. -/
def fragWaits (r : Run) (gid frag : Nat) : List (W64 × Option (Nat × Nat × W64)) :=
  match r.grp gid with
  | some g => (g.fragSlices frag).filterMap fun n => (g.slice n).map fun s => (s.pc, s.wait.map fun w => (w.kind, w.reason, w.object))
  | none => []

/-- What a fragment's turn would make of the machine. -/
def afterTurn (r : Run) (gid frag : Nat) : Run :=
  match fragTurn r gid frag with
  | .done r => r
  | .instr i r =>
    match exec i { State.reset with run := r } with
    | .next s => s.run
    | _ => r

/-- Whether a fragment waits at one of the waits of R413, or for replies: its turn would leave it waiting for the same. DESIGN CHOICE, log 134. -/
def stillWaits (r : Run) (gid frag : Nat) : Bool :=
  let ws := fragWaits r gid frag
  ws.any (fun x => x.2.any fun w => decide (3 ≤ w.1)) && fragWaits (afterTurn r gid frag) gid frag == ws

/-- The `g` register that an operand field names. -/
def gOperand (o : Opnd) : Option (BitVec 6) :=
  match o with
  | .g n => some n
  | _ => none

/-- The `g` registers that a group's remote instructions of other fragments are still to write. -/
def awaitedG (g : Grp) (ns : List Nat) : List (BitVec 6) := (g.remotes.filter fun x => !ns.contains x.slice).filterMap fun x => gOperand x.f.d

/-- Whether an earlier instruction of its group is still to write an operand of a fragment's next instruction (15 R413): a remote one of another fragment
has yet to write a `g` register that it names. One that is in flight itself only awaits its replies. DESIGN CHOICE, log 134. -/
def awaitsReply (r : Run) (gid : Nat) (g : Grp) (frag : Nat) : Bool :=
  let ns := g.fragSlices frag
  let ds := awaitedG g ns
  !ds.isEmpty && !(g.remotes.any fun x => ns.contains x.slice) &&
    match fragTurn r gid frag with
    | .instr i _ => (fieldsOf i).any fun f => ([f.d, f.a, f.b, f.c].filterMap gOperand).any ds.contains
    | .done _ => false

/-- A candidate (15 R413). -/
def isCandidate (r : Run) (gid frag : Nat) : Bool := (r.grp gid).any fun g => readyFrag r gid g frag && !stillWaits r gid frag && !awaitsReply r gid g frag

/-- The place of a new candidate among those of one moment: groups before handler slices; context, handler slot, slice. -/
def candidateKey (g : Grp) (frag : Nat) : Nat :=
  (match g.handler with | some h => 64 + h.slot | none => g.ctx.getD 0) * 32 + ((g.fragSlices frag).head?).getD 0

/-- Every candidate, in that order. -/
def candidates (r : Run) : List (Nat × Nat) :=
  let all := r.groups.flatMap fun e => (e.2.frags.filter fun f => isCandidate r e.1 f).map fun f => (candidateKey e.2 f, e.1, f)
  (sortBy (·.1) all).map (·.2)

/-- The slices of a fragment with their program counters. -/
def fragPlace (r : Run) (e : Nat × Nat) : List (Nat × W64) :=
  match r.grp e.1 with
  | some g => (g.fragSlices e.2).map fun n => (n, ((g.slice n).map (·.pc)).getD 0)
  | none => []

/-- The candidates in the order in which they became candidates; one of the ready window stays there while nothing else removes it (15 R414). -/
def queued (r : Run) : List (Nat × Nat) :=
  let now := candidates r
  let kept := r.ready.filter fun e => (r.grp e.1).any fun g => readyFrag r e.1 g e.2
  kept ++ now.filter fun e => !kept.contains e

/-- The candidates after an act (R413, R414): an entry stays where its fragment has neither issued nor moved; what stops a fragment, a commit of its
team among it, has removed it, and it follows the others again. The first 64 of a slot are its ready window: only the first of them may
issue. DESIGN CHOICE, log 134. -/
def refreshReady (old : Run) (issued : Option (Nat × Nat)) (r : Run) : Run :=
  let r := { r with ready := r.ready.filter fun e => issued != some e && fragPlace old e == fragPlace r e }
  { r with ready := queued r }

/-- The issue slot that a fragment uses: die, core, slot. -/
def slotOfFrag (r : Run) (e : Nat × Nat) : Option (Nat × Nat × Nat) := (r.grp e.1).map fun g => (dieOfGrp r g, coreOfGrp r g, issueSlot g)

/-- The oldest entry of every slot's window. -/
def slotHeads (r : Run) (es : List (Nat × Nat)) : List (Nat × Nat) :=
  (es.foldl (fun (acc : List (Nat × Nat) × List (Option (Nat × Nat × Nat))) e =>
    let k := slotOfFrag r e
    if acc.2.contains k then acc else (acc.1 ++ [e], acc.2 ++ [k])) ([], [])).1

/-- Whether a fragment may issue (R414): its slot is not throttled, and it is the oldest candidate of that slot. DESIGN CHOICE, log 134. -/
def mayIssue (r : Run) (gid frag : Nat) : Bool :=
  (r.grp gid).any (fun g => !slotThrottled r g) && (slotHeads r (queued r)).contains (gid, frag)

/-! Units (DESIGN CHOICE, log 4). Rows that the world outside begins stand only in the agenda, a DCP's measures and what it computes of them among them. -/

def coresInUse (r : Run) : List (Nat × Nat) :=
  (r.teams.map (fun e => (e.2.die, e.2.core)) ++ r.groups.filterMap fun e => e.2.handler.map fun h => (h.die, h.core)).eraseDups

def teamActs (r : Run) : List Instr :=
  r.teams.flatMap fun e => (if e.2.committed.isEmpty then [] else [.committedStorePerform e.1]) ++ (e.2.held.filter fun h => h.lines.isEmpty).map fun h => .heldRecordPush e.1 h.ring

def matrixActs (r : Run) : List Instr :=
  (coresInUse r).flatMap fun c => (List.range (r.core c.1 c.2).matrix.length).map fun i => .matrixPerform c.1 c.2 i

def opActs (r : Run) : List Instr :=
  r.ops.flatMap fun e =>
    match e.2.kind with
    | .cdrain => [.drainLand e.1]
    | .copy => (List.range e.2.pieces.length).flatMap fun i => [.copyPiece e.1 i, .copyPieceFail e.1 i]
    | .hread => (List.range e.2.pieces.length).flatMap fun i => [.burstReturn e.1 i, .heldBurstStart e.1 i, .copyPieceFail e.1 i]

def stepActs (r : Run) : List Instr :=
  (r.steps.filter LxStep.active).flatMap fun st =>
    let id := st.stepid.toNat
    let digests := (r.steps.filter fun y => y.stepid == st.stepid && y.epoch == st.epoch && y.die != st.die).flatMap fun y =>
      [Instr.lxDigest st.die id (y.me r).1 y.die y.digest true, Instr.lxDigest st.die id (y.me r).1 y.die y.digest false]
    let failures := ((dataFailure r st.die st.stepid).map fun x => Instr.lxFault st.die id (.data x.1)).toList
    digests ++ (List.range (st.nchunk r)).map (.lxChunkDone st.die id) ++ failures ++
      [.lxFault st.die id .progressWrite, .lxFault st.die id .peerDead, .lxStepDone st.die id, .stepOverdue st.die id]

/-- The row of a record by its type (15 R393). -/
def recRow (src : RecSrc) (type : Nat) : Instr :=
  match type with
  | 2 => .graphRecord src
  | 3 => .lxRecord src
  | 4 => .signal src
  | 5 => .waitev src
  | 6 => .cstart src
  | 7 => .cstop src
  | 8 => .fenceRecord src
  | _ => .launchRecord src

def recRows (r : Run) (src : RecSrc) : List Instr := [recRow src (recType (wordsOf r src)), .waitevComplete src]

def queueActs (r : Run) : List Instr :=
  (r.parts.filter (·.queueEnable)).flatMap fun p =>
    let queues := (List.range Config.queues).filter fun q => (queueRing r p.partid q).isSome
    let rings := queues.flatMap fun q =>
      [Instr.launcherTake p.partid q, Instr.run p.partid q, Instr.suspend p.partid q, Instr.skip p.partid q, Instr.retry p.partid q] ++
        (queueState r p.partid q).recs.flatMap fun x => recRows r (.ring p.partid q x.slot)
    let nodes := p.graphs.flatMap fun g => (g.2.ready ++ g.2.running ++ g.2.finished).flatMap fun i =>
      recRows r (.node p.partid g.1 i) ++ [Instr.graphNodeComplete (.node p.partid g.1 i)]
    rings ++ nodes

def placeActs (r : Run) : List Instr :=
  if r.launches.isEmpty then []
  else
    (r.launches.map fun e => Instr.launchComplete e.1) ++
      (List.range Config.dies).flatMap fun d => [Instr.clusterPlace d, Instr.preempt d] ++ r.launches.map fun e => Instr.stealRequest d e.1

def groupActs (r : Run) : List Instr := r.groups.flatMap fun e => [.groupResume e.1, .preemptLimit e.1]

def pagingActs (r : Run) : List Instr :=
  (r.parts.filter (·.cb.isSome)).flatMap fun p => [.inval p.partid, .resolve p.partid, .pin p.partid, .unpin p.partid, .faultRecordWrite p.partid]

/-- The row of a packet that this device receives by a port. -/
def packetRow (a : Nat) (p : Packet) : Option Instr :=
  match p.type with
  | 1 => some (.rdReq a p)
  | 2 => some (.wrReq a p)
  | 3 => some (.atReq a p)
  | 4 => some (.rdrep a p)
  | 5 => some (.wrack a p)
  | 6 => some (.atrep a p)
  | 8 => some (.lxpull (.device a) p)
  | 9 => some (.lxdata (.device a) p)
  | 10 => some (.lxres (.device a) p)
  | 0x20 => some (.portdown (.device a) p)
  | 0x21 => some (.death (.device a) p)
  | 0x22 => some (.alive (.device a) p)
  | 0x23 => some (.park (.device a) p)
  | 0x24 => some (.unpark (.device a) p)
  | 0x25 => some (.joinack a p)
  | 0x26 => some (.joinrefuse a p)
  | _ => none

def portActs (r : Run) (m : Mgmt) : List Instr :=
  (List.range Config.ports).flatMap fun a =>
    let p := m.port a
    if p.state == .down || p.state == .isolated then []
    else
      let held := atollQueue r m a
      [.replay a, .heartbeat a, .retrainTimeout a, .widthChange a, .portSilent a] ++ (List.range held.length).map (.atollDiscard a) ++
        (p.inbox.map (·.1) ++ held).filterMap (packetRow a)

/-- What an Atoll has of this device's exchanges (18 R467). -/
def atollActs (r : Run) (m : Mgmt) : List Instr :=
  (List.range Config.ports).flatMap fun a => (m.atoll a).inbound.filterMap fun p =>
    match p.type with
    | 8 => some (.lxpull (.atoll a r.devid.toNat) p)
    | 9 => some (.lxdata (.atoll a r.devid.toNat) p)
    | _ => none

def requestActs (r : Run) : List Instr := r.reqs.map fun q => .retransmit q.pkt.dst q.pkt.tag

def dieActs (r : Run) : List Instr :=
  (List.range Config.dies).flatMap fun d =>
    if (r.die d).state == .running && (r.die d).cmd == 0 then [] else [.drain d, .quarantine d, .release d, .dcpReadyTimeout d]

/-- Fenced cores that still hold work. -/
def fenceActs (r : Run) : List Instr := ((coresInUse r).filter fun c => (r.core c.1 c.2).fenced).map fun c => .coreFence c.1 c.2

def observeActs (r : Run) : List Instr :=
  (r.units.filter fun b => decide (0 < b.drops)).map (fun b => .loss b.unit) ++
    (if r.parts.any (·.sampleLog.isSome) then (coresInUse r).map fun c => .sample c.1 c.2 else [])

/-- The pieces of stores that may be performed (05 R147). -/
def storeActs (r : Run) : List Act :=
  ((List.range r.late.length).zip r.late).flatMap fun e =>
    ((List.range e.2.pieces.length).filter fun j => lateDue r e.1 j).map fun j => .store e.1 j

/-- Everything that could happen next without the world outside. DESIGN CHOICE, log 4. -/
def acts (s : State) : List Act :=
  let r := s.run
  let heads := slotHeads r (queued r)
  heads.map (fun e => Act.issue e.1 e.2) ++ storeActs r ++
    (teamActs r ++ matrixActs r ++ opActs r ++ stepActs r ++ queueActs r ++ placeActs r ++ groupActs r ++ pagingActs r ++ portActs r s.mgmt ++
      atollActs r s.mgmt ++ requestActs r ++ dieActs r ++ fenceActs r ++ observeActs r).map Act.event

def answersNext (i : Instr) (s : State) : Bool :=
  match exec i s with
  | .next _ => true
  | _ => false

def enabledAct (s : State) : Act → Bool
  | .issue g f => mayIssue s.run g f
  | .event i => answersNext i s
  | .store i j => lateDue s.run i j
  | .configRead _ => false

/-- The next act in turn, and whose turn follows. -/
def pick (s : State) : Option (Act × Nat) :=
  let as := acts s
  let k := s.turn % max as.length 1
  let order := (List.range as.length).map fun i => (k + i) % as.length
  order.findSome? fun i => (as[i]?).bind fun a => if enabledAct s a then some (a, i + 1) else none

/-! Time. -/

/-- Time passes: 0.25 ns a tick on every die. What a step was asked, answered and sent before is gone. DESIGN CHOICE, log 5. -/
def passTime (ticks : Nat) (s : State) : State :=
  { s with
    run := { s.run with tick := s.run.tick + ticks, dies := s.run.dies.map fun d => { d with time := d.time + w64 ticks } }
    mgmt := { s.mgmt with replies := [], asked := none, failing := [], ports := s.mgmt.ports.map fun p => { p with wire := [] } } }

/-- Arithmetic clock cycles of two ticks that end while some ticks pass. DESIGN CHOICE, log 5. -/
def cyclesIn (tick ticks : Nat) : Nat := (tick + ticks) / 2 - tick / 2

/-- Cycles in which a group issues nothing: its bank and its partition's (19 R486, R489). DEDUCED, log 133. -/
def stallGroup (r : Run) (gid n : Nat) : Run :=
  match r.grp gid with
  | none => r
  | some g =>
    if n = 0 || g.handler.isSome || g.ended || g.ctx.isNone then r
    else
      let why := stallReason r gid g
      (r.count (partOf r g) 1 why n).updGrp gid fun g => { g with stall := updAt g.stall why fun c => c + w64 n }

/-- The cores that hold a group, with the partition of one of their groups. -/
def coresHeld (r : Run) : List (Nat × Nat × Nat) :=
  (r.groups.foldl (fun (acc : List (Nat × Nat × Nat)) e =>
    let k := (dieOfGrp r e.2, coreOfGrp r e.2)
    if e.2.ctx.isNone || acc.any (fun x => x.2 == k) then acc else acc ++ [(partOf r e.2, k)]) [])

/-- Counts the cycles that end while time passes from `tick` on: the first of them is one in which a group has issued where it issued within it. DEDUCED, log 133. -/
def countCycles (tick n : Nat) (r : Run) : Run :=
  if n = 0 then r
  else
    let r := (coresHeld r).foldl (fun r x => r.count x.1 0 0 n) r
    r.groups.foldl (fun acc e => stallGroup acc e.1 (n - bit (e.2.lastIssue / 2 == tick / 2))) r

/-- Some ticks pass, and the arithmetic clock cycles that end with them are counted. -/
def elapse (ticks : Nat) (s : State) : State :=
  passTime ticks { s with run := countCycles s.run.tick (cyclesIn s.run.tick ticks) s.run }

/-! One step. -/

def andThen (o : Host.Outcome State Fault Refusal) (f : State → State) : Host.Outcome State Fault Refusal :=
  match o with
  | .next s => .next (f s)
  | .fault x => .fault x
  | .refused x => .refused x

/-- What follows an act: a bring-up that has waited for its Straits ends; candidates; packets and records leave. -/
def settle (old : Run) (issued : Option (Nat × Nat)) (s : State) : State :=
  let r := refreshReady old issued { s.run with issuing := none, accHint := 0 }
  let (r, m) := if s.mgmt.powered then narrows (pump (finishBoot (r, s.mgmt))) else (r, s.mgmt)
  { s with run := r, mgmt := m }

/-- An act takes place. A turn of a fragment that may not issue passes. DESIGN CHOICE, log 134. -/
def perform (a : Act) (s : State) : Host.Outcome State Fault Refusal :=
  match a with
  | .issue g f =>
    if mayIssue s.run g f then
      match fragTurn s.run g f with
      | .done r => .next (settle s.run (some (g, f)) { s with run := r })
      | .instr i r => andThen (exec i { s with run := r }) (settle s.run (some (g, f)))
    else .next (settle s.run none s)
  | .event i => andThen (exec i s) (settle s.run none)
  | .store i j => andThen (rowRun (lateDue s.run i j) s (lateAct i j)) (settle s.run none)
  | .configRead ofs => andThen (readConfig ofs s) (settle s.run none)

/-- Whether a unit's buffer would hold more records than it has room for (19 R473). -/
def recordsWait (r : Run) : Bool := r.units.any fun b => decide (Config.eventBuffer < b.recs.length)

/-- The fragment whose event waits for room. -/
def holdRecord (a : Act) (r : Run) : Run :=
  match a with
  | .issue g f => r.updGrp g fun x => x.updSlices (x.fragSlices f) fun s =>
      { s with wait := s.wait.orElse fun _ => some { kind := 0, reason := stallOther, object := 0, since := r.now (dieOfGrp r x), aux := 0 } }
  | _ => r

/-- What an act comes to: itself, unless the source of one of its events must wait: a record of a lossless type is accepted first (19 R473). DEDUCED, log 36. -/
def accepted (a : Act) (s : State) : Host.Outcome State Fault Refusal → Host.Outcome State Fault Refusal
  | .next t => .next (if recordsWait t.run then settle s.run none { s with run := holdRecord a s.run } else t)
  | o => o

def attempt (a : Act) (s : State) : Host.Outcome State Fault Refusal := accepted a s (perform a s)

/-- The Ferry port by which an act comes: its own, or its entry's. -/
def Act.ferry (e : Entry) : Option Nat :=
  match e.act with
  | .event (.hostmemRead f ..) => some f
  | .event (.hostmemWrite f ..) => some f
  | .event (.add64 f ..) => some f
  | .event (.cas64 f ..) => some f
  | _ => e.ferry

/-- A request comes by a Ferry port, which is then trained and not silent (20 R498). DEDUCED, log 109. -/
def ferryArrives (f : Option Nat) (s : State) : State :=
  match f with
  | none => s
  | some n => { s with mgmt := { s.mgmt with asked := f, ferries := updAt s.mgmt.ferries n fun _ => { trained := true, lastRx := s.run.now 0 } } }

/-- An entry arrives: by its Ferry port, with what the self-tests of a reset find. -/
def arrives (e : Entry) (s : State) : State :=
  let s := ferryArrives (Act.ferry e) s
  { s with mgmt := { s.mgmt with failing := e.failing } }

/-- Ticks that pass in a step whose entry does not say so. DESIGN CHOICE, log 5. -/
def stepTicks : Nat := 2

/-- The next entry of the agenda, or with none the next act in turn; with nothing to do time passes. -/
def stepState (s : State) : Host.Outcome State Fault Refusal :=
  match s.agenda with
  | e :: t => attempt e.act (arrives e (elapse e.elapsed { s with agenda := t }))
  | [] =>
    let s1 := elapse stepTicks s
    match pick s1 with
    | some (a, turn) => attempt a { s1 with turn }
    | none => .next (settle s1.run none s1)

/-! An instruction placed to be fetched (DEDUCED, log 11). -/

/-- Where it is placed: a page of 16 GiB at address 0, of which the tables stand at 1 MiB, and the address of the instruction. -/
def probeTables : Nat := 0x100000
def probePc : Nat := 0x10000

/-- Memory with the page tables and the instruction. DEDUCED, log 11. -/
def probeMemory (w : Nat) (r : Run) : Run :=
  let leaf := 2 ^ 63 + 2 ^ 62 + 4 * 2 ^ 59 + 0xF * 2 ^ 52
  let r := writeWord r probeTables (w64 (2 ^ 63 + (probeTables + 0x20000)))
  let r := writeWord r (probeTables + 8) 0
  let r := writeWord r (probeTables + 0x20000) (w64 leaf)
  let r := writeWord r (probeTables + 0x20008) 0
  writeWord (writeWord r probePc (w64 w)) (probePc + 8) (w64 (w / 2 ^ 64))

def probeLaunch : Launch :=
  { part := 0, src := .ring 0 0 0, prio := 0, startOrder := 0, kernid := 0, launchid := 0, nteams := 1, ngroups := 1, width := 32, vregs := 256
    gregs := 64, prot := false, rows := 1, cols := 1, lines := Config.sramLines, codeBase := probePc, codeSize := 0x1000, entries := [0], handlers := []
    args := [], utvec := 0, utrap := 0, lrec := 0, dies := [0], teamsLeft := 1, mode := .off, log := [], bursts := [], startEvent := 0
    diverged := false, errors := 0, complete := false, firstLog := none }

def probeTeam (launch cluster now : Nat) : Team :=
  { launch, num := 0, cluster, cteam := 0, die := 0, core := 0, resident := true, ended := false, killed := false, size := 128 * Config.sramLines
    scratch := [], lines := [], lineWaiters := [], bars := List.replicate 16 Barrier.reset
    cfg := { mb := 0, nb := 0, kb := 0, nt := 0, lda := 0, ldb := 0 }, tiles := [], pins := [], held := [], sbuf := [], committed := []
    checkpoint := none, rollbacks := 0, avoid := none, save := 0, saved := false, queue := [], admitted := now, tstart := 0, evicts := 0
    banks := [], startEvent := 0 }

/-- A machine whose next step is the turn of a new group at an instruction placed in memory: a partition of die 0, a launch and its one team. DEDUCED, log 11. -/
def placeWord (w : Nat) (s : State) : State :=
  let n := s.run.nextId
  let cb : ControlBlock :=
    { addr := 0x180000, l0base := probeTables, fqbase := 0x190000, fqlog := 4, cqbase := 0x1A0000, cqlog := 4, ctxbase := 0, ctxsize := 0
      fqtail := 0, cqhead := 0, dropped := 0 }
  let r := probeMemory w s.run
  let r := r.updPart 0 fun p => { p with pdies := 1, pframe := [1, 0, 0], cb := some cb }
  let r := r.updDie 0 fun d =>
    { d with state := .running, tlb := d.tlb.filter (fun e => e.1 != 0), ptrs := d.ptrs.filter fun p => p.part != 0
             cores := updAt d.cores 0 fun c => { c with icache := [], throttled := 0, tlb := [] } }
  let c : Cluster := { launch := n, num := 0, die := 0, at_ := some 0, evicted := false, leaving := false, ended := false, teams := [n + 2], slots := [] }
  let g := { Grp.start (n + 2) 0 32 (w64 probePc) 0 0 [] with ctx := some (((lowestFree Config.contexts (takenContexts r 0 0))).getD 0), lastIssue := r.tick }
  { s with
    run := { r with nextId := n + 4, launches := r.launches.put n probeLaunch, clusters := r.clusters.put (n + 1) c
                    teams := r.teams.put (n + 2) (probeTeam n (n + 1) n), groups := r.groups.put (n + 3) g
                    ready := (n + 3, 0) :: r.ready }
    agenda := [{ elapsed := 0, act := .issue (n + 3) 0 }] }

end Sys2Proof.Machine
end

