-- ==== Sys2Proof/Machine/Step.lean ====
section
/-! DEFINITION. One step of the machine, and an instruction placed where a step fetches it (DEDUCED, log 11). -/
namespace Sys2Proof.Machine

/-- The next act of the machine: the turn of a fragment, which fetches and issues one instruction, or a row of a unit. -/
def step (s : State) : Host.Outcome State Fault Refusal := stepState s

/-- The state with an instruction of which the table gives some bits placed for the next step; the rest of its bits are 0. DEDUCED, log 11. -/
def State.withFetchWord (s : State) (_nbits w : Nat) : State := placeWord w s

end Sys2Proof.Machine
end

