-- ==== Sys2Proof/Safety.lean ====
section
/-! DEFINITION. The terms in which claims speak of a run: an instruction that is ready to complete, the state it completes in, what a
destination needs, what stays as it was, and the legal states of the management plane. -/
namespace Sys2Proof.Machine

/-! An instruction that completes. -/

/-- Instruction `i` is issuing as `c` and nothing that every instruction shares stops it: the words are an instruction's; no deferred cause is
due at a switch point (17 R438); the checks of 06 R184, steps 4 to 8, find no cause; the register lines it touches are resident (02 R76); a
commit that words through a semaphore ask for first has taken place (11 R325); and the queue registers it reads hold the words it pops and
those it writes have room (02 R72 to R74). `r` is what executes once those words, `c.pops`, are popped. -/
def Ready (i : Instr) (s : State) (c : Ctx) (r : Run) : Prop :=
  ∃ sh f c0 base, shape i = some sh ∧ fieldsOf i = some f ∧ s.run.issuing = some (c.gid, c.frag) ∧
    makeCtx s.run c.gid c.frag sh f = some c0 ∧ c = { c0 with pops := c.pops } ∧
    ((sh.switch || c0.usesQueue) = true → dueDeferred c0.grp = none) ∧ c0.early = none ∧ c0.missing = [] ∧
    c0.before c0.wordsCmp (c0.onto s.run) = (base, true) ∧ queues c0 base = .ok (c.pops, r)

/-- What executes when an instruction that is ready has begun: the commit that words through a semaphore ask for has taken place (11 R325). -/
def Ctx.begun (c : Ctx) (r : Run) : Run := (c.before c.wordsCmp (c.onto r)).1

/-- What follows completion: the commit that words through a semaphore ask for (11 R325). -/
def closing (c : Ctx) (r : Run) : Run := if c.wordsCmp.commits then (commitNow r c.grp.team).1 else r

/-- An instruction's effect with its completion: the passes and lane-instructions are counted (19 R489) and the issuing slices wait for nothing. -/
def ended (c : Ctx) (r : Run) : Run := countIssue c (endWaits r c.gid c.slices)

/-- The state in which an instruction completes whose effect, its program counters advanced, left `r`. -/
def completed (s : State) (c : Ctx) (r : Run) : State := { s with run := closing c (ended c r) }

/-- The destination takes its result at once: it is no queue register, or one bound to a ring, whose room is found before (02 R74). A
semaphore may yet be full. -/
def plainDest (c : Ctx) : Bool :=
  c.f.w || match c.f.d with
    | .q n => (c.grp.q.find n.toNat).all fun b => decide (b.kind < 4)
    | _ => true

/-- `i` completes, wherever `ok` holds, with `val` as its result in each active lane (02 R60 to R62, R69, R72), and nothing else. -/
def YieldsIf (i : Instr) (ok : Ctx → Run → Prop) (w : Ctx → ResW) (val : Ctx → Run → Nat → Nat) : Prop :=
  ∀ s c r, Ready i s c r → plainDest c = true → ok c (advance c r) →
    ∃ r', writeRes (advance c r) c (w c) (val c (advance c r)) = .ok r' ∧ exec i s = .next (completed s c r')

/-- `i` completes with `val` as its result in each active lane. -/
def Yields (i : Instr) (w : Ctx → ResW) (val : Ctx → Run → Nat → Nat) : Prop := YieldsIf i (fun _ _ => True) w val

/-- `i` completes with a result in each active lane and the flags that the lane raises (02 R67). -/
def YieldsFlags (i : Instr) (w : Ctx → ResW) (val : Ctx → Run → Nat → Nat × BitVec 5) : Prop :=
  ∀ s c r, Ready i s c r → plainDest c = true →
    ∃ r', writeRes (raiseFlags (advance c r) c fun l => (val c (advance c r) l).2) c (w c) (fun l => (val c (advance c r) l).1) = .ok r' ∧
      exec i s = .next (completed s c r')

/-- `i` completes with `act` on what executes, its program counters advanced, as its one effect, wherever `ok` holds. -/
def Acts (i : Instr) (ok : Ctx → Run → Prop) (act : Ctx → Run → Run) : Prop :=
  ∀ s c r, Ready i s c r → ok c (advance c r) → exec i s = .next (completed s c (act c (advance c r)))

/-- `i` completes with what `act` answers, wherever it answers anything. -/
def ActsAs (i : Instr) (act : Ctx → Run → Option Run) : Prop :=
  ∀ s c r r', Ready i s c r → act c (advance c r) = some r' → exec i s = .next (completed s c r')

/-- Wherever `trap` answers one, `i` takes that trap, with nothing of its own effect (06 R184). -/
def Traps (i : Instr) (trap : Ctx → Run → Option TrapInfo) : Prop :=
  ∀ s c r t, Ready i s c r → trap c (advance c r) = some t →
    exec i s = .next { s with run := trapAt (c.begun s.run) c.gid c.slices t [] }

/-- Every piece of some lanes' accesses reads good data: no block of it fails (17 R450, R451). -/
def goodPieces (r : Run) (part : Nat) (as : List (Nat × List Piece64)) : Prop :=
  ∀ x ∈ as, ∀ p ∈ x.2, rangeFail r (keyOf r part p.leaf) (p.leaf.pa p.va) p.len = none

/-- Remote instruction `i` is issuing as `c` while it is in flight: its requests have left (08 R262). -/
def Landed (i : Instr) (s : State) (c : Ctx) : Prop :=
  ∃ sh f, shape i = some sh ∧ fieldsOf i = some f ∧ s.run.issuing = some (c.gid, c.frag) ∧ makeCtx s.run c.gid c.frag sh f = some c ∧
    c.missing = [] ∧ c.grp.remotes.any (ownRemote c.pc c.slices) = true

/-- The launch is not protected, or the slices are a landing handler's: nothing is compared or buffered (01 R52, R53). -/
def Ctx.unpaired (c : Ctx) : Prop := c.shadowed = false

/-- The sources of one lane as patterns of type T, and as the integers they stand for (03 R80). -/
def Ctx.pa (c : Ctx) (r : Run) (l : Nat) : Nat := c.aAs r c.elt l
def Ctx.pb (c : Ctx) (r : Run) (l : Nat) : Nat := c.bAs r c.elt l
def Ctx.pc' (c : Ctx) (r : Run) (l : Nat) : Nat := c.cAs r c.elt l
def Ctx.ia (c : Ctx) (r : Run) (l : Nat) : Int := readI c.elt (c.pa r l)
def Ctx.ib (c : Ctx) (r : Run) (l : Nat) : Int := readI c.elt (c.pb r l)
def Ctx.ic (c : Ctx) (r : Run) (l : Nat) : Int := readI c.elt (c.pc' r l)
/-- The result width of type T. -/
def Ctx.tw (c : Ctx) : ResW := tyRes c.f
/-- An exact integer as a pattern of T: wrapped, or saturated with SAT. -/
def Ctx.fit (c : Ctx) (x : Int) : Nat := intResult c.elt (satOf c.f) x

/-- `i` completes with `val` as a predicate in its D field's register, in each active lane (07 R205). -/
def YieldsPred (i : Instr) (val : Ctx → Run → Nat → Bool) : Prop :=
  ∀ s c r, Ready i s c r → exec i s = .next (completed s c (writePred (advance c r) c c.f.d (val c (advance c r))))

/-- The opcode of an instruction, the types it takes, and what its X field may hold (06 R172, R179, R185). -/
def Forms (op : Fields → Instr) (code : Nat) (ts : List Ty) (x : Fields → Prop) : Prop :=
  ∀ f, ofCode code f = some (op f) ∧ ((op f).wf = true → f.t ∈ ts ∧ x f)

/-- No function, rounding or auxiliary modifier, and a saturation only where `sat` allows it. -/
def bareX (sat : Bool) (f : Fields) : Prop := fnOf f = 0 ∧ rmOf f = 0 ∧ auxOf f = false ∧ (sat = false → satOf f = false)

/-! Rows without an encoding. -/

/-- A row that happens wherever `due` holds, with `act` as its effect on what executes and on the management plane, and that cannot happen
elsewhere. -/
def Happens (i : Instr) (due : State → Bool) (act : Run × Mgmt → Run × Mgmt) : Prop :=
  ∀ s, (due s = true → exec i s = .next { s with run := (act (s.run, s.mgmt)).1, mgmt := (act (s.run, s.mgmt)).2 }) ∧
    (due s = false → exec i s = .fault .notPending)

/-- The same for a row that changes only what executes. -/
def HappensRun (i : Instr) (due : State → Bool) (act : Run → Run) : Prop :=
  ∀ s, (due s = true → exec i s = .next { s with run := act s.run }) ∧ (due s = false → exec i s = .fault .notPending)

/-- A row of the management plane that a request of the control node asks for, where it is served; it is answered when it has had its effect. -/
def Told (i : Instr) (due : State → Bool) (act : Run × Mgmt → Run × Mgmt) : Prop :=
  Happens i (fun s => served s.mgmt && due s) fun x => ((act x).1, answer (act x).2 .done)

/-- A row that a tool asks for by a handle which must hold a right in a partition: without it the request is refused, with no effect but the reads of
the check. -/
def Asked (i : Instr) (part : Nat) (h : W64) (right : Nat) (due : State → Bool) (act : Run × Mgmt → Run × Mgmt) : Prop :=
  Happens i (fun s => served s.mgmt && decide (part < Config.partitions) && due s) fun x =>
    if handleHolds x.1 part h right then act (rightsSeen x.1 part (partDie x.1 part) h, x.2)
    else (rightsSeen x.1 part (partDie x.1 part) h, answer x.2 .refused)

/-- Such a row that is answered when it has had its effect. -/
def ToldAsked (i : Instr) (part : Nat) (h : W64) (right : Nat) (due : State → Bool) (act : Run × Mgmt → Run × Mgmt) : Prop :=
  Asked i part h right due fun x => ((act x).1, answer (act x).2 .done)

/-! What stays. -/

/-- Every other group, every byte of memory, every team's scratch but this one's, and the whole management plane are as before. -/
def restKept (c : Ctx) (s t : State) : Prop :=
  (∀ g, g ≠ c.gid → t.run.grp g = s.run.grp g) ∧ (∀ a, memByte t.run.mem a = memByte s.run.mem a) ∧
    (∀ n, n ≠ c.grp.team → t.run.team n = s.run.team n) ∧ t.run.launches = s.run.launches ∧ t.run.ops = s.run.ops ∧ t.mgmt = s.mgmt

/-- The masks, the supervisor bank and level, the queue bindings and the vectors of a group are as before. -/
def systemKept (g h : Grp) : Prop :=
  h.m = g.m ∧ h.q = g.q ∧ h.super = g.super ∧ h.msk = g.msk ∧ h.uin = g.uin ∧ h.utvec = g.utvec ∧ h.deferred = g.deferred

/-- The issuing slices hold no wait on a semaphore, whose WAITERS word a wait's end would change (11 R340). -/
def noSemWait (c : Ctx) : Prop := ∀ n s w, n ∈ c.slices → c.grp.slice n = some s → s.wait = some w → w.kind ≠ 7

/-- Register k of lane l is one that a result in D writes. -/
def isDest (c : Ctx) (w : ResW) (k l : Nat) : Prop :=
  c.f.w = false ∧ ∃ n, c.f.d = .v n ∧ n.toNat ≤ k ∧ k < n.toNat + w.words ∧ l ∈ c.lanes

/-- Of the registers and the system state of a group nothing changes but the destination of a result. -/
def onlyDest (c : Ctx) (w : ResW) (g h : Grp) : Prop :=
  systemKept g h ∧ (∀ k l, l < 128 → ¬ isDest c w k l → vReg h k l = vReg g k l) ∧
    ∀ k, k < 64 → (c.f.w = true ∨ ∀ n, c.f.d = .g n → k ≠ n.toNat) → gReg h k = gReg g k

/-! The management plane. -/

/-- What holds of the management plane in every state a run reaches: two image slots of each kind; a pending list of at most 4,096 repairs
(20 R505); a replay buffer of at most 512 flits a port (18 R458), sequence numbers of 12 bits, and no reserved REQW (18 R462). -/
def Mgmt.legal (m : Mgmt) : Prop :=
  m.mmpSlots.length = 2 ∧ m.dcpSlots.length = 2 ∧ m.ports.length = Config.ports ∧ m.pending.length ≤ 4096 ∧
    ∀ p ∈ m.ports, p.buffer.length ≤ Config.replayFlits ∧ p.nextSeq < 4096 ∧ p.reqw < 3

/-- No floor under the security versions is lower in `n` than in `m` (20 R510). -/
def Mgmt.floorsRise (m n : Mgmt) : Prop := m.mmpFloor ≤ n.mmpFloor ∧ m.dcpFloor ≤ n.dcpFloor

end Sys2Proof.Machine
end

