-- ==== Sys2Proof/Certificates/Slice0/Obligations.lean ====
section
/-! DEFINITION. What the provers are to prove of the machine. -/
open Sys2Proof Sys2Proof.Machine

/-! ## Words -/

/-- Words that the manual writes out, or that its encodings give, decode to their instructions; and the map holds 156 opcodes: every other value
of OP is reserved (06 R168, R185). -/
def Obligations.ManualWordsDecode : Prop :=
  decodeWords 0x0014020140C00000 0 = .ok (.iadd { gn := true, gp := 2, d := .v 4, a := .v 5, b := .v 6 }) ∧
  decodeWords 0x8002000000000000 0x0000000500060000 = .ok (.bra { gp := 1, w2 := 0x0000000500060000 }) ∧
  decodeWords 0xE00E000000000000 0 = .ok (.tret {}) ∧
  decodeWords 0xE10E000000000001 0 = .ok (.tmask { x := 1 }) ∧
  decodeWords 0x930E000000000000 0 = .ok (.nop {}) ∧
  ((List.range 256).filter fun n => (ofCode n {}).isSome).length = 156 ∧
  ∀ w1 w2 : W64, ofCode (w1.extractLsb' 56 8).toNat {} = none → decodeWords w1 w2 = .error .reservedOpcode

/-- Every well-formed instruction of the map is what its bytes decode to, whatever follows them. -/
def Obligations.EncodedInstructionsDecode : Prop :=
  ∀ (i : Instr) (rest : List Byte), i.coded = true → i.wf = true → decodeBytes (encodeBytes i ++ rest) = .ok (i, rest)

/-- Words that decode are the words of a well-formed instruction of the map: no instruction has two encodings, and every bit is read. -/
def Obligations.DecodedWordsEncode : Prop :=
  ∀ (w1 w2 : W64) (i : Instr), decodeWords w1 w2 = .ok i →
    encode i = (if longWord w1 then [w1, w2] else [w1]) ∧ i.coded = true ∧ i.wf = true

/-! ## The machine's step -/

/-- A step whose turn falls to a fragment that may issue runs the instruction that its fetch decodes, and any other row of the agenda takes
place: `exec` of it, after the time that passes and with the step's end behind it, unless a record that it makes must wait for room: then it is as if the
act had not begun (19 R473). A turn of a fragment that may not issue passes.
The agenda is the model's (logs 4 and 5), and so is how an act waits (log 36). -/
def Obligations.StepRunsTheFetchedInstruction : Prop :=
  ∀ (s : State) (e : Entry) (a : Act) (rest : List Entry), s.agenda = e :: rest → e.act = a →
    let s1 := arrives e (elapse e.elapsed { s with agenda := rest })
    (∀ gid frag i r, a = .issue gid frag → mayIssue s1.run gid frag = true → fragTurn s1.run gid frag = .instr i r →
      step s = accepted a s1 (andThen (exec i { s1 with run := r }) (settle s1.run (some (gid, frag))))) ∧
    (∀ gid frag, a = .issue gid frag → mayIssue s1.run gid frag = false → step s = accepted a s1 (.next (settle s1.run none s1))) ∧
    (∀ i, a = .event i → step s = accepted a s1 (andThen (exec i s1) (settle s1.run none))) ∧
    (∀ i j, a = .store i j → step s = accepted a s1 (andThen (rowRun (lateDue s1.run i j) s1 (lateAct i j)) (settle s1.run none))) ∧
    (∀ ofs, a = .configRead ofs → step s = accepted a s1 (andThen (readConfig ofs s1) (settle s1.run none))) ∧
    (∀ o : Host.Outcome State Fault Refusal, (∀ t, o = .next t → recordsWait t.run = false) → accepted a s1 o = o) ∧
    ∀ t : State, recordsWait t.run = true → accepted a s1 (.next t) = .next (settle s1.run none { s1 with run := holdRecord a s1.run })

/-- A fetch answers the instruction of the words in memory: where the page of the program counter, and of the word after it, translates, no block
fails, and neither the core's cache nor the slice holds another word (06 R169, R184). An instruction that the slice's loop buffer has is issued from
there (09 R290). Words that are no instruction raise ILLEGAL_OPCODE at their address, and a misaligned program counter MISALIGNED (06 R169, R184).
Readings: logs 9, 43 and 136. -/
def Obligations.FetchDecodesMemory : Prop :=
  ∀ (r r1 r2 : Run) (gid : Nat) (g : Grp) (s : Slice) (l1 l2 : Leaf) (i : Instr),
    let q := grpReq r gid g s.pc 6 3
    let seen := fun (r : Run) (l : Leaf) (a : W64) => correctRange r q.part (keyOf r q.part l) (l.pa a) 8
    let fresh := fun (a : W64) => s.loopWord a = none ∧ s.oldWord a = none
    let good := fun (r : Run) (l : Leaf) (a : W64) => rangeFail r (keyOf r q.part l) (l.pa a) 8 = none ∧
      ∀ w, ((seen r l a).core q.die q.core).icache.find (l.pa a) = some w → w = readWord (seen r l a) (l.pa a)
    let w1 := readWord (seen r1 l1 s.pc) (l1.pa s.pc)
    let r1' := (cachedWord (seen r1 l1 s.pc) q l1 (l1.pa s.pc)).2
    let w2 := readWord (seen r2 l2 (s.pc + 8)) (l2.pa (s.pc + 8))
    (s.pc.toNat % 8 = 0 → translate r q s.pc = (.ok l1, r1) → good r1 l1 s.pc → fresh s.pc →
      (longWord w1 = false → decodeWords w1 0 = .ok i → ∃ r', fetch r gid g s = .ok (i, r')) ∧
      (longWord w1 = true → fresh (s.pc + 8) → grpReq r1' gid g s.pc 6 3 = q → translate r1' q (s.pc + 8) = (.ok l2, r2) → good r2 l2 (s.pc + 8) →
        decodeWords w1 w2 = .ok i → ∃ r', fetch r gid g s = .ok (i, r')) ∧
      (longWord w1 = false → ∀ e, decodeWords w1 0 = .error e → fetch r gid g s = .error { trap := fetchTrap .illegalOpcode 0 s.pc 0 })) ∧
    (∀ w1 w2 : W64, s.pc.toNat % 8 = 0 → s.loopWord s.pc = some w1 → (if longWord w1 then s.loopWord (s.pc + 8) = some w2 else w2 = 0) →
      decodeWords w1 w2 = .ok i → ∃ r', fetch r gid g s = .ok (i, r')) ∧
    (s.pc.toNat % 8 ≠ 0 → fetch r gid g s = .error { trap := fetchTrap .misaligned 0 s.pc s.pc })

/-- Values that the manual gives for reset: the module is in BOOTING (20 R514); each die is RUNNING with no command, no error and no core fenced (20
R502), its health block zero but for an end of life of 255 (20 R506); FILTER is all ones (19 R476); a partition has no dies, delegates
nothing and has no vector (14 R382); no key is loaded (20 R509); and nothing runs.
Memory lists nothing; that it then reads 0 is the model's choice (log 2). -/
def Obligations.ResetValues : Prop :=
  State.reset.mgmt.state = .booting ∧ State.reset.mgmt.filter = 0xFFFFFFFF ∧
  (∀ p ∈ State.reset.mgmt.ports, p.reqw = 0 ∧ p.buffer = []) ∧
  (∀ d ∈ State.reset.run.dies, d.state = .running ∧ d.cmd = 0 ∧ d.slot = false ∧ d.err = false ∧ (∀ k ∈ d.cores, k.fenced = false) ∧
    d.eol = 255 ∧ d.age = 0 ∧ d.tmax = 0 ∧ d.tnow = 0 ∧ d.vcore = 0 ∧ d.power = 0 ∧ d.cehour = 0 ∧ d.uecount = 0 ∧ d.rows = 0 ∧ d.pending = 0) ∧
  (∀ p ∈ State.reset.run.parts, p.pdies = 0 ∧ p.pdeleg = 0 ∧ p.stvec = 0 ∧ p.queueEnable = false) ∧
  (∀ k ∈ State.reset.run.keys, k.loaded = false) ∧ State.reset.run.groups = [] ∧ State.reset.run.launches = [] ∧ State.reset.run.mem = []

/-- The management plane is legal after reset. -/
def Obligations.LegalAtReset : Prop := State.reset.mgmt.legal

/-- Every step keeps the management plane legal: the pending list within 4,096 repairs, each replay buffer within 512 flits, sequence numbers
within 12 bits, REQW never the reserved value, two image slots of each kind. -/
def Obligations.StepsKeepTheManagementPlaneLegal : Prop :=
  ∀ s t : State, s.mgmt.legal → step s = .next t → t.mgmt.legal

/-- No step lowers the floor under the security versions of either kind of firmware (20 R510). -/
def Obligations.FirmwareFloorsNeverFall : Prop :=
  ∀ s t : State, step s = .next t → s.mgmt.floorsRise t.mgmt

/-! ## Operands and results -/

/-- A result in a `v` register: in each active lane the register and those after it hold the words of the result, and every other register of
every lane keeps its value (02 R60, R61). The latches of the issuing slices shift by the words of the result: an active lane's words come in, zeros in
an inactive lane, and the words that come in are valid (02 R69); no other slice's latches change. No other register, predicate, flag or group,
no team and no byte of memory changes. -/
def Obligations.VectorResultIsWritten : Prop :=
  ∀ (r r' : Run) (c : Ctx) (w : ResW) (val : Nat → Nat) (n : BitVec 8) (g : Grp),
    r.grp c.gid = some g → c.f.w = false → c.f.d = .v n → c.slices.Nodup → writeRes r c w val = .ok r' →
    (∃ g', r'.grp c.gid = some g' ∧
      (∀ l ∈ c.lanes, ∀ i, i < w.words → vReg g' (n.toNat + i) l = nthD 0 (resWords w (resV w (val l))) i) ∧
      (∀ k l, l < 128 → ¬ isDest c w k l → vReg g' k l = vReg g k l) ∧
      (∀ s ∈ c.slices, ∀ j k, j < 4 → k < 8 → latchReg g' k (4 * s + j) =
        if w.words ≤ k then latchReg g (k - w.words) (4 * s + j)
        else if c.active.getLsbD (4 * s + j) then nthD 0 (resWords w (resV w (val (4 * s + j)))) k else 0) ∧
      (∀ l k, l / 4 ∉ c.slices → k < 8 → latchReg g' k l = latchReg g k l) ∧
      (∀ k x, g.slices[k]? = some x → g'.slices[k]? =
        some (if k ∈ c.slices then { x with valid := (x.valid <<< w.words) ||| BitVec.ofNat 8 (2 ^ w.words - 1) } else x)) ∧
      g'.g = g.g ∧ g'.sg = g.sg ∧ g'.p = g.p ∧ g'.sp = g.sp ∧ g'.fflags = g.fflags ∧ systemKept g g') ∧
    (∀ k, k ≠ c.gid → r'.grp k = r.grp k) ∧ r'.teams = r.teams ∧ r'.mem = r.mem ∧ r'.late = r.late

/-- A result in a `g` register: that of the lowest active lane, and with none nothing is written; a `g` source is the same in every lane (02 R61). A
predicate result is written in the active lanes alone; p7 reads true whatever is written to it (02 R63, 07 R205). -/
def Obligations.UniformAndPredicateResultsAreWritten : Prop :=
  (∀ (r r' : Run) (c : Ctx) (w : ResW) (val : Nat → Nat) (n : BitVec 6) (g : Grp),
    r.grp c.gid = some g → c.f.w = false → c.f.d = .g n → n.toNat < g.g.length → 8 ≤ g.sg.length → writeRes r c w val = .ok r' →
    ∃ g', r'.grp c.gid = some g' ∧
      (∀ l, c.lowest = some l → gReg g' n.toNat = resG w (val l)) ∧
      (c.lowest = none → g' = g) ∧
      (∀ k, k ≠ n.toNat → k < 64 → gReg g' k = gReg g k) ∧ g'.v = g.v ∧ g'.p = g.p ∧ g'.lat = g.lat ∧ systemKept g g') ∧
  (∀ (r : Run) (c : Ctx) (n : BitVec 6) (e : Elt) (l k : Nat), readSrc r c (.g n) e l = readSrc r c (.g n) e k) ∧
  ∀ (r : Run) (c : Ctx) (o : Opnd) (val : Nat → Bool) (g : Grp),
    r.grp c.gid = some g → 7 ≤ g.p.length → 7 ≤ g.sp.length →
    ∃ g', (writePred r c o val).grp c.gid = some g' ∧
      (∀ l, l < 128 → regIndex o 8 ≠ 7 → (predMask g' (regIndex o 8)).getLsbD l =
        if l ∈ c.lanes then val l else if c.active.getLsbD l then false else (predMask g (regIndex o 8)).getLsbD l) ∧
      (∀ k, k ≠ regIndex o 8 → predMask g' k = predMask g k) ∧ predMask g' 7 = BitVec.allOnes 128 ∧ g'.v = g.v ∧ g'.g = g.g ∧ systemKept g g'

/-- The advance of an instruction: each issuing slice's program counter moves past its words (06 R169), its latches lose their values at a switch point
(02 R71), and a region begins there where the instruction begins one (01 R46): at the new program counter, with the slice's mask, stack and
reconvergence point, and with the group's holds and undo copies released at USER level (10 R316, R317). Every other slice, every register,
every byte of memory and every other group are as before. What `last` and `lastPc` keep is the model's, for 15 R413 and 19 R493. -/
def Obligations.AdvanceMovesTheIssuingSlices : Prop :=
  ∀ (r : Run) (c : Ctx) (g : Grp), r.grp c.gid = some g → c.slices.Nodup → (∀ n ∈ c.slices, n < g.slices.length) →
    ∃ g', (advance c r).grp c.gid = some g' ∧ g'.slices.length = g.slices.length ∧
      (∀ n x, g.slices[n]? = some x → ∃ x', g'.slices[n]? = some x' ∧ x'.pc = (if n ∈ c.slices then x.pc + w64 c.len else x.pc) ∧ x'.mask = x.mask ∧
        x'.stack = x.stack ∧ x'.frag = x.frag ∧
        (n ∉ c.slices → x' = x) ∧
        (n ∈ c.slices → x'.last = r.tick ∧ x'.lastPc = c.pc ∧
          (c.beginsRegion = true → x'.valid = 0 ∧ x'.rge = x'.pc ∧ x'.regMask = x.mask ∧ x'.regStack = x.stack ∧ x'.regCrp = x.crp) ∧
          (c.beginsRegion = false → x'.valid = (if c.sh.switch || c.usesQueue then 0 else x.valid) ∧ x'.rge = x.rge ∧ x'.regMask = x.regMask ∧
            x'.regStack = x.regStack ∧ x'.regCrp = x.regCrp))) ∧
      g'.v = g.v ∧ g'.g = g.g ∧ g'.p = g.p ∧ g'.lat = g.lat ∧ g'.fflags = g.fflags ∧ systemKept g g' ∧ g'.lastIssue = r.tick ∧
      (c.beginsRegion = true → g.super = false → g'.holds = [] ∧ g'.undo = []) ∧
      (c.beginsRegion = false → g'.staged = g.staged ∧ g'.holds = g.holds ∧ g'.undo = g.undo ∧ (advance c r).teams = r.teams) ∧
      (advance c r).mem = r.mem ∧ ∀ k, k ≠ c.gid → (advance c r).grp k = r.grp k

/-! ## Integers (07 R206 to R214) -/

/-- IADD, ISUB, IMUL, IMAD, IMIN, IMAX, IABS, INEG, IADDI complete with the exact result fitted to T, IMULH with the upper half of the product; their
opcodes, types and modifiers are those of R206. That IADDI's immediate is taken with its sign also for the types of natural numbers, also under SAT, is
the model's reading (log 19). -/
def Obligations.IntegerArithmeticCompletes : Prop :=
  (∀ e ∈ [(0x00, Instr.iadd), (0x01, .isub), (0x02, .imul), (0x04, .imad)], Forms e.2 e.1 intTys (bareX true)) ∧
  (∀ e ∈ [(0x03, Instr.imulh), (0x07, .imin), (0x08, .imax)], Forms e.2 e.1 intTys (bareX false)) ∧
  (∀ e ∈ [(0x09, Instr.iabs), (0x0A, .ineg)], Forms e.2 e.1 [.i32, .i64] (bareX true)) ∧
  Forms .iaddi 0x1C intTys (fun f => rmOf f = 0 ∧ auxOf f = false) ∧
  ∀ f : Fields,
    Yields (.iadd f) Ctx.tw (fun c r l => c.fit (c.ia r l + c.ib r l)) ∧
    Yields (.isub f) Ctx.tw (fun c r l => c.fit (c.ia r l - c.ib r l)) ∧
    Yields (.imul f) Ctx.tw (fun c r l => c.fit (c.ia r l * c.ib r l)) ∧
    Yields (.imulh f) Ctx.tw (fun c r l => lowBits (2 * c.elt.bits) (c.ia r l * c.ib r l) / 2 ^ c.elt.bits) ∧
    Yields (.imad f) Ctx.tw (fun c r l => c.fit (c.ia r l * c.ib r l + c.ic r l)) ∧
    Yields (.imin f) Ctx.tw (fun c r l => c.fit (min (c.ia r l) (c.ib r l))) ∧
    Yields (.imax f) Ctx.tw (fun c r l => c.fit (max (c.ia r l) (c.ib r l))) ∧
    Yields (.iabs f) Ctx.tw (fun c r l => c.fit (c.ia r l).natAbs) ∧
    Yields (.ineg f) Ctx.tw (fun c r l => c.fit (-c.ia r l)) ∧
    Yields (.iaddi f) Ctx.tw (fun c r l => c.fit (c.ia r l + sext 16 (imm16Of c.f).toNat))

/-- An exact integer fitted to a type of n bits: without SAT it is the one in range that is equal to it modulo 2^n; with SAT, the nearest in range
(03 R80). -/
def Obligations.FittingWrapsOrSaturates : Prop :=
  ∀ (e : Elt) (x : Int), e ∈ [Elt.i32, .n32, .i64, .n64] →
    (readI e (intResult e false x) % (2 ^ e.bits : Nat) = x % (2 ^ e.bits : Nat)) ∧
    intMin e ≤ readI e (intResult e false x) ∧ readI e (intResult e false x) ≤ intMax e ∧
    readI e (intResult e true x) = max (intMin e) (min x (intMax e))

/-- IDIV and IREM complete with the truncated quotient and the remainder: 0 as divisor gives all ones and A; the most negative number by -1 gives
A, or the largest number with SAT, and 0. With .TRAP a zero divisor in an active lane raises ARITH for the lowest such lane (R207). -/
def Obligations.DivisionCompletesOrTraps : Prop :=
  Forms .idiv 0x05 intTys (fun f => fnOf f = 0 ∧ rmOf f = 0) ∧
  Forms .irem 0x06 intTys (fun f => fnOf f = 0 ∧ rmOf f = 0 ∧ satOf f = false) ∧
  ∀ f : Fields,
    (let noTrap := fun (c : Ctx) (r : Run) => auxOf c.f = true → ∀ l ∈ c.lanes, c.pb r l ≠ 0
     YieldsIf (.idiv f) noTrap Ctx.tw (fun c r l =>
        if c.ib r l = 0 then 2 ^ c.elt.bits - 1
        else if c.ia r l = intMin c.elt ∧ c.ib r l = -1 then (if satOf c.f then lowBits c.elt.bits (intMax c.elt) else c.pa r l)
        else lowBits c.elt.bits (Int.tdiv (c.ia r l) (c.ib r l))) ∧
      YieldsIf (.irem f) noTrap Ctx.tw (fun c r l =>
        if c.ib r l = 0 then c.pa r l
        else if c.ia r l = intMin c.elt ∧ c.ib r l = -1 then 0
        else lowBits c.elt.bits (Int.tmod (c.ia r l) (c.ib r l)))) ∧
    (let zero := fun (c : Ctx) (r : Run) => if auxOf c.f then (c.lanes.find? fun l => c.pb r l == 0).map fun l => c.trap .arith 0 l 0 else none
     Traps (.idiv f) zero ∧ Traps (.irem f) zero)

/-- IADDX completes with the sum or difference with the carry in, and with the carry or borrow out in C's predicate (R208); IDOT4 with C and the
four byte products (R209). -/
def Obligations.CarriesAndByteProductsComplete : Prop :=
  Forms .iaddx 0x0B intTys (fun f => fnOf f < 2 ∧ rmOf f = 0 ∧ satOf f = false) ∧
  Forms .idot4 0x1F [.i32, .n32] (fun f => fnOf f < 4 ∧ rmOf f = 0) ∧
  (∀ f s c r, Ready (.iaddx f) s c r → plainDest c = true →
    let r0 := advance c r
    let cin := fun (l : Nat) => if fnOf c.f % 2 = 1 ∨ regIndex c.f.c 8 = 7 then 0 else bit (c.predAt c.f.c l)
    let out := fun (l : Nat) => addCarry c.elt.bits (auxOf c.f) (c.pa r0 l) (c.pb r0 l) (cin l)
    ∃ r', writeRes r0 c c.tw (fun l => (out l).1) = .ok r' ∧ exec (.iaddx f) s = .next (completed s c (writePred r' c c.f.c fun l => (out l).2))) ∧
  (∀ (n a b k : Nat), a < 2 ^ n → b < 2 ^ n → k ≤ 1 →
    (addCarry n false a b k).1 < 2 ^ n ∧ (addCarry n false a b k).1 + bit (addCarry n false a b k).2 * 2 ^ n = a + b + k ∧
    (addCarry n true a b k).1 < 2 ^ n ∧ (addCarry n true a b k).1 + b + k = a + bit (addCarry n true a b k).2 * 2 ^ n) ∧
  (∀ f, Yields (.idot4 f) Ctx.tw (fun c r l =>
    let x := fun (i : Nat) => byteOf (fnOf c.f % 2 == 1) (c.aAs r .n32 l) i * byteOf (fnOf c.f / 2 % 2 == 1) (c.bAs r .n32 l) i
    c.fit (c.ic r l + (x 0 + x 1 + x 2 + x 3)))) ∧
  ∀ v i : Nat, byteOf false v i = (v / 2 ^ (8 * i) % 256 : Nat) ∧ byteOf true v i = sext 8 (v / 2 ^ (8 * i) % 256)

/-- The logic, shift and bit instructions complete with the results of R210: in each bit the function of the bits of the sources; a count of the width
or more shifts every bit out; a rotation's count is taken modulo the width. -/
def Obligations.LogicAndShiftsComplete : Prop :=
  (∀ e ∈ [(0x0C, Instr.land), (0x0D, .lor), (0x0E, .lxor), (0x0F, .lop3), (0x10, .shl), (0x11, .shrl), (0x12, .shra), (0x13, .rotl), (0x14, .fshl),
    (0x17, .popc), (0x18, .clz), (0x19, .brev)], Forms e.2 e.1 intTys (bareX false)) ∧
  (∀ f : Fields,
    Yields (.land f) Ctx.tw (fun c r l => c.pa r l &&& c.pb r l) ∧
    Yields (.lor f) Ctx.tw (fun c r l => c.pa r l ||| c.pb r l) ∧
    Yields (.lxor f) Ctx.tw (fun c r l => c.pa r l ^^^ c.pb r l) ∧
    Yields (.lop3 f) Ctx.tw (fun c r l => lop3 c.elt.bits (w2bits c.f 7 0) (c.pa r l) (c.pb r l) (c.pc' r l)) ∧
    Yields (.shl f) Ctx.tw (fun c r l => if c.elt.bits ≤ c.bAs r .n32 l then 0 else c.pa r l * 2 ^ c.bAs r .n32 l % 2 ^ c.elt.bits) ∧
    Yields (.shrl f) Ctx.tw (fun c r l => if c.elt.bits ≤ c.bAs r .n32 l then 0 else c.pa r l / 2 ^ c.bAs r .n32 l) ∧
    Yields (.shra f) Ctx.tw (fun c r l =>
      lowBits c.elt.bits (sext c.elt.bits (c.pa r l) / (2 ^ min (c.bAs r .n32 l) c.elt.bits : Nat))) ∧
    Yields (.rotl f) Ctx.tw (fun c r l => rotateLeft c.elt.bits (c.pa r l) (c.bAs r .n32 l)) ∧
    Yields (.fshl f) Ctx.tw (fun c r l =>
      (c.pa r l * 2 ^ c.elt.bits + c.pb r l) * 2 ^ (c.cAs r .n32 l % c.elt.bits) / 2 ^ c.elt.bits % 2 ^ c.elt.bits) ∧
    Yields (.popc f) Ctx.tw (fun c r l => ((List.range c.elt.bits).filter (c.pa r l).testBit).length) ∧
    Yields (.clz f) Ctx.tw (fun c r l => leadingZeros c.elt.bits (c.pa r l)) ∧
    Yields (.brev f) Ctx.tw (fun c r l => bitReverse c.elt.bits (c.pa r l))) ∧
  ∀ n lut a b k i : Nat,
    ((lop3 n lut a b k).testBit i = (decide (i < n) && lut.testBit (4 * bit (a.testBit i) + 2 * bit (b.testBit i) + bit (k.testBit i)))) ∧
    (a < 2 ^ n → i < n → (rotateLeft n a k).testBit i = a.testBit ((i + (n - k % n)) % n)) ∧
    (a < 2 ^ n → leadingZeros n a = ((List.range n).takeWhile fun j => !a.testBit (n - 1 - j)).length) ∧
    (i < n → (bitReverse n a).testBit i = a.testBit (n - 1 - i))

/-- BFX extracts a field of the clipped length, extended by T's sign; BFI puts the low bits of A in the place of B's field (R211). -/
def Obligations.BitFieldsComplete : Prop :=
  (∀ e ∈ [(0x15, Instr.bfx), (0x16, .bfi)], Forms e.2 e.1 intTys (bareX false)) ∧
  (∀ f : Fields,
    Yields (.bfx f) Ctx.tw (fun c r l =>
      let len := fieldLen c.elt.bits (c.bAs r .n32 l)
      let field := c.pa r l / 2 ^ (c.bAs r .n32 l % 256) % 2 ^ len
      if len = 0 then 0 else if tySigned c.f.t then lowBits c.elt.bits (sext len field) else field) ∧
    Yields (.bfi f) Ctx.tw (fun c r l => bitInsert c.elt.bits (c.pa r l) (c.pb r l) (c.cAs r .n32 l))) ∧
  ∀ n a b ctl i : Nat,
    fieldLen n ctl = (if n ≤ ctl % 256 then 0 else min (ctl / 256 % 256) (n - ctl % 256)) ∧
    (i < n → b < 2 ^ n → (bitInsert n a b ctl).testBit i =
      if ctl % 256 ≤ i ∧ i < ctl % 256 + fieldLen n ctl then a.testBit (i - ctl % 256) else b.testBit i)

/-- ICMP, SEL, MOV and MOVI complete: a comparison combined with pC, one of two sources, a copy, an immediate (R212 to R214, 06 R171). -/
def Obligations.ComparisonsAndMovesComplete : Prop :=
  Forms .icmp 0x1A intTys (fun f => fnOf f < 6 ∧ rmOf f = 0 ∧ satOf f = false) ∧ Forms .sel 0x1B allTys (bareX false) ∧
  ∀ f : Fields,
    YieldsPred (.icmp f) (fun c r l =>
      let holds := intCond (fnOf c.f) (c.ia r l) (c.ib r l)
      if auxOf c.f then holds || c.predAt c.f.c l else holds && c.predAt c.f.c l) ∧
    (∀ a b, intCond 0 a b = decide (a = b) ∧ intCond 1 a b = decide (a ≠ b) ∧ intCond 2 a b = decide (a < b) ∧ intCond 3 a b = decide (a ≤ b) ∧
      intCond 4 a b = decide (a > b) ∧ intCond 5 a b = decide (a ≥ b)) ∧
    Yields (.sel f) Ctx.tw (fun c r l => if c.predAt c.f.c l then c.pa r l else c.pb r l) ∧
    Yields (.mov f) Ctx.tw (fun c r l => c.pa r l) ∧
    Yields (.movi f) Ctx.tw (fun c _ _ => moviValue c.f)

/-! ## Floating point (07 R215 to R224) and conversions (07 R226 to R238) -/

/-- The arithmetic of R215 completes with the values and flags of `fadd`, `fsub`, `fmul` and `ffma`, which on finite numbers are the exact sum or product
rounded once under RM (R215, 03 R92); at a place `k` bits above the lowest, a magnitude is rounded to the nearest, an even one between two, to zero,
up or down (03 R91). FDIV, FSQRT, FSCALE, FROUND, FDOT2 and the functions of R220 and R221 complete with those of the model's functions of their names.
How these are evaluated, and what FDOT2 adds up, are the model's readings (logs 17 and 18). -/
def Obligations.FloatArithmeticCompletes : Prop :=
  (∀ (e : Elt) (rm a b c ma mb mc : Nat) (na nb nc : Bool) (ea eb ec : Int),
    readF e a = .fin na ma ea → readF e b = .fin nb mb eb → readF e c = .fin nc mc ec →
    let x := FVal.fin na ma ea
    let y := FVal.fin nb mb eb
    let z := FVal.fin nc mc ec
    let p := FVal.fin (na != nb) (ma * mb) (ea + eb)
    let sum := fun (u v : FVal) => roundDy e rm false (u.isZero && u.neg && v.isZero && v.neg) (Dy.add u.dy v.dy)
    fadd e rm a b = sum x y ∧ fsub e rm a b = sum x y.flip ∧ fmul e rm a b = roundVal e rm false p ∧ ffma e rm a b c = sum p z) ∧
  (∀ x y : Dy, (Dy.add x y).e = min x.e y.e ∧
    (Dy.add x y).m = x.m * 2 ^ (x.e - min x.e y.e).toNat + y.m * 2 ^ (y.e - min x.e y.e).toNat) ∧
  (∀ (neg : Bool) (m k : Nat) (e : Int),
    let n := m / 2 ^ k
    let rest := m % 2 ^ k
    (∀ rm, (roundAt rm neg m e (e + k)).2 = decide (rest = 0)) ∧
    (roundAt 0 neg m e (e + k)).1 = (if 2 * rest < 2 ^ k ∨ (2 * rest = 2 ^ k ∧ n % 2 = 0) then n else n + 1) ∧
    (roundAt 1 neg m e (e + k)).1 = n ∧
    (roundAt 2 neg m e (e + k)).1 = (if rest = 0 ∨ neg = true then n else n + 1) ∧
    (roundAt 3 neg m e (e + k)).1 = (if rest = 0 ∨ neg = false then n else n + 1)) ∧
  ∀ f : Fields,
    YieldsFlags (.fadd f) Ctx.tw (fun c r l => fadd c.elt (rmOf c.f) (c.pa r l) (c.pb r l)) ∧
    YieldsFlags (.fsub f) Ctx.tw (fun c r l => fsub c.elt (rmOf c.f) (c.pa r l) (c.pb r l)) ∧
    YieldsFlags (.fmul f) Ctx.tw (fun c r l => fmul c.elt (rmOf c.f) (c.pa r l) (c.pb r l)) ∧
    YieldsFlags (.ffma f) Ctx.tw (fun c r l => ffma c.elt (rmOf c.f) (c.pa r l) (c.pb r l) (c.pc' r l)) ∧
    YieldsFlags (.faddi f) Ctx.tw (fun c r l => fadd c.elt (rmOf c.f) (c.pa r l) (immOf c.f)) ∧
    YieldsFlags (.fmuli f) Ctx.tw (fun c r l => fmul c.elt (rmOf c.f) (c.pa r l) (immOf c.f)) ∧
    YieldsFlags (.ffmai f) Ctx.tw (fun c r l => ffma c.elt (rmOf c.f) (c.pa r l) (c.pb r l) (immOf c.f)) ∧
    YieldsFlags (.fdiv f) Ctx.tw (fun c r l => fdiv c.elt (rmOf c.f) (c.pa r l) (c.pb r l)) ∧
    YieldsFlags (.fsqrt f) Ctx.tw (fun c r l => fsqrt c.elt (rmOf c.f) (c.pa r l)) ∧
    YieldsFlags (.fscale f) Ctx.tw (fun c r l => fscale c.elt (rmOf c.f) (c.pa r l) (sext 32 (c.bAs r .i32 l))) ∧
    YieldsFlags (.fround f) Ctx.tw (fun c r l => fround c.elt (rmOf c.f) (auxOf c.f) (c.pa r l)) ∧
    YieldsFlags (.fdot2 f) (fun _ => .n32) (fun c r l => fdot2 c.elt (rmOf c.f) (c.aAs r .n32 l) (c.bAs r .n32 l) (c.cAs r .f32 l)) ∧
    YieldsFlags (.frcp f) Ctx.tw (fun c r l => frcp c.elt (c.pa r l)) ∧
    YieldsFlags (.frsq f) Ctx.tw (fun c r l => frsq c.elt (c.pa r l)) ∧
    YieldsFlags (.fexp2 f) Ctx.tw (fun c r l => fexp2 c.elt (c.pa r l)) ∧
    YieldsFlags (.flog2 f) Ctx.tw (fun c r l => flog2 c.elt (c.pa r l)) ∧
    YieldsFlags (.fsin f) Ctx.tw (fun c r l => fsin c.elt (c.pa r l)) ∧
    YieldsFlags (.fcos f) Ctx.tw (fun c r l => fcos c.elt (c.pa r l))

/-- FMIN, FMAX, FABS, FCMP and FCLASS complete (R216 to R219). -/
def Obligations.FloatSelectionCompletes : Prop :=
  ∀ f : Fields,
    YieldsFlags (.fmin f) Ctx.tw (fun c r l => fminmax c.elt false (c.pa r l) (c.pb r l)) ∧
    YieldsFlags (.fmax f) Ctx.tw (fun c r l => fminmax c.elt true (c.pa r l) (c.pb r l)) ∧
    YieldsFlags (.fabs f) Ctx.tw (fun c r l => signOp c.elt (fnOf c.f) (c.pa r l) (if fnOf c.f = 3 then c.pb r l else 0)) ∧
    YieldsFlags (.fclass f) (fun _ => .n32) (fun c r l => fclass c.elt (c.pa r l)) ∧
    Acts (.fcmp f) (fun _ _ => True) (fun c r =>
      writePred (raiseFlags r c fun l => (floatCond c.elt (fnOf c.f) (c.pa r l) (c.pb r l)).2) c c.f.d fun l =>
        let holds := (floatCond c.elt (fnOf c.f) (c.pa r l) (c.pb r l)).1
        if auxOf c.f then holds || c.predAt c.f.c l else holds && c.predAt c.f.c l)

/-- The conversions between integers and floats complete (R226 to R229). -/
def Obligations.ConversionsComplete : Prop :=
  ∀ f : Fields,
    YieldsFlags (.cvtif f) (fun c => eltRes (fmtElt (fnOf c.f % 8))) (fun c r l =>
      intToFloat c.elt (fmtElt (fnOf c.f % 8)) (rmOf c.f) (satOf c.f) (c.pa r l)) ∧
    YieldsFlags (.cvtfi f) Ctx.tw (fun c r l =>
      let src := fmtElt (fnOf c.f % 8)
      let dst := narrowed c.f.t (fnOf c.f / 8 % 4)
      let x := floatToInt src dst (rmOf c.f) (c.aAs r src l)
      (lowBits c.elt.bits (readI dst x.1), x.2)) ∧
    YieldsFlags (.cvtff f) (fun c => eltRes (fmtElt (fnOf c.f / 8))) cvtffLane ∧
    Yields (.cvtii f) Ctx.tw (fun c r l => c.fit (readI (intElt (fnOf c.f)) (c.aAs r (intElt (fnOf c.f)) l)))

/-- The packed formats complete: FP8, L6, scale codes, format words and halves (R230 to R237), and FFLAG reads, clears or sets the flags of
the active lanes (R238). Of UNPK8 two points are the model's readings (logs 150 and 151). -/
def Obligations.PackedFormatsAndFlagsComplete : Prop :=
  ∀ f : Fields,
    YieldsFlags (.pk8 f) (fun _ => .n32) pk8Lane ∧ YieldsFlags (.unpk8 f) Ctx.tw unpk8Lane ∧
    YieldsFlags (.pkl6 f) (fun _ => .n32) pkl6Lane ∧
    YieldsFlags (.unpkl6 f) Ctx.tw (fun c r l => convF .l6 c.elt (rmOf c.f) false (selByte c r l)) ∧
    YieldsFlags (.l6mul f) (fun _ => .n32) l6mulLane ∧ YieldsFlags (.l6lin f) Ctx.tw l6linLane ∧
    YieldsFlags (.sclx f) (fun _ => .n32) (fun c r l => sclx c.elt (fnOf c.f) (c.pa r l)) ∧
    Yields (.fmtw f) (fun _ => .n32) fmtwLane ∧
    YieldsFlags (.pkh f) (fun _ => .n32) pkhLane ∧
    YieldsFlags (.unpkh f) (fun _ => .n32) (fun c r l =>
      convF c.elt .f32 0 false (if auxOf c.f then c.aAs r .n32 l / 2 ^ 16 else c.aAs r .n32 l % 2 ^ 16)) ∧
    ∀ s c r, Ready (.fflag f) s c r → plainDest c = true →
      let old := fun (l : Nat) => Sparse.get (0 : BitVec 5) c.grp.fflags l
      let m := fun (l : Nat) => BitVec.ofNat 5 (c.aAs (advance c r) .n32 l)
      let r1 := if fnOf c.f = 0 then advance c r
        else putFlags (advance c r) c fun l => if fnOf c.f = 1 then old l &&& ~~~(m l) else old l ||| m l
      ∃ r', writeRes r1 c .n32 (fun l => (old l).toNat) = .ok r' ∧ exec (.fflag f) s = .next (completed s c r')

/-- The frame of the instructions that compute in registers: with no queue register among the operands and no wait on a semaphore, memory, every other
group and team, the launches, the engines' work, the masks and the system state of the group, and every register that is no destination are as
before. Those that raise flags, and FFLAG, change flags of active lanes alone; IADDX changes one predicate beside its destination. ICMP and FCMP
change one predicate, FCMP flags too, and no register. -/
def Obligations.LaneInstructionsChangeTheirDestinationAlone : Prop :=
  ∀ (i : Instr) (f : Fields) (s t : State) (c : Ctx) (r : Run),
    Ready i s c r → c.usesQueue = false → queueWrite c.sh c.f = none → noSemWait c → exec i s = .next t →
    let preds := fun (g : Grp) => g.p = c.grp.p ∧ g.sp = c.grp.sp
    let others := fun (g : Grp) => ∀ l, l ∉ c.lanes → Sparse.get (0 : BitVec 5) g.fflags l = Sparse.get (0 : BitVec 5) c.grp.fflags l
    let word := ResW.n32
    (i ∈ [Instr.iadd f, .isub f, .imul f, .imulh f, .imad f, .imin f, .imax f, .iabs f, .ineg f, .iaddi f, .idot4 f, .land f, .lor f, .lxor f,
      .lop3 f, .shl f, .shrl f, .shra f, .rotl f, .fshl f, .bfx f, .bfi f, .popc f, .clz f, .brev f, .sel f, .mov f, .movi f, .cvtii f] ∨
      (i ∈ [Instr.idiv f, .irem f] ∧ (auxOf c.f = true → ∀ l ∈ c.lanes, c.pb (advance c r) l ≠ 0)) →
      restKept c s t ∧ ∃ g', t.run.grp c.gid = some g' ∧ onlyDest c c.tw c.grp g' ∧ preds g' ∧ g'.fflags = c.grp.fflags) ∧
    (i = .iaddx f → restKept c s t ∧ ∃ g', t.run.grp c.gid = some g' ∧ onlyDest c c.tw c.grp g' ∧
      (∀ k, k ≠ regIndex c.f.c 8 → predMask g' k = predMask c.grp k) ∧ g'.fflags = c.grp.fflags) ∧
    (i = .fmtw f → restKept c s t ∧ ∃ g', t.run.grp c.gid = some g' ∧ onlyDest c word c.grp g' ∧ preds g' ∧ g'.fflags = c.grp.fflags) ∧
    (∀ w, (i, w) ∈ [(Instr.fadd f, c.tw), (.fsub f, c.tw), (.fmul f, c.tw), (.ffma f, c.tw), (.faddi f, c.tw), (.fmuli f, c.tw), (.ffmai f, c.tw),
      (.fdiv f, c.tw), (.fsqrt f, c.tw), (.fscale f, c.tw), (.fround f, c.tw), (.frcp f, c.tw), (.frsq f, c.tw), (.fexp2 f, c.tw), (.flog2 f, c.tw),
      (.fsin f, c.tw), (.fcos f, c.tw), (.fmin f, c.tw), (.fmax f, c.tw), (.fabs f, c.tw), (.fdot2 f, word), (.fclass f, word),
      (.cvtif f, eltRes (fmtElt (fnOf c.f % 8))), (.cvtfi f, c.tw), (.cvtff f, eltRes (fmtElt (fnOf c.f / 8))), (.pk8 f, word), (.unpk8 f, c.tw),
      (.pkl6 f, word), (.unpkl6 f, c.tw), (.l6mul f, word), (.l6lin f, c.tw), (.sclx f, word), (.pkh f, word), (.unpkh f, word), (.fflag f, word)] →
      restKept c s t ∧ ∃ g', t.run.grp c.gid = some g' ∧ onlyDest c w c.grp g' ∧ preds g' ∧ others g') ∧
    (i ∈ [Instr.icmp f, .fcmp f] →
      restKept c s t ∧ ∃ g', t.run.grp c.gid = some g' ∧ systemKept c.grp g' ∧ g'.v = c.grp.v ∧ g'.g = c.grp.g ∧ g'.sg = c.grp.sg ∧
        (∀ k, k ≠ regIndex c.f.d 8 → predMask g' k = predMask c.grp k) ∧ others g' ∧ (i = .icmp f → g'.fflags = c.grp.fflags))

/-! ## Memory and scratch (08) -/

/-- A write of bytes: each is read back where it was put, and every other byte of memory is as before. -/
def Obligations.MemoryReadsWhatWasWritten : Prop :=
  ∀ (m : Memory) (a : Nat) (bs : List Byte),
    (∀ i, i < bs.length → memByte (memWrite m a bs) (a + i) = nthD 0 bs i) ∧
    ∀ b, b < a ∨ a + bs.length ≤ b → memByte (memWrite m a bs) b = memByte m b

/-- LD and LDG complete where every access is at an accepted address and translates (R243, R244), and no block of it fails: each active lane gets its bytes extended
to T (R248), for LDG those at the address of the lowest active lane; with no active lane LDG writes nothing (R250). What a lane finds of stores that
are not performed yet is the model's choice (log 3). -/
def Obligations.LoadsComplete : Prop :=
  ∀ (f : Fields) (s : State) (c : Ctx) (r r1 : Run) (as : List (Nat × List Piece64)),
    plainDest c = true →
    (Ready (.ld f) s c r → globalAccess (advance c r) c c.lanes 0 c.size (kindAligned c.f) (gAddr (advance c r) c) = .ok (as, r1) →
      goodPieces r1 c.part as →
      ∃ vals r2 r', readLanes r1 c as = .ok (vals, r2) ∧
        writeRes (replicateAll r2 c as) c (loadRes c.f) (fun l => extendTo c.f (Sparse.get 0 vals l)) = .ok r' ∧
        exec (.ld f) s = .next (completed s c r')) ∧
    (Ready (.ldg f) s c r → c.active = 0 → exec (.ldg f) s = .next (completed s c (advance c r))) ∧
    (Ready (.ldg f) s c r → c.active ≠ 0 →
      globalAccess (advance c r) c (c.lanes.take 1) 0 c.size (kindAligned c.f) (gAddr (advance c r) c) = .ok (as, r1) →
      goodPieces r1 c.part as →
      ∃ vals r2 r', readLanes r1 c as = .ok (vals, r2) ∧
        writeRes (replicateAll r2 c as) c (loadRes c.f) (fun _ => extendTo c.f (Sparse.get 0 vals (c.lowest.getD 0))) = .ok r' ∧
        exec (.ldg f) s = .next (completed s c r'))

/-- ST completes outside a protected launch: each active lane stores the low bytes of C at its address, in pieces that are performed later, and of two
lanes' bytes at one address the higher lane's (R247, R249). That the pieces are performed in later steps is the model's choice (log 3). -/
def Obligations.StoresComplete : Prop :=
  ∀ (f : Fields) (s : State) (c : Ctx) (r r1 : Run) (as : List (Nat × List Piece64)),
    Ready (.st f) s c r → globalAccess (advance c r) c c.lanes 1 c.size (kindAligned c.f) (gAddr (advance c r) c) = .ok (as, r1) → c.unpaired →
    exec (.st f) s = .next (completed s c (storeLate r1 (as.map fun x => laneLate c x.1 x.2 (storeVal r1 c x.1))))

/-- The frame of ST, and of the pieces of its stores. With no queue register and no wait on a semaphore ST itself changes no byte of memory and no
register, predicate or flag of its group, and no other group: it leaves its lanes' stores, in pieces, to be performed. A piece that is performed
changes no byte outside its own physical range, and where no block of that range has failed or is tagged, the range then holds its bytes;
no group and no team changes.
That a store and its performance are two steps is the model's choice (log 3). -/
def Obligations.StoresChangeTheirBytesAlone : Prop :=
  (∀ (f : Fields) (s t : State) (c : Ctx) (r r1 : Run) (as : List (Nat × List Piece64)),
    Ready (.st f) s c r → c.usesQueue = false → noSemWait c → c.unpaired →
    globalAccess (advance c r) c c.lanes 1 c.size (kindAligned c.f) (gAddr (advance c r) c) = .ok (as, r1) → exec (.st f) s = .next t →
    (∀ a, memByte t.run.mem a = memByte s.run.mem a) ∧
    t.run.late = s.run.late ++ settledLate (as.map fun x => laneLate c x.1 x.2 (storeVal r1 c x.1)) ∧
    (∀ x ∈ as, ∀ q ∈ (laneLate c x.1 x.2 (storeVal r1 c x.1)).pieces, ∃ p ∈ x.2, q.leaf = p.leaf ∧ p.va.toNat ≤ q.va.toNat ∧
      q.va.toNat + q.bytes.length ≤ p.va.toNat + p.len) ∧
    (∀ g, g ≠ c.gid → t.run.grp g = s.run.grp g) ∧ t.mgmt = s.mgmt ∧
    ∃ g', t.run.grp c.gid = some g' ∧ g'.v = c.grp.v ∧ g'.g = c.grp.g ∧ g'.sg = c.grp.sg ∧ g'.p = c.grp.p ∧ g'.fflags = c.grp.fflags ∧
      g'.lat = c.grp.lat ∧ systemKept c.grp g') ∧
  ∀ (r : Run) (i j : Nat) (b : LateStore) (p : LatePiece), r.late[i]? = some b → b.pieces[j]? = some p →
    let t := lateAct i j r
    (∀ a, a < p.pa ∨ p.pa + p.bytes.length ≤ a → memByte t.mem a = memByte r.mem a) ∧
    ((∀ k, p.pa / 64 ≤ k → k ≤ (p.pa + p.bytes.length) / 64 → blockTag r k = none) →
      ∀ k, k < p.bytes.length → memByte t.mem (p.pa + k) = nthD 0 p.bytes k) ∧
    t.groups = r.groups ∧ t.teams = r.teams

/-- A lane whose address is not an accepted one raises MISALIGNED, the lowest such lane, before anything else of the access; scratch outside the team's
allocation then raises SCRATCH_BOUND (R243, R244, 04 R112). Loads and stores are held to it by their kind, full/empty modes and remote accesses
in strong alignment, atomics in natural alignment, outside a protected launch where they store. The record names that address (17 R434; log 136). -/
def Obligations.MisalignedAccessesTrap : Prop :=
  (∀ f : Fields,
    let bad := fun (c : Ctx) (lanes : List Nat) (ok : Nat → Bool) (ea : Nat → W64) =>
      (lanes.find? fun l => !ok (ea l).toNat).map fun l => c.trap .misaligned 0 l (ea l)
    let outside := fun (c : Ctx) (n : Nat) (ea : Nat → Nat) => (c.lanes.find? fun l => !scrIn c.t (ea l) n).map fun l => c.trap .scratchBound 0 l (w64 (ea l))
    let scratch := fun (c : Ctx) (r : Run) (n : Nat) (ok : Nat → Bool) => (bad c c.lanes ok fun l => w64 (sAddr r c l)).orElse fun _ => outside c n (sAddr r c)
    let stored := fun (i : Instr) (trap : Ctx → Run → Option TrapInfo) =>
      ∀ s c r t, c.unpaired → Ready i s c r → trap c (advance c r) = some t →
        exec i s = .next { s with run := trapAt (c.onto s.run) c.gid c.slices t [] }
    let unlessFlying := fun (c : Ctx) (t : Option TrapInfo) => if c.grp.remotes.any (ownRemote c.pc c.slices) then none else t
    Traps (.ld f) (fun c r => bad c c.lanes (kindAligned c.f) (gAddr r c)) ∧
    Traps (.ldg f) (fun c r => bad c (c.lanes.take 1) (kindAligned c.f) (gAddr r c)) ∧
    Traps (.sstat f) (fun c r => scratch c r 1 fun _ => true) ∧
    stored (.st f) (fun c r => bad c c.lanes (kindAligned c.f) (gAddr r c)) ∧
    stored (.lds f) (fun c r => scratch c r c.size (lineAligned c.f)) ∧
    stored (.sts f) (fun c r => scratch c r c.size (lineAligned c.f)) ∧
    stored (.sfill f) (fun c r => scratch c r 1 fun _ => true) ∧
    (∀ i ∈ [Instr.atom f, .acas f, .red f], stored i fun c r => bad c c.lanes (natural c.size) (gAddr r c)) ∧
    stored (.atoms f) (fun c r => scratch c r c.size (natural c.size)) ∧
    stored (.rst f) (fun c r => bad c c.lanes (strongAligned c.size) (rAddr r c)) ∧
    stored (.rld f) (fun c r => unlessFlying c (bad c c.lanes (strongAligned c.size) (rAddr r c))) ∧
    stored (.ratom f) (fun c r => unlessFlying c (bad c (ratomLanes c) (natural c.size) (rAddr r c)))) ∧
  ∀ (f : Fields) (n a : Nat), strongAligned n a = (a % (if n ≤ 2 then n else 4) == 0) ∧ natural n a = (a % n == 0) ∧
    (kindOf f = 0 → kindAligned f a = true) ∧ (kindOf f ≠ 0 → kindAligned f a = strongAligned (sizeBytes (Machine.sizeOf f)) a)

/-- LDS and STS in their plain and full/empty modes, SFILL and SSTAT complete inside the team's allocation (R251, 04 R124 to R127): a waiting mode
once every line it touches is in the state it asks for and no earlier waiter stands before it.
Reading: log 16. -/
def Obligations.ScratchAccessesComplete : Prop :=
  ∀ (f : Fields) (s : State) (c : Ctx) (r : Run),
    let r0 := advance c r
    let ea := sAddr r0 c
    let ns := touched ea c.size c.lanes
    let inBounds := scratchAccess c c.lanes c.size (lineAligned c.f) ea = .ok ()
    (c.unpaired ∨ subOf c.f ≠ 2 → Ready (.lds f) s c r → plainDest c = true → inBounds →
      (subOf c.f = 0 ∨ awaitLines r0 c ns .full (if subOf c.f = 2 then some false else none) = .ok ()) →
      ∃ r', writeRes (if subOf c.f = 2 then r0.updTeam c.grp.team fun t => setLines t ns fun _ => .empty else r0) c (loadRes c.f)
          (fun l => extendTo c.f (readScratch r0 c (ea l) c.size)) = .ok r' ∧
        exec (.lds f) s = .next (completed s c r')) ∧
    (c.unpaired → Ready (.sts f) s c r → inBounds → (subOf c.f ≠ 2 ∨ awaitLines r0 c ns .empty (some true) = .ok ()) →
      exec (.sts f) s = .next (completed s c (r0.updTeam c.grp.team fun t =>
        let t := c.lanes.foldl (fun t l => scrWrite t (ea l) (leBytes c.size (storeVal r0 c l))) t
        if subOf c.f = 0 then t else setLines t ns fillLine))) ∧
    (c.unpaired → Ready (.sfill f) s c r → scratchAccess c c.lanes 1 (fun _ => true) ea = .ok () →
      exec (.sfill f) s = .next (completed s c (r0.updTeam c.grp.team fun t =>
        setLines t (touched ea 1 c.lanes) (if subOf c.f = 1 then fillLine else emptyLine)))) ∧
    (Ready (.sstat f) s c r → plainDest c = true → scratchAccess c c.lanes 1 (fun _ => true) ea = .ok () →
      ∃ r', writeRes r0 c .n32 (fun l => match lineState (curTeam r0 c) (ea l / 128) with | .empty => 0 | .full => 1 | .filling => 2) = .ok r' ∧
        exec (.sstat f) s = .next (completed s c r'))

/-- ATOM, ACAS and RED complete where every lane's access is aligned, translates and reads good data, lane after lane in ascending order, each with
the old value as its result but for RED (R252 to R255); ATOMS on scratch (R252). A lane whose atomic diverges from a replayed log has no result (19 R497). Of the sub-operations on integers, 0 ADD and 1 SUB wrap,
2 to 4 are the logic operations, 5 and 6 the smaller and the larger, 7 exchanges, 8 counts up to the operand and begins again at 0, 9
counts down from it.
Reading: log 32. -/
def Obligations.AtomicsComplete : Prop :=
  ∀ (f : Fields) (s : State) (c : Ctx) (r r1 : Run) (old : Sparse Nat),
    let r0 := advance c r
    let result := fun (r : Run) (old : Sparse Nat) (r' : Run) =>
      writeRes r { c with active := c.active &&& maskOf (old.map (·.1)) } c.tw (fun l => Sparse.get 0 old l) = .ok r'
    c.unpaired →
    (Ready (.atom f) s c r → plainDest c = true →
      globalAtomics r0 c (fun l old => some (atomNew c.elt (aopOf c.f) old (c.cAs r0 c.elt l))) true = .ok (old, r1) →
      ∃ r', result r1 old r' ∧ exec (.atom f) s = .next (completed s c r')) ∧
    (Ready (.acas f) s c r → plainDest c = true →
      globalAtomics r0 c (fun l old => if old = readSrc r0 c c.f.d c.elt l then some (c.cAs r0 c.elt l) else none) true = .ok (old, r1) →
      ∃ r', result r1 old r' ∧ exec (.acas f) s = .next (completed s c r')) ∧
    (Ready (.red f) s c r →
      globalAtomics r0 c (fun l old => some (atomNew c.elt (aopOf c.f) old (c.cAs r0 c.elt l))) false = .ok (old, r1) →
      exec (.red f) s = .next (completed s c r1)) ∧
    (Ready (.atoms f) s c r → plainDest c = true → scratchAccess c c.lanes c.size (natural c.size) (sAddr r0 c) = .ok () →
      let x := atomAll c c.lanes (atomLane c (fun l => localWhere (w64 (sAddr r0 c l))) (fun l r => scrNat (curTeam r c) (sAddr r0 c l) c.size)
        (fun l r v => r.updTeam c.grp.team fun t => scrPut t (sAddr r0 c l) c.size v)
        (fun l old => some (atomNew c.elt (aopOf c.f) old (c.cAs r0 c.elt l))) true) r0
      ∃ r', result x.2 x.1 r' ∧ exec (.atoms f) s = .next (completed s c r')) ∧
    ∀ (e : Elt) (old x : Nat), e ∈ [Elt.i32, .n32, .i64, .n64] →
      atomNew e 0 old x = lowBits e.bits (readI e old + readI e x) ∧ atomNew e 1 old x = lowBits e.bits (readI e old - readI e x) ∧
      atomNew e 2 old x = old &&& x ∧ atomNew e 3 old x = old ||| x ∧ atomNew e 4 old x = old ^^^ x ∧
      atomNew e 5 old x = (if readI e x < readI e old then x else old) ∧ atomNew e 6 old x = (if readI e old < readI e x then x else old) ∧
      atomNew e 7 old x = x ∧ atomNew e 8 old x = (if old < x then old + 1 else 0) ∧
      atomNew e 9 old x = (if old = 0 ∨ x < old then x else old - 1)

/-- FENCE and XFENCE complete. As they begin, the stores of their group that are not performed yet are performed (log 3); outside a protected launch they
then change nothing; in one FENCE performs what the team has committed and marks the buffer, and XFENCE performs the team's committed stores of its path and marks
the buffer, or first commits where the buffer holds such stores. From REMOTE it completes once the group's RSTs are acknowledged (05 R153). PREF completes whatever its addresses are; CINV and CWB where their ranges translate: the replicas of the
lines are dropped, their dirty copies become clean (R256 to R259).
What a fence does to a protected team's stores is the model's reading (logs 3 and 45). -/
def Obligations.FencesAndCacheControlComplete : Prop :=
  ∀ f : Fields,
    Acts (.fence f) (fun c _ => c.shadowed = false ∨ c.active = 0) (fun _ r => r) ∧
    Acts (.fence f) (fun c _ => c.shadowed = true ∧ c.active ≠ 0) (fun c r => fenceMarks c (performCommitted r c.grp.team)) ∧
    (let path := fun (c : Ctx) => xbits c.f 11 9
     let mine := fun (c : Ctx) (b : BufStore) => b.onPath (path c) = true
     let acked := fun (c : Ctx) (r : Run) => path c = 4 → sendBuffered c r (fun _ => true) = .ok () ∧ ∀ x ∈ c.grp.rsts, x.done = true
     Acts (.xfence f) (fun c _ => c.active = 0) (fun _ r => r) ∧
     Acts (.xfence f) (fun c r => c.shadowed = false ∧ acked c r) (fun _ r => r) ∧
     Acts (.xfence f) (fun c r => c.shadowed = true ∧ c.active ≠ 0 ∧ acked c r ∧ ∀ b ∈ (curTeam r c).sbuf, ¬ mine c b)
       (fun c r => fenceMarks c (if (curTeam r c).committed.any (fun b => b.onPath (path c)) then performCommitted r c.grp.team else r)) ∧
     ∀ s c r, Ready (.xfence f) s c r → c.shadowed = true → c.active ≠ 0 → acked c (advance c r) → (∃ b ∈ (curTeam (advance c r) c).sbuf, mine c b) →
       exec (.xfence f) s = .next { s with run := (commitNow (c.onto s.run) c.grp.team).1 }) ∧
    Acts (.pref f) (fun _ _ => True) (fun c r => c.lanes.foldl (fun r' l => prefLane c r' (gAddr r c l)) r) ∧
    (∀ s c r r1 as, Ready (.cinv f) s c r → rangeAccess (advance c r) c 0 = .ok (as, r1) →
      exec (.cinv f) s = .next (completed s c { r1 with dies := r1.dies.map fun d =>
        { d with replicas := d.replicas.filter fun e => !(as.flatMap (·.2)).any fun p => p.covers e.line } })) ∧
    ∀ s c r r1 as, Ready (.cwb f) s c r → rangeAccess (advance c r) c 1 = .ok (as, r1) →
      (let hit := fun (e : Nat × L2Line) => e.2.dirty && (as.flatMap (·.2)).any fun p => p.covers e.1
       let dirty := (r1.dies.map fun d => (d.held.filter hit).length).foldl (· + ·) 0 + (pinnedLines r1 (as.flatMap (·.2))).length
       let clean := fun (d : Die) => { d with held := d.held.map fun e => if hit e then (e.1, { e.2 with dirty := false }) else e }
       exec (.cwb f) s = .next (completed s c { r1.count c.part 2 3 (128 * dirty) with dies := r1.dies.map clean }))

/-! ## Remote instructions (08 R260 to R265) -/

/-- RST completes once its requests have left. The requests of RLD and RATOM leave and the instruction waits; once every reply has come, each with
STATUS 0, it completes with what the replies brought; with no lane to serve it completes at once (R262, R263). RFENCE completes once
nothing it covers is outstanding or has failed (R265).
Readings: logs 45, 47 and 48. -/
def Obligations.RemoteInstructionsComplete : Prop :=
  ∀ (f : Fields) (s : State) (c : Ctx) (r r1 : Run),
    let r0 := advance c r
    let waits := fun (r : Run) => beginWait r c.gid c.slices remoteWait (fun _ r => r) (c.sh.switch || c.usesQueue)
    c.unpaired →
    (Ready (.rst f) s c r → remoteCheck r0 c c.lanes 1 (strongAligned c.size) = .ok r1 →
      (let ls := laneReqs r1 c c.lanes fun l => slotBytes (rAddr r1 c l).toNat (rstData r1 c l)
       tagRoom r1 ls = true → exec (.rst f) s = .next (completed s c (sendStores r1 c.part c.gid c.pc (c.slices.head?.getD 0) ls)))) ∧
    (c.grp.remotes.any (ownRemote c.pc c.slices) = false →
      (Ready (.rld f) s c r → remoteCheck r0 c c.lanes 0 (strongAligned c.size) = .ok r1 →
        (let ls := laneReqs r1 c c.lanes fun _ => []
         (c.lanes ≠ [] → tagRoom r1 ls = true → exec (.rld f) s = .next { s with run := waits (launchRemote r c 1 0 false ls) }) ∧
         (c.lanes = [] → plainDest c = true →
           ∃ r', writeRes r1 c (loadRes c.f) (fun _ => 0) = .ok r' ∧ exec (.rld f) s = .next (completed s c r')))) ∧
      (Ready (.ratom f) s c r → remoteCheck r0 c (ratomLanes c) 2 (natural c.size) = .ok r1 →
        (let operand := fun (l : Nat) =>
           (if aopOf c.f = 10 then leBytes c.size (readSrc r1 c c.f.d c.elt l) else []) ++ leBytes c.size (c.cAs r1 c.elt l)
         let ls := laneReqs r1 c (ratomLanes c) fun l => slotBytes 0 (operand l)
         (ratomLanes c ≠ [] → (∀ a b, c.l.mode ≠ .replay a b) → tagRoom r1 ls = true →
           exec (.ratom f) s = .next { s with run := waits (launchRemote (regionStart r c.gid c.slices) c 3 (aopOf c.f) true ls) }) ∧
         (∀ a b, c.l.mode = .replay a b → ratomLanes c ≠ [] → plainDest c = true →
           let x := ratomReplay r1 c (ratomLanes c)
           ∃ r', ratomResult x.2 c (x.1.map (·.1)) x.1 = .ok r' ∧
             exec (.ratom f) s = .next (completed s c r')) ∧
         (ratomLanes c = [] → plainDest c = true →
           ∃ r', ratomResult r1 c [] [] = .ok r' ∧ exec (.ratom f) s = .next (completed s c r'))))) ∧
    (∀ vals, Landed (.rld f) s c → plainDest c = true → queueWrite c.sh c.f = none → remoteValues c = .ok vals →
      ∃ r', writeRes (dropOwn (advance c (c.onto s.run)) c) c (loadRes c.f) (fun l => extendTo c.f (Sparse.get 0 vals l)) = .ok r' ∧
        exec (.rld f) s = .next (completed s c r')) ∧
    (∀ vals, Landed (.ratom f) s c → plainDest c = true → queueWrite c.sh c.f = none → remoteValues c = .ok vals →
      ∃ r', ratomResult (advance c (c.onto s.run)) c ((ownRemotes c).flatMap fun x => x.lanes.map (·.lane)) vals = .ok r' ∧
        exec (.ratom f) s = .next (completed s c r')) ∧
    (Ready (.rfence f) s c r →
      awaitStores c true (fun d => if subOf c.f = 0 then !c.lanes.isEmpty else (c.lanes.map fun l => peerDev (peerOf r0 c l)).contains d) = .ok () →
      exec (.rfence f) s = .next (completed s c r0))

/-! ## Control flow (01 R24 to R38, 09 R268 to R272, R277 to R283) -/

/-- BRA, CALL, BRX and RET complete wherever every issuing slice has the free stack entries it needs; BRX and RET where every active lane's offset
is a multiple of 8 inside the code section (R26, R268 to R271). The slices move as the branch says; CALL writes its link, the code offset of pc
+ 16, in the active lanes, and with no active lane writes nothing and goes on behind itself. Offsets that are not accepted, then a stack without
room, trap and no slice moves.
Readings: logs 136 and 138. -/
def Obligations.BranchesComplete : Prop :=
  ∀ f : Fields,
    let ofs := fun (c : Ctx) (r : Run) (l : Nat) => c.aAs r .n32 l
    let size := fun (c : Ctx) (r : Run) => codeSize r c.grp c.grp.super
    let inCode := fun (c : Ctx) (r : Run) => ∀ l ∈ c.lanes, ofs c r l % 8 = 0 ∧ ofs c r l < size c r
    Acts (.bra f) (fun c _ => (voteBranch c).fits c = true) (fun c r => (voteBranch c).moves c r) ∧
    Acts (.brx f) (fun c r => inCode c r ∧ (laneBranch c r true).fits c = true) (fun c r => (laneBranch c r true).moves c r) ∧
    Acts (.ret f) (fun c r => inCode c r ∧ (laneBranch c r false).fits c = true) (fun c r => (laneBranch c r false).moves c r) ∧
    Acts (.call f) (fun c _ => c.active = 0) (fun _ r => r) ∧
    (∀ s c r, Ready (.call f) s c r → plainDest c = true → c.active ≠ 0 → (voteBranch c).fits c = true →
      ∃ r', writeRes ((voteBranch c).moves c (advance c r)) c .n32
          (fun _ => (c.nextPc - w64 (codeBase (advance c r) c.grp c.grp.super)).toNat % 2 ^ 32) = .ok r' ∧
        exec (.call f) s = .next (completed s c r')) ∧
    (let full := fun (b : Branch) (c : Ctx) => if b.fits c then none else some (c.trap .illegalOperand 0 (c.lowest.getD 0) 0)
     let bad := fun (join : Bool) (c : Ctx) (r : Run) =>
       match c.lanes.find? fun l => ofs c r l % 8 != 0 with
       | some l => some (c.trap .misaligned 0 l 0)
       | none =>
         match c.lanes.find? fun l => decide (size c r ≤ ofs c r l) with
         | some l => some (c.trap .illegalOperand 0 l 0)
         | none => full (laneBranch c r join) c
     Traps (.bra f) (fun c _ => full (voteBranch c) c) ∧ Traps (.call f) (fun c _ => if c.active = 0 then none else full (voteBranch c) c) ∧
     Traps (.brx f) (bad true) ∧ Traps (.ret f) (bad false))

/-- How branches move a slice. Under a vote, with every enabled lane active it goes to the target, with none it goes on behind the branch, its mask and
stack as before; with some of each it takes the target with the active lanes, above a PATH entry for the others and a JOIN entry for all, and
needs two free entries (R26). Under BRX and RET its lanes' next addresses, each once and ascending, are its ways on: it takes the lowest with that one's
lanes, above a PATH entry for each other in turn, and, for BRX, a JOIN entry for all (R269, R271). -/
def Obligations.BranchVotesMoveSlices : Prop :=
  (∀ (c : Ctx) (n : Nat) (x : Slice),
    let act := fun (k : Nat) => c.active.getLsbD (4 * n + k)
    let y := (voteBranch c).move c.pc c.len n x
    (x.mask = 0 → y.pc = branchTarget c ∧ y.mask = 0 ∧ y.stack = x.stack) ∧
    (x.mask ≠ 0 → (∀ k, k < 4 → x.mask.getLsbD k = true → act k = true) →
      y.pc = branchTarget c ∧ y.mask = x.mask ∧ y.stack = x.stack ∧ y.crp = x.crp ∧ (voteBranch c).need n x = 0) ∧
    (x.mask ≠ 0 → (∀ k, k < 4 → x.mask.getLsbD k = true → act k = false) →
      y.pc = c.nextPc ∧ y.mask = x.mask ∧ y.stack = x.stack ∧ y.crp = x.crp ∧ (voteBranch c).need n x = 0) ∧
    ((∃ k, k < 4 ∧ x.mask.getLsbD k = true ∧ act k = true) → (∃ k, k < 4 ∧ x.mask.getLsbD k = true ∧ act k = false) →
      y.pc = branchTarget c ∧ y.crp = branchRpc c ∧ (∀ k, k < 4 → y.mask.getLsbD k = (x.mask.getLsbD k && act k)) ∧ (voteBranch c).need n x = 2 ∧
      ∃ m, (∀ k, k < 4 → m.getLsbD k = (x.mask.getLsbD k && !act k)) ∧
        y.stack = { pc := some c.nextPc, mask := m, rpc := branchRpc c, kind := .path } ::
          { pc := branchRpc c, mask := x.mask, rpc := x.crp, kind := .join } :: x.stack)) ∧
  ∀ (c : Ctx) (r : Run) (n : Nat) (x : Slice) (join : Bool), x.mask ≠ 0 →
    let next := fun (k : Nat) => laneNext c r (4 * n + k)
    let ways := (laneBranch c r join).ways n x
    let y := (laneBranch c r join).move c.pc c.len n x
    ways.Pairwise (fun a b => a.1.toNat < b.1.toNat) ∧
    (∀ e ∈ ways, ∀ k, k < 4 → e.2.getLsbD k = (x.mask.getLsbD k && decide (next k = e.1))) ∧
    (∀ k, k < 4 → x.mask.getLsbD k = true → ∃ e ∈ ways, e.1 = next k) ∧
    (∀ e, ways = [e] → y.pc = e.1 ∧ y.mask = x.mask ∧ y.stack = x.stack ∧ y.crp = x.crp) ∧
    ∀ e e' rest, ways = e :: e' :: rest →
      let crp := if join then branchRpc c else x.crp
      y.pc = e.1 ∧ y.mask = e.2 ∧ y.crp = crp ∧
      y.stack = (e' :: rest).map (fun p => { pc := some p.1, mask := p.2, rpc := crp, kind := .path }) ++
        (if join then [{ pc := branchRpc c, mask := x.mask, rpc := x.crp, kind := .join }] else []) ++ x.stack

/-- REGANG arrives where A's mask names the issuing slices, and joins what has arrived whole (R29); SPLITS writes the lane bits of the fragment's or
the group's slices (R31); BACKOFF makes the oldest pending path of each slice current (R35). -/
def Obligations.JoinsAndPathsComplete : Prop :=
  ∀ f : Fields,
    (∀ s c r, Ready (.regang f) s c r →
      let set := namedSlices (maskReg c.grp (regIndex c.f.a 16)) c.grp.width
      set ≠ 0 → (∀ n ∈ c.slices, set.getLsbD n = true) →
      let t := completed s c (joinAll 32 ((advance c r).updGrp c.gid fun g => g.updSlices c.slices fun x => { x with arrived := some (set, x.pc) }) c.gid)
      let r' := waitAfter c t.run (fun x => x.arrived.isSome) 2 12 ((maskReg c.grp (regIndex c.f.a 16)).truncate 64)
      exec (.regang f) s = .next { t with run := r' }) ∧
    Acts (.splits f) (fun _ _ => True) (fun c r =>
      writeMask r c c.f.d ((if xbit c.f 0 then c.grp.liveSlices else c.slices).foldl (fun m n => m ||| sliceBits n 0xF) 0)) ∧
    Acts (.backoff f) (fun _ _ => True) (fun c r => r.updGrp c.gid fun g => (g.updSlices c.slices Slice.backoff).parted c.frag)

/-- BAR and BARA complete wherever the current generation of their barrier has no other `.SPAWNED` value than theirs, BARA also where the group has not
yet arrived whole (R277, R278): the issuing slices without an unmatched BARA arrive at the generation, whose value is fixed. After BAR a
slice whose BARA was of a generation that is over goes on, and every other waits for the current one; after BARA none waits, and the group's
older unmatched BARAs are superseded. Elsewhere they raise ILLEGAL_OPERAND and do not arrive.
Matching by slices is a reading (log 12). -/
def Obligations.BarriersComplete : Prop :=
  ∀ f : Fields,
    let cur := fun (c : Ctx) (r : Run) => curBarrier r c
    let other := fun (c : Ctx) (r : Run) => (cur c r).spawnedForm = some (!xbit c.f 4)
    let drop := fun (c : Ctx) (x : Slice) => { x with bara := x.bara.filter fun e => e.1 != barNumber c }
    let waited := fun (c : Ctx) (t : State) => { t with run := waitAfter c t.run (fun x => x.bar.isSome) 1 6 (w64 (barNumber c)) }
    (∀ s c r, Ready (.bar f) s c r → ¬ other c (advance c r) →
      let r0 := advance c r
      let n := barNumber c
      let b := cur c r0
      let phase := fun (k : Nat) => (c.sliceOf k).splitPhase n
      let past := fun (k : Nat) => (phase k).any fun g => decide (g < b.gen)
      let stay := c.slices.filter fun k => !past k
      exec (.bar f) s = .next (waited c (completed s c (checkBarrier ((arriveSlices r0 c (stay.filter fun k => (phase k).isNone)).updGrp c.gid fun g =>
        (g.updSlices (c.slices.filter past) (drop c)).updSlices stay fun x => { drop c x with bar := some (n, b.gen) }) c.grp.team n)))) ∧
    (∀ s c r, Ready (.bara f) s c r → ¬ other c (advance c r) → arrivedGroup (cur c (advance c r)) (c.gid, c.grp) = false →
      let r0 := advance c r
      let n := barNumber c
      let b := cur c r0
      let older := fun (x : Slice) => { x with bara := x.bara.filter fun e => !(e.1 == n && decide (e.2 < b.gen)) }
      exec (.bara f) s = .next (waited c (completed s c (checkBarrier ((arriveSlices r0 c c.slices).updGrp c.gid fun g =>
        { g with slices := g.slices.map older }.updSlices c.slices fun x => { drop c x with bara := (drop c x).bara ++ [(n, b.gen)] }) c.grp.team n)))) ∧
    (let illegal := fun (c : Ctx) => c.trap .illegalOperand 0 (c.lowest.getD 0) 0
     Traps (.bar f) (fun c r => if (cur c r).spawnedForm = some (!xbit c.f 4) then some (illegal c) else none) ∧
     Traps (.bara f) (fun c r =>
       if (cur c r).spawnedForm = some (!xbit c.f 4) ∨ arrivedGroup (cur c r) (c.gid, c.grp) = true then some (illegal c) else none))

/-- EXIT ends the active lanes once the group's RSTs are acknowledged; in a protected launch, once its buffered RSTs have left, the team's matrix work
completes and a commit of what that leaves performs its stores (R37, R279, 01 R54); with no active lane it ends none. REGION lets delegable causes go
to the kernel's handler again (R280, 14 R369), LIVE makes the named registers dead (R282), and YIELD and NOP change nothing (R283).
Reading: log 41. -/
def Obligations.EndsAndRegionsComplete : Prop :=
  ∀ f : Fields,
    (∀ s c r, Ready (.exit f) s c r →
      let r0 := advance c r
      let ends := fun (r1 : Run) => exec (.exit f) s = .next { s with run := tryEndTeam (completed s c r1).run c.grp.team }
      let leave := fun (r : Run) => leaveGroup (endActive c r) c.gid
      let acked := awaitStores c false (fun _ => true) = .ok ()
      (c.active = 0 → ends r0) ∧
      (c.active ≠ 0 → c.unpaired → acked → ends (leave r0)) ∧
      ∀ r1, c.active ≠ 0 → c.shadowed = true → sendBuffered c r0 (fun _ => true) = .ok () → acked → commitAfter r0 c.grp.team leave = (r1, true) →
        ends (performCommitted r1 c.grp.team)) ∧
    Acts (.region f) (fun _ _ => True) (fun c r => r.updGrp c.gid fun g => { g with uin := false }) ∧
    (let named := fun (c : Ctx) => ((List.range 64).filter fun i => c.f.w2.getLsbD i).map (64 * xbits c.f 1 0 + ·)
     let keep := fun (c : Ctx) (k : Nat) => !(named c).contains k
     Acts (.live f) (fun c _ => (∀ k ∈ named c, k < c.l.vregs) ∧ ∀ n ∈ c.grp.liveSlices, n ∈ c.slices) (fun c r => r.updGrp c.gid fun g =>
        { g with v := g.v.filter fun e => keep c (e.1 / 128), dirty := g.dirty.filter fun k => keep c (k / 4),
                 saved := g.saved.filter fun k => keep c (k / 4), absent := g.absent.filter fun k => keep c (k / 4) })) ∧
    Acts (.yield f) (fun _ _ => True) (fun _ r => r) ∧ Acts (.nop f) (fun _ _ => True) (fun _ r => r)

/-- SPAWN creates a group at the entry that its X field names where there is room, and writes the group's number, or else all ones; an entry that the
kernel does not have raises SPAWN_ENTRY, and then a D that is no `g` register ILLEGAL_OPERAND (R281, 01 R40, 06 R184). -/
def Obligations.SpawnCompletesOrTraps : Prop :=
  ∀ (f : Fields) (s : State) (c : Ctx) (r : Run), Ready (.spawn f) s c r → c.active ≠ 0 →
    let r0 := advance c r
    let entry := c.l.entries[xbits c.f 5 0]?
    let named := c.f.w = true ∨ ∃ n, c.f.d = .g n
    let put := fun (r : Run) (v : W64) =>
      match c.f.w, c.f.d with
      | false, .g n => r.updGrp c.gid fun g => setG g n.toNat v
      | _, _ => r
    let traps := fun (cause : Cause) =>
      exec (.spawn f) s = .next { s with run := trapAt (c.begun s.run) c.gid c.slices (c.trap cause 0 (c.lowest.getD 0) 0) [] }
    (∀ ofs, entry = some ofs → named →
      let made := spawnGroup r0 c.gid c.grp c.t c.l (w64 (c.l.codeBase + ofs)) (w64 (readUniform r0 c c.f.a .n64))
      exec (.spawn f) s = .next (completed s c (match made with
        | some (num, r1) => put r1 (w64 num)
        | none => put r0 0xFFFFFFFFFFFFFFFF))) ∧
    (entry = none → traps .spawnEntry) ∧ (entry.isSome = true → ¬ named → traps .illegalOperand)

/-! ## Votes, shuffles, reductions and masks (09 R273 to R276, R284) -/

/-- VOTE, BALLOT and SHFL complete (R273 to R275): a vote is the same in every active lane; a ballot has the bits that the active lanes select; SHFL
reads an active lane of the segment, or its own. -/
def Obligations.VotesAndShufflesComplete : Prop :=
  ∀ f : Fields,
    YieldsPred (.vote f) (fun c _ _ =>
      let p := c.predAt c.f.a
      match xbits c.f 1 0 with
      | 0 => c.lanes.all p
      | 1 => c.lanes.any p
      | _ => c.lanes.all p || !c.lanes.any p) ∧
    (∀ s c r, Ready (.ballot f) s c r → plainDest c = true →
      let b := maskOf (c.lanes.filter fun l => (c.aAs (advance c r) .n32 l).testBit (c.bAs (advance c r) .n32 l % 32))
      (xbit c.f 3 = true → exec (.ballot f) s = .next (completed s c (writeMask (advance c r) c c.f.d b))) ∧
      (xbit c.f 3 = false → ∃ r', writeRes (advance c r) c c.tw (fun _ =>
          b.toNat / 2 ^ (c.elt.bits * (if c.elt.bits = 64 then xbits c.f 0 0 else xbits c.f 1 0)) % 2 ^ c.elt.bits) = .ok r' ∧
        exec (.ballot f) s = .next (completed s c r'))) ∧
    YieldsIf (.shfl f) (fun c _ => shflSegment c ≤ c.grp.width) Ctx.tw (fun c r l =>
      c.pa r (match shflSource (xbits c.f 1 0) (shflSegment c) l (c.bAs r .n32 l) with
        | some j => if c.active.getLsbD j then j else l
        | none => l))

/-- GRED and GSCAN complete with the combination of the active lanes, of all or of those below (R276), and MMOV with the masks it names (R284). -/
def Obligations.ReductionsAndMasksComplete : Prop :=
  ∀ f : Fields,
    (let reduces := fun (i : Instr) (set : Ctx → Nat → List Nat) => ∀ s c r, Ready i s c r → plainDest c = true → c.active ≠ 0 →
      let val := fun (l : Nat) => combineValues c.f c.elt ((set c l).map fun j => c.pa (advance c r) j)
      ∃ r', writeRes (raiseFlags (advance c r) c fun l => (val l).2) c c.tw (fun l => (val l).1) = .ok r' ∧
        exec i s = .next (completed s c r')
     reduces (.gred f) (fun c _ => c.lanes) ∧
      reduces (.gscan f) (fun c l => c.lanes.filter fun j => decide (j < l) || (j == l && !xbit c.f 4))) ∧
    (∀ e xs, e ∈ [Elt.i32, .n32, .i64, .n64] →
      combineI e 0 false xs = lowBits e.bits (xs.map (readI e)).sum ∧ combineI e 3 false xs = xs.foldl (· &&& ·) (2 ^ e.bits - 1) ∧
      combineI e 5 false xs = xs.foldl (· ^^^ ·) 0) ∧
    Acts (.mmov f) (fun c _ => xbits c.f 2 0 ≠ 2) (fun c r =>
      let a := maskReg c.grp (regIndex c.f.a 16)
      let b := maskReg c.grp (regIndex c.f.b 16)
      writeMask r c c.f.d (match xbits c.f 2 0 with
        | 0 => a
        | 1 => BitVec.ofNat 128 (readUniform r c c.f.a .n64 + readUniform r c c.f.b .n64 * 2 ^ 64)
        | 3 => a &&& b
        | 4 => a ||| b
        | _ => a &&& ~~~b)) ∧
    Acts (.mmov f) (fun c _ => xbits c.f 2 0 = 2) (fun c r =>
      let half := (maskReg c.grp (regIndex c.f.a 16)).toNat / 2 ^ (64 * bit (xbit c.f 3)) % 2 ^ 64
      match c.f.w, c.f.d with
      | false, .g n => r.updGrp c.gid fun g => setG g n.toNat (w64 half)
      | _, _ => r)

/-! ## Matrix instructions (10 R295 to R317) -/

/-- TCFG, TACQ, TREL, TCNT, TWAIT and TPIN complete (R295, R300, R306, R313 to R315): a configuration where the team has no work in the unit, no
other group's holds and the tiles are free; a token where nothing else has the tile; a count or a wait once the group's own work is over.
Readings: logs 63 to 65. -/
def Obligations.TileConfigurationAndTokensComplete : Prop :=
  ∀ (f : Fields) (s : State) (c : Ctx) (r : Run) (n : Nat),
    let r0 := advance c r
    let shape := w64 (readUniform r0 c c.f.a .n64)
    let stride := w64 (readUniform r0 c c.f.b .n64)
    let whole := ∀ k ∈ c.grp.liveSlices, k ∈ c.slices
    let mine := fun (m : MatOp) => m.group = c.gid
    (Ready (.tcfg f) s c r → whole → c.active = 0 → exec (.tcfg f) s = .next (completed s c r0)) ∧
    (Ready (.tcfg f) s c r → whole → c.active ≠ 0 → fld shape 63 20 = 0 → fld shape 15 14 = 0 → fld stride 63 32 = 0 → fld shape 19 16 ≤ 8 →
      (∀ m ∈ matrixQueue r0 c, m.team ≠ c.grp.team) → (∀ e ∈ teamGroups r0 c.grp.team, e.1 = c.gid ∨ e.2.holds = []) →
      fld shape 19 16 ≤ tilesFree (releaseTiles c r0) c →
      exec (.tcfg f) s = .next (completed s c (configure c shape stride (releaseTiles c r0)))) ∧
    (Ready (.tacq f) s c r → whole → tileField r0 c c.f.a = .ok n → (teamTile r0 c.grp.team n).owner = none → heldByOther r0 c n = false →
      (∀ m ∈ matrixQueue r0 c, m.team = c.grp.team → m.tile ≠ n) →
      exec (.tacq f) s = .next (completed s c (updTile r0 c.grp.team n fun x => { x with owner := some c.gid }))) ∧
    (Ready (.trel f) s c r → whole → tileField r0 c c.f.a = .ok n → (teamTile r0 c.grp.team n).owner = some c.gid →
      exec (.trel f) s = .next (completed s c (updTile r0 c.grp.team n fun x => { x with owner := none }))) ∧
    (Ready (.tcnt f) s c r → plainDest c = true → tileField r0 c c.f.a = .ok n → (∀ m ∈ matrixQueue r0 c, mine m → m.tile ≠ n) →
      (let staged := (((r0.grp c.gid).map (·.staged)).getD []).filter fun x => x.tile == n
       let x := staged.foldl (fun (x : Tile) y => x.counted ⟨y.nan, y.inv, y.ovf⟩) (teamTile r0 c.grp.team n)
       let v := if xbits c.f 1 0 = 0 then x.nan else if xbits c.f 1 0 = 1 then x.inv else x.ovf
       ∃ r', writeRes r0 c .n32 (fun _ => v.toNat) = .ok r' ∧ exec (.tcnt f) s = .next (completed s c r'))) ∧
    (Ready (.twait f) s c r → (xbit c.f 0 = true ∨ tileField r0 c c.f.a = .ok n) →
      (∀ m ∈ matrixQueue r0 c, mine m → xbit c.f 0 = false ∧ m.tile ≠ n) → exec (.twait f) s = .next (completed s c r0)) ∧
    (Ready (.tpin f) s c r → plainDest c = true → c.active ≠ 0 →
      (let q := matReq r0 c 0
       let x := ((linesOf (readUniform r0 c c.f.a .n64) (readUniform r0 c c.f.b .n32)).map (128 * ·)).foldl
         (if xbit c.f 0 then unpinLine c q else pinLine c q) (0, r0)
       ∃ r', writeRes x.2 c .n32 (fun _ => x.1 % 2 ^ 32) = .ok r' ∧ exec (.tpin f) s = .next (completed s c r')))

/-- TMMA, TMMAZ, TZERO, TLOAD and TSTORE complete where their checks pass, every page translates and the unit has room: the unit has accepted the
work, which it performs later (R299, R301, R308, R309).
Reading: log 60. -/
def Obligations.MatrixWorkIsAccepted : Prop :=
  ∀ (f : Fields) (s : State) (c : Ctx) (r r1 : Run) (n : Nat) (w : W32) (leaves : List (Nat × Leaf)),
    let r0 := advance c r
    let cfg := (curTeam r0 c).cfg
    let a := readUniform r0 c c.f.a .n64
    let b := readUniform r0 c c.f.b .n64
    let ready := fun (r : Run) => heldByOther r c n = false ∧ (matrixQueue r c).length < Config.matrixQueue
    (∀ k ∈ c.grp.liveSlices, k ∈ c.slices) → tileField r0 c c.f.d = .ok n → (teamTile r0 c.grp.team n).owner = none →
    (∀ z : Bool, Ready (if z then .tmmaz f else .tmma f) s c r → formatWord c = .ok w → mmaFormats w = true →
      mmaShapeOk cfg w z (tileWidth r0 c n) = true → a % 16 = 0 → b % 16 = 0 →
      translateAll r0 c (matReq r0 c 0) (aRanges w cfg a ++ bRanges w cfg b ++ [aScaleRange w cfg a, bScaleRange w cfg b]) = .ok (leaves, r1) →
      ready r1 →
      let op := { blankOp r1 c (if z then 0xA2 else 0xA1) n with fmt := w, base := w64 a, base2 := w64 b, leaves }
      exec (if z then .tmmaz f else .tmma f) s = .next (completed s c (accept r1 c op true (!z)))) ∧
    (Ready (.tzero f) s c r → ready r0 →
      exec (.tzero f) s = .next (completed s c (accept r0 c { blankOp r0 c 0xA7 n with wide := xbit c.f 0 } true false))) ∧
    (∀ store : Bool, Ready (if store then .tstore f else .tload f) s c r → formatWord c = .ok w → moveFormats w = true →
      (let stride := readUniform r0 c c.f.b .n32
       let cw := accWidth (fmtC w)
       (cw = 8 → cfg.m * cfg.n ≤ 8192) → stride % 16 = 0 → cfg.n * moveBytes w ≤ stride → (store = true → tileWidth r0 c n = cw) → a % 16 = 0 →
       translateAll r0 c (matReq r0 c (bit store)) (rowRanges a cfg.m stride (cfg.n * moveBytes w)) = .ok (leaves, r1) → ready r1 →
       let op := { blankOp r1 c (if store then 0xA8 else 0xA9) n with fmt := w, base := w64 a, stride, leaves }
       exec (if store then .tstore f else .tload f) s = .next (completed s c (accept r1 c op (!store) false))))

/-- TRD and TWR complete where the group owns the tile, T has the tile's width and each active lane's row and column lie inside: TRD reads the element
that a lane names, TWR writes the lanes' values in ascending lane order (R307, R316); TRD with no active lane changes nothing (R298). -/
def Obligations.TileElementsComplete : Prop :=
  ∀ (f : Fields) (s : State) (c : Ctx) (r : Run) (n : Nat),
    let r0 := advance c r
    let cfg := (curTeam r0 c).cfg
    let x := teamTile r0 c.grp.team n
    let inside := fun (row col : Opnd) => ∀ l ∈ c.lanes, readSrc r0 c row .n32 l < cfg.m ∧ readSrc r0 c col .n32 l < cfg.n
    let at_ := fun (row col : Opnd) (l : Nat) => readSrc r0 c row .n32 l * cfg.n + readSrc r0 c col .n32 l
    (∀ k ∈ c.grp.liveSlices, k ∈ c.slices) → x.owner = some c.gid → x.w = c.elt.bits / 8 →
    (Ready (.trd f) s c r → plainDest c = true → tileField r0 c c.f.a = .ok n → inside c.f.b c.f.c →
      (c.active = 0 → exec (.trd f) s = .next (completed s c r0)) ∧
      (c.active ≠ 0 →
        ∃ r', writeRes r0 c c.tw (fun l => tileElem x x.w (at_ c.f.b c.f.c l)) = .ok r' ∧ exec (.trd f) s = .next (completed s c r'))) ∧
    (Ready (.twr f) s c r → c.active ≠ 0 → tileField r0 c c.f.d = .ok n → inside c.f.a c.f.b →
      let vals := c.lanes.map fun l => (at_ c.f.a c.f.b l, c.cAs r0 c.elt l)
      let r1 := (if copyDue r0 c n true then undoCopy r0 c.gid c.grp.team n c.grp.super else r0).updGrp c.gid (tileWrite n true)
      exec (.twr f) s = .next (completed s c (updTile r1 c.grp.team n fun x => vals.foldl (fun x e => putElem x.w e.1 e.2 x) x)))

/-! ## Engines (11) -/

/-- QBIND binds a queue register to a ring of a legal capacity in the team's scratch, or to a semaphore; QUNBIND undoes one binding or all (R325); QSTAT
reads a binding's state, and 0 for a register that is not bound (R326).
Readings: logs 78 and 79. -/
def Obligations.QueueBindingsComplete : Prop :=
  ∀ (f : Fields) (s : State) (c : Ctx) (r : Run),
    let r0 := advance c r
    let kind := xbits c.f 2 0
    let init := xbit c.f 4
    let cap := readUniform r0 c c.f.b .n32
    let bound := fun (r : Run) (a : W64) => r.updGrp c.gid fun g => { g with q := g.q.put (xbits c.f 7 5) { kind, lw := xbit c.f 3, obj := a } }
    c.unpaired → c.active ≠ 0 →
    (Ready (.qbind f) s c r → kind < 4 →
      (let a := readUniform r0 c c.f.a .n32
       let t := curTeam r0 c
       let new := if init then cap else ringCapLog t a
       let set := fun (t : Team) => scrPut (scrPut t a 8 0) (a + 8) 1 (kind * 16 + cap)
       a % 16 = 0 → 1 ≤ new → new ≤ 12 → scrIn t a 16 = true → scrIn t a (16 + 4 * 2 ^ new) = true → (init = true ∨ ringKind t a = kind) →
       exec (.qbind f) s = .next (completed s c (bound (if init then r0.updTeam c.grp.team set else r0) (w64 a))))) ∧
    (∀ bs r1 r2, Ready (.qbind f) s c r → 4 ≤ kind →
      (let a := w64 (readUniform r0 c c.f.a .n64)
       let q := Ctx.req r0 c 2
       let w1 := leNat ((bs.drop 8).take 8)
       let new := if init then cap else w1 % 16
       a.toNat % 64 = 0 → accRead r0 c q (c.lowest.getD 0) a 64 = .ok (bs, r1) → 1 ≤ new → new ≤ 10 →
       (init = true → accWrite r1 c q (c.lowest.getD 0) a (leBytes 8 0 ++ leBytes 8 (w1 - w1 % 16 + cap)) = .ok r2) →
       exec (.qbind f) s = .next (completed s c (bound (if init then r2 else r1) a)))) ∧
    (Ready (.qunbind f) s c r →
      exec (.qunbind f) s = .next (completed s c (r0.updGrp c.gid fun g => { g with q := if xbit c.f 8 then [] else g.q.del (xbits c.f 7 5) }))) ∧
    (Ready (.qstat f) s c r → plainDest c = true →
      (c.grp.q.find (xbits c.f 7 5) = none →
        ∃ r', writeRes r0 c .n32 (fun _ => 0) = .ok r' ∧ exec (.qstat f) s = .next (completed s c r')) ∧
      ∀ b v r1, c.grp.q.find (xbits c.f 7 5) = some b → queueStatus c r0 b = .ok (v, r1) →
        ∃ r', writeRes r1 c .n32 (fun _ => v) = .ok r' ∧ exec (.qstat f) s = .next (completed s c r'))

/-- COPY, COPYM, CDRAIN and HREAD complete where their operands and completion objects pass the checks and the core's engine has room (R322, R323,
R329 to R332): a copy, a drain or a burst read is accepted, a multicast tile stands in its slot. HEND completes in a handler slice whose
RSTs are acknowledged, and ends it (R335).
Readings: logs 33, 73 and 76. -/
def Obligations.TransfersComplete : Prop :=
  ∀ (f : Fields) (s : State) (c : Ctx) (r : Run),
    let r0 := advance c r
    let a := readUniform r0 c c.f.a .n64
    let b := readUniform r0 c c.f.b .n64
    let v := readUniform r0 c c.f.c .n64
    let x := copyShape c.f v
    let t := curTeam r0 c
    let mode := descMode c.f
    let cpl := descCpl c.f
    (Ready (.hend f) s c r → c.isHandler = true → awaitStores c false (fun _ => true) = .ok () →
      exec (.hend f) s = .next { s with run := endHandler (completed s c r0).run c.gid none }) ∧
    (c.unpaired → c.active ≠ 0 →
    (Ready (.copy f) s c r → x.rejected v = false → (1 < x.nr → x.rl ≤ 16 * x.dstr) → objKindOk t mode cpl 1 x.dsc = true → objIn t mode cpl = true →
      (if x.ssc then scrIn t a (x.extent x.sstr) = true else a < 2 ^ 56) → (if x.dsc then scrIn t b (x.extent x.dstr) = true else b < 2 ^ 56) →
      engineFull r0 c = false →
      let o := { c.op .copy mode cpl (x.rl * x.nr) (copyPieces r0 c x a b) with srcSc := x.ssc, dstSc := x.dsc, dst := b }
      exec (.copy f) s = .next (completed s c (acceptOp c r0 o))) ∧
    (∀ bytes r1, Ready (.copym f) s c r →
      (let slot := xbits c.f 3 0
       let recv := readUniform r0 c c.f.b .n32
       recv ≠ 0 → recv < 2 ^ (c.l.rows * c.l.cols) → x.rl * x.nr ≤ 65536 → x.rejected v = false →
       (if x.ssc then scrIn t a (x.extent x.sstr) = true else a < 2 ^ 56) →
       Sparse.find (clusterSlots r0 c.t.cluster) slot = none → slotsOn r0 c.t.die < Config.dieSlots → engineFull r0 c = false → tileRows r0 c x a = .ok (bytes, r1) →
       let put := fun (k : Cluster) => { k with slots := k.slots.put slot { bytes, recv, drained := 0 } }
       exec (.copym f) s = .next (completed s c (freeSlots (r1.updCluster c.t.cluster put) c.t.cluster)))) ∧
    (∀ h, Ready (.cdrain f) s c r → plainDest c = true →
      (let at_ := readUniform r0 c c.f.a .n32
       let obj := readUniform r0 c c.f.b .n32
       let n := h.bytes.length
       let m := xbits c.f 5 4
       drainable r0 c.grp.team t (xbits c.f 3 0) = some h → checkObj c t m obj 1 true = .ok () → scrIn t at_ n = true → engineFull r0 c = false →
       let piece : Piece := { ofs := 0, len := n, src := 0, dst := at_, state := .todo, handlerCause := none }
       let o := { c.op .cdrain m obj n [piece] with dstSc := true, dst := at_, data := h.bytes, hidx := xbits c.f 3 0 }
       ∃ r', writeRes (acceptOp c r0 o) c .n32 (fun _ => n) = .ok r' ∧ exec (.cdrain f) s = .next (completed s c r'))) ∧
    (Ready (.hread f) s c r →
      (let nx := nfld b 15 0
       let ny := nfld b 31 16
       let nz := nfld b 47 32
       let total := nx * ny * nz * nfld b 63 48
       let hidx := w2bits c.f 31 26
       total ≠ 0 → total < 2 ^ 24 → nfld v 63 63 = 0 → hidx < c.l.handlers.length → objKindOk t mode cpl 2 false = true → a % 128 = 0 →
       objIn t mode cpl = true → a < 2 ^ 56 → engineFull r0 c = false →
       let o0 := c.op .hread mode cpl (128 * total) (burstPieces a ny nz nx total v)
       let o := { o0 with nx, ny, nz, hidx, tag := w32 (w2bits c.f 63 32), gregs := (List.range 64).map (gReg c.grp), ordinal := c.grp.hreadOrd }
       exec (.hread f) s = .next (completed s c ((acceptOp c r0 o).updGrp c.gid fun g => { g with hreadOrd := g.hreadOrd + 1 })))))

/-- ABINIT, ABADD and ABWAIT complete at a 16-byte aligned barrier inside the team's allocation (R336 to R338): ABINIT sets the pending count, ABADD
arrives, and ABWAIT writes the phase at once where nothing is pending, else once an arrival has left nothing pending, or, with its phase operand,
once the phase differs. SEMPOST completes where its
words have room, SEMWAIT where the words it takes are there (R340). -/
def Obligations.BarrierObjectsAndSemaphoresComplete : Prop :=
  ∀ (f : Fields) (s : State) (c : Ctx) (r : Run),
    let r0 := advance c r
    let a := readUniform r0 c c.f.a .n32
    let n := readUniform r0 c c.f.b .n64
    let t := curTeam r0 c
    let barrier := a % 16 = 0 ∧ scrIn t a 16 = true
    c.unpaired → c.active ≠ 0 →
    (Ready (.abinit f) s c r → barrier → n ≠ 0 → n < 2 ^ 48 →
      exec (.abinit f) s = .next (completed s c (r0.updTeam c.grp.team fun t => scrPut t a 8 (n + nfld (scrNat t a 8) 62 48 * 2 ^ 48)))) ∧
    (Ready (.abadd f) s c r → barrier → n < 2 ^ 48 → exec (.abadd f) s = .next (completed s c (arrive r0 c.grp.team a n))) ∧
    (Ready (.abwait f) s c r → plainDest c = true → barrier →
      (if xbit c.f 0 then (barPhase t a).toNat ≠ readUniform r0 c c.f.b .n32 else c.zeroSeen t a = true) →
      ∃ r', writeRes r0 c .n32 (fun _ => (barPhase t a).toNat) = .ok r' ∧ exec (.abwait f) s = .next (completed s c r')) ∧
    (∀ r1, Ready (.sempost f) s c r →
      semPost r0 c (w64 (readUniform r0 c c.f.a .n64)) (w32 (readUniform r0 c c.f.c .n32))
        ((if xbit c.f 0 then c.lanes else c.lanes.take 1).map fun l => w32 (c.bAs r0 .n32 l)) = .ok r1 →
      exec (.sempost f) s = .next (completed s c r1)) ∧
    (∀ ws r1, Ready (.semwait f) s c r → plainDest c = true →
      semTake r0 c (w64 (readUniform r0 c c.f.a .n64)) (if xbit c.f 0 then c.lanes.length else 1) = .ok (ws, r1) →
      ∃ r', writeRes r1 c .n32 (fun l => (nthD 0 ws (if xbit c.f 0 then (c.lanes.findIdx? (· == l)).getD 0 else 0)).toNat) = .ok r' ∧
        exec (.semwait f) s = .next (completed s c r'))

/-- LXCHG and LXRESUME complete where their operands are aligned, their layouts and progress object read and pass, and the unit has room: the step is
accepted and its event emitted; an LXRESUME of a step that is DONE completes its object at once. LXSTAT reads word 1 of a progress object
(R343 to R345, R351).
Readings: logs 82, 84 and 91. -/
def Obligations.ExchangesComplete : Prop :=
  ∀ (f : Fields) (s : State) (c : Ctx) (r : Run),
    let r0 := advance c r
    let t := curTeam r0 c
    c.unpaired → c.active ≠ 0 →
    (∀ x r1 r2, Ready (.lxchg f) s c r →
      (let a := c.lxAsk (readUniform r0 c c.f.a .n64) (readUniform r0 c c.f.b .n64) (readUniform r0 c c.f.c .n64)
         (w2bits c.f 3 0) (w2bits c.f 24 24 == 1) (descMode c.f) (descCpl c.f)
       let n := if x.dlay.parts.contains (a.me r1) then x.dlay.chunks else 0
       a.src % 64 = 0 → a.dst % 64 = 0 → a.prog % 64 = 0 → objIn t a.cmode a.cpl = true → lxRead r0 a = .ok (x, r1) → lxRejects r1 a x a.op false = false →
       objKindOk t a.cmode a.cpl 3 false = true → checkVirt r1 (a.req 1) (w64 a.prog) (64 + bitmapBytes n) = .ok r2 → lxeFull r2 a.die = false →
       let e := issueEvent r2 c 0xCB a.cmode
       exec (.lxchg f) s = .next (completed s c (lxAccept e.2 a x a.op 0 [] e.1 true)))) ∧
    (∀ bs r1, Ready (.lxstat f) s c r → plainDest c = true → readUniform r0 c c.f.a .n64 % 64 = 0 →
      accRead r0 c (pathReq r0 c 5 0) (c.lowest.getD 0) (w64 (readUniform r0 c c.f.a .n64 + 8)) 8 = .ok (bs, r1) →
      ∃ r', writeRes r1 c .w64 (fun _ => leNat bs) = .ok r' ∧ exec (.lxstat f) s = .next (completed s c r')) ∧
    (let prog := readUniform r0 c c.f.a .n64
     let cpl := readUniform r0 c c.f.b .n32
     let cmode := xbits c.f 1 0
     let a := c.lxAsk 0 0 prog 0 false cmode cpl
     ∀ head r1, Ready (.lxresume f) s c r → prog % 64 = 0 → checkObj c t cmode cpl 3 false = .ok () →
      readWords r0 (a.req 0) prog 8 = .ok (head, r1) →
      (progStatus head = 2 →
        exec (.lxresume f) s = .next (completed s c (match cmode with
          | 1 => arrive r1 c.grp.team cpl 1
          | 3 => postRecord r1 c.grp.team cpl [progStepid head, w32 (fld (nthD 0 head 1) 47 40 * 16 + 2)]
          | _ => r1))) ∧
      ∀ x r2 r3 bits, 3 ≤ progStatus head → progStatus head ≤ 6 →
        (let endp := (findStep r1 a.die (progStepid head)).any (·.endp)
         let op := fld (nthD 0 head 1) 35 32
         let a' := { a with src := (nthD 0 head 6).toNat, dst := (nthD 0 head 7).toNat, op, endp }
         let n := if x.dlay.parts.contains (a'.me r2) then x.dlay.chunks else 0
         lxRead r1 a' = .ok (x, r2) → lxRejects r2 a' x op true = false → bitsInMemory r2 (a'.req 0) prog n = .ok (bits, r3) →
         (lxeFull r3 a.die = false ∨ (findStep r3 a.die (progStepid head)).any (·.active) = true) →
         let e := issueEvent r3 c 0xCD cmode
         exec (.lxresume f) s = .next (completed s c (lxAccept e.2 a' x op (fld (nthD 0 head 1) 50 48) bits e.1 false))))

/-- With no active lane the instructions whose operands are the lowest active lane's have no effect, do not wait, and advance (07 R61, 10 R295, 11 R322,
14 R376); so do a reduction, and a spawn with a destination that it can write.
Readings: logs 20 and 156. -/
def Obligations.InstructionsWithoutActiveLanesOnlyAdvance : Prop :=
  ∀ (i : Instr) (f : Fields) (s : State) (c : Ctx) (r : Run),
    i ∈ [Instr.qbind f, .qunbind f, .qstat f, .copy f, .copym f, .cdrain f, .hread f, .abinit f, .abwait f, .abadd f, .sempost f, .semwait f, .lxchg f,
      .lxstat f, .lxresume f, .gred f, .gscan f, .spawn f, .tpin f, .sysr f, .sysw f, .event f, .mark f] →
    Ready i s c r → (i = .spawn f → c.f.w = true ∨ ∃ n, c.f.d = .g n) → c.active = 0 → exec i s = .next (completed s c (advance c r))

/-! ## System instructions (09 R285 to R293, 14 R373 to R378) and traps (14 R366 to R372, 17) -/

/-- TRAP and BRK complete and then trap, SOFTWARE or BREAKPOINT with X as the code (R285); EVENT and MARK write one record (R286); RDCNT, RDTIME and CAPCHK
read (R287 to R289); ICINV, ISYNC and TCOMMIT complete (R291 to R293), ICINV of a protected group once its stores are committed.
Readings: logs 43, 44 and 70. -/
def Obligations.UserSystemInstructionsComplete : Prop :=
  ∀ (f : Fields) (s : State) (c : Ctx) (r : Run),
    let r0 := advance c r
    let trapped := fun (cause : Cause) (l : Nat) => trapAt (c.onto s.run) c.gid c.slices
      { c.trap cause 0 l 0 with code := c.f.x.toNat } [] fun r => countIssue c (advance c (endWaits r c.gid c.slices))
    let u := coreUnit c.t.die c.t.core
    let event := fun (type : Nat) => if c.active = 0 then r0 else (emitGrp r0 c.gid u type (readUniform r0 c c.f.a .n32)).2
    (∀ l, c.lowest = some l → (Ready (.trap f) s c r → exec (.trap f) s = .next { s with run := trapped .software l }) ∧
      (Ready (.brk f) s c r → exec (.brk f) s = .next { s with run := trapped .breakpoint l })) ∧
    (c.active = 0 ∨ unitHasRoom r0.units u = true →
      (Ready (.event f) s c r → exec (.event f) s = .next (completed s c (event (0xF000 ||| c.f.x.toNat)))) ∧
      (Ready (.mark f) s c r → exec (.mark f) s = .next (completed s c (event (0xE000 + xbits c.f 1 0))))) ∧
    (Ready (.rdcnt f) s c r → plainDest c = true → c.active ≠ 0 →
      (let sel := readUniform r0 c c.f.a .n32
       nfld sel 31 24 = 0 → nfld sel 15 0 < bankSize (nfld sel 23 16) →
       holds r0 c.part c.t.die (w64 (readUniform r0 c c.f.b .n64)) rightCounter = true →
       ∃ r', writeRes (rightsSeen r0 c.part c.t.die (w64 (readUniform r0 c c.f.b .n64))) c .w64 (fun _ => (nthD 0 (nthD [] (r0.part c.part).banks (nfld sel 23 16)) (nfld sel 15 0)).toNat) = .ok r' ∧
         exec (.rdcnt f) s = .next (completed s c r'))) ∧
    (Ready (.rdtime f) s c r → plainDest c = true → (xbit c.f 0 = true → matrixBusy r0 c = false) →
      ∃ r', writeRes r0 c .w64 (fun _ => (r0.now c.t.die).toNat) = .ok r' ∧ exec (.rdtime f) s = .next (completed s c r')) ∧
    (Ready (.capchk f) s c r → plainDest c = true →
      (let has := fun (l : Nat) => rights r0 c.part c.t.die (w64 (c.aAs r0 .n64 l))
       (∀ l ∈ c.lanes, c.bAs r0 .n32 l < 128 ∧ (xbit c.f 0 = true → has l &&& c.bAs r0 .n32 l = c.bAs r0 .n32 l)) →
       ∃ r', writeRes (c.lanes.foldl (fun x l => rightsSeen x c.part c.t.die (w64 (c.aAs r0 .n64 l))) r0) c .n32 has = .ok r' ∧ exec (.capchk f) s = .next (completed s c r'))) ∧
    (let scope := if scopeOf c.f = 3 then some c.t.die else none
     let mine := fun (b : BufStore) => b.group = c.gid
     let commits := .next { s with run := (commitNow (c.onto s.run) c.grp.team).1 }
     Ready (.icinv f) s c r →
      (c.unpaired → exec (.icinv f) s = .next (completed s c (invalidate r0 scope))) ∧
      (c.shadowed = true → (∀ b ∈ (curTeam r0 c).sbuf, ¬ mine b) →
        (let done := if (curTeam r0 c).committed.any (fun b => b.group == c.gid) then performCommitted r0 c.grp.team else r0
         exec (.icinv f) s = .next (completed s c (invalidate done scope)))) ∧
      (c.shadowed = true → (∃ b ∈ (curTeam r0 c).sbuf, mine b) → exec (.icinv f) s = commits)) ∧
    (Ready (.isync f) s c r →
      exec (.isync f) s = .next (completed s c (r0.updGrp c.gid fun g => g.updSlices c.slices Slice.refetch))) ∧
    (Ready (.tcommit f) s c r →
      (c.unpaired → exec (.tcommit f) s = .next (completed s c r0)) ∧
      ∀ r1, c.shadowed = true → commitTeam r0 c.grp.team = (r1, true) → exec (.tcommit f) s = .next (completed s c r1))

/-- At SUPERVISOR level TRET returns as the record says (R374), TMASK sets or clears MSK, and a pre-emption that waited takes place at once when it is
cleared (R375), SYSR and SYSW read and write system registers (R376), HALT parks the group and CTXFL writes its context back (R377, R378). -/
def Obligations.SupervisorInstructionsComplete : Prop :=
  ∀ (f : Fields) (s : State) (c : Ctx) (r : Run),
    let r0 := advance c r
    let part := r0.part c.part
    let v := w64 (readUniform r0 c c.f.a .n64)
    let n := c.f.x.toNat
    let u := coreUnit c.t.die c.t.core
    (∀ r1, Ready (.tret f) s c r → returnFrom r0 c.gid = some (r1, true) →
      exec (.tret f) s = .next { s with run := heldEviction c (completed s c r1).run }) ∧
    (Ready (.tmask f) s c r →
      (let t := completed s c (r0.updGrp c.gid fun g => { g with msk := xbit c.f 0 })
       exec (.tmask f) s = .next (if xbit c.f 0 then t else { t with run := heldEviction c t.run }))) ∧
    (Ready (.sysr f) s c r → plainDest c = true → c.active ≠ 0 →
      ∃ r', writeRes r0 c .w64 (fun _ => (sysRead r0 c.part c.grp.utvec n).toNat) = .ok r' ∧ exec (.sysr f) s = .next (completed s c r')) ∧
    (∀ r1, Ready (.sysw f) s c r → c.active ≠ 0 → sysWritable n = true → sysAccepts part n v = true →
      (n = 0x01A → revokeBody c r0 v.toNat = .ok r1) → (n = 0x021 → winsyncBody c r0 v.toNat = .ok r1) →
      exec (.sysw f) s = .next (completed s c (
        if n = 0x01A ∨ n = 0x021 then r1
        else if n = 0x014 then r0.updGrp c.gid fun g => { g with utvec := v }
        else if n = 0x028 then setPtroot r0 c.part v
        else sysPut r0 c.part n v))) ∧
    (∀ r1, Ready (.halt f) s c r → unitHasRoom r0.units u = true → flushBody c r0 = .ok r1 →
      (let park := fun (g : Grp) => { g with parked := some (n, r1.now c.t.die) }
       exec (.halt f) s = .next (completed s c
         ((emitGrp r1 c.gid u (0xD000 ||| n) (c.pc - w64 (codeBase r1 c.grp true)).toNat).2.updGrp c.gid park)))) ∧
    (∀ r1, Ready (.ctxfl f) s c r → flushBody c r0 = .ok r1 → exec (.ctxfl f) s = .next (completed s c r1))

/-- A SUPERVISOR instruction issued at USER level raises PRIVILEGE, with none of its effect, whatever its operands are (06 R184, R187). -/
def Obligations.SupervisorInstructionsTrapAtUserLevel : Prop :=
  ∀ (i : Instr) (f : Fields) (s : State) (c : Ctx) (sh : OpShape) (gid frag : Nat),
    i ∈ [Instr.tret f, .tmask f, .sysr f, .sysw f, .halt f, .ctxfl f] → shape i = some sh → s.run.issuing = some (gid, frag) →
    makeCtx s.run gid frag sh f = some c → c.grp.super = false → c.grp.deferred = [] →
    exec i s = .next { s with run := trapAt (c.onto s.run) gid c.slices (c.trap .privilege 0 (c.lowest.getD 0) 0) [] }

/-- A cause met at USER level, whose record can be written, enters its handler: the kernel's own where the cause is delegable and both UTVEC and
PDELEG delegate it and no user handler runs, else the supervisor's (R366). User delivery sets UIN and starts every live slice at UTVEC's
offset in the code (R369); supervisor delivery sets the level and MSK, clears the supervisor's predicates and starts at STVEC from the code
base (R370). Slices start with all four lanes and an empty stack, in one fragment; the group's registers, predicates and masks are as before. What a
slice waits at is kept until the supervisor's return (01 R51); its arrival at a join stays on record in a user handler (17 R454).
Readings: logs 23, 24 and 37. -/
def Obligations.TrapsEnterTheirHandlers : Prop :=
  ∀ (r : Run) (gid : Nat) (g : Grp),
    r.grp gid = some g →
    (∀ i r1, g.super = false → i.cause ≠ .latchLost → i.cause ≠ .pairMismatch → consumes i = false →
      (let r0 := dropWaits r gid
       let e := emitGrp r0 gid (coreUnit (dieOfGrp r0 g) (coreOfGrp r0 g)) 0x0005 (i.cause.code + bit (!toUser r0 g i.cause) * 64 + bit i.deferred * 128)
       writeRecord e.2 gid i (!toUser r0 g i.cause) 0 e.1 = .ok r1 →
       let r2 := (dropRemotes r1 gid fun _ => false).updGrp gid fun g => { g with lat := [] }
       deliver r gid i = if toUser r0 g i.cause then deliverUser r2 gid g else deliverSuper r2 gid g)) ∧
    (let start := fun (pc : W64) (x y : Slice) =>
        if x.live then y.pc = pc ∧ y.mask = 0xF ∧ y.crp = none ∧ y.stack = [] ∧ y.frag = entryFrag g ∧ y.wait = none ∧ y.gone = x.gone ∧
          y.arrived = none ∧ y.bar = none else y.live = false
     let same := fun (h : Grp) => h.v = g.v ∧ h.g = g.g ∧ h.sg = g.sg ∧ h.p = g.p ∧ h.m = g.m ∧ h.q = g.q ∧ h.utvec = g.utvec ∧ h.fflags = g.fflags
     (∃ h, (deliverUser r gid g).grp gid = some h ∧ h.uin = true ∧ h.super = g.super ∧ h.msk = g.msk ∧ same h ∧
        h.slices.length = g.slices.length ∧
        ∀ (n : Nat) x, g.slices[n]? = some x → ∃ y, h.slices[n]? = some y ∧ start (w64 (codeBase r g false + fld g.utvec 31 0)) x y ∧
          (x.live = true → y.recorded = x.arrival)) ∧
      (∃ h, (deliverSuper r gid g).grp gid = some h ∧ h.super = true ∧ h.msk = true ∧ h.uin = g.uin ∧ same h ∧
        (∀ k, k < 7 → predMask h k = 0) ∧ h.slices.length = g.slices.length ∧
        ∀ (n : Nat) x, g.slices[n]? = some x → ∃ y, h.slices[n]? = some y ∧ start (superVector r g) x y ∧
          (x.live = true → y.kept = some { arrived := x.arrived, recorded := x.recorded, bar := x.bar, wait := x.onWait })) ∧
      ∀ k a, k ≠ gid → ((deliverUser r gid g).grp k = r.grp k ∧ (deliverSuper r gid g).grp k = r.grp k) ∧
        memByte (deliverUser r gid g).mem a = memByte r.mem a ∧ memByte (deliverSuper r gid g).mem a = memByte r.mem a)

/-- The first words of a trap record (17 R434): the cause, the delivery and its flags, the detail, the lane and the code in W0; the pc, the address and
the auxiliary value after it; then the time, the event, the launch with the team, and the slices with the group. -/
def Obligations.TrapRecordsNameTheirCause : Prop :=
  ∀ (g : Grp) (t : Team) (l : Launch) (i : TrapInfo) (sup reenter : Bool) (resume : Nat) (time id : W64),
    resume < 4 → i.detail < 256 → i.lane < 128 → i.code < 4096 → t.num < 2 ^ 32 → g.slices.length < 256 → g.num < 64 →
    let w := fun (n : Nat) => nthD 0 (recordHead g t l i sup reenter resume time id) n
    fld (w 0) 63 63 = 1 ∧ (w 0).getLsbD 62 = sup ∧ (w 0).getLsbD 61 = i.deferred ∧ (w 0).getLsbD 60 = reenter ∧ fld (w 0) 59 58 = resume ∧
    fld (w 0) 37 32 = i.cause.code ∧ fld (w 0) 31 24 = i.detail ∧ fld (w 0) 22 16 = i.lane ∧ fld (w 0) 11 0 = i.code ∧
    w 1 = i.pc ∧ w 2 = i.addr ∧ fld (w 3) 63 32 = i.aux % 2 ^ 32 ∧ fld (w 3) 31 0 = 0 ∧ w 4 = time ∧ w 5 = id ∧
    fld (w 6) 63 32 = l.launchid.toNat ∧ fld (w 6) 31 0 = t.num ∧ fld (w 7) 15 8 = g.slices.length ∧ fld (w 7) 5 0 = g.num

/-- ST, STS, STS.FILL and RST in a protected launch, where no injection is armed: once the buffer has room, the compared stores enter it in one step, of two
lanes' bytes at one address the higher lane's, and no byte of memory changes (01 R53, 08 R246, R247, 17 R443, R444).
Reading: log 34. -/
def Obligations.ProtectedStoresAreBuffered : Prop :=
  ∀ (i : Instr) (f : Fields) (s : State) (c0 c : Ctx) (base r : Run),
    let r0 := advance c r
    let calm := fun (r : Run) => (r.core c.t.die c.t.core).inject = none
    i ∈ [Instr.st f, .sts f, .rst f] → shape i = some c.sh → s.run.issuing = some (c.gid, c.frag) →
    makeCtx s.run c.gid c.frag c.sh f = some c0 → c = { c0 with pops := c.pops } →
    ((c.sh.switch || c0.usesQueue) = true → dueDeferred c0.grp = none) → c0.early = none → c0.missing = [] → c.shadowed = true → c.active ≠ 0 →
    c.usesSem = false → makeRoom (c.onto s.run) c = (base, true) → queues c0 base = .ok (c.pops, r) →
    (i = .st f → ∀ as r1, globalAccess r0 c c.lanes 1 c.size (kindAligned c.f) (gAddr r0 c) = .ok (as, r1) →
      let r' := bufferStores r1 c (as.flatMap fun x => laneStores c x.1 x.2 (storeVal r1 c x.1))
      calm r' → exec i s = .next (completed s c r') ∧ (noSemWait c → (completed s c r').run.mem = r1.mem)) ∧
    (i = .sts f → subOf c.f ≠ 2 → scratchAccess c c.lanes c.size (lineAligned c.f) (sAddr r0 c) = .ok () →
      let r' := bufferStores r0 c (c.lanes.map fun l => { group := c.gid, lane := l, weak := false, edge := decide (3 ≤ kindOf c.f) || subOf c.f == 1, pc := c.pc
                                                          hint := 0, dest := .scratch (subOf c.f == 1), addr := sAddr r0 c l
                                                          bytes := leBytes c.size (storeVal r0 c l), taken := max 4 c.size })
      calm r' → exec i s = .next (completed s c r')) ∧
    (i = .rst f → ∀ r1, remoteCheck r0 c c.lanes 1 (strongAligned c.size) = .ok r1 →
      let goes := fun (l : Nat) => BufDest.peer (peerOf r1 c l) c.pc (c.slices.head?.getD 0) (Machine.sizeOf c.f)
      let r' := r1.updTeam c.grp.team fun t => { t with sbuf := t.sbuf ++ c.lanes.map fun l =>
        { group := c.gid, lane := l, weak := false, edge := decide (3 ≤ kindOf c.f), pc := c.pc, hint := 0, dest := goes l, addr := (rAddr r1 c l).toNat
          bytes := rstData r1 c l, taken := max 4 c.size } }
      calm r' → exec i s = .next (completed s c r'))

/-- In a protected launch an atomic and a change of line state perform the team's stores first, act on what that leaves, and perform what they
committed; so does an engine instruction, which while it waits commits again only for stores that have come since, and a store whose words go
through a semaphore (01 R53, 08 R246, 11 R321, R325, 17 R444), where no injection is armed.
Reading: log 42. -/
def Obligations.ProtectedInstructionsCommitAroundTheirEffect : Prop :=
  (∀ (f : Fields) (i : Instr), i ∈ [Instr.atom f, .acas f, .red f, .atoms f, .sfill f, .ratom f] →
    ∃ w : Work, (∀ s, exec i s = issue i w s) ∧ ∀ g, w.cmp g = .atomic) ∧
  (∀ (f : Fields) (i : Instr), i ∈ [Instr.qbind f, .qunbind f, .copy f, .copym f, .cdrain f, .hread f, .abinit f, .abwait f, .abadd f, .sempost f, .semwait f,
      .lxchg f, .lxresume f] →
    ∃ w : Work, (∀ s, exec i s = issue i w s) ∧ ∀ g, w.cmp g = .engine) ∧
  (∀ (f : Fields) (i : Instr), i ∈ [Instr.lds f, .sts f] → ∃ w : Work, (∀ s, exec i s = issue i w s) ∧ ∀ g, subOf g = 2 → w.cmp g = .atomic) ∧
  ∀ (i : Instr) (w : Work) (s : State) (c0 c : Ctx) (base r r' : Run),
    let commits := w.cmp c.f = .atomic ∨ w.cmp c.f = .engine ∨ (w.cmp c.f = .store ∧ c.usesSem = true)
    let waits := c.slices.any fun n => (c.grp.slice n).any fun x => x.wait.isSome
    let empty := ((s.run.team c.grp.team).map (·.sbuf)).getD [] = []
    shape i = some c.sh → fieldsOf i = some c.f → s.run.issuing = some (c.gid, c.frag) → makeCtx s.run c.gid c.frag c.sh c.f = some c0 →
    c = { c0 with pops := c.pops } → ((c.sh.switch || c0.usesQueue) = true → dueDeferred c0.grp = none) → c0.early = none → c0.missing = [] →
    c.shadowed = true → c.active ≠ 0 → commits → c0.flying w = false →
    (if w.cmp c.f = .engine ∧ waits = true ∧ empty then base = c.onto s.run else commitNow (c.onto s.run) c.grp.team = (base, true)) →
    queues c0 base = .ok (c.pops, r) → w.body c (advance c r) = .ok r' → (r'.core c.t.die c.t.core).inject = none →
    issue i w s = .next { s with run := (commitNow (w.fin c (ended c r')) c.grp.team).1 }

/-! ## Rows without an encoding -/

/-- What the units of a core do takes place where it is due, and cannot elsewhere: committed stores (01 R54), matrix work (10 R299), pieces of transfers
and drains (11 R329, R331), bursts and their slices (01 R45, 11 R333), held records (11 R327), and an exchange's digests, chunks, ends and
failures (11 R343 to R350, 19 R483).
That rows take place by the agenda is the model's choice (log 4); readings: logs 73 to 75, 86, 92 and 93. -/
def Obligations.CoreUnitsAct : Prop :=
  (∀ team, HappensRun (.committedStorePerform team) (fun s => storeDue s.run team) (storeAct team) ∧
    ∀ ring, HappensRun (.heldRecordPush team ring) (fun s => (heldRecord s.run team ring).isSome) (heldRecordAct team ring)) ∧
  (∀ die core i, HappensRun (.matrixPerform die core i) (fun s => matrixDue s.run die core i) (matrixAct die core i)) ∧
  (∀ op i, HappensRun (.copyPiece op i) (fun s => copyPieceDue s.run op i) (copyPieceAct op i) ∧
    HappensRun (.copyPieceFail op i) (fun s => copyPieceFailDue s.run op i) (copyPieceFailAct op i) ∧
    HappensRun (.burstReturn op i) (fun s => burstDue s.run op i) (burstAct op i) ∧
    HappensRun (.heldBurstStart op i) (fun s => (heldBurst s.run op i).isSome) (heldBurstAct op i) ∧
    HappensRun (.drainLand op) (fun s => drainDue s.run op) (drainAct op)) ∧
  ∀ (die id : Nat) (s : State),
    (∀ dev from_ digest done, (digestDue s.run s.mgmt die (w32 id) (dev, from_) digest done = true →
      exec (.lxDigest die id dev from_ digest done) s = .next { s with run := digestAct s.mgmt die (w32 id) (dev, from_) digest done s.run })) ∧
    (∀ chunk, HappensRun (.lxChunkDone die id chunk) (fun s => chunkDue s.run die (w32 id) chunk) (chunkAct die (w32 id) chunk)) ∧
    HappensRun (.lxStepDone die id) (fun s => stepDone s.run die (w32 id)) (fun r => lxEnd r die (w32 id) 2) ∧
    (∀ failure, HappensRun (.lxFault die id failure) (fun s => lxFaultDue s.run s.mgmt die (w32 id) failure) (lxFaultAct die (w32 id) failure)) ∧
    ((overdue s.run s.mgmt die (w32 id)).isSome = true →
      exec (.stepOverdue die id) s = .next { s with run := overdueAct s.mgmt die (w32 id) s.run })

/-- What the launcher and the schedulers do takes place where it is due: records are taken, start and complete, queues follow CTRL, clusters are
placed, stolen, pre-empted and resumed (15 R391 to R412). So do commands of the translation control block (16 R428 to R430), held fault records
(R426) and writes through the configuration ports (14 R386, R390, 16 R416).
That rows take place by the agenda is the model's choice (log 4); readings: logs 30 and 95 to 110. -/
def Obligations.LauncherSchedulersAndPagingAct : Prop :=
  ((∀ part q, HappensRun (.launcherTake part q) (fun s => (takeable s.run part q).isSome) (takeAct part q) ∧
    HappensRun (.run part q) (fun s => ctrlIs s.run part q 0 && (queueState s.run part q).suspended) (runAct part q) ∧
    HappensRun (.suspend part q) (fun s => ctrlIs s.run part q 1 && !(queueState s.run part q).suspended) (suspendAct part q) ∧
    HappensRun (.skip part q) (fun s => ctrlIs s.run part q 2 && (haltedRec s.run part q).isSome) (skipAct part q) ∧
    HappensRun (.retry part q) (fun s => retryDue s.run part q) (retryAct part q)) ∧
  (∀ src, Happens (.launchRecord src) (fun s => recDue s.run src fun t => t == 1 || t == 0 || decide (8 < t)) (launchAct src) ∧
    HappensRun (.graphRecord src) (fun s => recDue s.run src (· == 2)) (fun r => startRec r src (startGraph src)) ∧
    HappensRun (.lxRecord src) (fun s => recDue s.run src (· == 3))
      (fun r => startRec r src (startLx src)) ∧
    HappensRun (.signal src) (fun s => recDue s.run src (· == 4)) (fun r => startRec r src (startSignal src)) ∧
    HappensRun (.waitev src) (fun s => recDue s.run src (· == 5)) (fun r => startRec r src (startWait src)) ∧
    HappensRun (.waitevComplete src) (fun s => waitevDue s.run src) (fun r => completeRec r src) ∧
    HappensRun (.cstart src) (fun s => recDue s.run src (· == 6)) (fun r => startRec r src (startLatch 0x1000 src)) ∧
    HappensRun (.cstop src) (fun s => recDue s.run src (· == 7)) (fun r => startRec r src (startLatch 0x4000 src)) ∧
    HappensRun (.fenceRecord src) (fun s => recDue s.run src (· == 8)) (fun r => startRec r src fun r _ => .ok (completeRec r src)) ∧
    HappensRun (.graphNodeComplete src) (fun s => nodeDue s.run src) (nodeAct src)) ∧
  (∀ l, Happens (.launchComplete l) (fun s => launchOver s.run l) (fun x => (launchEnd l x.1, protectLog (launchEnd l x.1) x.2))) ∧
  (∀ die, HappensRun (.clusterPlace die) (fun s => placeDue s.run die) (placeAct die) ∧
    HappensRun (.preempt die) (fun s => preemptDue s.run die) (preemptAct die) ∧
    ∀ l, HappensRun (.stealRequest die l) (fun s => stealDue s.run die l) (stealAct die l)) ∧
  ∀ g, HappensRun (.groupResume g) (fun s => resumeDue s.run g) (fun r => resumeOn r g) ∧
    HappensRun (.preemptLimit g) (fun s => limitDue s.run g) (fun r => evictGroup r g)) ∧
  ((∀ part, HappensRun (.inval part) (fun s => invalDue s.run part) (commandAct part (invalCommand part)) ∧
    HappensRun (.resolve part) (fun s => commandDue s.run part (· == 2)) (commandAct part (resolveCommand part)) ∧
    HappensRun (.pin part) (fun s => commandDue s.run part (· == 3)) (commandAct part (pinCommand part)) ∧
    HappensRun (.unpin part) (fun s => unpinDue s.run part) (commandAct part (unpinCommand part)) ∧
    HappensRun (.faultRecordWrite part) (fun s => (heldFault s.run part).isSome) (heldFaultAct part)) ∧
  (∀ part v, Told (.ptroot part v) (fun s => portWrites s.run part 0x028 v) (fun x => (setPtroot x.1 part v, x.2)) ∧
    Told (.caprevoke part v) (fun s => portWrites s.run part 0x01A v) (fun x => (revokeAct part v x.1, x.2)) ∧
    Told (.winsync part v) (fun s => portWrites s.run part 0x021 v && !windowBusy s.run part v.toNat (s.run.now (partDie s.run part)))
      (fun x => (syncWindow x.1 part (partDie x.1 part) v.toNat, x.2))) ∧
  ∀ reg v, Told (.configWrite reg v) (fun s => configDue s.run reg v) (configAct reg v))

/-- What ports, Atolls and packets do takes place where it is due: flits, replays, heartbeats, lanes and widths (18 R456 to R462), requests and
replies (R463 to R466), layout exchange (R467), joins and notices (R468 to R470).
That rows take place by the agenda is the model's choice (log 4); readings: logs 85 and 112 to 123. -/
def Obligations.FabricActs : Prop :=
  (∀ a, Happens (.replay a) (fun s => replayDue s.mgmt a) (fun x => (x.1, x.2.updPort a fun p => p.replay (portNow x.1 a))) ∧
    Happens (.heartbeat a) (fun s => heartbeatDue s.run s.mgmt a)
      (fun x => (x.1, x.2.updPort a fun p => { p.sendIdle false with lastTx := portNow x.1 a })) ∧
    Happens (.retrainTimeout a) (fun s => retrainTimeoutDue s.run s.mgmt a) (fun x => losePort x a .down) ∧
    Happens (.widthChange a) (fun s => widthChangeDue s.mgmt a) (widthChangeAct a) ∧
    Happens (.portSilent a) (fun s => silentDue s.run s.mgmt a) (fun x => losePort x a .isolated) ∧
    (∀ wire, Happens (.flitReceive a wire) (fun s => flitDue s.mgmt a wire) (flitAct a wire)) ∧
    (∀ lane, Happens (.laneFail a lane) (fun s => laneFailDue s.mgmt a lane) (laneFailAct a lane)) ∧
    (∀ ok, Happens (.retrainComplete a ok) (fun s => retrainCompleteDue s.mgmt a ok) (retrainCompleteAct a ok)) ∧
    (∀ w, Told (.reqw a w) (fun _ => decide (a < Config.ports) && w != 3) (fun x => (x.1, reqwAct a w.toNat x.2))) ∧
    ∀ i, Happens (.atollDiscard a i) (fun s => (heldPacket s.run s.mgmt a i).any fun e => passed s.run a e.2 ticks10us)
      (fun x => (x.1, x.2.updAtoll a fun y => y.updPort x.1.devid.toNat fun q => { q with queue := q.queue.eraseIdx i }))) ∧
  (∀ dev tag, Happens (.retransmit dev tag) (fun s => retransmitDue s.run s.mgmt dev tag) (retransmitAct dev tag)) ∧
  (∀ a p, Happens (.rdReq a p) (fun s => requestDue s a 1 p) (requestAct a p) ∧ Happens (.wrReq a p) (fun s => requestDue s a 2 p) (requestAct a p) ∧
    Happens (.atReq a p) (fun s => requestDue s a 3 p) (requestAct a p) ∧ Happens (.rdrep a p) (fun s => replyDue s a 4 p) (replyAct a p) ∧
    Happens (.wrack a p) (fun s => replyDue s a 5 p) (replyAct a p) ∧ Happens (.atrep a p) (fun s => replyDue s a 6 p) (replyAct a p) ∧
    Happens (.joinack a p) (fun s => p.type == 0x25 && available s.run s.mgmt a p) (joinackAct a p) ∧
    Happens (.joinrefuse a p) (fun s => p.type == 0x26 && available s.run s.mgmt a p) (joinrefuseAct a p) ∧
    ∀ port, Happens (.join a port p) (fun _ => p.type == 0x1E && decide (a < Config.ports) && decide (port < Config.devices)) (joinAct a port p) ∧
      Happens (.down a port p) (fun _ => p.type == 0x1F && decide (a < Config.ports) && decide (port < Config.devices)) (downAct a port p)) ∧
  ∀ party p,
    Happens (.lxpull party p) (fun s => lxDue s party 8 p && p.data.isEmpty &&
      (match party with | .device _ => (pulledStep s.run p).all fun st => !st.active || (st.acts && !st.chunkHeld p.tag (lxChunk p)) | .atoll .. => true)) (lxPacket party p fun a => pullAct a p) ∧
    Happens (.lxdata party p) (fun s => lxDue s party 9 p) (lxPacket party p fun a => contributionAct a (some p.rank) p) ∧
    Happens (.lxres party p) (fun s => lxDue s party 10 p && (match party with | .device _ => true | .atoll .. => false))
      (lxPacket party p fun a => contributionAct a none p) ∧
    Happens (.portdown party p) (fun s => noticeDue s party 0x20 p) (noticeAct party p) ∧
    Happens (.death party p) (fun s => noticeDue s party 0x21 p) (noticeAct party p) ∧
    Happens (.alive party p) (fun s => noticeDue s party 0x22 p) (noticeAct party p) ∧
    Happens (.park party p) (fun s => noticeDue s party 0x23 p) (noticeAct party p) ∧
    Happens (.unpark party p) (fun s => noticeDue s party 0x24 p) (noticeAct party p)

/-- What the management plane does takes place where it is due: resets, power, time (19 R473, R477, 20 R513, R514), losses, wait descriptors, sketches
and samples (19 R475, R479, R492, R493), replay modes, releases, kills and injections (19 R494, 17 R432, 21 R515), dies, cores and repairs
(20 R502 to R507), keys, firmware, attestation (20 R508 to R512), and the control node's accesses (20 R501). Requests are served by a trained Ferry
port and answered on it (20 R498). A request whose handle lacks the right is answered refused, and changes nothing else.
That rows take place by the agenda is the model's choice (log 4); readings: logs 109, 111, 121 and 124 to 132. -/
def Obligations.ManagementPlaneActs : Prop :=
  ((Happens .powerReset (fun s => coresOk s.mgmt.failing) powerReset ∧
      Happens .moduleReset (fun s => s.mgmt.powered && allWritten (narrows (s.run, s.mgmt)).1 && coresOk s.mgmt.failing) moduleReset) ∧
    Happens .powerLoss (fun s => s.mgmt.powered) powerLoss ∧
    Happens .mmpReset (fun s => s.mgmt.powered) mmpReset ∧
    Happens .holdover (fun s => s.mgmt.powered && s.mgmt.state == .ready && s.mgmt.locked && !s.mgmt.holdover && ferriesSilent s.run s.mgmt)
      (fun x => (emit' x.1 mmpUnit 0x0043 1 0, { x.2 with holdover := true })) ∧
    ∀ step, Happens (.timesync step) (fun s => timesyncDue s step) (timesyncAct step)) ∧
  (∀ u, HappensRun (.loss u) (fun s => (lossOf s.run u).isSome) (lossAct u) ∧
    Happens (.sketchRead u) (fun s => served s.mgmt && sketchUnit u) (sketchAct u)) ∧
  (∀ h part, Asked (.waitDescriptorRead h part) part h rightWaitgraph (fun _ => true) (fun x =>
      (x.1, answer x.2 (.waits (waitDescriptors x.1 x.2 part) ((tagsNamed (waitDescriptors x.1 x.2 part)).map tagTeam)))) ∧
    (∀ n, ToldAsked (.sampleInterval h part n) part h rightSample (fun _ => decide (10 ≤ n) && decide (n ≤ 30)) (fun x =>
      (x.1.updPart part fun p => { p with sampleLog := some n }, x.2))) ∧
    (∀ q mode, ToldAsked (.replayMode h part q mode) part h rightReplay (fun _ => decide (q < Config.queues)) (fun x =>
      (x.1.updPart part fun p => { p with modes := p.modes.put q mode }, x.2))) ∧
    ∀ die core count bit, ToldAsked (.injectionArm h part die core count bit) part h rightBreak
      (fun s => decide (core < Config.coresPerDie) && decide (die < Config.dies) && (s.run.part part).pdies.getLsbD die && decide (1 ≤ count) &&
        decide (count < 2 ^ 32) && decide (bit < 32))
      (fun x => (x.1.updCore die core fun k => { k with inject := some (count, bit) }, x.2))) ∧
  (∀ die core, HappensRun (.sample die core) (fun s => sampleDue s.run die core) (sampleAct die core) ∧
    HappensRun (.coreFence die core) (fun s => fenceDue s.run die core) (fenceAct die core) ∧
    ∀ slot hold, HappensRun (.powerThrottle die core slot hold)
      (fun s => decide (die < Config.dies) && decide (core < Config.coresPerDie) && decide (slot < 4) && (s.run.core die core).throttled.getLsbD slot != hold)
      (fun r => r.updCore die core fun k =>
        { k with throttled := if hold then k.throttled ||| (1#4 <<< slot) else k.throttled &&& ~~~(1#4 <<< slot) })) ∧
  (∀ g, let release := fun (x : Run × Mgmt) => (x.1.updGrp g fun g => { g with parked := none }, x.2)
    Told (.haltRelease { group := g }) (fun s => releaseDue s.run g) release ∧
    ∀ h part s, ((s.run.grp g).map (partOf s.run)).getD 0 = part → releaseDue s.run g = true → served s.mgmt = true → part < Config.partitions →
      let seen := rightsSeen s.run part (partDie s.run part) h
      exec (.haltRelease { handle := some h, group := g }) s = .next (
        if handleHolds s.run part h rightBreak then { s with run := (release (seen, s.mgmt)).1, mgmt := answer s.mgmt .done }
        else { s with run := seen, mgmt := answer s.mgmt .refused })) ∧
  (∀ x s, served s.mgmt = false ∨ releaseDue s.run x.group = false → exec (.haltRelease x) s = .fault .notPending) ∧
  (∀ t, Told (.watchdogKill t) (fun s => (s.run.team t).any fun t => !t.ended) (fun x => (watchdogAct t x.1, x.2))) ∧
  (∀ die, HappensRun (.drain die) (fun s => drainDueAt s.run die) (drainDie die) ∧
    Happens (.quarantine die) (fun s => quarantineDue s.run s.mgmt die) (quarantineAct die) ∧
    (∀ slot failed, Happens (.restart die slot failed) (fun s => restartDue s.run die slot failed) (restartAct die failed)) ∧
    Happens (.release die) (fun s => commandGiven s.run die 4) (releaseAct die) ∧
    Happens (.dcpReadyTimeout die) (fun s => dcpTimeoutDue s.run die) (dcpTimeoutAct die) ∧
    (∀ x, Happens (.dramRepair die x) (fun s => repairDue s.run s.mgmt die x) (repairAct die x)) ∧
    (∀ x, Happens (.healthUpdate die x) (fun s => healthDue s.run die x) (healthAct die x)) ∧
    ∀ x y, HappensRun (.eolUpdate die x y) (fun s => eolDue s.run die x y) (eolAct die x y)) ∧
  (∀ slot id part, Told (.keyLoad slot id part) (fun _ => decide (slot < Config.keySlots) && decide (part < Config.partitions))
      (setKey slot fun k => { keyid := id, loaded := true, part, gen := k.gen + 1 }) ∧
    Told (.keyClear slot) (fun _ => decide (slot < Config.keySlots)) (setKey slot fun k => { keyid := 0, loaded := false, part := 0, gen := k.gen + 1 })) ∧
  (∀ kind, Told (.firmwareCommit kind) (fun s => (pendingSlot s.mgmt kind).isSome) (fun x => (x.1, commitAct kind x.2)) ∧
    ∀ slot image, Happens (.firmwareWrite kind slot image) (fun s => imageServed s.mgmt &&
        (slotOf (fwSlots s.mgmt kind) slot).state != .active && decide (image.length ≤ slotBytesMax))
      (fun x => (x.1, writeImage kind slot image x.2))) ∧
  (∀ nonce, Happens (.attestation nonce) (fun s => served s.mgmt && nonce.length == 32) (fun x =>
    (x.1, answer x.2 (.report (reportBody x.1 x.2 nonce) (Config.signature (reportBody x.1 x.2 nonce)))))) ∧
  ∀ ferry part va,
    (∀ n acq, Happens (.hostmemRead ferry part va n acq) (fun s => hostDue s ferry part n) (hostRead ferry part va n)) ∧
    (∀ data rel, Happens (.hostmemWrite ferry part va data rel) (fun s => hostDue s ferry part data.length) (hostWrite ferry part va data)) ∧
    (∀ x, Happens (.add64 ferry part va x) (fun s => hostDue s ferry part 8 && va.toNat % 8 == 0) (hostAtomic ferry part va fun old => some (old + x))) ∧
    ∀ x y, Happens (.cas64 ferry part va x y) (fun s => hostDue s ferry part 8 && va.toNat % 8 == 0)
      (hostAtomic ferry part va fun old => if old = x then some y else none)
end

