-- ==== Sys2Proof/Laws/Sparse.lean ====
section
/-! SUPPORT. Reading sparse data after each of its updates, and what keeps its canonical form. -/
namespace Sys2Proof.Machine

variable {α : Type}

/-! Reading. -/

@[simp] theorem Sparse.find_put_self (m : Sparse α) (k : Nat) (v : α) : (Sparse.put m k v).find k = some v := by
  induction m with
  | nil => simp [Sparse.put, Sparse.find]
  | cons e t ih =>
    simp only [Sparse.put]
    split
    · simp [Sparse.find]
    · split <;> simp_all [Sparse.find]

theorem Sparse.find_put_of_ne {m : Sparse α} {k j : Nat} (h : j ≠ k) (v : α) : (Sparse.put m k v).find j = Sparse.find m j := by
  induction m with
  | nil => simp [Sparse.put, Sparse.find, h.symm]
  | cons e t ih =>
    simp only [Sparse.put]
    split
    · rename_i he
      simp [Sparse.find, h.symm, he]
    · split <;> simp_all [Sparse.find, h.symm]

@[simp] theorem Sparse.find_del_self (m : Sparse α) (k : Nat) : (Sparse.del m k).find k = none := by
  induction m with
  | nil => rfl
  | cons e t ih =>
    simp only [Sparse.del]
    split <;> simp_all [Sparse.find]

theorem Sparse.find_del_of_ne {m : Sparse α} {k j : Nat} (h : j ≠ k) : (Sparse.del m k).find j = Sparse.find m j := by
  induction m with
  | nil => rfl
  | cons e t ih =>
    simp only [Sparse.del]
    split
    · rename_i he
      rw [ih]
      simp [Sparse.find, he, h.symm]
    · simp [Sparse.find, ih]

@[simp] theorem Sparse.find_upd_self (m : Sparse α) (k : Nat) (f : α → α) : (Sparse.upd m k f).find k = (Sparse.find m k).map f := by
  induction m with
  | nil => rfl
  | cons e t ih =>
    simp only [Sparse.upd]
    split <;> simp_all [Sparse.find]

theorem Sparse.find_upd_of_ne {m : Sparse α} {k j : Nat} (h : j ≠ k) (f : α → α) : (Sparse.upd m k f).find j = Sparse.find m j := by
  induction m with
  | nil => rfl
  | cons e t ih =>
    simp only [Sparse.upd]
    split
    · rename_i he
      simp [Sparse.find, he, h.symm]
    · simp [Sparse.find, ih]

@[simp] theorem Sparse.upd_upd (m : Sparse α) (k : Nat) (f g : α → α) : Sparse.upd (Sparse.upd m k f) k g = Sparse.upd m k fun x => g (f x) := by
  induction m with
  | nil => rfl
  | cons e t ih =>
    simp only [Sparse.upd]
    split <;> simp_all [Sparse.upd]

@[simp] theorem Sparse.upd_id (m : Sparse α) (k : Nat) : Sparse.upd m k (fun x => x) = m := by
  induction m with
  | nil => rfl
  | cons e t ih =>
    simp only [Sparse.upd, ih]
    split <;> rfl

@[simp] theorem Sparse.get_set_self [DecidableEq α] (d : α) (m : Sparse α) (k : Nat) (v : α) : Sparse.get d (Sparse.set d m k v) k = v := by
  unfold Sparse.get Sparse.set
  split <;> simp_all

theorem Sparse.get_set_of_ne [DecidableEq α] {m : Sparse α} {k j : Nat} (h : j ≠ k) (d v : α) :
    Sparse.get d (Sparse.set d m k v) j = Sparse.get d m j := by
  unfold Sparse.get Sparse.set
  split
  · rw [Sparse.find_del_of_ne h]
  · rw [Sparse.find_put_of_ne h]

/-- A key that is not among those set keeps its value. -/
theorem Sparse.get_setAll_of_not_mem [DecidableEq α] {m : Sparse α} {kvs : List (Nat × α)} {k : Nat} (h : k ∉ kvs.map (·.1)) (d : α) :
    Sparse.get d (Sparse.setAll d m kvs) k = Sparse.get d m k := by
  induction kvs generalizing m with
  | nil => rfl
  | cons e t ih =>
    simp only [List.map_cons, List.mem_cons, not_or] at h
    exact (ih h.2).trans (Sparse.get_set_of_ne h.1 d e.2)

/-- Of the values set under distinct keys each is read back. -/
theorem Sparse.get_setAll_of_mem [DecidableEq α] {m : Sparse α} {kvs : List (Nat × α)} {k : Nat} {v : α} (hn : (kvs.map (·.1)).Nodup)
    (h : (k, v) ∈ kvs) (d : α) : Sparse.get d (Sparse.setAll d m kvs) k = v := by
  induction kvs generalizing m with
  | nil => simp at h
  | cons e t ih =>
    simp only [List.map_cons, List.nodup_cons] at hn
    rcases List.mem_cons.mp h with rfl | h
    · exact (Sparse.get_setAll_of_not_mem hn.1 d).trans (Sparse.get_set_self d m k v)
    · exact ih hn.2 h

/-! The canonical form. -/

theorem Sparse.sortedFrom_mono {m : Sparse α} {lo hi : Nat} (h : lo ≤ hi) (hm : Sparse.sortedFrom hi m = true) :
    Sparse.sortedFrom lo m = true := by
  cases m with
  | nil => rfl
  | cons e t =>
    simp only [Sparse.sortedFrom, Bool.and_eq_true, decide_eq_true_eq] at *
    exact ⟨by omega, hm.2⟩

theorem Sparse.sortedFrom_put {m : Sparse α} {lo k : Nat} (v : α) (h : lo ≤ k) (hm : Sparse.sortedFrom lo m = true) :
    Sparse.sortedFrom lo (Sparse.put m k v) = true := by
  induction m generalizing lo with
  | nil => simp [Sparse.put, Sparse.sortedFrom, h]
  | cons e t ih =>
    simp only [Sparse.sortedFrom, Bool.and_eq_true, decide_eq_true_eq] at hm
    simp only [Sparse.put]
    split
    · rename_i he
      simp only [Sparse.sortedFrom, Bool.and_eq_true, decide_eq_true_eq]
      exact ⟨h, he ▸ hm.2⟩
    · split
      · simp only [Sparse.sortedFrom, Bool.and_eq_true, decide_eq_true_eq]
        exact ⟨h, by omega, hm.2⟩
      · simp only [Sparse.sortedFrom, Bool.and_eq_true, decide_eq_true_eq]
        exact ⟨hm.1, ih (by omega) hm.2⟩

theorem Sparse.sortedFrom_del {m : Sparse α} {lo : Nat} (k : Nat) (hm : Sparse.sortedFrom lo m = true) :
    Sparse.sortedFrom lo (Sparse.del m k) = true := by
  induction m generalizing lo with
  | nil => rfl
  | cons e t ih =>
    simp only [Sparse.sortedFrom, Bool.and_eq_true, decide_eq_true_eq] at hm
    simp only [Sparse.del]
    split
    · exact Sparse.sortedFrom_mono (by omega) (ih hm.2)
    · simp only [Sparse.sortedFrom, Bool.and_eq_true, decide_eq_true_eq]
      exact ⟨hm.1, ih hm.2⟩

theorem Sparse.mem_put {m : Sparse α} {k : Nat} {v : α} {e : Nat × α} (h : e ∈ Sparse.put m k v) : e = (k, v) ∨ e ∈ m := by
  induction m with
  | nil => simpa [Sparse.put] using h
  | cons x t ih =>
    simp only [Sparse.put] at h
    split at h
    · rcases List.mem_cons.mp h with h | h
      · exact .inl h
      · exact .inr (List.mem_cons_of_mem _ h)
    · split at h
      · rcases List.mem_cons.mp h with h | h
        · exact .inl h
        · exact .inr h
      · rcases List.mem_cons.mp h with h | h
        · exact .inr (h ▸ List.mem_cons_self)
        · exact (ih h).imp id (List.mem_cons_of_mem _)

theorem Sparse.mem_del {m : Sparse α} {k : Nat} {e : Nat × α} (h : e ∈ Sparse.del m k) : e ∈ m := by
  induction m with
  | nil => exact h
  | cons x t ih =>
    simp only [Sparse.del] at h
    split at h
    · exact List.mem_cons_of_mem _ (ih h)
    · rcases List.mem_cons.mp h with h | h
      · exact h ▸ List.mem_cons_self
      · exact List.mem_cons_of_mem _ (ih h)

/-- Setting a key keeps the canonical form. -/
theorem Sparse.wf_set [DecidableEq α] {d : α} {m : Sparse α} (k : Nat) (v : α) (hm : Sparse.wf d m = true) :
    Sparse.wf d (Sparse.set d m k v) = true := by
  simp only [Sparse.wf, Bool.and_eq_true, List.all_eq_true, decide_eq_true_eq] at *
  unfold Sparse.set
  split
  · exact ⟨Sparse.sortedFrom_del k hm.1, fun e he => hm.2 e (Sparse.mem_del he)⟩
  · rename_i hv
    refine ⟨Sparse.sortedFrom_put v (Nat.zero_le k) hm.1, fun e he => ?_⟩
    rcases Sparse.mem_put he with rfl | he
    · exact hv
    · exact hm.2 e he

theorem Sparse.wf_setAll [DecidableEq α] {d : α} {m : Sparse α} (kvs : List (Nat × α)) (hm : Sparse.wf d m = true) :
    Sparse.wf d (Sparse.setAll d m kvs) = true := by
  induction kvs generalizing m with
  | nil => exact hm
  | cons e t ih => exact ih (Sparse.wf_set e.1 e.2 hm)

end Sys2Proof.Machine
end

