-- ==== Sys2Proof/Laws/State.lean ====
section
/-! SUPPORT. What each update of the state leaves as it was, one lemma for each update and field. -/
namespace Sys2Proof.Machine

/-! Updates of one part of what executes. -/

@[simp] theorem Run.updPart_groups (r : Run) (n : Nat) (f : Partition → Partition) : (r.updPart n f).groups = r.groups := rfl
@[simp] theorem Run.updPart_teams (r : Run) (n : Nat) (f : Partition → Partition) : (r.updPart n f).teams = r.teams := rfl
@[simp] theorem Run.updPart_clusters (r : Run) (n : Nat) (f : Partition → Partition) : (r.updPart n f).clusters = r.clusters := rfl
@[simp] theorem Run.updPart_launches (r : Run) (n : Nat) (f : Partition → Partition) : (r.updPart n f).launches = r.launches := rfl
@[simp] theorem Run.updPart_ops (r : Run) (n : Nat) (f : Partition → Partition) : (r.updPart n f).ops = r.ops := rfl
@[simp] theorem Run.updPart_steps (r : Run) (n : Nat) (f : Partition → Partition) : (r.updPart n f).steps = r.steps := rfl
@[simp] theorem Run.updPart_dies (r : Run) (n : Nat) (f : Partition → Partition) : (r.updPart n f).dies = r.dies := rfl
@[simp] theorem Run.updPart_mem (r : Run) (n : Nat) (f : Partition → Partition) : (r.updPart n f).mem = r.mem := rfl
@[simp] theorem Run.updPart_late (r : Run) (n : Nat) (f : Partition → Partition) : (r.updPart n f).late = r.late := rfl
@[simp] theorem Run.updPart_tags (r : Run) (n : Nat) (f : Partition → Partition) : (r.updPart n f).tags = r.tags := rfl
@[simp] theorem Run.updPart_pinned (r : Run) (n : Nat) (f : Partition → Partition) : (r.updPart n f).pinned = r.pinned := rfl
@[simp] theorem Run.updPart_units (r : Run) (n : Nat) (f : Partition → Partition) : (r.updPart n f).units = r.units := rfl
@[simp] theorem Run.updPart_reqs (r : Run) (n : Nat) (f : Partition → Partition) : (r.updPart n f).reqs = r.reqs := rfl
@[simp] theorem Run.updPart_nextTag (r : Run) (n : Nat) (f : Partition → Partition) : (r.updPart n f).nextTag = r.nextTag := rfl
@[simp] theorem Run.updPart_outbox (r : Run) (n : Nat) (f : Partition → Partition) : (r.updPart n f).outbox = r.outbox := rfl
@[simp] theorem Run.updPart_keys (r : Run) (n : Nat) (f : Partition → Partition) : (r.updPart n f).keys = r.keys := rfl
@[simp] theorem Run.updPart_keySeed (r : Run) (n : Nat) (f : Partition → Partition) : (r.updPart n f).keySeed = r.keySeed := rfl
@[simp] theorem Run.updPart_incarn (r : Run) (n : Nat) (f : Partition → Partition) : (r.updPart n f).incarn = r.incarn := rfl
@[simp] theorem Run.updPart_devid (r : Run) (n : Nat) (f : Partition → Partition) : (r.updPart n f).devid = r.devid := rfl
@[simp] theorem Run.updPart_evTimes (r : Run) (n : Nat) (f : Partition → Partition) : (r.updPart n f).evTimes = r.evTimes := rfl
@[simp] theorem Run.updPart_sketches (r : Run) (n : Nat) (f : Partition → Partition) : (r.updPart n f).sketches = r.sketches := rfl
@[simp] theorem Run.updPart_accPc (r : Run) (n : Nat) (f : Partition → Partition) : (r.updPart n f).accPc = r.accPc := rfl
@[simp] theorem Run.updPart_accHint (r : Run) (n : Nat) (f : Partition → Partition) : (r.updPart n f).accHint = r.accHint := rfl
@[simp] theorem Run.updPart_issuing (r : Run) (n : Nat) (f : Partition → Partition) : (r.updPart n f).issuing = r.issuing := rfl
@[simp] theorem Run.updPart_ready (r : Run) (n : Nat) (f : Partition → Partition) : (r.updPart n f).ready = r.ready := rfl
@[simp] theorem Run.updPart_nextId (r : Run) (n : Nat) (f : Partition → Partition) : (r.updPart n f).nextId = r.nextId := rfl
@[simp] theorem Run.updPart_fresh (r : Run) (n : Nat) (f : Partition → Partition) : (r.updPart n f).fresh = r.fresh := rfl
@[simp] theorem Run.updPart_tick (r : Run) (n : Nat) (f : Partition → Partition) : (r.updPart n f).tick = r.tick := rfl

@[simp] theorem Run.updDie_groups (r : Run) (n : Nat) (f : Die → Die) : (r.updDie n f).groups = r.groups := rfl
@[simp] theorem Run.updDie_teams (r : Run) (n : Nat) (f : Die → Die) : (r.updDie n f).teams = r.teams := rfl
@[simp] theorem Run.updDie_clusters (r : Run) (n : Nat) (f : Die → Die) : (r.updDie n f).clusters = r.clusters := rfl
@[simp] theorem Run.updDie_launches (r : Run) (n : Nat) (f : Die → Die) : (r.updDie n f).launches = r.launches := rfl
@[simp] theorem Run.updDie_ops (r : Run) (n : Nat) (f : Die → Die) : (r.updDie n f).ops = r.ops := rfl
@[simp] theorem Run.updDie_steps (r : Run) (n : Nat) (f : Die → Die) : (r.updDie n f).steps = r.steps := rfl
@[simp] theorem Run.updDie_parts (r : Run) (n : Nat) (f : Die → Die) : (r.updDie n f).parts = r.parts := rfl
@[simp] theorem Run.updDie_mem (r : Run) (n : Nat) (f : Die → Die) : (r.updDie n f).mem = r.mem := rfl
@[simp] theorem Run.updDie_late (r : Run) (n : Nat) (f : Die → Die) : (r.updDie n f).late = r.late := rfl
@[simp] theorem Run.updDie_tags (r : Run) (n : Nat) (f : Die → Die) : (r.updDie n f).tags = r.tags := rfl
@[simp] theorem Run.updDie_pinned (r : Run) (n : Nat) (f : Die → Die) : (r.updDie n f).pinned = r.pinned := rfl
@[simp] theorem Run.updDie_units (r : Run) (n : Nat) (f : Die → Die) : (r.updDie n f).units = r.units := rfl
@[simp] theorem Run.updDie_reqs (r : Run) (n : Nat) (f : Die → Die) : (r.updDie n f).reqs = r.reqs := rfl
@[simp] theorem Run.updDie_nextTag (r : Run) (n : Nat) (f : Die → Die) : (r.updDie n f).nextTag = r.nextTag := rfl
@[simp] theorem Run.updDie_outbox (r : Run) (n : Nat) (f : Die → Die) : (r.updDie n f).outbox = r.outbox := rfl
@[simp] theorem Run.updDie_keys (r : Run) (n : Nat) (f : Die → Die) : (r.updDie n f).keys = r.keys := rfl
@[simp] theorem Run.updDie_keySeed (r : Run) (n : Nat) (f : Die → Die) : (r.updDie n f).keySeed = r.keySeed := rfl
@[simp] theorem Run.updDie_incarn (r : Run) (n : Nat) (f : Die → Die) : (r.updDie n f).incarn = r.incarn := rfl
@[simp] theorem Run.updDie_devid (r : Run) (n : Nat) (f : Die → Die) : (r.updDie n f).devid = r.devid := rfl
@[simp] theorem Run.updDie_evTimes (r : Run) (n : Nat) (f : Die → Die) : (r.updDie n f).evTimes = r.evTimes := rfl
@[simp] theorem Run.updDie_sketches (r : Run) (n : Nat) (f : Die → Die) : (r.updDie n f).sketches = r.sketches := rfl
@[simp] theorem Run.updDie_accPc (r : Run) (n : Nat) (f : Die → Die) : (r.updDie n f).accPc = r.accPc := rfl
@[simp] theorem Run.updDie_accHint (r : Run) (n : Nat) (f : Die → Die) : (r.updDie n f).accHint = r.accHint := rfl
@[simp] theorem Run.updDie_issuing (r : Run) (n : Nat) (f : Die → Die) : (r.updDie n f).issuing = r.issuing := rfl
@[simp] theorem Run.updDie_ready (r : Run) (n : Nat) (f : Die → Die) : (r.updDie n f).ready = r.ready := rfl
@[simp] theorem Run.updDie_nextId (r : Run) (n : Nat) (f : Die → Die) : (r.updDie n f).nextId = r.nextId := rfl
@[simp] theorem Run.updDie_fresh (r : Run) (n : Nat) (f : Die → Die) : (r.updDie n f).fresh = r.fresh := rfl
@[simp] theorem Run.updDie_tick (r : Run) (n : Nat) (f : Die → Die) : (r.updDie n f).tick = r.tick := rfl

@[simp] theorem Run.updCore_groups (r : Run) (d k : Nat) (f : Core → Core) : (r.updCore d k f).groups = r.groups := rfl
@[simp] theorem Run.updCore_teams (r : Run) (d k : Nat) (f : Core → Core) : (r.updCore d k f).teams = r.teams := rfl
@[simp] theorem Run.updCore_clusters (r : Run) (d k : Nat) (f : Core → Core) : (r.updCore d k f).clusters = r.clusters := rfl
@[simp] theorem Run.updCore_launches (r : Run) (d k : Nat) (f : Core → Core) : (r.updCore d k f).launches = r.launches := rfl
@[simp] theorem Run.updCore_ops (r : Run) (d k : Nat) (f : Core → Core) : (r.updCore d k f).ops = r.ops := rfl
@[simp] theorem Run.updCore_steps (r : Run) (d k : Nat) (f : Core → Core) : (r.updCore d k f).steps = r.steps := rfl
@[simp] theorem Run.updCore_parts (r : Run) (d k : Nat) (f : Core → Core) : (r.updCore d k f).parts = r.parts := rfl
@[simp] theorem Run.updCore_mem (r : Run) (d k : Nat) (f : Core → Core) : (r.updCore d k f).mem = r.mem := rfl
@[simp] theorem Run.updCore_late (r : Run) (d k : Nat) (f : Core → Core) : (r.updCore d k f).late = r.late := rfl
@[simp] theorem Run.updCore_tags (r : Run) (d k : Nat) (f : Core → Core) : (r.updCore d k f).tags = r.tags := rfl
@[simp] theorem Run.updCore_pinned (r : Run) (d k : Nat) (f : Core → Core) : (r.updCore d k f).pinned = r.pinned := rfl
@[simp] theorem Run.updCore_units (r : Run) (d k : Nat) (f : Core → Core) : (r.updCore d k f).units = r.units := rfl
@[simp] theorem Run.updCore_reqs (r : Run) (d k : Nat) (f : Core → Core) : (r.updCore d k f).reqs = r.reqs := rfl
@[simp] theorem Run.updCore_nextTag (r : Run) (d k : Nat) (f : Core → Core) : (r.updCore d k f).nextTag = r.nextTag := rfl
@[simp] theorem Run.updCore_outbox (r : Run) (d k : Nat) (f : Core → Core) : (r.updCore d k f).outbox = r.outbox := rfl
@[simp] theorem Run.updCore_keys (r : Run) (d k : Nat) (f : Core → Core) : (r.updCore d k f).keys = r.keys := rfl
@[simp] theorem Run.updCore_keySeed (r : Run) (d k : Nat) (f : Core → Core) : (r.updCore d k f).keySeed = r.keySeed := rfl
@[simp] theorem Run.updCore_incarn (r : Run) (d k : Nat) (f : Core → Core) : (r.updCore d k f).incarn = r.incarn := rfl
@[simp] theorem Run.updCore_devid (r : Run) (d k : Nat) (f : Core → Core) : (r.updCore d k f).devid = r.devid := rfl
@[simp] theorem Run.updCore_evTimes (r : Run) (d k : Nat) (f : Core → Core) : (r.updCore d k f).evTimes = r.evTimes := rfl
@[simp] theorem Run.updCore_sketches (r : Run) (d k : Nat) (f : Core → Core) : (r.updCore d k f).sketches = r.sketches := rfl
@[simp] theorem Run.updCore_accPc (r : Run) (d k : Nat) (f : Core → Core) : (r.updCore d k f).accPc = r.accPc := rfl
@[simp] theorem Run.updCore_accHint (r : Run) (d k : Nat) (f : Core → Core) : (r.updCore d k f).accHint = r.accHint := rfl
@[simp] theorem Run.updCore_issuing (r : Run) (d k : Nat) (f : Core → Core) : (r.updCore d k f).issuing = r.issuing := rfl
@[simp] theorem Run.updCore_ready (r : Run) (d k : Nat) (f : Core → Core) : (r.updCore d k f).ready = r.ready := rfl
@[simp] theorem Run.updCore_nextId (r : Run) (d k : Nat) (f : Core → Core) : (r.updCore d k f).nextId = r.nextId := rfl
@[simp] theorem Run.updCore_fresh (r : Run) (d k : Nat) (f : Core → Core) : (r.updCore d k f).fresh = r.fresh := rfl
@[simp] theorem Run.updCore_tick (r : Run) (d k : Nat) (f : Core → Core) : (r.updCore d k f).tick = r.tick := rfl

@[simp] theorem Run.updGrp_teams (r : Run) (n : Nat) (f : Grp → Grp) : (r.updGrp n f).teams = r.teams := rfl
@[simp] theorem Run.updGrp_clusters (r : Run) (n : Nat) (f : Grp → Grp) : (r.updGrp n f).clusters = r.clusters := rfl
@[simp] theorem Run.updGrp_launches (r : Run) (n : Nat) (f : Grp → Grp) : (r.updGrp n f).launches = r.launches := rfl
@[simp] theorem Run.updGrp_ops (r : Run) (n : Nat) (f : Grp → Grp) : (r.updGrp n f).ops = r.ops := rfl
@[simp] theorem Run.updGrp_steps (r : Run) (n : Nat) (f : Grp → Grp) : (r.updGrp n f).steps = r.steps := rfl
@[simp] theorem Run.updGrp_parts (r : Run) (n : Nat) (f : Grp → Grp) : (r.updGrp n f).parts = r.parts := rfl
@[simp] theorem Run.updGrp_dies (r : Run) (n : Nat) (f : Grp → Grp) : (r.updGrp n f).dies = r.dies := rfl
@[simp] theorem Run.updGrp_mem (r : Run) (n : Nat) (f : Grp → Grp) : (r.updGrp n f).mem = r.mem := rfl
@[simp] theorem Run.updGrp_late (r : Run) (n : Nat) (f : Grp → Grp) : (r.updGrp n f).late = r.late := rfl
@[simp] theorem Run.updGrp_tags (r : Run) (n : Nat) (f : Grp → Grp) : (r.updGrp n f).tags = r.tags := rfl
@[simp] theorem Run.updGrp_pinned (r : Run) (n : Nat) (f : Grp → Grp) : (r.updGrp n f).pinned = r.pinned := rfl
@[simp] theorem Run.updGrp_units (r : Run) (n : Nat) (f : Grp → Grp) : (r.updGrp n f).units = r.units := rfl
@[simp] theorem Run.updGrp_reqs (r : Run) (n : Nat) (f : Grp → Grp) : (r.updGrp n f).reqs = r.reqs := rfl
@[simp] theorem Run.updGrp_nextTag (r : Run) (n : Nat) (f : Grp → Grp) : (r.updGrp n f).nextTag = r.nextTag := rfl
@[simp] theorem Run.updGrp_outbox (r : Run) (n : Nat) (f : Grp → Grp) : (r.updGrp n f).outbox = r.outbox := rfl
@[simp] theorem Run.updGrp_keys (r : Run) (n : Nat) (f : Grp → Grp) : (r.updGrp n f).keys = r.keys := rfl
@[simp] theorem Run.updGrp_keySeed (r : Run) (n : Nat) (f : Grp → Grp) : (r.updGrp n f).keySeed = r.keySeed := rfl
@[simp] theorem Run.updGrp_incarn (r : Run) (n : Nat) (f : Grp → Grp) : (r.updGrp n f).incarn = r.incarn := rfl
@[simp] theorem Run.updGrp_devid (r : Run) (n : Nat) (f : Grp → Grp) : (r.updGrp n f).devid = r.devid := rfl
@[simp] theorem Run.updGrp_evTimes (r : Run) (n : Nat) (f : Grp → Grp) : (r.updGrp n f).evTimes = r.evTimes := rfl
@[simp] theorem Run.updGrp_sketches (r : Run) (n : Nat) (f : Grp → Grp) : (r.updGrp n f).sketches = r.sketches := rfl
@[simp] theorem Run.updGrp_accPc (r : Run) (n : Nat) (f : Grp → Grp) : (r.updGrp n f).accPc = r.accPc := rfl
@[simp] theorem Run.updGrp_accHint (r : Run) (n : Nat) (f : Grp → Grp) : (r.updGrp n f).accHint = r.accHint := rfl
@[simp] theorem Run.updGrp_issuing (r : Run) (n : Nat) (f : Grp → Grp) : (r.updGrp n f).issuing = r.issuing := rfl
@[simp] theorem Run.updGrp_ready (r : Run) (n : Nat) (f : Grp → Grp) : (r.updGrp n f).ready = r.ready := rfl
@[simp] theorem Run.updGrp_nextId (r : Run) (n : Nat) (f : Grp → Grp) : (r.updGrp n f).nextId = r.nextId := rfl
@[simp] theorem Run.updGrp_fresh (r : Run) (n : Nat) (f : Grp → Grp) : (r.updGrp n f).fresh = r.fresh := rfl
@[simp] theorem Run.updGrp_tick (r : Run) (n : Nat) (f : Grp → Grp) : (r.updGrp n f).tick = r.tick := rfl

@[simp] theorem Run.updTeam_groups (r : Run) (n : Nat) (f : Team → Team) : (r.updTeam n f).groups = r.groups := rfl
@[simp] theorem Run.updTeam_clusters (r : Run) (n : Nat) (f : Team → Team) : (r.updTeam n f).clusters = r.clusters := rfl
@[simp] theorem Run.updTeam_launches (r : Run) (n : Nat) (f : Team → Team) : (r.updTeam n f).launches = r.launches := rfl
@[simp] theorem Run.updTeam_ops (r : Run) (n : Nat) (f : Team → Team) : (r.updTeam n f).ops = r.ops := rfl
@[simp] theorem Run.updTeam_steps (r : Run) (n : Nat) (f : Team → Team) : (r.updTeam n f).steps = r.steps := rfl
@[simp] theorem Run.updTeam_parts (r : Run) (n : Nat) (f : Team → Team) : (r.updTeam n f).parts = r.parts := rfl
@[simp] theorem Run.updTeam_dies (r : Run) (n : Nat) (f : Team → Team) : (r.updTeam n f).dies = r.dies := rfl
@[simp] theorem Run.updTeam_mem (r : Run) (n : Nat) (f : Team → Team) : (r.updTeam n f).mem = r.mem := rfl
@[simp] theorem Run.updTeam_late (r : Run) (n : Nat) (f : Team → Team) : (r.updTeam n f).late = r.late := rfl
@[simp] theorem Run.updTeam_tags (r : Run) (n : Nat) (f : Team → Team) : (r.updTeam n f).tags = r.tags := rfl
@[simp] theorem Run.updTeam_pinned (r : Run) (n : Nat) (f : Team → Team) : (r.updTeam n f).pinned = r.pinned := rfl
@[simp] theorem Run.updTeam_units (r : Run) (n : Nat) (f : Team → Team) : (r.updTeam n f).units = r.units := rfl
@[simp] theorem Run.updTeam_reqs (r : Run) (n : Nat) (f : Team → Team) : (r.updTeam n f).reqs = r.reqs := rfl
@[simp] theorem Run.updTeam_nextTag (r : Run) (n : Nat) (f : Team → Team) : (r.updTeam n f).nextTag = r.nextTag := rfl
@[simp] theorem Run.updTeam_outbox (r : Run) (n : Nat) (f : Team → Team) : (r.updTeam n f).outbox = r.outbox := rfl
@[simp] theorem Run.updTeam_keys (r : Run) (n : Nat) (f : Team → Team) : (r.updTeam n f).keys = r.keys := rfl
@[simp] theorem Run.updTeam_keySeed (r : Run) (n : Nat) (f : Team → Team) : (r.updTeam n f).keySeed = r.keySeed := rfl
@[simp] theorem Run.updTeam_incarn (r : Run) (n : Nat) (f : Team → Team) : (r.updTeam n f).incarn = r.incarn := rfl
@[simp] theorem Run.updTeam_devid (r : Run) (n : Nat) (f : Team → Team) : (r.updTeam n f).devid = r.devid := rfl
@[simp] theorem Run.updTeam_evTimes (r : Run) (n : Nat) (f : Team → Team) : (r.updTeam n f).evTimes = r.evTimes := rfl
@[simp] theorem Run.updTeam_sketches (r : Run) (n : Nat) (f : Team → Team) : (r.updTeam n f).sketches = r.sketches := rfl
@[simp] theorem Run.updTeam_accPc (r : Run) (n : Nat) (f : Team → Team) : (r.updTeam n f).accPc = r.accPc := rfl
@[simp] theorem Run.updTeam_accHint (r : Run) (n : Nat) (f : Team → Team) : (r.updTeam n f).accHint = r.accHint := rfl
@[simp] theorem Run.updTeam_issuing (r : Run) (n : Nat) (f : Team → Team) : (r.updTeam n f).issuing = r.issuing := rfl
@[simp] theorem Run.updTeam_ready (r : Run) (n : Nat) (f : Team → Team) : (r.updTeam n f).ready = r.ready := rfl
@[simp] theorem Run.updTeam_nextId (r : Run) (n : Nat) (f : Team → Team) : (r.updTeam n f).nextId = r.nextId := rfl
@[simp] theorem Run.updTeam_fresh (r : Run) (n : Nat) (f : Team → Team) : (r.updTeam n f).fresh = r.fresh := rfl
@[simp] theorem Run.updTeam_tick (r : Run) (n : Nat) (f : Team → Team) : (r.updTeam n f).tick = r.tick := rfl

@[simp] theorem Run.updCluster_groups (r : Run) (n : Nat) (f : Cluster → Cluster) : (r.updCluster n f).groups = r.groups := rfl
@[simp] theorem Run.updCluster_teams (r : Run) (n : Nat) (f : Cluster → Cluster) : (r.updCluster n f).teams = r.teams := rfl
@[simp] theorem Run.updCluster_launches (r : Run) (n : Nat) (f : Cluster → Cluster) : (r.updCluster n f).launches = r.launches := rfl
@[simp] theorem Run.updCluster_ops (r : Run) (n : Nat) (f : Cluster → Cluster) : (r.updCluster n f).ops = r.ops := rfl
@[simp] theorem Run.updCluster_steps (r : Run) (n : Nat) (f : Cluster → Cluster) : (r.updCluster n f).steps = r.steps := rfl
@[simp] theorem Run.updCluster_parts (r : Run) (n : Nat) (f : Cluster → Cluster) : (r.updCluster n f).parts = r.parts := rfl
@[simp] theorem Run.updCluster_dies (r : Run) (n : Nat) (f : Cluster → Cluster) : (r.updCluster n f).dies = r.dies := rfl
@[simp] theorem Run.updCluster_mem (r : Run) (n : Nat) (f : Cluster → Cluster) : (r.updCluster n f).mem = r.mem := rfl
@[simp] theorem Run.updCluster_late (r : Run) (n : Nat) (f : Cluster → Cluster) : (r.updCluster n f).late = r.late := rfl
@[simp] theorem Run.updCluster_tags (r : Run) (n : Nat) (f : Cluster → Cluster) : (r.updCluster n f).tags = r.tags := rfl
@[simp] theorem Run.updCluster_pinned (r : Run) (n : Nat) (f : Cluster → Cluster) : (r.updCluster n f).pinned = r.pinned := rfl
@[simp] theorem Run.updCluster_units (r : Run) (n : Nat) (f : Cluster → Cluster) : (r.updCluster n f).units = r.units := rfl
@[simp] theorem Run.updCluster_reqs (r : Run) (n : Nat) (f : Cluster → Cluster) : (r.updCluster n f).reqs = r.reqs := rfl
@[simp] theorem Run.updCluster_nextTag (r : Run) (n : Nat) (f : Cluster → Cluster) : (r.updCluster n f).nextTag = r.nextTag := rfl
@[simp] theorem Run.updCluster_outbox (r : Run) (n : Nat) (f : Cluster → Cluster) : (r.updCluster n f).outbox = r.outbox := rfl
@[simp] theorem Run.updCluster_keys (r : Run) (n : Nat) (f : Cluster → Cluster) : (r.updCluster n f).keys = r.keys := rfl
@[simp] theorem Run.updCluster_keySeed (r : Run) (n : Nat) (f : Cluster → Cluster) : (r.updCluster n f).keySeed = r.keySeed := rfl
@[simp] theorem Run.updCluster_incarn (r : Run) (n : Nat) (f : Cluster → Cluster) : (r.updCluster n f).incarn = r.incarn := rfl
@[simp] theorem Run.updCluster_devid (r : Run) (n : Nat) (f : Cluster → Cluster) : (r.updCluster n f).devid = r.devid := rfl
@[simp] theorem Run.updCluster_evTimes (r : Run) (n : Nat) (f : Cluster → Cluster) : (r.updCluster n f).evTimes = r.evTimes := rfl
@[simp] theorem Run.updCluster_sketches (r : Run) (n : Nat) (f : Cluster → Cluster) : (r.updCluster n f).sketches = r.sketches := rfl
@[simp] theorem Run.updCluster_accPc (r : Run) (n : Nat) (f : Cluster → Cluster) : (r.updCluster n f).accPc = r.accPc := rfl
@[simp] theorem Run.updCluster_accHint (r : Run) (n : Nat) (f : Cluster → Cluster) : (r.updCluster n f).accHint = r.accHint := rfl
@[simp] theorem Run.updCluster_issuing (r : Run) (n : Nat) (f : Cluster → Cluster) : (r.updCluster n f).issuing = r.issuing := rfl
@[simp] theorem Run.updCluster_ready (r : Run) (n : Nat) (f : Cluster → Cluster) : (r.updCluster n f).ready = r.ready := rfl
@[simp] theorem Run.updCluster_nextId (r : Run) (n : Nat) (f : Cluster → Cluster) : (r.updCluster n f).nextId = r.nextId := rfl
@[simp] theorem Run.updCluster_fresh (r : Run) (n : Nat) (f : Cluster → Cluster) : (r.updCluster n f).fresh = r.fresh := rfl
@[simp] theorem Run.updCluster_tick (r : Run) (n : Nat) (f : Cluster → Cluster) : (r.updCluster n f).tick = r.tick := rfl

@[simp] theorem Run.updLaunch_groups (r : Run) (n : Nat) (f : Launch → Launch) : (r.updLaunch n f).groups = r.groups := rfl
@[simp] theorem Run.updLaunch_teams (r : Run) (n : Nat) (f : Launch → Launch) : (r.updLaunch n f).teams = r.teams := rfl
@[simp] theorem Run.updLaunch_clusters (r : Run) (n : Nat) (f : Launch → Launch) : (r.updLaunch n f).clusters = r.clusters := rfl
@[simp] theorem Run.updLaunch_ops (r : Run) (n : Nat) (f : Launch → Launch) : (r.updLaunch n f).ops = r.ops := rfl
@[simp] theorem Run.updLaunch_steps (r : Run) (n : Nat) (f : Launch → Launch) : (r.updLaunch n f).steps = r.steps := rfl
@[simp] theorem Run.updLaunch_parts (r : Run) (n : Nat) (f : Launch → Launch) : (r.updLaunch n f).parts = r.parts := rfl
@[simp] theorem Run.updLaunch_dies (r : Run) (n : Nat) (f : Launch → Launch) : (r.updLaunch n f).dies = r.dies := rfl
@[simp] theorem Run.updLaunch_mem (r : Run) (n : Nat) (f : Launch → Launch) : (r.updLaunch n f).mem = r.mem := rfl
@[simp] theorem Run.updLaunch_late (r : Run) (n : Nat) (f : Launch → Launch) : (r.updLaunch n f).late = r.late := rfl
@[simp] theorem Run.updLaunch_tags (r : Run) (n : Nat) (f : Launch → Launch) : (r.updLaunch n f).tags = r.tags := rfl
@[simp] theorem Run.updLaunch_pinned (r : Run) (n : Nat) (f : Launch → Launch) : (r.updLaunch n f).pinned = r.pinned := rfl
@[simp] theorem Run.updLaunch_units (r : Run) (n : Nat) (f : Launch → Launch) : (r.updLaunch n f).units = r.units := rfl
@[simp] theorem Run.updLaunch_reqs (r : Run) (n : Nat) (f : Launch → Launch) : (r.updLaunch n f).reqs = r.reqs := rfl
@[simp] theorem Run.updLaunch_nextTag (r : Run) (n : Nat) (f : Launch → Launch) : (r.updLaunch n f).nextTag = r.nextTag := rfl
@[simp] theorem Run.updLaunch_outbox (r : Run) (n : Nat) (f : Launch → Launch) : (r.updLaunch n f).outbox = r.outbox := rfl
@[simp] theorem Run.updLaunch_keys (r : Run) (n : Nat) (f : Launch → Launch) : (r.updLaunch n f).keys = r.keys := rfl
@[simp] theorem Run.updLaunch_keySeed (r : Run) (n : Nat) (f : Launch → Launch) : (r.updLaunch n f).keySeed = r.keySeed := rfl
@[simp] theorem Run.updLaunch_incarn (r : Run) (n : Nat) (f : Launch → Launch) : (r.updLaunch n f).incarn = r.incarn := rfl
@[simp] theorem Run.updLaunch_devid (r : Run) (n : Nat) (f : Launch → Launch) : (r.updLaunch n f).devid = r.devid := rfl
@[simp] theorem Run.updLaunch_evTimes (r : Run) (n : Nat) (f : Launch → Launch) : (r.updLaunch n f).evTimes = r.evTimes := rfl
@[simp] theorem Run.updLaunch_sketches (r : Run) (n : Nat) (f : Launch → Launch) : (r.updLaunch n f).sketches = r.sketches := rfl
@[simp] theorem Run.updLaunch_accPc (r : Run) (n : Nat) (f : Launch → Launch) : (r.updLaunch n f).accPc = r.accPc := rfl
@[simp] theorem Run.updLaunch_accHint (r : Run) (n : Nat) (f : Launch → Launch) : (r.updLaunch n f).accHint = r.accHint := rfl
@[simp] theorem Run.updLaunch_issuing (r : Run) (n : Nat) (f : Launch → Launch) : (r.updLaunch n f).issuing = r.issuing := rfl
@[simp] theorem Run.updLaunch_ready (r : Run) (n : Nat) (f : Launch → Launch) : (r.updLaunch n f).ready = r.ready := rfl
@[simp] theorem Run.updLaunch_nextId (r : Run) (n : Nat) (f : Launch → Launch) : (r.updLaunch n f).nextId = r.nextId := rfl
@[simp] theorem Run.updLaunch_fresh (r : Run) (n : Nat) (f : Launch → Launch) : (r.updLaunch n f).fresh = r.fresh := rfl
@[simp] theorem Run.updLaunch_tick (r : Run) (n : Nat) (f : Launch → Launch) : (r.updLaunch n f).tick = r.tick := rfl

@[simp] theorem Run.updOp_groups (r : Run) (n : Nat) (f : Op → Op) : (r.updOp n f).groups = r.groups := rfl
@[simp] theorem Run.updOp_teams (r : Run) (n : Nat) (f : Op → Op) : (r.updOp n f).teams = r.teams := rfl
@[simp] theorem Run.updOp_clusters (r : Run) (n : Nat) (f : Op → Op) : (r.updOp n f).clusters = r.clusters := rfl
@[simp] theorem Run.updOp_launches (r : Run) (n : Nat) (f : Op → Op) : (r.updOp n f).launches = r.launches := rfl
@[simp] theorem Run.updOp_steps (r : Run) (n : Nat) (f : Op → Op) : (r.updOp n f).steps = r.steps := rfl
@[simp] theorem Run.updOp_parts (r : Run) (n : Nat) (f : Op → Op) : (r.updOp n f).parts = r.parts := rfl
@[simp] theorem Run.updOp_dies (r : Run) (n : Nat) (f : Op → Op) : (r.updOp n f).dies = r.dies := rfl
@[simp] theorem Run.updOp_mem (r : Run) (n : Nat) (f : Op → Op) : (r.updOp n f).mem = r.mem := rfl
@[simp] theorem Run.updOp_late (r : Run) (n : Nat) (f : Op → Op) : (r.updOp n f).late = r.late := rfl
@[simp] theorem Run.updOp_tags (r : Run) (n : Nat) (f : Op → Op) : (r.updOp n f).tags = r.tags := rfl
@[simp] theorem Run.updOp_pinned (r : Run) (n : Nat) (f : Op → Op) : (r.updOp n f).pinned = r.pinned := rfl
@[simp] theorem Run.updOp_units (r : Run) (n : Nat) (f : Op → Op) : (r.updOp n f).units = r.units := rfl
@[simp] theorem Run.updOp_reqs (r : Run) (n : Nat) (f : Op → Op) : (r.updOp n f).reqs = r.reqs := rfl
@[simp] theorem Run.updOp_nextTag (r : Run) (n : Nat) (f : Op → Op) : (r.updOp n f).nextTag = r.nextTag := rfl
@[simp] theorem Run.updOp_outbox (r : Run) (n : Nat) (f : Op → Op) : (r.updOp n f).outbox = r.outbox := rfl
@[simp] theorem Run.updOp_keys (r : Run) (n : Nat) (f : Op → Op) : (r.updOp n f).keys = r.keys := rfl
@[simp] theorem Run.updOp_keySeed (r : Run) (n : Nat) (f : Op → Op) : (r.updOp n f).keySeed = r.keySeed := rfl
@[simp] theorem Run.updOp_incarn (r : Run) (n : Nat) (f : Op → Op) : (r.updOp n f).incarn = r.incarn := rfl
@[simp] theorem Run.updOp_devid (r : Run) (n : Nat) (f : Op → Op) : (r.updOp n f).devid = r.devid := rfl
@[simp] theorem Run.updOp_evTimes (r : Run) (n : Nat) (f : Op → Op) : (r.updOp n f).evTimes = r.evTimes := rfl
@[simp] theorem Run.updOp_sketches (r : Run) (n : Nat) (f : Op → Op) : (r.updOp n f).sketches = r.sketches := rfl
@[simp] theorem Run.updOp_accPc (r : Run) (n : Nat) (f : Op → Op) : (r.updOp n f).accPc = r.accPc := rfl
@[simp] theorem Run.updOp_accHint (r : Run) (n : Nat) (f : Op → Op) : (r.updOp n f).accHint = r.accHint := rfl
@[simp] theorem Run.updOp_issuing (r : Run) (n : Nat) (f : Op → Op) : (r.updOp n f).issuing = r.issuing := rfl
@[simp] theorem Run.updOp_ready (r : Run) (n : Nat) (f : Op → Op) : (r.updOp n f).ready = r.ready := rfl
@[simp] theorem Run.updOp_nextId (r : Run) (n : Nat) (f : Op → Op) : (r.updOp n f).nextId = r.nextId := rfl
@[simp] theorem Run.updOp_fresh (r : Run) (n : Nat) (f : Op → Op) : (r.updOp n f).fresh = r.fresh := rfl
@[simp] theorem Run.updOp_tick (r : Run) (n : Nat) (f : Op → Op) : (r.updOp n f).tick = r.tick := rfl

@[simp] theorem Run.count_groups (r : Run) (p b c n : Nat) : (r.count p b c n).groups = r.groups := rfl
@[simp] theorem Run.count_teams (r : Run) (p b c n : Nat) : (r.count p b c n).teams = r.teams := rfl
@[simp] theorem Run.count_clusters (r : Run) (p b c n : Nat) : (r.count p b c n).clusters = r.clusters := rfl
@[simp] theorem Run.count_launches (r : Run) (p b c n : Nat) : (r.count p b c n).launches = r.launches := rfl
@[simp] theorem Run.count_ops (r : Run) (p b c n : Nat) : (r.count p b c n).ops = r.ops := rfl
@[simp] theorem Run.count_steps (r : Run) (p b c n : Nat) : (r.count p b c n).steps = r.steps := rfl
@[simp] theorem Run.count_dies (r : Run) (p b c n : Nat) : (r.count p b c n).dies = r.dies := rfl
@[simp] theorem Run.count_mem (r : Run) (p b c n : Nat) : (r.count p b c n).mem = r.mem := rfl
@[simp] theorem Run.count_late (r : Run) (p b c n : Nat) : (r.count p b c n).late = r.late := rfl
@[simp] theorem Run.count_tags (r : Run) (p b c n : Nat) : (r.count p b c n).tags = r.tags := rfl
@[simp] theorem Run.count_pinned (r : Run) (p b c n : Nat) : (r.count p b c n).pinned = r.pinned := rfl
@[simp] theorem Run.count_units (r : Run) (p b c n : Nat) : (r.count p b c n).units = r.units := rfl
@[simp] theorem Run.count_reqs (r : Run) (p b c n : Nat) : (r.count p b c n).reqs = r.reqs := rfl
@[simp] theorem Run.count_nextTag (r : Run) (p b c n : Nat) : (r.count p b c n).nextTag = r.nextTag := rfl
@[simp] theorem Run.count_outbox (r : Run) (p b c n : Nat) : (r.count p b c n).outbox = r.outbox := rfl
@[simp] theorem Run.count_keys (r : Run) (p b c n : Nat) : (r.count p b c n).keys = r.keys := rfl
@[simp] theorem Run.count_keySeed (r : Run) (p b c n : Nat) : (r.count p b c n).keySeed = r.keySeed := rfl
@[simp] theorem Run.count_incarn (r : Run) (p b c n : Nat) : (r.count p b c n).incarn = r.incarn := rfl
@[simp] theorem Run.count_devid (r : Run) (p b c n : Nat) : (r.count p b c n).devid = r.devid := rfl
@[simp] theorem Run.count_evTimes (r : Run) (p b c n : Nat) : (r.count p b c n).evTimes = r.evTimes := rfl
@[simp] theorem Run.count_sketches (r : Run) (p b c n : Nat) : (r.count p b c n).sketches = r.sketches := rfl
@[simp] theorem Run.count_accPc (r : Run) (p b c n : Nat) : (r.count p b c n).accPc = r.accPc := rfl
@[simp] theorem Run.count_accHint (r : Run) (p b c n : Nat) : (r.count p b c n).accHint = r.accHint := rfl
@[simp] theorem Run.count_issuing (r : Run) (p b c n : Nat) : (r.count p b c n).issuing = r.issuing := rfl
@[simp] theorem Run.count_ready (r : Run) (p b c n : Nat) : (r.count p b c n).ready = r.ready := rfl
@[simp] theorem Run.count_nextId (r : Run) (p b c n : Nat) : (r.count p b c n).nextId = r.nextId := rfl
@[simp] theorem Run.count_fresh (r : Run) (p b c n : Nat) : (r.count p b c n).fresh = r.fresh := rfl
@[simp] theorem Run.count_tick (r : Run) (p b c n : Nat) : (r.count p b c n).tick = r.tick := rfl

/-! Reading one part after updating another. -/

@[simp] theorem Run.updPart_grp (r : Run) (n : Nat) (f : Partition → Partition) (m : Nat) : (r.updPart n f).grp m = r.grp m := rfl
@[simp] theorem Run.updPart_team (r : Run) (n : Nat) (f : Partition → Partition) (m : Nat) : (r.updPart n f).team m = r.team m := rfl
@[simp] theorem Run.updPart_launch (r : Run) (n : Nat) (f : Partition → Partition) (m : Nat) : (r.updPart n f).launch m = r.launch m := rfl
@[simp] theorem Run.updPart_die (r : Run) (n : Nat) (f : Partition → Partition) (m : Nat) : (r.updPart n f).die m = r.die m := rfl
@[simp] theorem Run.updPart_now (r : Run) (n : Nat) (f : Partition → Partition) (m : Nat) : (r.updPart n f).now m = r.now m := rfl
@[simp] theorem Run.updDie_grp (r : Run) (n : Nat) (f : Die → Die) (m : Nat) : (r.updDie n f).grp m = r.grp m := rfl
@[simp] theorem Run.updDie_team (r : Run) (n : Nat) (f : Die → Die) (m : Nat) : (r.updDie n f).team m = r.team m := rfl
@[simp] theorem Run.updDie_launch (r : Run) (n : Nat) (f : Die → Die) (m : Nat) : (r.updDie n f).launch m = r.launch m := rfl
@[simp] theorem Run.updDie_part (r : Run) (n : Nat) (f : Die → Die) (m : Nat) : (r.updDie n f).part m = r.part m := rfl
@[simp] theorem Run.updCore_grp (r : Run) (d k : Nat) (f : Core → Core) (m : Nat) : (r.updCore d k f).grp m = r.grp m := rfl
@[simp] theorem Run.updCore_team (r : Run) (d k : Nat) (f : Core → Core) (m : Nat) : (r.updCore d k f).team m = r.team m := rfl
@[simp] theorem Run.updCore_launch (r : Run) (d k : Nat) (f : Core → Core) (m : Nat) : (r.updCore d k f).launch m = r.launch m := rfl
@[simp] theorem Run.updCore_part (r : Run) (d k : Nat) (f : Core → Core) (m : Nat) : (r.updCore d k f).part m = r.part m := rfl
@[simp] theorem Run.updGrp_team (r : Run) (n : Nat) (f : Grp → Grp) (m : Nat) : (r.updGrp n f).team m = r.team m := rfl
@[simp] theorem Run.updGrp_launch (r : Run) (n : Nat) (f : Grp → Grp) (m : Nat) : (r.updGrp n f).launch m = r.launch m := rfl
@[simp] theorem Run.updGrp_part (r : Run) (n : Nat) (f : Grp → Grp) (m : Nat) : (r.updGrp n f).part m = r.part m := rfl
@[simp] theorem Run.updGrp_die (r : Run) (n : Nat) (f : Grp → Grp) (m : Nat) : (r.updGrp n f).die m = r.die m := rfl
@[simp] theorem Run.updGrp_now (r : Run) (n : Nat) (f : Grp → Grp) (m : Nat) : (r.updGrp n f).now m = r.now m := rfl
@[simp] theorem Run.updTeam_grp (r : Run) (n : Nat) (f : Team → Team) (m : Nat) : (r.updTeam n f).grp m = r.grp m := rfl
@[simp] theorem Run.updTeam_launch (r : Run) (n : Nat) (f : Team → Team) (m : Nat) : (r.updTeam n f).launch m = r.launch m := rfl
@[simp] theorem Run.updTeam_part (r : Run) (n : Nat) (f : Team → Team) (m : Nat) : (r.updTeam n f).part m = r.part m := rfl
@[simp] theorem Run.updTeam_die (r : Run) (n : Nat) (f : Team → Team) (m : Nat) : (r.updTeam n f).die m = r.die m := rfl
@[simp] theorem Run.updTeam_now (r : Run) (n : Nat) (f : Team → Team) (m : Nat) : (r.updTeam n f).now m = r.now m := rfl
@[simp] theorem Run.updCluster_grp (r : Run) (n : Nat) (f : Cluster → Cluster) (m : Nat) : (r.updCluster n f).grp m = r.grp m := rfl
@[simp] theorem Run.updCluster_team (r : Run) (n : Nat) (f : Cluster → Cluster) (m : Nat) : (r.updCluster n f).team m = r.team m := rfl
@[simp] theorem Run.updCluster_launch (r : Run) (n : Nat) (f : Cluster → Cluster) (m : Nat) : (r.updCluster n f).launch m = r.launch m := rfl
@[simp] theorem Run.updCluster_part (r : Run) (n : Nat) (f : Cluster → Cluster) (m : Nat) : (r.updCluster n f).part m = r.part m := rfl
@[simp] theorem Run.updCluster_die (r : Run) (n : Nat) (f : Cluster → Cluster) (m : Nat) : (r.updCluster n f).die m = r.die m := rfl
@[simp] theorem Run.updCluster_now (r : Run) (n : Nat) (f : Cluster → Cluster) (m : Nat) : (r.updCluster n f).now m = r.now m := rfl
@[simp] theorem Run.updLaunch_grp (r : Run) (n : Nat) (f : Launch → Launch) (m : Nat) : (r.updLaunch n f).grp m = r.grp m := rfl
@[simp] theorem Run.updLaunch_team (r : Run) (n : Nat) (f : Launch → Launch) (m : Nat) : (r.updLaunch n f).team m = r.team m := rfl
@[simp] theorem Run.updLaunch_part (r : Run) (n : Nat) (f : Launch → Launch) (m : Nat) : (r.updLaunch n f).part m = r.part m := rfl
@[simp] theorem Run.updLaunch_die (r : Run) (n : Nat) (f : Launch → Launch) (m : Nat) : (r.updLaunch n f).die m = r.die m := rfl
@[simp] theorem Run.updLaunch_now (r : Run) (n : Nat) (f : Launch → Launch) (m : Nat) : (r.updLaunch n f).now m = r.now m := rfl
@[simp] theorem Run.updOp_grp (r : Run) (n : Nat) (f : Op → Op) (m : Nat) : (r.updOp n f).grp m = r.grp m := rfl
@[simp] theorem Run.updOp_team (r : Run) (n : Nat) (f : Op → Op) (m : Nat) : (r.updOp n f).team m = r.team m := rfl
@[simp] theorem Run.updOp_launch (r : Run) (n : Nat) (f : Op → Op) (m : Nat) : (r.updOp n f).launch m = r.launch m := rfl
@[simp] theorem Run.updOp_part (r : Run) (n : Nat) (f : Op → Op) (m : Nat) : (r.updOp n f).part m = r.part m := rfl
@[simp] theorem Run.updOp_die (r : Run) (n : Nat) (f : Op → Op) (m : Nat) : (r.updOp n f).die m = r.die m := rfl
@[simp] theorem Run.updOp_now (r : Run) (n : Nat) (f : Op → Op) (m : Nat) : (r.updOp n f).now m = r.now m := rfl
@[simp] theorem Run.count_grp (r : Run) (p b c n : Nat) (m : Nat) : (r.count p b c n).grp m = r.grp m := rfl
@[simp] theorem Run.count_team (r : Run) (p b c n : Nat) (m : Nat) : (r.count p b c n).team m = r.team m := rfl
@[simp] theorem Run.count_launch (r : Run) (p b c n : Nat) (m : Nat) : (r.count p b c n).launch m = r.launch m := rfl
@[simp] theorem Run.count_die (r : Run) (p b c n : Nat) (m : Nat) : (r.count p b c n).die m = r.die m := rfl
@[simp] theorem Run.count_now (r : Run) (p b c n : Nat) (m : Nat) : (r.count p b c n).now m = r.now m := rfl

/-! What accesses of memory leave as it was. -/

/-- Groups, teams, clusters, launches and operations are as before. -/
def Run.sameWork (r t : Run) : Prop :=
  t.groups = r.groups ∧ t.teams = r.teams ∧ t.clusters = r.clusters ∧ t.launches = r.launches ∧ t.ops = r.ops

theorem Run.sameWork_refl (r : Run) : r.sameWork r := ⟨rfl, rfl, rfl, rfl, rfl⟩

theorem Run.sameWork.trans {r s t : Run} (a : r.sameWork s) (b : s.sameWork t) : r.sameWork t :=
  ⟨b.1.trans a.1, b.2.1.trans a.2.1, b.2.2.1.trans a.2.2.1, b.2.2.2.1.trans a.2.2.2.1, b.2.2.2.2.trans a.2.2.2.2⟩

theorem foldl_sameWork {α : Type} (f : Run → α → Run) (h : ∀ (r : Run) a, r.sameWork (f r a)) (xs : List α) (r : Run) : r.sameWork (xs.foldl f r) := by
  induction xs generalizing r with
  | nil => exact r.sameWork_refl
  | cons x xs ih => exact (h r x).trans (ih (f r x))

theorem emit_sameWork (r : Run) (u : UnitId) (type payload : Nat) (parent : W64) : r.sameWork (emit' r u type payload parent) :=
  ⟨rfl, rfl, rfl, rfl, rfl⟩

theorem markBlock_sameWork (r : Run) (b : Nat) (m : Cause × Nat) : r.sameWork (markBlock r b m) := by
  unfold markBlock
  dsimp only
  split
  · exact r.sameWork_refl
  · split <;> exact ⟨rfl, rfl, rfl, rfl, rfl⟩

theorem writeBlock_sameWork (r : Run) (key : Option (Nat × Nat)) (a : Nat) (bs : List Byte) : r.sameWork (writeBlock r key a bs) := by
  unfold writeBlock dropReplicas
  dsimp only
  split
  · exact (markBlock_sameWork ..).trans (emit_sameWork ..)
  · split <;> exact ⟨rfl, rfl, rfl, rfl, rfl⟩

theorem writeKeyed_sameWork (r : Run) (key : Option (Nat × Nat)) (a : Nat) (bs : List Byte) : r.sameWork (writeKeyed r key a bs) :=
  foldl_sameWork (fun r (p : Nat × List Byte) => writeBlock r key p.1 p.2) (fun r p => writeBlock_sameWork r key p.1 p.2) _ r

theorem sketchAdd_sameWork (r : Run) (u : UnitId) (key n : Nat) : r.sameWork (sketchAdd r u key n) := by
  unfold sketchAdd
  dsimp only
  split <;> exact ⟨rfl, rfl, rfl, rfl, rfl⟩

theorem evictLine_sameWork (r : Run) (part d s : Nat) : r.sameWork (evictLine r part d s) := by
  unfold evictLine
  dsimp only
  split
  · exact r.sameWork_refl
  · split <;> exact ⟨rfl, rfl, rfl, rfl, rfl⟩
  · exact ⟨rfl, rfl, rfl, rfl, rfl⟩

theorem sliceRoom_sameWork (fuel : Nat) (r : Run) (part d s : Nat) : r.sameWork (sliceRoom fuel r part d s) := by
  induction fuel generalizing r with
  | zero => exact r.sameWork_refl
  | succ n ih =>
    unfold sliceRoom
    split
    · exact (evictLine_sameWork ..).trans (ih _)
    · exact r.sameWork_refl

theorem touchOne_sameWork (r : Run) (part : Nat) (dirty : Bool) (line : Nat) : r.sameWork (touchOne r part dirty line) := by
  unfold touchOne
  dsimp only
  split
  · exact ⟨rfl, rfl, rfl, rfl, rfl⟩
  · refine Run.sameWork.trans (Run.sameWork.trans (s := sketchAdd ((r.count part 2 1 1).count part 2 2 128)
      { kind := 1, die := dieOf (128 * line), index := homeSliceOf line } (fld r.accPc 55 3) 1) ?_ (sliceRoom_sameWork 1 _ part _ _)) ⟨rfl, rfl, rfl, rfl, rfl⟩
    exact Run.sameWork.trans (s := (r.count part 2 1 1).count part 2 2 128) ⟨rfl, rfl, rfl, rfl, rfl⟩ (sketchAdd_sameWork ..)

theorem touchUncached_sameWork (r : Run) (part : Nat) (dirty : Bool) (n line : Nat) : r.sameWork (touchUncached r part dirty n line) := by
  unfold touchUncached
  dsimp only
  split <;> exact ⟨rfl, rfl, rfl, rfl, rfl⟩

theorem touchHome_sameWork (r : Run) (part home pa n : Nat) (dirty : Bool) : r.sameWork (touchHome r part home pa n dirty) := by
  unfold touchHome
  dsimp only
  split
  · exact r.sameWork_refl
  · split
    · exact foldl_sameWork _ (fun r k => touchOne_sameWork r part dirty k) _ r
    · split
      · exact foldl_sameWork _ (fun r k => touchUncached_sameWork r part dirty _ k) _ r
      · exact r.sameWork_refl

theorem performPiece_sameWork (b : LateStore) (r : Run) (p : LatePiece) : r.sameWork (performPiece b r p) :=
  Run.sameWork.trans (s := { r with accPc := b.pc, accHint := b.hint }) ⟨rfl, rfl, rfl, rfl, rfl⟩
    (((writeKeyed_sameWork ..).trans (touchHome_sameWork ..)).trans ⟨rfl, rfl, rfl, rfl, rfl⟩)

/-- Performing late stores changes no group, team, cluster, launch or operation. -/
theorem settleLate_sameWork (r : Run) (which : LateStore → Bool) : r.sameWork (settleLate r which) := by
  unfold settleLate
  split
  · exact (foldl_sameWork _ (fun r b => foldl_sameWork _ (fun r p => performPiece_sameWork b r p) b.pieces r) (r.late.filter which) r).trans
      ⟨rfl, rfl, rfl, rfl, rfl⟩
  · exact r.sameWork_refl

/-! What executes, with the address of an instruction's accesses. -/

/-- An instruction that performs none of its group's late stores only notes its address and hint. -/
theorem Ctx.onto_of_plain {c : Ctx} (h : c.settles = false) (r : Run) : c.onto r = { r with accPc := c.pc, accHint := c.retention } := by
  simp [Ctx.onto, h]

theorem Ctx.onto_sameWork (c : Ctx) (r : Run) : r.sameWork (c.onto r) := by
  unfold Ctx.onto
  split
  · exact (settleLate_sameWork r _).trans ⟨rfl, rfl, rfl, rfl, rfl⟩
  · exact ⟨rfl, rfl, rfl, rfl, rfl⟩

@[simp] theorem Ctx.onto_grp (c : Ctx) (r : Run) (n : Nat) : (c.onto r).grp n = r.grp n := congrArg (Sparse.find · n) (c.onto_sameWork r).1
@[simp] theorem Ctx.onto_team (c : Ctx) (r : Run) (n : Nat) : (c.onto r).team n = r.team n := congrArg (Sparse.find · n) (c.onto_sameWork r).2.1
@[simp] theorem Ctx.onto_launch (c : Ctx) (r : Run) (n : Nat) : (c.onto r).launch n = r.launch n :=
  congrArg (Sparse.find · n) (c.onto_sameWork r).2.2.2.1
@[simp] theorem Ctx.onto_launches (c : Ctx) (r : Run) : (c.onto r).launches = r.launches := (c.onto_sameWork r).2.2.2.1
@[simp] theorem Ctx.onto_ops (c : Ctx) (r : Run) : (c.onto r).ops = r.ops := (c.onto_sameWork r).2.2.2.2

/-! Updates of one group's slices. -/

@[simp] theorem Grp.updSlice_team (g : Grp) (n : Nat) (f : Slice → Slice) : (g.updSlice n f).team = g.team := rfl
@[simp] theorem Grp.updSlice_num (g : Grp) (n : Nat) (f : Slice → Slice) : (g.updSlice n f).num = g.num := rfl
@[simp] theorem Grp.updSlice_handler (g : Grp) (n : Nat) (f : Slice → Slice) : (g.updSlice n f).handler = g.handler := rfl
@[simp] theorem Grp.updSlice_parent (g : Grp) (n : Nat) (f : Slice → Slice) : (g.updSlice n f).parent = g.parent := rfl
@[simp] theorem Grp.updSlice_spawned (g : Grp) (n : Nat) (f : Slice → Slice) : (g.updSlice n f).spawned = g.spawned := rfl
@[simp] theorem Grp.updSlice_ended (g : Grp) (n : Nat) (f : Slice → Slice) : (g.updSlice n f).ended = g.ended := rfl
@[simp] theorem Grp.updSlice_width (g : Grp) (n : Nat) (f : Slice → Slice) : (g.updSlice n f).width = g.width := rfl
@[simp] theorem Grp.updSlice_v (g : Grp) (n : Nat) (f : Slice → Slice) : (g.updSlice n f).v = g.v := rfl
@[simp] theorem Grp.updSlice_dirty (g : Grp) (n : Nat) (f : Slice → Slice) : (g.updSlice n f).dirty = g.dirty := rfl
@[simp] theorem Grp.updSlice_absent (g : Grp) (n : Nat) (f : Slice → Slice) : (g.updSlice n f).absent = g.absent := rfl
@[simp] theorem Grp.updSlice_saved (g : Grp) (n : Nat) (f : Slice → Slice) : (g.updSlice n f).saved = g.saved := rfl
@[simp] theorem Grp.updSlice_g (g : Grp) (n : Nat) (f : Slice → Slice) : (g.updSlice n f).g = g.g := rfl
@[simp] theorem Grp.updSlice_p (g : Grp) (n : Nat) (f : Slice → Slice) : (g.updSlice n f).p = g.p := rfl
@[simp] theorem Grp.updSlice_m (g : Grp) (n : Nat) (f : Slice → Slice) : (g.updSlice n f).m = g.m := rfl
@[simp] theorem Grp.updSlice_lat (g : Grp) (n : Nat) (f : Slice → Slice) : (g.updSlice n f).lat = g.lat := rfl
@[simp] theorem Grp.updSlice_q (g : Grp) (n : Nat) (f : Slice → Slice) : (g.updSlice n f).q = g.q := rfl
@[simp] theorem Grp.updSlice_fflags (g : Grp) (n : Nat) (f : Slice → Slice) : (g.updSlice n f).fflags = g.fflags := rfl
@[simp] theorem Grp.updSlice_sg (g : Grp) (n : Nat) (f : Slice → Slice) : (g.updSlice n f).sg = g.sg := rfl
@[simp] theorem Grp.updSlice_sp (g : Grp) (n : Nat) (f : Slice → Slice) : (g.updSlice n f).sp = g.sp := rfl
@[simp] theorem Grp.updSlice_super (g : Grp) (n : Nat) (f : Slice → Slice) : (g.updSlice n f).super = g.super := rfl
@[simp] theorem Grp.updSlice_msk (g : Grp) (n : Nat) (f : Slice → Slice) : (g.updSlice n f).msk = g.msk := rfl
@[simp] theorem Grp.updSlice_uin (g : Grp) (n : Nat) (f : Slice → Slice) : (g.updSlice n f).uin = g.uin := rfl
@[simp] theorem Grp.updSlice_utvec (g : Grp) (n : Nat) (f : Slice → Slice) : (g.updSlice n f).utvec = g.utvec := rfl
@[simp] theorem Grp.updSlice_parked (g : Grp) (n : Nat) (f : Slice → Slice) : (g.updSlice n f).parked = g.parked := rfl
@[simp] theorem Grp.updSlice_deferred (g : Grp) (n : Nat) (f : Slice → Slice) : (g.updSlice n f).deferred = g.deferred := rfl
@[simp] theorem Grp.updSlice_causal (g : Grp) (n : Nat) (f : Slice → Slice) : (g.updSlice n f).causal = g.causal := rfl
@[simp] theorem Grp.updSlice_stall (g : Grp) (n : Nat) (f : Slice → Slice) : (g.updSlice n f).stall = g.stall := rfl
@[simp] theorem Grp.updSlice_staged (g : Grp) (n : Nat) (f : Slice → Slice) : (g.updSlice n f).staged = g.staged := rfl
@[simp] theorem Grp.updSlice_undo (g : Grp) (n : Nat) (f : Slice → Slice) : (g.updSlice n f).undo = g.undo := rfl
@[simp] theorem Grp.updSlice_holds (g : Grp) (n : Nat) (f : Slice → Slice) : (g.updSlice n f).holds = g.holds := rfl
@[simp] theorem Grp.updSlice_regionNo (g : Grp) (n : Nat) (f : Slice → Slice) : (g.updSlice n f).regionNo = g.regionNo := rfl
@[simp] theorem Grp.updSlice_remotes (g : Grp) (n : Nat) (f : Slice → Slice) : (g.updSlice n f).remotes = g.remotes := rfl
@[simp] theorem Grp.updSlice_rsts (g : Grp) (n : Nat) (f : Slice → Slice) : (g.updSlice n f).rsts = g.rsts := rfl
@[simp] theorem Grp.updSlice_returned (g : Grp) (n : Nat) (f : Slice → Slice) : (g.updSlice n f).returned = g.returned := rfl
@[simp] theorem Grp.updSlice_ratom (g : Grp) (n : Nat) (f : Slice → Slice) : (g.updSlice n f).ratom = g.ratom := rfl
@[simp] theorem Grp.updSlice_ctx (g : Grp) (n : Nat) (f : Slice → Slice) : (g.updSlice n f).ctx = g.ctx := rfl
@[simp] theorem Grp.updSlice_spawnSlot (g : Grp) (n : Nat) (f : Slice → Slice) : (g.updSlice n f).spawnSlot = g.spawnSlot := rfl
@[simp] theorem Grp.updSlice_heldEvict (g : Grp) (n : Nat) (f : Slice → Slice) : (g.updSlice n f).heldEvict = g.heldEvict := rfl
@[simp] theorem Grp.updSlice_reenter (g : Grp) (n : Nat) (f : Slice → Slice) : (g.updSlice n f).reenter = g.reenter := rfl
@[simp] theorem Grp.updSlice_ctxArea (g : Grp) (n : Nat) (f : Slice → Slice) : (g.updSlice n f).ctxArea = g.ctxArea := rfl
@[simp] theorem Grp.updSlice_ctlKey (g : Grp) (n : Nat) (f : Slice → Slice) : (g.updSlice n f).ctlKey = g.ctlKey := rfl
@[simp] theorem Grp.updSlice_copy (g : Grp) (n : Nat) (f : Slice → Slice) : (g.updSlice n f).copy = g.copy := rfl
@[simp] theorem Grp.updSlice_evicting (g : Grp) (n : Nat) (f : Slice → Slice) : (g.updSlice n f).evicting = g.evicting := rfl
@[simp] theorem Grp.updSlice_atomOrd (g : Grp) (n : Nat) (f : Slice → Slice) : (g.updSlice n f).atomOrd = g.atomOrd := rfl
@[simp] theorem Grp.updSlice_hreadOrd (g : Grp) (n : Nat) (f : Slice → Slice) : (g.updSlice n f).hreadOrd = g.hreadOrd := rfl
@[simp] theorem Grp.updSlice_lastIssue (g : Grp) (n : Nat) (f : Slice → Slice) : (g.updSlice n f).lastIssue = g.lastIssue := rfl
@[simp] theorem Grp.updSlices_team (g : Grp) (ns : List Nat) (f : Slice → Slice) : (g.updSlices ns f).team = g.team := by
  induction ns generalizing g with
  | nil => rfl
  | cons n ns ih => exact ih (g.updSlice n f)
@[simp] theorem Grp.updSlices_num (g : Grp) (ns : List Nat) (f : Slice → Slice) : (g.updSlices ns f).num = g.num := by
  induction ns generalizing g with
  | nil => rfl
  | cons n ns ih => exact ih (g.updSlice n f)
@[simp] theorem Grp.updSlices_handler (g : Grp) (ns : List Nat) (f : Slice → Slice) : (g.updSlices ns f).handler = g.handler := by
  induction ns generalizing g with
  | nil => rfl
  | cons n ns ih => exact ih (g.updSlice n f)
@[simp] theorem Grp.updSlices_parent (g : Grp) (ns : List Nat) (f : Slice → Slice) : (g.updSlices ns f).parent = g.parent := by
  induction ns generalizing g with
  | nil => rfl
  | cons n ns ih => exact ih (g.updSlice n f)
@[simp] theorem Grp.updSlices_spawned (g : Grp) (ns : List Nat) (f : Slice → Slice) : (g.updSlices ns f).spawned = g.spawned := by
  induction ns generalizing g with
  | nil => rfl
  | cons n ns ih => exact ih (g.updSlice n f)
@[simp] theorem Grp.updSlices_ended (g : Grp) (ns : List Nat) (f : Slice → Slice) : (g.updSlices ns f).ended = g.ended := by
  induction ns generalizing g with
  | nil => rfl
  | cons n ns ih => exact ih (g.updSlice n f)
@[simp] theorem Grp.updSlices_width (g : Grp) (ns : List Nat) (f : Slice → Slice) : (g.updSlices ns f).width = g.width := by
  induction ns generalizing g with
  | nil => rfl
  | cons n ns ih => exact ih (g.updSlice n f)
@[simp] theorem Grp.updSlices_v (g : Grp) (ns : List Nat) (f : Slice → Slice) : (g.updSlices ns f).v = g.v := by
  induction ns generalizing g with
  | nil => rfl
  | cons n ns ih => exact ih (g.updSlice n f)
@[simp] theorem Grp.updSlices_dirty (g : Grp) (ns : List Nat) (f : Slice → Slice) : (g.updSlices ns f).dirty = g.dirty := by
  induction ns generalizing g with
  | nil => rfl
  | cons n ns ih => exact ih (g.updSlice n f)
@[simp] theorem Grp.updSlices_absent (g : Grp) (ns : List Nat) (f : Slice → Slice) : (g.updSlices ns f).absent = g.absent := by
  induction ns generalizing g with
  | nil => rfl
  | cons n ns ih => exact ih (g.updSlice n f)
@[simp] theorem Grp.updSlices_saved (g : Grp) (ns : List Nat) (f : Slice → Slice) : (g.updSlices ns f).saved = g.saved := by
  induction ns generalizing g with
  | nil => rfl
  | cons n ns ih => exact ih (g.updSlice n f)
@[simp] theorem Grp.updSlices_g (g : Grp) (ns : List Nat) (f : Slice → Slice) : (g.updSlices ns f).g = g.g := by
  induction ns generalizing g with
  | nil => rfl
  | cons n ns ih => exact ih (g.updSlice n f)
@[simp] theorem Grp.updSlices_p (g : Grp) (ns : List Nat) (f : Slice → Slice) : (g.updSlices ns f).p = g.p := by
  induction ns generalizing g with
  | nil => rfl
  | cons n ns ih => exact ih (g.updSlice n f)
@[simp] theorem Grp.updSlices_m (g : Grp) (ns : List Nat) (f : Slice → Slice) : (g.updSlices ns f).m = g.m := by
  induction ns generalizing g with
  | nil => rfl
  | cons n ns ih => exact ih (g.updSlice n f)
@[simp] theorem Grp.updSlices_lat (g : Grp) (ns : List Nat) (f : Slice → Slice) : (g.updSlices ns f).lat = g.lat := by
  induction ns generalizing g with
  | nil => rfl
  | cons n ns ih => exact ih (g.updSlice n f)
@[simp] theorem Grp.updSlices_q (g : Grp) (ns : List Nat) (f : Slice → Slice) : (g.updSlices ns f).q = g.q := by
  induction ns generalizing g with
  | nil => rfl
  | cons n ns ih => exact ih (g.updSlice n f)
@[simp] theorem Grp.updSlices_fflags (g : Grp) (ns : List Nat) (f : Slice → Slice) : (g.updSlices ns f).fflags = g.fflags := by
  induction ns generalizing g with
  | nil => rfl
  | cons n ns ih => exact ih (g.updSlice n f)
@[simp] theorem Grp.updSlices_sg (g : Grp) (ns : List Nat) (f : Slice → Slice) : (g.updSlices ns f).sg = g.sg := by
  induction ns generalizing g with
  | nil => rfl
  | cons n ns ih => exact ih (g.updSlice n f)
@[simp] theorem Grp.updSlices_sp (g : Grp) (ns : List Nat) (f : Slice → Slice) : (g.updSlices ns f).sp = g.sp := by
  induction ns generalizing g with
  | nil => rfl
  | cons n ns ih => exact ih (g.updSlice n f)
@[simp] theorem Grp.updSlices_super (g : Grp) (ns : List Nat) (f : Slice → Slice) : (g.updSlices ns f).super = g.super := by
  induction ns generalizing g with
  | nil => rfl
  | cons n ns ih => exact ih (g.updSlice n f)
@[simp] theorem Grp.updSlices_msk (g : Grp) (ns : List Nat) (f : Slice → Slice) : (g.updSlices ns f).msk = g.msk := by
  induction ns generalizing g with
  | nil => rfl
  | cons n ns ih => exact ih (g.updSlice n f)
@[simp] theorem Grp.updSlices_uin (g : Grp) (ns : List Nat) (f : Slice → Slice) : (g.updSlices ns f).uin = g.uin := by
  induction ns generalizing g with
  | nil => rfl
  | cons n ns ih => exact ih (g.updSlice n f)
@[simp] theorem Grp.updSlices_utvec (g : Grp) (ns : List Nat) (f : Slice → Slice) : (g.updSlices ns f).utvec = g.utvec := by
  induction ns generalizing g with
  | nil => rfl
  | cons n ns ih => exact ih (g.updSlice n f)
@[simp] theorem Grp.updSlices_parked (g : Grp) (ns : List Nat) (f : Slice → Slice) : (g.updSlices ns f).parked = g.parked := by
  induction ns generalizing g with
  | nil => rfl
  | cons n ns ih => exact ih (g.updSlice n f)
@[simp] theorem Grp.updSlices_deferred (g : Grp) (ns : List Nat) (f : Slice → Slice) : (g.updSlices ns f).deferred = g.deferred := by
  induction ns generalizing g with
  | nil => rfl
  | cons n ns ih => exact ih (g.updSlice n f)
@[simp] theorem Grp.updSlices_causal (g : Grp) (ns : List Nat) (f : Slice → Slice) : (g.updSlices ns f).causal = g.causal := by
  induction ns generalizing g with
  | nil => rfl
  | cons n ns ih => exact ih (g.updSlice n f)
@[simp] theorem Grp.updSlices_stall (g : Grp) (ns : List Nat) (f : Slice → Slice) : (g.updSlices ns f).stall = g.stall := by
  induction ns generalizing g with
  | nil => rfl
  | cons n ns ih => exact ih (g.updSlice n f)
@[simp] theorem Grp.updSlices_staged (g : Grp) (ns : List Nat) (f : Slice → Slice) : (g.updSlices ns f).staged = g.staged := by
  induction ns generalizing g with
  | nil => rfl
  | cons n ns ih => exact ih (g.updSlice n f)
@[simp] theorem Grp.updSlices_undo (g : Grp) (ns : List Nat) (f : Slice → Slice) : (g.updSlices ns f).undo = g.undo := by
  induction ns generalizing g with
  | nil => rfl
  | cons n ns ih => exact ih (g.updSlice n f)
@[simp] theorem Grp.updSlices_holds (g : Grp) (ns : List Nat) (f : Slice → Slice) : (g.updSlices ns f).holds = g.holds := by
  induction ns generalizing g with
  | nil => rfl
  | cons n ns ih => exact ih (g.updSlice n f)
@[simp] theorem Grp.updSlices_regionNo (g : Grp) (ns : List Nat) (f : Slice → Slice) : (g.updSlices ns f).regionNo = g.regionNo := by
  induction ns generalizing g with
  | nil => rfl
  | cons n ns ih => exact ih (g.updSlice n f)
@[simp] theorem Grp.updSlices_remotes (g : Grp) (ns : List Nat) (f : Slice → Slice) : (g.updSlices ns f).remotes = g.remotes := by
  induction ns generalizing g with
  | nil => rfl
  | cons n ns ih => exact ih (g.updSlice n f)
@[simp] theorem Grp.updSlices_rsts (g : Grp) (ns : List Nat) (f : Slice → Slice) : (g.updSlices ns f).rsts = g.rsts := by
  induction ns generalizing g with
  | nil => rfl
  | cons n ns ih => exact ih (g.updSlice n f)
@[simp] theorem Grp.updSlices_returned (g : Grp) (ns : List Nat) (f : Slice → Slice) : (g.updSlices ns f).returned = g.returned := by
  induction ns generalizing g with
  | nil => rfl
  | cons n ns ih => exact ih (g.updSlice n f)
@[simp] theorem Grp.updSlices_ratom (g : Grp) (ns : List Nat) (f : Slice → Slice) : (g.updSlices ns f).ratom = g.ratom := by
  induction ns generalizing g with
  | nil => rfl
  | cons n ns ih => exact ih (g.updSlice n f)
@[simp] theorem Grp.updSlices_ctx (g : Grp) (ns : List Nat) (f : Slice → Slice) : (g.updSlices ns f).ctx = g.ctx := by
  induction ns generalizing g with
  | nil => rfl
  | cons n ns ih => exact ih (g.updSlice n f)
@[simp] theorem Grp.updSlices_spawnSlot (g : Grp) (ns : List Nat) (f : Slice → Slice) : (g.updSlices ns f).spawnSlot = g.spawnSlot := by
  induction ns generalizing g with
  | nil => rfl
  | cons n ns ih => exact ih (g.updSlice n f)
@[simp] theorem Grp.updSlices_heldEvict (g : Grp) (ns : List Nat) (f : Slice → Slice) : (g.updSlices ns f).heldEvict = g.heldEvict := by
  induction ns generalizing g with
  | nil => rfl
  | cons n ns ih => exact ih (g.updSlice n f)
@[simp] theorem Grp.updSlices_reenter (g : Grp) (ns : List Nat) (f : Slice → Slice) : (g.updSlices ns f).reenter = g.reenter := by
  induction ns generalizing g with
  | nil => rfl
  | cons n ns ih => exact ih (g.updSlice n f)
@[simp] theorem Grp.updSlices_ctxArea (g : Grp) (ns : List Nat) (f : Slice → Slice) : (g.updSlices ns f).ctxArea = g.ctxArea := by
  induction ns generalizing g with
  | nil => rfl
  | cons n ns ih => exact ih (g.updSlice n f)
@[simp] theorem Grp.updSlices_ctlKey (g : Grp) (ns : List Nat) (f : Slice → Slice) : (g.updSlices ns f).ctlKey = g.ctlKey := by
  induction ns generalizing g with
  | nil => rfl
  | cons n ns ih => exact ih (g.updSlice n f)
@[simp] theorem Grp.updSlices_copy (g : Grp) (ns : List Nat) (f : Slice → Slice) : (g.updSlices ns f).copy = g.copy := by
  induction ns generalizing g with
  | nil => rfl
  | cons n ns ih => exact ih (g.updSlice n f)
@[simp] theorem Grp.updSlices_evicting (g : Grp) (ns : List Nat) (f : Slice → Slice) : (g.updSlices ns f).evicting = g.evicting := by
  induction ns generalizing g with
  | nil => rfl
  | cons n ns ih => exact ih (g.updSlice n f)
@[simp] theorem Grp.updSlices_atomOrd (g : Grp) (ns : List Nat) (f : Slice → Slice) : (g.updSlices ns f).atomOrd = g.atomOrd := by
  induction ns generalizing g with
  | nil => rfl
  | cons n ns ih => exact ih (g.updSlice n f)
@[simp] theorem Grp.updSlices_hreadOrd (g : Grp) (ns : List Nat) (f : Slice → Slice) : (g.updSlices ns f).hreadOrd = g.hreadOrd := by
  induction ns generalizing g with
  | nil => rfl
  | cons n ns ih => exact ih (g.updSlice n f)
@[simp] theorem Grp.updSlices_lastIssue (g : Grp) (ns : List Nat) (f : Slice → Slice) : (g.updSlices ns f).lastIssue = g.lastIssue := by
  induction ns generalizing g with
  | nil => rfl
  | cons n ns ih => exact ih (g.updSlice n f)

end Sys2Proof.Machine
end

