-- ==== Sys2Proof/Laws/Memory.lean ====
section
/-! SUPPORT. Every operation on memory keeps its canonical form, and the operations on blocks change memory and tags alone. -/
namespace Sys2Proof.Machine

theorem reset_mem_wf : State.reset.run.mem.wf = true := rfl

/-- Writing bytes keeps the canonical form. -/
theorem memWrite_wf {m : Memory} (a : Nat) (bs : List Byte) (h : Memory.wf m = true) : Memory.wf (memWrite m a bs) = true := by
  induction bs generalizing m a with
  | nil => exact h
  | cons b t ih => exact ih (a + 1) (Sparse.wf_set a b h)

theorem sortedFrom_filter {α : Type} {m : Sparse α} {lo : Nat} (p : Nat × α → Bool) (h : Sparse.sortedFrom lo m = true) :
    Sparse.sortedFrom lo (m.filter p) = true := by
  induction m generalizing lo with
  | nil => rfl
  | cons e t ih =>
    simp only [Sparse.sortedFrom, Bool.and_eq_true, decide_eq_true_eq] at h
    simp only [List.filter_cons]
    split
    · simp only [Sparse.sortedFrom, Bool.and_eq_true, decide_eq_true_eq]
      exact ⟨h.1, ih h.2⟩
    · exact Sparse.sortedFrom_mono (by omega) (ih h.2)

/-- Clearing a range of memory, by leaving its entries out, keeps the canonical form. -/
theorem Memory.wf_filter {m : Memory} (p : Host.Cell → Bool) (h : Memory.wf m = true) : Memory.wf (m.filter p) = true := by
  simp only [Memory.wf, Sparse.wf, Bool.and_eq_true, List.all_eq_true] at *
  exact ⟨sortedFrom_filter p h.1, fun e he => h.2 e (List.mem_filter.mp he).1⟩

/-! Blocks and keys. -/

@[simp] theorem emit'_mem (r : Run) (u : UnitId) (t p : Nat) (k : W64) : (emit' r u t p k).mem = r.mem := by
  unfold emit' emit
  dsimp only
  all_goals rfl

@[simp] theorem markBlock_mem (r : Run) (b : Nat) (m : Cause × Nat) : (markBlock r b m).mem = r.mem := by
  unfold markBlock
  dsimp only
  repeat' split
  all_goals simp

/-- A write of one block writes its bytes, or none of them. -/
theorem writeBlock_mem (r : Run) (key : Option (Nat × Nat)) (a : Nat) (bs : List Byte) :
    (writeBlock r key a bs).mem = memWrite r.mem a bs ∨ (writeBlock r key a bs).mem = r.mem := by
  unfold writeBlock
  dsimp only
  split
  · exact .inr (by simp)
  · exact .inl rfl

theorem writeBlock_wf {r : Run} (key : Option (Nat × Nat)) (a : Nat) (bs : List Byte) (h : r.mem.wf = true) :
    (writeBlock r key a bs).mem.wf = true := by
  rcases writeBlock_mem r key a bs with hm | hm <;> rw [hm]
  · exact memWrite_wf a bs h
  · exact h

theorem writeKeyed_wf {r : Run} (key : Option (Nat × Nat)) (a : Nat) (bs : List Byte) (h : r.mem.wf = true) :
    (writeKeyed r key a bs).mem.wf = true := by
  unfold writeKeyed
  generalize blockPieces (bs.length / 64 + 2) a bs = ps
  induction ps generalizing r with
  | nil => exact h
  | cons p t ih => exact ih (writeBlock_wf key p.1 p.2 h)

theorem writeWord_wf {r : Run} (pa : Nat) (w : W64) (h : r.mem.wf = true) : (writeWord r pa w).mem.wf = true := writeKeyed_wf none pa _ h

end Sys2Proof.Machine
end

