-- ==== Sys2Proof/Laws/Access.lean ====
section
/-! SUPPORT. Reads of good data: what a read leaves fails no read that would have succeeded, so that lanes which all read good data read it. -/
namespace Sys2Proof.Machine

/-- The keys are as before, and no block fails a read that it did not fail. -/
def Run.asGood (r t : Run) : Prop :=
  t.keys = r.keys ∧ t.keySeed = r.keySeed ∧ ∀ key b a n, blockFail r key b a n = none → blockFail t key b a n = none

theorem Run.asGood_refl (r : Run) : r.asGood r := ⟨rfl, rfl, fun _ _ _ _ h => h⟩

theorem Run.asGood.trans {r s t : Run} (a : r.asGood s) (b : s.asGood t) : r.asGood t :=
  ⟨b.1.trans a.1, b.2.1.trans a.2.1, fun k x y n h => b.2.2 k x y n (a.2.2 k x y n h)⟩

theorem foldl_asGood {α : Type} (f : Run → α → Run) (h : ∀ (r : Run) a, r.asGood (f r a)) (xs : List α) (r : Run) : r.asGood (xs.foldl f r) := by
  induction xs generalizing r with
  | nil => exact r.asGood_refl
  | cons x xs ih => exact (h r x).trans (ih (f r x))

/-- Whether sectors fail does not depend on where their block lies. -/
theorem sectorFail_none {r : Run} {key : Option (Nat × Nat)} {b : Nat} {ss : List SectorTag} :
    sectorFail r key b ss = none ↔ ss.any (·.bad) = false ∧ (randomKey key || ss.any (·.key ≠ key)) = false := by
  unfold sectorFail
  cases ss.any (·.bad) <;> cases randomKey key || ss.any (·.key ≠ key) <;> simp

/-- What ECC writes back of a sector. -/
theorem sectors_corrected (t : BlockTag) (key : Option (Nat × Nat)) (block a n : Nat) :
    ({ t with low := { t.low with flipped := false }, high := { t.high with flipped := false } } : BlockTag).sectors key block a n =
      (t.sectors key block a n).map fun s => { s with flipped := false } := by
  unfold BlockTag.sectors
  split
  · rfl
  · split <;> split <;> rfl

theorem blockFail_none_of_tag {r t : Run} {key : Option (Nat × Nat)} {b a n : Nat} (ht : blockTag t b = blockTag r b)
    (h : blockFail r key b a n = none) : blockFail t key b a n = none := by
  unfold blockFail at *
  rw [ht]
  revert h
  cases blockTag r b with
  | none => exact id
  | some x => cases hm : x.mark.isSome <;> simp [hm, sectorFail_none]

theorem Run.asGood_of_tags {r t : Run} (hk : t.keys = r.keys) (hs : t.keySeed = r.keySeed) (ht : t.tags = r.tags) : r.asGood t :=
  ⟨hk, hs, fun _ _ _ _ => blockFail_none_of_tag (by unfold blockTag; rw [ht])⟩

theorem sketchAdd_asGood (r : Run) (u : UnitId) (key n : Nat) : r.asGood (sketchAdd r u key n) := by
  unfold sketchAdd
  dsimp only
  split <;> exact Run.asGood_of_tags rfl rfl rfl

theorem evictLine_asGood (r : Run) (part d s : Nat) : r.asGood (evictLine r part d s) := by
  unfold evictLine
  dsimp only
  split
  · exact r.asGood_refl
  · split <;> exact Run.asGood_of_tags rfl rfl rfl
  · exact Run.asGood_of_tags rfl rfl rfl

theorem sliceRoom_asGood (fuel : Nat) (r : Run) (part d s : Nat) : r.asGood (sliceRoom fuel r part d s) := by
  induction fuel generalizing r with
  | zero => exact r.asGood_refl
  | succ n ih =>
    unfold sliceRoom
    split
    · exact (evictLine_asGood ..).trans (ih _)
    · exact r.asGood_refl

theorem touchOne_asGood (r : Run) (part : Nat) (dirty : Bool) (line : Nat) : r.asGood (touchOne r part dirty line) := by
  unfold touchOne
  dsimp only
  split
  · exact Run.asGood_of_tags rfl rfl rfl
  · refine Run.asGood.trans (Run.asGood.trans (s := sketchAdd ((r.count part 2 1 1).count part 2 2 128)
      { kind := 1, die := dieOf (128 * line), index := homeSliceOf line } (fld r.accPc 55 3) 1) ?_ (sliceRoom_asGood 1 _ part _ _))
      (Run.asGood_of_tags rfl rfl rfl)
    exact Run.asGood.trans (s := (r.count part 2 1 1).count part 2 2 128) (Run.asGood_of_tags rfl rfl rfl) (sketchAdd_asGood ..)

theorem touchHome_asGood (r : Run) (part home pa n : Nat) (dirty : Bool) : r.asGood (touchHome r part home pa n dirty) := by
  unfold touchHome
  dsimp only
  split
  · exact r.asGood_refl
  · split
    · exact foldl_asGood _ (fun r k => touchOne_asGood r part dirty k) _ r
    · split
      · refine foldl_asGood _ (fun r k => ?_) _ r
        unfold touchUncached
        dsimp only
        split <;> exact Run.asGood_of_tags rfl rfl rfl
      · exact r.asGood_refl

/-- A correction makes no sector fail. -/
theorem correctBlock_asGood (part : Nat) (key : Option (Nat × Nat)) (a n : Nat) (r : Run) (block : Nat) :
    r.asGood (correctBlock part key a n r block) := by
  unfold correctBlock
  split
  · exact r.asGood_refl
  · rename_i t ht
    split
    · refine ⟨rfl, rfl, fun key' b a' n' h => ?_⟩
      by_cases hb : b = block
      · subst hb
        unfold blockFail blockTag at *
        rw [ht] at h
        simp only [Sparse.find_put_self] at h ⊢
        cases hm : t.mark.isSome with
        | true =>
          simp only [hm, ite_true] at h
          rw [h] at hm
          cases hm
        | false =>
          simp only [hm, Bool.false_eq_true, ite_false] at h ⊢
          rw [sectorFail_none] at h ⊢
          simp only [sectors_corrected, List.any_map, Function.comp_def]
          exact h
      · refine blockFail_none_of_tag (r := r) ?_ h
        unfold blockTag
        dsimp only
        rw [Sparse.find_put_of_ne hb]
        rfl
    · exact r.asGood_refl

/-- A range that is read without a failure leaves every good read good. -/
theorem leafRead_asGood {r : Run} {part : Nat} {l : Leaf} {va : W64} {n : Nat} (h : rangeFail r (keyOf r part l) (l.pa va) n = none) :
    r.asGood (leafRead r part l va n) := by
  refine Run.asGood.trans ?_ (touchHome_asGood _ part l.home (l.pa va) n false)
  unfold readMarks
  rw [h]
  exact foldl_asGood _ (fun r b => correctBlock_asGood part (keyOf _ part l) (l.pa va) n r b) _ r

theorem rangeFail_none {r : Run} {key : Option (Nat × Nat)} {a n : Nat} :
    rangeFail r key a n = none ↔ ∀ b ∈ (List.range (if n = 0 then 0 else (a + n - 1) / 64 - a / 64 + 1)).map (a / 64 + ·), blockFail r key b a n = none := by
  simp only [rangeFail, List.findSome?_eq_none_iff, Option.map_eq_none_iff]

theorem goodPieces.mono {r t : Run} {part : Nat} {as : List (Nat × List Piece64)} (h : r.asGood t) (g : goodPieces r part as) : goodPieces t part as := by
  intro x hx p hp
  have hk : keyOf t part p.leaf = keyOf r part p.leaf := by unfold keyOf; rw [h.1, h.2.1]
  have := g x hx p hp
  rw [rangeFail_none] at this ⊢
  rw [hk]
  exact fun b hb => h.2.2 _ _ _ _ (this b hb)

theorem lateView_asGood (r : Run) (c : Ctx) (lane pa : Nat) (data : List Byte) : r.asGood (lateView r c lane pa data).2 := by
  unfold lateView
  dsimp only
  generalize ((r.late.filter _).flatMap _) = ps
  suffices h : ∀ (acc : List Byte × Run), acc.2.asGood (ps.foldl (fun acc p => (pieceOver (Config.freeChoice acc.2.fresh) pa p acc.1, acc.2.newFree.2)) acc).2 from
    h (data, r)
  induction ps with
  | nil => exact fun acc => acc.2.asGood_refl
  | cons p t ih => exact fun acc => (Run.asGood_of_tags rfl rfl rfl).trans (ih _)

theorem readPiece_good {r : Run} {c : Ctx} {lane : Nat} {reads : Run → Run} {p : Piece64}
    (h : rangeFail r (keyOf r c.part p.leaf) (p.leaf.pa p.va) p.len = none) :
    ∃ bs t, readPiece r c lane reads p = .ok (bs, t) ∧ r.asGood t := by
  unfold readPiece readLeaf
  simp only [h]
  exact ⟨_, _, rfl, (leafRead_asGood h).trans (lateView_asGood ..)⟩

theorem readLane_good {r : Run} {c : Ctx} {lane : Nat} {reads : Run → Run} {ps : List Piece64} (h : goodPieces r c.part [(lane, ps)]) :
    ∃ v t, readLane r c lane reads ps = .ok (v, t) ∧ r.asGood t := by
  suffices g : ∀ (acc : List Byte × Run), goodPieces acc.2 c.part [(lane, ps)] → ∃ y, ps.foldlM (m := Except Stop) (fun (acc : List Byte × Run) p =>
      (readPiece acc.2 c lane reads p).map fun x => (acc.1 ++ x.1, x.2)) acc = .ok y ∧ acc.2.asGood y.2 by
    obtain ⟨y, hy, hg⟩ := g ([], r) h
    exact ⟨leNat y.1, y.2, by unfold readLane; rw [hy]; rfl, hg⟩
  clear h
  induction ps with
  | nil => exact fun acc _ => ⟨acc, rfl, acc.2.asGood_refl⟩
  | cons p t ih =>
    intro acc h
    obtain ⟨bs, u, hu, hg⟩ := readPiece_good (c := c) (lane := lane) (reads := reads) (h (lane, p :: t) (by simp) p (by simp))
    obtain ⟨y, hy, hz⟩ := ih (acc.1 ++ bs, u) (fun x hx q hq => by
      simp only [List.mem_singleton] at hx
      subst hx
      exact (goodPieces.mono hg h) (lane, p :: t) (by simp) q (by simp [hq]))
    refine ⟨y, ?_, hg.trans hz⟩
    rw [List.foldlM_cons, hu]
    exact hy

/-- Lanes that all read good data read it. -/
theorem readLanes_good {r : Run} {c : Ctx} {as : List (Nat × List Piece64)} (h : goodPieces r c.part as) : ∃ vals t, readLanes r c as = .ok (vals, t) := by
  unfold readLanes
  generalize lanesRead c as = reads
  suffices g : ∀ (acc : Sparse Nat × Run), goodPieces acc.2 c.part as → ∃ y, as.foldlM (m := Except Stop) (fun (acc : Sparse Nat × Run) x =>
      (readLane acc.2 c x.1 reads x.2).map fun y => (acc.1.put x.1 y.1, y.2)) acc = .ok y by
    obtain ⟨y, hy⟩ := g ([], r) h
    exact ⟨y.1, y.2, hy⟩
  clear h
  induction as with
  | nil => exact fun acc _ => ⟨acc, rfl⟩
  | cons x t ih =>
    intro acc h
    obtain ⟨v, u, hu, hg⟩ := readLane_good (c := c) (lane := x.1) (reads := reads) (ps := x.2) (fun y hy => by
      simp only [List.mem_singleton] at hy
      subst hy
      exact h x (by simp))
    obtain ⟨y, hy⟩ := ih (acc.1.put x.1 v, u) (fun y hy => (goodPieces.mono hg h) y (by simp [hy]))
    refine ⟨y, ?_⟩
    rw [List.foldlM_cons, hu]
    exact hy

end Sys2Proof.Machine
end

