-- ==== Sys2Proof/Laws/Control.lean ====
section
/-! SUPPORT. How branches move slices: the ways on of a slice's lanes, and what the move leaves (01 R26, 09 R269, R271). -/
namespace Sys2Proof.Machine

@[simp] theorem Slice.goTo_pc (s : Slice) (pc f : W64) (n : Nat) : (s.goTo pc f n).pc = pc := by unfold Slice.goTo; split <;> rfl
@[simp] theorem Slice.goTo_mask (s : Slice) (pc f : W64) (n : Nat) : (s.goTo pc f n).mask = s.mask := by unfold Slice.goTo; split <;> rfl
@[simp] theorem Slice.goTo_crp (s : Slice) (pc f : W64) (n : Nat) : (s.goTo pc f n).crp = s.crp := by unfold Slice.goTo; split <;> rfl
@[simp] theorem Slice.goTo_stack (s : Slice) (pc f : W64) (n : Nat) : (s.goTo pc f n).stack = s.stack := by unfold Slice.goTo; split <;> rfl
@[simp] theorem Slice.beginRegion_pc (s : Slice) : s.beginRegion.pc = s.pc := rfl
@[simp] theorem Slice.beginRegion_mask (s : Slice) : s.beginRegion.mask = s.mask := rfl
@[simp] theorem Slice.beginRegion_crp (s : Slice) : s.beginRegion.crp = s.crp := rfl
@[simp] theorem Slice.beginRegion_stack (s : Slice) : s.beginRegion.stack = s.stack := rfl

/-- The ways on of the lanes `ks`: each address once, ascending, with exactly its lanes. -/
def PathsOf (next : Nat → W64) (ks : List Nat) (ps : List (W64 × BitVec 4)) : Prop :=
  ps.Pairwise (fun a b => a.1.toNat < b.1.toNat) ∧ (∀ e ∈ ps, ∀ j, j < 4 → e.2.getLsbD j = decide (j ∈ ks ∧ next j = e.1)) ∧
    ∀ j ∈ ks, ∃ e ∈ ps, e.1 = next j

theorem getLsbD_one_shl {k j : Nat} (hj : j < 4) : (1#4 <<< k).getLsbD j = decide (j = k) := by
  rw [BitVec.getLsbD_shiftLeft]
  by_cases h : j = k
  · simp [h]; omega
  · simp [hj, h]
    omega

theorem insertPath_mem {pc : W64} {k : Nat} {ps : List (W64 × BitVec 4)} {e : W64 × BitVec 4} (h : e ∈ insertPath pc k ps) :
    e.1 = pc ∨ e ∈ ps := by
  induction ps with
  | nil => simp [insertPath] at h; simp [h]
  | cons a t ih =>
    obtain ⟨a, m⟩ := a
    unfold insertPath at h
    split at h
    · rename_i hp
      rcases List.mem_cons.mp h with h | h
      · exact .inl (by simp [h, hp])
      · exact .inr (List.mem_cons_of_mem _ h)
    · split at h
      · rcases List.mem_cons.mp h with h | h
        · exact .inl (by simp [h])
        · exact .inr h
      · rcases List.mem_cons.mp h with h | h
        · exact .inr (by simp [h])
        · exact (ih h).imp_right (List.mem_cons_of_mem _)

/-- One more lane. -/
theorem insertPath_spec {next : Nat → W64} {k : Nat} {ks : List Nat} (hn : k ∉ ks) {ps : List (W64 × BitVec 4)} (h : PathsOf next ks ps) :
    PathsOf next (k :: ks) (insertPath (next k) k ps) := by
  have key : ∀ (ps : List (W64 × BitVec 4)), ps.Pairwise (fun a b => a.1.toNat < b.1.toNat) →
      (∀ e ∈ ps, ∀ j, j < 4 → e.2.getLsbD j = decide (j ∈ ks ∧ next j = e.1)) → ((∀ e ∈ ps, e.1 ≠ next k) → ∀ j ∈ ks, next j ≠ next k) →
      (insertPath (next k) k ps).Pairwise (fun a b => a.1.toNat < b.1.toNat) ∧
      (∀ e ∈ insertPath (next k) k ps, ∀ j, j < 4 → e.2.getLsbD j = decide ((j = k ∨ j ∈ ks) ∧ next j = e.1)) ∧
      (∃ e ∈ insertPath (next k) k ps, e.1 = next k) ∧ ∀ e ∈ ps, ∃ e' ∈ insertPath (next k) k ps, e'.1 = e.1 := by
    intro ps
    induction ps with
    | nil =>
      intro _ _ h3
      refine ⟨by simp [insertPath], ?_, by simp [insertPath], by simp⟩
      intro e he j hj
      simp only [insertPath, List.mem_singleton] at he
      subst he
      rw [getLsbD_one_shl hj]
      have := h3 (by simp)
      by_cases hjk : j = k
      · simp [hjk]
      · simp only [hjk, decide_false, false_or]
        symm
        simpa using fun hm => this j hm
    | cons a t ih =>
      obtain ⟨a, m⟩ := a
      intro h1 h2 h3
      obtain ⟨h1a, h1t⟩ := List.pairwise_cons.mp h1
      have hm := h2 (a, m) (List.mem_cons_self ..)
      have old : ∀ e ∈ t, e.1 ≠ next k → ∀ j, j < 4 → e.2.getLsbD j = decide ((j = k ∨ j ∈ ks) ∧ next j = e.1) := by
        intro e he hne j hj
        rw [h2 e (List.mem_cons_of_mem _ he) j hj]
        by_cases hjk : j = k
        · subst hjk
          simp [hn, Ne.symm hne]
        · simp [hjk]
      unfold insertPath
      by_cases hpa : next k = a
      · simp only [hpa, ite_true]
        refine ⟨List.pairwise_cons.mpr ⟨h1a, h1t⟩, ?_, ⟨_, List.mem_cons_self .., rfl⟩, ?_⟩
        · intro e he j hj
          rcases List.mem_cons.mp he with he | he
          · subst he
            rw [BitVec.getLsbD_or, getLsbD_one_shl hj, hm j hj]
            by_cases hjk : j = k
            · simp [hjk, hpa]
            · simp [hjk]
          · refine old e he ?_ j hj
            have := h1a e he
            intro hx
            rw [hx, hpa] at this
            exact absurd this (Nat.lt_irrefl _)
        · intro e he
          rcases List.mem_cons.mp he with he | he
          · exact ⟨_, List.mem_cons_self .., by rw [he]⟩
          · exact ⟨e, List.mem_cons_of_mem _ he, rfl⟩
      · simp only [hpa, ite_false]
        have headOld : ∀ j, j < 4 → m.getLsbD j = decide ((j = k ∨ j ∈ ks) ∧ next j = a) := by
          intro j hj
          rw [hm j hj]
          by_cases hjk : j = k
          · subst hjk
            simp [hn, hpa]
          · simp [hjk]
        by_cases hlt : (next k).toNat < a.toNat
        · simp only [hlt, ite_true]
          refine ⟨List.pairwise_cons.mpr ⟨?_, h1⟩, ?_, ⟨_, List.mem_cons_self .., rfl⟩, fun e he => ⟨e, List.mem_cons_of_mem _ he, rfl⟩⟩
          · intro e he
            rcases List.mem_cons.mp he with he | he
            · subst he; exact hlt
            · exact Nat.lt_trans hlt (h1a e he)
          · have hno : ∀ e ∈ (a, m) :: t, e.1 ≠ next k := by
              intro e he hx
              rcases List.mem_cons.mp he with he | he
              · subst he; exact hpa hx.symm
              · have hlt' : a.toNat < e.1.toNat := h1a e he
                rw [hx] at hlt'
                omega
            intro e he j hj
            rcases List.mem_cons.mp he with he | he
            · subst he
              rw [getLsbD_one_shl hj]
              by_cases hjk : j = k
              · simp [hjk]
              · simp only [hjk, decide_false, false_or]
                symm
                simpa using fun hm => h3 hno j hm
            · rcases List.mem_cons.mp he with he | he
              · subst he; exact headOld j hj
              · exact old e he (hno e (List.mem_cons_of_mem _ he)) j hj
        · simp only [hlt, ite_false]
          have hne : a.toNat ≠ (next k).toNat := fun hx => hpa (BitVec.eq_of_toNat_eq hx.symm)
          obtain ⟨i1, i2, i3, i4⟩ := ih h1t (fun e he => h2 e (List.mem_cons_of_mem _ he)) fun hx => h3 fun e he => by
            rcases List.mem_cons.mp he with he | he
            · subst he; exact fun hy => hpa hy.symm
            · exact hx e he
          refine ⟨List.pairwise_cons.mpr ⟨?_, i1⟩, ?_, ?_, ?_⟩
          · intro e he
            rcases insertPath_mem he with he | he
            · have hle : a.toNat < (next k).toNat := Nat.lt_of_le_of_ne (Nat.le_of_not_lt hlt) hne
              rw [← he] at hle
              exact hle
            · exact h1a e he
          · intro e he j hj
            rcases List.mem_cons.mp he with he | he
            · subst he; exact headOld j hj
            · exact i2 e he j hj
          · obtain ⟨e, he, hx⟩ := i3
            exact ⟨e, List.mem_cons_of_mem _ he, hx⟩
          · intro e he
            rcases List.mem_cons.mp he with he | he
            · exact ⟨_, List.mem_cons_self .., by rw [he]⟩
            · obtain ⟨e', he', hx⟩ := i4 e he
              exact ⟨e', List.mem_cons_of_mem _ he', hx⟩
  obtain ⟨h1, h2, h3⟩ := h
  have hex : (∀ e ∈ ps, e.1 ≠ next k) → ∀ j ∈ ks, next j ≠ next k := by
    intro hno j hj hx
    obtain ⟨e, he, hy⟩ := h3 j hj
    exact hno e he (hy.trans hx)
  obtain ⟨k1, k2, k3, k4⟩ := key ps h1 h2 hex
  refine ⟨k1, fun e he j hj => by simpa using k2 e he j hj, fun j hj => ?_⟩
  rcases List.mem_cons.mp hj with hj | hj
  · subst hj; exact k3
  · obtain ⟨e, he, hx⟩ := h3 j hj
    obtain ⟨e', he', hy⟩ := k4 e he
    exact ⟨e', he', hy.trans hx⟩

/-- The ways on of a slice's lanes. -/
theorem slicePaths_spec (s : Slice) (next : Nat → W64) :
    PathsOf next ((List.range 4).filter fun k => s.mask.getLsbD k) (slicePaths s next) := by
  have key : ∀ (ls done : List Nat) (ps : List (W64 × BitVec 4)), (done ++ ls).Nodup → PathsOf next done ps →
      PathsOf next (done ++ ls) (ls.foldl (fun ps k => insertPath (next k) k ps) ps) := by
    intro ls
    induction ls with
    | nil => intro done ps _ h; simpa using h
    | cons k t ih =>
      intro done ps hn h
      have hk : k ∉ done := fun hk => by simp [List.nodup_append] at hn; exact (hn.2.2 k hk).1 rfl
      have h' := insertPath_spec hk h
      have hperm : ∀ j, j ∈ done ++ [k] ↔ j ∈ k :: done := by intro j; simp [or_comm]
      have h'' : PathsOf next (done ++ [k]) (insertPath (next k) k ps) := by
        obtain ⟨a, b, c⟩ := h'
        exact ⟨a, fun e he j hj => by rw [b e he j hj]; simp only [hperm], fun j hj => c j ((hperm j).mp hj)⟩
      have := ih (done ++ [k]) _ (by simpa using hn) h''
      simpa using this
  have h0 : PathsOf next [] [] := ⟨List.Pairwise.nil, by simp, by simp⟩
  have := key ((List.range 4).filter fun k => s.mask.getLsbD k) [] [] ((List.nodup_range).filter _) h0
  simpa only [slicePaths, List.nil_append] using this

end Sys2Proof.Machine
end

