-- ==== Sys2Proof/Laws/Effects.lean ====
section
/-! SUPPORT. What the operations that every instruction shares can do: the update of one record, the advance, flags, results, the end of waits and the
counts of completion. -/
namespace Sys2Proof.Machine

/-! Lists and records by number. -/

@[simp] theorem updAt_length {α : Type} (l : List α) (n : Nat) (f : α → α) : (updAt l n f).length = l.length := by
  induction l generalizing n with
  | nil => rfl
  | cons a t ih => cases n <;> simp [updAt, ih]

theorem updAt_getElem? {α : Type} (l : List α) (n k : Nat) (f : α → α) :
    (updAt l n f)[k]? = if k = n then (l[k]?).map f else l[k]? := by
  induction l generalizing n k with
  | nil => simp [updAt]
  | cons a t ih =>
    cases n <;> cases k <;> simp [updAt, ih]

theorem nthD_updAt_of_ne {α : Type} {d : α} {l : List α} {n k : Nat} (h : k ≠ n) (f : α → α) : nthD d (updAt l n f) k = nthD d l k := by
  simp [nthD, updAt_getElem?, h]

theorem nthD_updAt_self {α : Type} {d : α} {l : List α} {n : Nat} (h : n < l.length) (f : α → α) :
    nthD d (updAt l n f) n = f (nthD d l n) := by
  rw [nthD, updAt_getElem?, if_pos rfl, nthD, List.getElem?_eq_getElem h]
  rfl

@[simp] theorem Run.updGrp_grp_self (r : Run) (n : Nat) (f : Grp → Grp) : (r.updGrp n f).grp n = (r.grp n).map f :=
  Sparse.find_upd_self r.groups n f

theorem Run.updGrp_grp_of_ne (r : Run) {n k : Nat} (h : k ≠ n) (f : Grp → Grp) : (r.updGrp n f).grp k = r.grp k :=
  Sparse.find_upd_of_ne h f

@[simp] theorem Run.updTeam_team_self (r : Run) (n : Nat) (f : Team → Team) : (r.updTeam n f).team n = (r.team n).map f :=
  Sparse.find_upd_self r.teams n f

theorem Run.updTeam_team_of_ne (r : Run) {n k : Nat} (h : k ≠ n) (f : Team → Team) : (r.updTeam n f).team k = r.team k :=
  Sparse.find_upd_of_ne h f

/-! What stays while one group and its team change. -/

/-- The registers and the system state of a group are as before. -/
def Grp.keeps (g h : Grp) : Prop :=
  h.v = g.v ∧ h.g = g.g ∧ h.sg = g.sg ∧ h.p = g.p ∧ h.sp = g.sp ∧ h.lat = g.lat ∧ h.fflags = g.fflags ∧ systemKept g h

theorem Grp.keeps_refl (g : Grp) : g.keeps g := ⟨rfl, rfl, rfl, rfl, rfl, rfl, rfl, rfl, rfl, rfl, rfl, rfl, rfl, rfl⟩

theorem Grp.keeps.trans {g h k : Grp} (a : g.keeps h) (b : h.keeps k) : g.keeps k := by
  simp only [Grp.keeps, systemKept] at *
  simp_all

/-- Outside one group and one team, nothing but counters, caches and events differs. -/
def Run.restSame (gid tid : Nat) (r t : Run) : Prop :=
  (∀ k, k ≠ gid → t.grp k = r.grp k) ∧ (∀ k, k ≠ tid → t.team k = r.team k) ∧ t.mem = r.mem ∧ t.launches = r.launches ∧ t.ops = r.ops

theorem Run.restSame_refl (gid tid : Nat) (r : Run) : r.restSame gid tid r := ⟨fun _ _ => rfl, fun _ _ => rfl, rfl, rfl, rfl⟩

theorem Run.restSame.trans {gid tid : Nat} {r s t : Run} (a : r.restSame gid tid s) (b : s.restSame gid tid t) : r.restSame gid tid t :=
  ⟨fun k h => (b.1 k h).trans (a.1 k h), fun k h => (b.2.1 k h).trans (a.2.1 k h), b.2.2.1.trans a.2.2.1, b.2.2.2.1.trans a.2.2.2.1,
    b.2.2.2.2.trans a.2.2.2.2⟩

theorem Run.restSame_updGrp (gid tid : Nat) (r : Run) (f : Grp → Grp) : r.restSame gid tid (r.updGrp gid f) :=
  ⟨fun _ h => r.updGrp_grp_of_ne h f, fun _ _ => rfl, rfl, rfl, rfl⟩

theorem Run.restSame_updTeam (gid tid : Nat) (r : Run) (f : Team → Team) : r.restSame gid tid (r.updTeam tid f) :=
  ⟨fun _ _ => rfl, fun _ h => r.updTeam_team_of_ne h f, rfl, rfl, rfl⟩

theorem Run.restSame_updPart (gid tid : Nat) (r : Run) (n : Nat) (f : Partition → Partition) : r.restSame gid tid (r.updPart n f) :=
  ⟨fun _ _ => rfl, fun _ _ => rfl, rfl, rfl, rfl⟩

theorem Run.restSame_count (gid tid : Nat) (r : Run) (p b c n : Nat) : r.restSame gid tid (r.count p b c n) :=
  ⟨fun _ _ => rfl, fun _ _ => rfl, rfl, rfl, rfl⟩

/-! Completion. -/

@[simp] theorem countIssue_groups (c : Ctx) (r : Run) : (countIssue c r).groups = r.groups := rfl
@[simp] theorem countIssue_grp (c : Ctx) (r : Run) (n : Nat) : (countIssue c r).grp n = r.grp n := rfl
@[simp] theorem countIssue_mem (c : Ctx) (r : Run) : (countIssue c r).mem = r.mem := rfl

theorem countIssue_restSame (gid tid : Nat) (c : Ctx) (r : Run) : r.restSame gid tid (countIssue c r) :=
  (Run.restSame_count ..).trans (Run.restSame_count ..)

theorem foldl_updTeam_restSame {α : Type} (gid tid : Nat) (xs : List α) (f : α → Team → Team) (r : Run) :
    r.restSame gid tid (xs.foldl (fun r a => r.updTeam tid (f a)) r) ∧ (xs.foldl (fun r a => r.updTeam tid (f a)) r).groups = r.groups := by
  induction xs generalizing r with
  | nil => exact ⟨Run.restSame_refl .., rfl⟩
  | cons x xs ih =>
    have h := ih (r.updTeam tid (f x))
    exact ⟨(Run.restSame_updTeam ..).trans h.1, h.2⟩

/-- The end of waits of which none is on a semaphore's words: the group's registers stay, and outside it and its team nothing changes. -/
theorem endWaits_spec {r : Run} {gid : Nat} {g : Grp} {ns : List Nat} (hg : r.grp gid = some g)
    (h : waitObjects g ns (fun w => w.kind == 7 && w.reason == 8) = []) :
    r.restSame gid g.team (endWaits r gid ns) ∧ ∃ g', (endWaits r gid ns).grp gid = some g' ∧ g.keeps g' ∧ g'.team = g.team ∧
      g'.slices.length = g.slices.length := by
  unfold endWaits
  rw [show r.groups.find gid = some g from hg]
  dsimp only
  rw [h, List.foldl_nil]
  obtain ⟨h1, h2⟩ := foldl_updTeam_restSame gid g.team (waitObjects g ns fun w => w.kind == 3 && w.aux == 0)
    (fun a t => setWaiters t a (barWaiters t a - 1)) r
  generalize ((waitObjects g ns fun w => w.kind == 3 && w.aux == 0).foldl
    (fun r a => r.updTeam g.team fun t => setWaiters t a (barWaiters t a - 1)) r) = r1 at h1 h2
  refine ⟨(h1.trans (Run.restSame_updTeam ..)).trans (Run.restSame_updGrp ..), ?_⟩
  have hg1 : r1.grp gid = some g := by rw [← hg]; exact congrArg (fun m => Sparse.find m gid) h2
  rw [Run.updGrp_grp_self, Run.updTeam_grp, hg1]
  exact ⟨_, rfl, Grp.keeps_refl g, rfl, by simp⟩

/-! The advance, flags and results. -/

/-- The advance of an instruction that starts no region and moves no queue word changes its group alone, and there no register. -/
theorem advance_spec {c : Ctx} {r : Run} {g : Grp} (hg : r.grp c.gid = some g) (hr : c.sh.region = false) (hq : c.usesQueue = false) (tid : Nat) :
    r.restSame c.gid tid (advance c r) ∧ ∃ g', (advance c r).grp c.gid = some g' ∧ g.keeps g' ∧ g'.team = g.team := by
  have hb : c.beginsRegion = false := by simp [Ctx.beginsRegion, hr, hq]
  unfold advance
  simp only [hb, hq, Bool.or_false, Bool.false_eq_true, ite_false]
  refine ⟨Run.restSame_updGrp .., ?_⟩
  rw [Run.updGrp_grp_self, hg]
  refine ⟨_, rfl, ?_, ?_⟩ <;> dsimp only <;> split <;> simp [Grp.keeps, systemKept]

theorem raiseFlags_spec {c : Ctx} {r : Run} {g : Grp} (hg : r.grp c.gid = some g) (fl : Nat → BitVec 5) (tid : Nat) :
    r.restSame c.gid tid (raiseFlags r c fl) ∧ ∃ x, (raiseFlags r c fl).grp c.gid = some { g with fflags := x } := by
  refine ⟨Run.restSame_updGrp .., ?_⟩
  unfold raiseFlags
  rw [Run.updGrp_grp_self, hg]
  exact ⟨_, rfl⟩

theorem shiftLatches_spec (g : Grp) (ns : List Nat) (m : W128) (w : ResW) (val : Nat → Nat) :
    let h := shiftLatches g ns m w val
    h.v = g.v ∧ h.g = g.g ∧ h.sg = g.sg ∧ h.p = g.p ∧ h.sp = g.sp ∧ h.fflags = g.fflags ∧ systemKept g h ∧ h.team = g.team := by
  simp [shiftLatches, systemKept]

theorem writeV_vReg {g : Grp} {prot : Bool} {n : Nat} {w : ResW} {lanes : List Nat} {val : Nat → Nat} {k l : Nat} (hl : l < 128)
    (hls : ∀ j ∈ lanes, j < 128) (h : ¬ (n ≤ k ∧ k < n + w.words ∧ l ∈ lanes)) : vReg (writeV g prot n w lanes val) k l = vReg g k l := by
  unfold vReg writeV
  refine Sparse.get_setAll_of_not_mem ?_ 0
  simp only [List.mem_map, List.mem_flatMap, List.mem_range, resWords, List.length_map, List.length_range]
  rintro ⟨⟨a, b⟩, ⟨j, hj, i, hi, he⟩, rfl⟩
  simp only [Prod.mk.injEq] at he
  have := hls j hj
  have h1 : k = n + i := by omega
  have h2 : l = j := by omega
  exact h ⟨by omega, by omega, h2 ▸ hj⟩

theorem lane_lt {c : Ctx} {l : Nat} (h : l ∈ c.lanes) : l < 128 := by
  simp only [Ctx.lanes, lanesOf, List.mem_filter] at h
  exact BitVec.lt_of_getLsbD h.2

@[simp] theorem Run.updGrp_updGrp (r : Run) (n : Nat) (f h : Grp → Grp) : (r.updGrp n f).updGrp n h = r.updGrp n fun g => h (f g) := by
  simp [Run.updGrp]

@[simp] theorem Run.updGrp_id (r : Run) (n : Nat) : (r.updGrp n fun g => g) = r := by
  simp [Run.updGrp]

/-- A group with a result that goes to no queue register. -/
def resultIn (c : Ctx) (w : ResW) (val : Nat → Nat) (g : Grp) : Grp :=
  if c.f.w then shiftLatches g c.slices c.active w val
  else
    match c.f.d with
    | .v n => writeV (shiftLatches g c.slices c.active w val) c.l.prot n.toNat w c.lanes val
    | .g n => match c.lowest with
      | some l => setG g n.toNat (resG w (val l))
      | none => g
    | _ => g

theorem writeRes_eq {c : Ctx} (r : Run) (w : ResW) (val : Nat → Nat) (hq : c.f.w = true ∨ ∀ n, c.f.d ≠ .q n) :
    writeRes r c w val = .ok (r.updGrp c.gid (resultIn c w val)) := by
  unfold writeRes resultIn
  cases hw : c.f.w <;> cases hd : c.f.d
  all_goals simp only [Bool.or_true, Bool.or_false, Bool.false_eq_true, ite_true, ite_false, Run.updGrp_updGrp, Run.updGrp_id]
  · cases c.lowest <;> simp
  · simp_all

theorem setG_gReg (g : Grp) {n k : Nat} (h : k ≠ n) (hk : k < 64) (w : W64) : gReg (setG g n w) k = gReg g k := by
  unfold setG gReg
  by_cases hs : g.super = true <;> by_cases hn : 56 ≤ n <;> by_cases h6 : 56 ≤ k <;> simp [hs, hn, h6]
  all_goals exact nthD_updAt_of_ne (by omega) _

theorem setG_spec (g : Grp) (n : Nat) (w : W64) :
    let h := setG g n w
    h.team = g.team ∧ h.v = g.v ∧ h.p = g.p ∧ h.sp = g.sp ∧ h.lat = g.lat ∧ h.fflags = g.fflags ∧ systemKept g h := by
  unfold setG
  split <;> simp [systemKept]

/-- What a result in a register can change: its destination and the latches of the issuing slices. -/
theorem resultIn_spec (c : Ctx) (w : ResW) (val : Nat → Nat) (g : Grp) :
    let h := resultIn c w val g
    h.team = g.team ∧ h.p = g.p ∧ h.sp = g.sp ∧ h.fflags = g.fflags ∧ systemKept g h ∧
      (∀ k l, l < 128 → ¬ isDest c w k l → vReg h k l = vReg g k l) ∧
      ∀ k, k < 64 → (c.f.w = true ∨ ∀ n, c.f.d = .g n → k ≠ n.toNat) → gReg h k = gReg g k := by
  unfold resultIn isDest
  cases hw : c.f.w with
  | true => simp [shiftLatches, systemKept, vReg, gReg]
  | false =>
    cases hd : c.f.d with
    | v n =>
      refine ⟨by simp [writeV, shiftLatches], by simp [writeV, shiftLatches], by simp [writeV, shiftLatches], by simp [writeV, shiftLatches],
        by simp [writeV, shiftLatches, systemKept], fun k l hl h => ?_, fun k _ _ => by simp [writeV, shiftLatches, gReg]⟩
      refine (writeV_vReg hl (fun j hj => lane_lt hj) fun hk => h ⟨rfl, n, rfl, hk⟩).trans ?_
      simp [shiftLatches, vReg]
    | g n =>
      simp only [Bool.false_eq_true, ite_false]
      cases c.lowest with
      | none => simp [systemKept]
      | some l =>
        obtain ⟨h1, h2, h3, h4, -, h6, h7⟩ := setG_spec g n.toNat (resG w (val l))
        refine ⟨h1, h3, h4, h6, h7, fun k l _ _ => congrArg (fun v => Sparse.get 0 v (128 * k + l)) h2, fun k hk h => ?_⟩
        exact setG_gReg g (by simpa using h) hk _
    | _ => simp [systemKept]

end Sys2Proof.Machine
end

