-- ==== Sys2Proof/Laws/Fetch.lean ====
section
/-! SUPPORT. What the fetch of one word, and of an instruction, answers. -/
namespace Sys2Proof.Machine

/-- A word that the core's cache does not hold otherwise is the one in memory. -/
theorem cachedWord_good {r : Run} {q : Req} {l : Leaf} {pa : Nat}
    (h : ∀ w, (r.core q.die q.core).icache.find pa = some w → w = readWord r pa) : (cachedWord r q l pa).1 = readWord r pa := by
  unfold cachedWord
  dsimp only
  split
  · rename_i w hw
    simp only [h w hw, ite_true]
  · rfl

/-- A page that translates and a range that reads good data answer the word in memory. -/
theorem fetchWord_good {r ra rb : Run} {gid : Nat} {g : Grp} {s : Slice} {pc a : W64} {l : Leaf} {q : Req} (hq : grpReq r gid g pc 6 3 = q)
    (ht : translate r q a = (.ok l, ra)) (hf : rangeFail ra (keyOf ra q.part l) (l.pa a) 8 = none)
    (hb : correctRange ra q.part (keyOf ra q.part l) (l.pa a) 8 = rb)
    (hc : ∀ w, (rb.core q.die q.core).icache.find (l.pa a) = some w → w = readWord rb (l.pa a)) (hl : s.loopWord a = none) (hs : s.oldWord a = none) :
    fetchWord r gid g s pc a = .ok (readWord rb (l.pa a), .new, (cachedWord rb q l (l.pa a)).2) := by
  unfold fetchWord
  subst hq
  generalize grpReq r gid g pc 6 3 = q at *
  simp only [hl, ht, hf, sliceWord, hs, hb, cachedWord_good hc]

/-- A word of the loop buffer is issued from there, with nothing translated (09 R290). -/
theorem fetchWord_loop {r : Run} {gid : Nat} {g : Grp} {s : Slice} {pc a w : W64} (h : s.loopWord a = some w) :
    fetchWord r gid g s pc a = .ok (w, .loop, r) := by
  unfold fetchWord
  simp only [h]

/-- What a fetch answers, by its words. -/
theorem fetch_eq {r ra rb : Run} {gid : Nat} {g : Grp} {s : Slice} {w1 w2 : W64} (ha : s.pc.toNat % 8 = 0)
    {k1 k2 : WordFrom} (h1 : fetchWord r gid g s s.pc s.pc = .ok (w1, k1, ra))
    (h2 : (if longWord w1 then fetchWord ra gid g (s.took s.pc w1 k1) s.pc (s.pc + 8) else .ok (0, .loop, ra)) = .ok (w2, k2, rb)) :
    fetch r gid g s =
      match decodeWords w1 w2 with
      | .ok i => .ok (i, rb.updGrp gid fun g => g.updSlices (g.fragSlices s.frag) fun x => (x.took s.pc w1 k1).took (s.pc + 8) w2 k2)
      | .error _ => .error { trap := fetchTrap .illegalOpcode 0 s.pc 0 } := by
  have ha' : (s.pc.toNat % 8 != 0) = false := by simp [ha]
  unfold fetch
  simp only [ha', Bool.false_eq_true, ite_false, h1, h2] <;> rfl

end Sys2Proof.Machine
end

