-- ==== Sys2Proof/Laws/Issue.lean ====
section
/-! SUPPORT. What the issue of an instruction that is ready does, by what its effect answers. -/
namespace Sys2Proof.Machine

theorem makeCtx_fields {r : Run} {gid frag : Nat} {sh : OpShape} {f : Fields} {c : Ctx} (h : makeCtx r gid frag sh f = some c) :
    c.gid = gid ∧ c.frag = frag ∧ c.sh = sh ∧ c.f = f ∧ c.pops = [] ∧ r.grp gid = some c.grp ∧ r.team c.grp.team = some c.t ∧
      r.launch c.t.launch = some c.l := by
  unfold makeCtx at h
  split at h
  · simp at h
  split at h
  · simp at h
  split at h
  · simp at h
  dsimp only at h
  split at h
  · simp at h
  · cases h
    simp_all

/-- What a ready instruction does, as its effect answers: it completes, waits, or traps (06 R184, 17 R437). `base` is what executes after a commit
that its words ask for. -/
def readyOutcome (w : Work) (c : Ctx) (base r : Run) : Run :=
  let switch := c.sh.switch || c.usesQueue
  match w.body c (advance c r) with
  | .ok r' => closing c (w.fin c (ended c r'))
  | .error (.undone act) => act base
  | .error (.wait x start) => beginWait base c.gid c.slices x start switch
  | .error (.sent x keep) => beginWait (keep r) c.gid c.slices x (fun _ r => r) switch
  | .error (.trap t faults) => trapAt base c.gid c.slices t faults
  | .error (.report t keep) => trapAt base c.gid c.slices t [] keep

/-- The effect of an instruction that is not in flight and whose queue words are there. -/
theorem effect_ready {w : Work} {c0 c : Ctx} {base r : Run} (hc : c = { c0 with pops := c.pops }) (hfly : c0.flying w = false)
    (hq : queues c0 base = .ok (c.pops, r)) :
    effect w c0 base =
      match w.body c (advance c r) with
      | .error (.sent x keep) => .error (.sent x fun _ => keep r)
      | .error e => .error e
      | .ok r' => .ok (c, r') := by
  have hadv : advance c0 r = advance c r := by rw [hc]; rfl
  unfold effect
  rw [hfly]
  simp only [Bool.false_eq_true, ite_false, hq, bind, Except.bind, ← hc, ← hadv] <;> rfl

/-- The words of a semaphore alone are compared with nothing, and they are no class 6 instruction's. -/
theorem wordsCmp_spec (c : Ctx) : c.wordsCmp.counted = false ∧ (c.wordsCmp = .engine) = False := by
  unfold Ctx.wordsCmp
  split <;> simp [Cmp.counted]

/-- An instruction without a value operand or result moves no queue word. -/
theorem usesQueue_of_fields {c : Ctx} (hs : sources c.sh c.f = []) (hd : queueWrite c.sh c.f = none) : c.usesQueue = false := by
  simp [Ctx.usesQueue, queueReads, hs, hd]

/-- An instruction that moves no queue word moves none through a semaphore. -/
theorem usesSem_of_no_queue {c : Ctx} (h : c.usesQueue = false) : c.usesSem = false := by
  simp only [Ctx.usesQueue, Bool.and_eq_false_iff, Bool.or_eq_false_iff, Bool.not_eq_false', List.isEmpty_iff, Option.isSome_eq_false_iff, Option.isNone_iff_eq_none] at h
  unfold Ctx.usesSem
  rcases h with h | ⟨h1, h2⟩
  · rw [h, Bool.false_and]
  · simp [h1, h2]

/-- One that moves no word through a semaphore begins with no commit. -/
theorem Ctx.begun_of_no_sem {c : Ctx} {r : Run} (h : c.usesSem = false) : c.begun r = c.onto r := by
  simp [Ctx.begun, Ctx.wordsCmp, h, Ctx.before]

/-- Nor does one of which nothing is compared. -/
theorem Ctx.begun_of_unpaired {c : Ctx} {r : Run} (h : c.shadowed = false) : c.begun r = c.onto r := by
  simp [Ctx.begun, Ctx.wordsCmp, h, Ctx.before]

/-- An instruction that moves no queue word commits nothing for its words. -/
theorem closing_of_no_queue {c : Ctx} (h : c.usesQueue = false) (r : Run) : closing c r = r := by
  have hs := usesSem_of_no_queue h
  simp [closing, Ctx.wordsCmp, hs, Cmp.commits]

/-- An instruction that is not compared has no comparison but that of its words. -/
theorem cmp_of_none {c : Ctx} {w : Work} (h : c.shadowed = false ∨ c.active = 0 ∨ w.cmp c.f = .none) : c.cmp w = c.wordsCmp := by
  unfold Ctx.cmp Ctx.wordsCmp
  rcases h with h | h | h
  · simp [h]
  · simp [h, Ctx.usesSem]
  · simp only [h]
    split
    · rename_i hx
      simp only [Bool.or_eq_true, Bool.not_eq_true', decide_eq_true_eq] at hx
      rcases hx with hx | hx <;> simp [hx, Ctx.usesSem]
    · rfl

theorem issueCtx_ready {w : Work} {s : State} {c0 c : Ctx} {base r : Run} (hc : c = { c0 with pops := c.pops }) (hfly : c0.flying w = false)
    (hdue : (if c0.sh.switch = true ∨ c0.usesQueue = true then dueDeferred c0.grp else none) = none)
    (he : c0.early = none) (hm : c0.missing = []) (hcmp : c0.cmp w = c0.wordsCmp)
    (hb : c0.before c0.wordsCmp (c0.onto s.run) = (base, true)) (hq : queues c0 base = .ok (c.pops, r)) :
    issueCtx w (c0.onto s.run) c0 = readyOutcome w c base r := by
  have hgid : c0.gid = c.gid := by rw [hc]
  have hsl : c0.slices = c.slices := by rw [hc]
  have hsh : c0.sh = c.sh := by rw [hc]
  have hgrp : c0.grp = c.grp := by rw [hc]
  have huq : c0.usesQueue = c.usesQueue := by rw [hc]; rfl
  have hon : c0.onto s.run = c.onto s.run := by rw [hc]; rfl
  have hw : c0.wordsCmp = c.wordsCmp := by rw [hc]; rfl
  have hus : c0.usesSem = c.usesSem := by rw [hc]; rfl
  have heff := effect_ready (w := w) hc hfly hq
  obtain ⟨hcount, heng⟩ := wordsCmp_spec c
  rw [hw] at hcmp hb
  rw [hon] at hb
  rw [hsh, huq, hgrp] at hdue
  have hplain : c.wordsCmp = .none → c.onto s.run = base := fun h => by rw [h] at hb; exact (Prod.mk.inj hb).1
  have hfirst : (if c.usesSem = true then base else c.onto s.run) = base := by
    split
    · rfl
    · rename_i h
      exact hplain (by simp [Ctx.wordsCmp, h])
  have hreport : (if c.wordsCmp.commits = true then base else c.onto s.run) = base := by
    split
    · rfl
    · rename_i h
      refine hplain ?_
      by_cases hs : (c.shadowed && c.usesSem) = true
      · simp [Ctx.wordsCmp, hs, Cmp.commits] at h
      · simp [Ctx.wordsCmp, hs]
  unfold issueCtx Ctx.resident issueReady
  simp only [hfly, Bool.not_false, Bool.true_and, Bool.or_eq_true, hsh, huq, hgrp, hdue, he, hm, List.isEmpty_nil, ite_true, hcmp, hon, hb, heff,
    Bool.false_eq_true, ite_false, hcount, Bool.or_false, heng, readyOutcome, hgid, hsl, hus, decide_false, Bool.false_or, Bool.true_or, hfirst,
    hreport]
  cases w.body c (advance c r) with
  | ok r' => rfl
  | error e => cases e <;> rfl

/-- The commit that words ask for, and what is ready after it. -/
theorem issue_ready {i : Instr} {w : Work} {s : State} {c : Ctx} {r : Run} (h : Ready i s c r)
    (hc : c.shadowed = false ∨ c.active = 0 ∨ w.cmp c.f = .none)
    (hf : w.finish = none ∨ c.grp.remotes.any (ownRemote c.pc c.slices) = false) :
    ∃ base, c.before c.wordsCmp (c.onto s.run) = (base, true) ∧ issue i w s = .next { s with run := readyOutcome w c base r } := by
  obtain ⟨sh, f, c0, base, hsh, hf', hi, hm, hc0, hd, he, hml, hb, hq⟩ := h
  have hfly : c0.flying w = false := by
    rw [hc0] at hf
    unfold Ctx.flying
    cases hf with
    | inl h => simp [h]
    | inr h => simp [h]
  obtain ⟨hg, hfr, hsh', hff, hp, -⟩ := makeCtx_fields hm
  have hcmp : c0.cmp w = c0.wordsCmp := by
    refine cmp_of_none ?_
    rw [hc0] at hc
    exact hc
  refine ⟨base, by rw [hc0]; exact hb, ?_⟩
  unfold issue
  split
  · rename_i sh' f' gid frag h1 h2 h3
    obtain rfl : sh = sh' := Option.some.inj (hsh.symm.trans h1)
    obtain rfl : f = f' := Option.some.inj (hf'.symm.trans h2)
    obtain ⟨rfl, rfl⟩ : c.gid = gid ∧ c.frag = frag := Prod.mk.inj (Option.some.inj (hi.symm.trans h3))
    rw [hm]
    refine congrArg Host.Outcome.next (congrArg (fun x => { s with run := x }) (issueCtx_ready hc0 hfly ?_ he hml hcmp hb hq))
    rw [hsh']
    split
    · rename_i hs
      exact hd (by simpa using hs)
    · rfl
  · rename_i h
    exact absurd hi (h sh f c.gid c.frag hsh hf')

/-- An instruction whose effect answers a state completes in it. -/
theorem issue_completes {i : Instr} {w : Work} {s : State} {c : Ctx} {r r' : Run} (h : Ready i s c r)
    (hc : c.shadowed = false ∨ c.active = 0 ∨ w.cmp c.f = .none)
    (hf : w.finish = none ∨ c.grp.remotes.any (ownRemote c.pc c.slices) = false)
    (hb : w.body c (advance c r) = .ok r') :
    issue i w s = .next { s with run := closing c (w.fin c (ended c r')) } := by
  obtain ⟨base, -, h⟩ := issue_ready h hc hf
  rw [h, readyOutcome, hb]

/-- The same where nothing follows completion. -/
theorem issue_completed {i : Instr} {w : Work} {s : State} {c : Ctx} {r r' : Run} (h : Ready i s c r)
    (hc : c.shadowed = false ∨ c.active = 0 ∨ w.cmp c.f = .none)
    (hf : w.finish = none ∨ c.grp.remotes.any (ownRemote c.pc c.slices) = false) (hfin : w.fin = fun _ r => r)
    (hb : w.body c (advance c r) = .ok r') : issue i w s = .next (completed s c r') := by
  rw [issue_completes h hc hf hb, hfin]
  rfl

/-- An instruction whose effect answers a trap takes it. -/
theorem issue_traps {i : Instr} {w : Work} {s : State} {c : Ctx} {r : Run} {t : TrapInfo} {e : List (Req × FaultInfo)} (h : Ready i s c r)
    (hc : c.shadowed = false ∨ c.active = 0 ∨ w.cmp c.f = .none)
    (hf : w.finish = none ∨ c.grp.remotes.any (ownRemote c.pc c.slices) = false)
    (hb : w.body c (advance c r) = .error (.trap t e)) :
    issue i w s = .next { s with run := trapAt (c.begun s.run) c.gid c.slices t e } := by
  obtain ⟨base, hbase, h⟩ := issue_ready h hc hf
  rw [h, readyOutcome, hb, Ctx.begun, hbase]

/-- An instruction that moves no queue word and undoes what it began acts on the state that it was issued in. -/
theorem issue_undone {i : Instr} {w : Work} {s : State} {c : Ctx} {r : Run} {act : Run → Run} (h : Ready i s c r)
    (hc : c.shadowed = false ∨ c.active = 0 ∨ w.cmp c.f = .none)
    (hf : w.finish = none ∨ c.grp.remotes.any (ownRemote c.pc c.slices) = false) (hu : c.usesQueue = false)
    (hb : w.body c (advance c r) = .error (.undone act)) : issue i w s = .next { s with run := act (c.onto s.run) } := by
  obtain ⟨base, hbase, h⟩ := issue_ready h hc hf
  rw [h, readyOutcome, hb, ← Ctx.begun_of_no_sem (usesSem_of_no_queue hu), Ctx.begun, hbase]

/-- A store of a protected launch that moves no word through a semaphore, its room made, completes with the buffer that its effect leaves. -/
theorem issue_store {i : Instr} {w : Work} {f : Fields} {s : State} {c0 c : Ctx} {base r r' : Run}
  (hf : fieldsOf i = some f) (hsh : shape i = some c.sh) (hi : s.run.issuing = some (c.gid, c.frag))
  (hm : makeCtx s.run c.gid c.frag c.sh f = some c0) (hc : c = { c0 with pops := c.pops })
  (hd : ((c.sh.switch || c0.usesQueue) = true → dueDeferred c0.grp = none)) (he : c0.early = none) (hml : c0.missing = [])
  (hs : c.shadowed = true) (ha : c.active ≠ 0) (hw : w.cmp c.f = .store) (hsem : c.usesSem = false) (hfin : w.fin = fun _ r => r)
  (hnf : w.finish = none) (hroom : makeRoom (c.onto s.run) c = (base, true)) (hq : queues c0 base = .ok (c.pops, r))
  (hb : w.body c (advance c r) = .ok r') (hinj : (r'.core c.t.die c.t.core).inject = none) : issue i w s = .next (completed s c r') := by
  have hfly : c0.flying w = false := by simp [Ctx.flying, hnf]
  have heff := effect_ready (w := w) hc hfly hq
  rw [hb] at heff
  obtain ⟨-, -, hsh', -⟩ := makeCtx_fields hm
  have hdue : (if (c.sh.switch || c0.usesQueue) = true then dueDeferred c0.grp else none) = none := by
    split
    · exact hd ‹_›
    · rfl
  have hcmp : c0.cmp w = .store := by
    have hw' : w.cmp c0.f = .store := by rw [hc] at hw; exact hw
    have hs' : c0.shadowed = true := by rw [hc] at hs; exact hs
    have ha' : c0.active ≠ 0 := by rw [hc] at ha; exact ha
    have hsem' : c0.usesSem = false := by rw [hc] at hsem; exact hsem
    simp only [Ctx.cmp, hw', hs', hsem', Bool.not_true, Bool.false_or, decide_eq_true_eq, if_neg ha', Bool.false_eq_true, ite_false]
  have hroom' : makeRoom (c0.onto s.run) c0 = (base, true) := by rw [hc] at hroom; exact hroom
  have hclose : ∀ x, closing c x = x := by simp [closing, Ctx.wordsCmp, hsem, Cmp.commits]
  have hgid : c0.gid = c.gid := by rw [hc]
  have hsl : c0.slices = c.slices := by rw [hc]
  have hin : (r'.core c0.t.die c0.t.core).inject = none := by rw [hc] at hinj; exact hinj
  unfold issue
  rw [hsh, hf, hi]
  dsimp only
  rw [hm]
  unfold issueCtx Ctx.resident issueReady
  simp only [hfly, Bool.not_false, Bool.true_and, hsh', hdue, he, hml, List.isEmpty_nil, hcmp, Ctx.before, hroom', heff, ite_true, Bool.false_eq_true, ite_false,
    Cmp.counted, Bool.not_true, Bool.or_self, Bool.false_or, ite_self, injected, hin, hfin, Cmp.commits, completed, ended, hclose, hgid, hsl]

/-- A remote instruction in flight, its replies arrived, completes with what they brought. -/
theorem issue_landed {i : Instr} {w : Work} {fin : Body} {s : State} {c : Ctx} {r' : Run} (h : Landed i s c) (hu : c.unpaired)
    (hw : w.finish = some fin) (hfin : w.fin = fun _ r => r) (hq : queueWrite c.sh c.f = none)
    (hb : fin c (advance c (c.onto s.run)) = .ok r') : issue i w s = .next (completed s c r') := by
  obtain ⟨sh, f, hsh, hf, hi, hm, hml, hr⟩ := h
  obtain ⟨-, -, hsh', hff, -⟩ := makeCtx_fields hm
  subst hsh' hff
  have hfly : c.flying w = true := by simp [Ctx.flying, hw, hr]
  have hu' : c.shadowed = false := hu
  have heff : effect w c (c.onto s.run) = .ok (c, r') := by
    unfold effect
    simp only [hfly, ite_true, hw, hq, Option.toList_none, List.foldlM_nil, bind, Except.bind, pure, Except.pure, hb, Except.map]
  have hcmp : c.cmp w = .none := by simp [Ctx.cmp, hu']
  have hclose : ∀ x, closing c x = x := by simp [closing, Ctx.wordsCmp, hu', Cmp.commits]
  unfold issue
  rw [hsh, hf, hi]
  dsimp only
  rw [hm]
  unfold issueCtx Ctx.resident issueReady
  simp only [hfly, Bool.not_true, Bool.false_and, Bool.false_eq_true, ite_false, ite_true, hml, List.isEmpty_nil, hcmp, heff, Cmp.counted, Cmp.commits,
    Bool.not_false, Bool.true_or, hfin, completed, ended, hclose]

/-- A plain destination takes a result. -/
theorem writeRes_plain {c : Ctx} (h : plainDest c = true) (r : Run) (w : ResW) (val : Nat → Nat) : ∃ r', writeRes r c w val = .ok r' := by
  unfold writeRes
  simp only [plainDest, Bool.or_eq_true] at h
  dsimp only
  split
  · exact ⟨_, rfl⟩
  · rename_i hw
    split
    · exact ⟨_, rfl⟩
    · split <;> exact ⟨_, rfl⟩
    · rename_i n hd
      simp only [hd, hw] at h
      split
      · rename_i b hb
        rw [hb] at h
        have hk : b.kind < 4 := by simpa using h
        split
        · exact ⟨_, rfl⟩
        · simp
      · exact ⟨_, rfl⟩
    · exact ⟨_, rfl⟩

/-- What a ready instruction is issued as. -/
theorem Ready.fields {i : Instr} {s : State} {c : Ctx} {r : Run} (h : Ready i s c r) :
    shape i = some c.sh ∧ fieldsOf i = some c.f ∧ s.run.issuing = some (c.gid, c.frag) ∧ s.run.grp c.gid = some c.grp ∧
      s.run.team c.grp.team = some c.t ∧ s.run.launch c.t.launch = some c.l := by
  obtain ⟨sh, f, c0, base, hsh, hf', hi, hm, hc0, -⟩ := h
  obtain ⟨-, -, hsh', hff, -, hg, ht, hl⟩ := makeCtx_fields hm
  rw [hc0]
  exact ⟨hsh'.symm ▸ hsh, hff.symm ▸ hf', by rw [hc0] at hi; exact hi, by rw [hc0] at hg; exact hg, ht, hl⟩

/-- An instruction whose effect is one result completes with it. -/
theorem yields_of_lane {i : Instr} {w : Ctx → ResW} {val : Ctx → Run → Nat → Nat}
    (he : ∀ s, exec i s = issue i { body := fun c r => writeRes r c (w c) (val c r) } s) : Yields i w val := by
  intro s c r h hp _
  obtain ⟨r', hr'⟩ := writeRes_plain hp (advance c r) (w c) (val c (advance c r))
  exact ⟨r', hr', by rw [he]; exact issue_completed h (.inr (.inr rfl)) (.inl rfl) rfl hr'⟩

theorem yieldsFlags_of_lane {i : Instr} {w : Ctx → ResW} {val : Ctx → Run → Nat → Nat × BitVec 5}
    (he : ∀ s, exec i s = issue i
      { body := fun c r => writeRes (raiseFlags r c fun l => (val c r l).2) c (w c) fun l => (val c r l).1 } s) : YieldsFlags i w val := by
  intro s c r h hp
  obtain ⟨r', hr'⟩ := writeRes_plain hp (raiseFlags (advance c r) c fun l => (val c (advance c r) l).2) (w c)
    (fun l => (val c (advance c r) l).1)
  exact ⟨r', hr', by rw [he]; exact issue_completed h (.inr (.inr rfl)) (.inl rfl) rfl hr'⟩

theorem yieldsPred_of_lane {i : Instr} {val : Ctx → Run → Nat → Bool} (he : ∀ s, exec i s = issue i (predWork val) s) : YieldsPred i val := by
  intro s c r h
  rw [he]
  exact issue_completed h (.inr (.inr rfl)) (.inl rfl) rfl rfl

theorem acts_of_body {i : Instr} {w : Work} {ok : Ctx → Run → Prop} {act : Ctx → Run → Run} (he : ∀ s, exec i s = issue i w s)
    (hcmp : ∀ f, w.cmp f = .none) (hfin : w.fin = fun _ r => r) (hnf : w.finish = none)
    (hb : ∀ s c r, Ready i s c r → ok c (advance c r) → w.body c (advance c r) = .ok (act c (advance c r))) : Acts i ok act := by
  intro s c r h hok
  rw [he]
  exact issue_completed h (.inr (.inr (hcmp c.f))) (.inl hnf) hfin (hb s c r h hok)

end Sys2Proof.Machine
end

