-- ==== Sys2Proof/Tests/Slice0.lean ====
section
/-! SUPPORT. Small checks of the model, and a state that meets the hypotheses of each statement. -/
namespace Sys2Proof.Tests
open Sys2Proof.Machine

-- One thread: a proof by kernel evaluation otherwise takes a thread, and address space, of its own.
set_option Elab.async false

/-! ## A state in which an instruction is issuing -/

/-- The words of an instruction as one number, first word lowest. -/
def wordsOfInstr (i : Instr) : Nat := (encode i).foldr (fun w acc => w.toNat + 2 ^ 64 * acc) 0

/-- A machine after reset with one group (3) of one team (2) of a launch (0), its next turn an instruction placed in memory; and an edit of it. -/
def probe (i : Instr) (edit : Run → Run := id) : State :=
  let s := State.reset.withFetchWord 128 (wordsOfInstr i)
  { s with run := edit s.run }

/-- Edits of the probe's group, team and launch. -/
def inGrp (f : Grp → Grp) (r : Run) : Run := r.updGrp 3 f
def inTeam (f : Team → Team) (r : Run) : Run := r.updTeam 2 f
def inLaunch (f : Launch → Launch) (r : Run) : Run := r.updLaunch 0 f

/-- The instruction of the turn at the head of the agenda, with the state that it executes in. -/
def turnOf (s : State) : Option (Instr × State) :=
  match s.agenda with
  | ⟨n, .issue g f, ferry, failing⟩ :: t =>
    let s1 := arrives ⟨n, .issue g f, ferry, failing⟩ (elapse n { s with agenda := t })
    match fragTurn s1.run g f with
    | .instr i r => some (i, { s1 with run := r })
    | .done _ => none
  | _ => none

/-- What an issuing instruction is issued as where nothing that every instruction shares stops it. -/
def readyOf (i : Instr) (s : State) : Option (Ctx × Run) :=
  match shape i, fieldsOf i, s.run.issuing with
  | some sh, some f, some (gid, frag) =>
    match makeCtx s.run gid frag sh f with
    | none => none
    | some c =>
      if (sh.switch || c.usesQueue) && (dueDeferred c.grp).isSome then none
      else if c.early.isSome then none
      else if !c.missing.isEmpty then none
      else
        match c.before c.wordsCmp (c.onto s.run) with
        | (_, false) => none
        | (base, true) =>
          match queues c base with
          | .ok (pops, r) => some ({ c with pops }, r)
          | .error _ => none
  | _, _, _ => none

theorem readyOf_ready {i : Instr} {s : State} {c : Ctx} {r : Run} (h : readyOf i s = some (c, r)) : Ready i s c r := by
  unfold readyOf at h
  split at h
  · rename_i sh f gid frag hsh hf hi
    split at h
    · simp at h
    · rename_i c0 hm
      split at h
      · simp at h
      · rename_i hd
        split at h
        · simp at h
        · rename_i he
          split at h
          · simp at h
          · rename_i hl
            split at h
            · simp at h
            · rename_i base hb
              split at h
              · rename_i pops r1 hq
                simp only [Option.some.injEq, Prod.mk.injEq] at h
                obtain ⟨rfl, rfl⟩ := h
                have hg : c0.gid = gid ∧ c0.frag = frag := by
                  unfold makeCtx at hm
                  split at hm
                  · simp at hm
                  split at hm
                  · simp at hm
                  split at hm
                  · simp at hm
                  dsimp only at hm
                  split at hm
                  · simp at hm
                  · cases hm
                    exact ⟨rfl, rfl⟩
                obtain ⟨rfl, rfl⟩ := hg
                refine ⟨sh, f, c0, base, hsh, hf, hi, hm, rfl, fun hs => ?_, by simpa using he, by simpa using hl, hb, hq⟩
                simpa [hs] using hd
              · simp at h
  · simp at h

/-- The instruction at the head of the agenda is ready, and `p` holds of it. -/
def readyAt (s : State) (p : Instr → State → Ctx → Run → Bool) : Bool :=
  match turnOf s with
  | some (i, t) =>
    match readyOf i t with
    | some (c, r) => p i t c r
    | none => false
  | none => false

/-- What `readyAt` says: there is a state in which that instruction is ready as `p` says. -/
theorem readyAt_ready {s : State} {p : Instr → State → Ctx → Run → Bool} (h : readyAt s p = true) :
    ∃ i t c r, turnOf s = some (i, t) ∧ Ready i t c r ∧ p i t c r = true := by
  unfold readyAt at h
  split at h
  · rename_i i t ht
    split at h
    · rename_i c r hr
      exact ⟨i, t, c, r, ht, readyOf_ready hr, h⟩
    · simp at h
  · simp at h

/-! ## Words written out from the manual decode to their instructions -/

def decodesTo (w1 w2 : W64) (i : Instr) : Bool :=
  match decodeWords w1 w2 with
  | .ok j => decide (j = i)
  | .error _ => false

def rejectsAs (w1 w2 : W64) (e : Reject) : Bool :=
  match decodeWords w1 w2 with
  | .ok _ => false
  | .error x => decide (x = e)


/-- 06, the worked encodings; 07, after R206, R210, R212; 12, the table of encodings. -/
theorem test_words_integer :
    decodesTo 0x0014020140C00000 0 (.iadd { gn := true, gp := 2, d := .v 4, a := .v 5, b := .v 6 }) ∧
    decodesTo 0x020F005028000000 0 (.imul { w := true, a := .b 0, b := .b 0 }) ∧
    decodesTo 0x1C0E008000000030 0 (.iaddi { d := .v 1, x := 0x030 }) ∧
    decodesTo 0x0F2E038040403000 0x6A (.lop3 { t := .n32, d := .v 7, a := .v 1, b := .v 2, c := .v 3, w2 := 0x6A }) ∧
    decodesTo 0x1A0E008080607040 0 (.icmp { d := .v 1, a := .v 2, b := .v 3, c := .v 7, x := 0x040 }) ∧
    decodesTo 0x150E035801400000 0 (.bfx { d := .v 6, a := .sr 0, b := .v 10 }) := by decide

/-- By the fields of 06 R168: FADD.F32 v4, v5, v6 and CVTIF.F32.I32 v4, v5. -/
theorem test_words_float :
    decodesTo 0x208E020140C00000 0 (.fadd { t := .f32, d := .v 4, a := .v 5, b := .v 6 }) ∧
    decodesTo 0x400E020140000020 0 (.cvtif { d := .v 4, a := .v 5, x := 0x020 }) := by decide

/-- 06, 08, 12 and 13, the tables of encodings. -/
theorem test_words_memory :
    decodesTo 0x602E0240EA0004A0 0 (.ld { t := .n32, d := .v 4, a := .g 3, b := .k 0, x := 0x4A0 }) ∧
    decodesTo 0x61620040AA004800 0x0000004000000000 (.st { t := .n64, gp := 1, a := .g 2, b := .k 0, c := .v 4, x := 0x800, w2 := 0x0000004000000000 }) ∧
    decodesTo 0x652E024080C05420 0x0000004000000500 (.atom { t := .n32, d := .v 4, a := .g 2, b := .v 6, c := .v 5, x := 0x420, w2 := 0x0000004000000500 }) ∧
    decodesTo 0x622E0400AA000401 0x0000010000000000 (.lds { t := .n32, d := .v 8, a := .v 2, b := .k 0, x := 0x401, w2 := 0x0000010000000000 }) ∧
    decodesTo 0x702E0500C0800428 0x0000001000000000 (.rld { t := .n32, d := .v 10, a := .v 3, b := .v 4, x := 0x428, w2 := 0x0000001000000000 }) ∧
    decodesTo 0x66628843EA10E720 0 (.acas { t := .n64, gp := 1, d := .g 16, a := .g 15, b := .k 0, c := .g 14, x := 0x720 }) ∧
    decodesTo 0x6A0E000000000088 0 (.xfence { x := 0x088 }) ∧ decodesTo 0x690E000000000020 0 (.fence { x := 0x020 }) := by decide

/-- 06 and 09, the tables of encodings. -/
theorem test_words_control :
    decodesTo 0x8002000000000000 0x0000000500060000 (.bra { gp := 1, w2 := 0x0000000500060000 }) ∧
    decodesTo 0x840E0000C0000000 0 (.regang { a := .v 3 }) ∧ decodesTo 0x8C0E000000000012 0 (.bar { x := 0x012 }) ∧
    decodesTo 0x882E048100A00000 0 (.ballot { t := .n32, d := .v 9, a := .v 4, b := .v 5 }) ∧
    decodesTo 0x900E82C180000001 0 (.spawn { d := .g 5, a := .g 6, x := 0x001 }) ∧
    decodesTo 0x8B92030140000000 0 (.gscan { t := .f32, gn := true, gp := 1, d := .v 6, a := .v 5 }) := by decide

/-- 10 and 11, the tables of encodings. -/
theorem test_words_matrix_engine :
    decodesTo 0xA00E004120A00000 0 (.tcfg { a := .g 4, b := .g 5 }) ∧
    decodesTo 0xA20E0040A0601000 0 (.tmmaz { a := .g 2, b := .g 3, c := .v 1 }) ∧
    decodesTo 0xC80E00542A200000 0 (.abinit { a := .k 0, b := .k 1 }) ∧
    decodesTo 0xCB0E0040A0704000 0x21 (.lxchg { a := .g 2, b := .g 3, c := .g 4, w2 := 0x21 }) ∧
    decodesTo 0xCC6E82C100000000 0 (.lxstat { t := .n64, d := .g 5, a := .g 4 }) := by decide

/-- 14 R373. -/
theorem test_words_system :
    decodesTo 0xE00E000000000000 0 (.tret {}) ∧ decodesTo 0xE10E000000000001 0 (.tmask { x := 1 }) ∧
    decodesTo 0xE26E828000000012 0 (.sysr { t := .n64, d := .g 5, x := 0x012 }) ∧
    decodesTo 0xE36E004180000012 0 (.sysw { t := .n64, a := .g 6, x := 0x012 }) ∧
    decodesTo 0xE40E000000000005 0 (.halt { x := 5 }) := by decide

/-! ## Ill-formed terms, one for each check of 06 R184 step 3 -/

theorem test_wf_type : (Instr.iadd { t := .f32 }).wf = false ∧ typeOk ((shape (.iadd { t := .f32 })).getD { code := 0 }) { t := .f32 } = false := by decide
theorem test_wf_guard : (Instr.iadd { gn := true, gp := 7 }).wf = false ∧ (Instr.nop { gp := 1 }).wf = false := by decide
theorem test_wf_suppress : (Instr.icmp { w := true }).wf = false := by decide
theorem test_wf_unused : (Instr.iadd { c := .v 1 }).wf = false := by decide
theorem test_wf_modifier : (Instr.iadd { x := 1 }).wf = false := by decide
theorem test_wf_second_word : (Instr.iadd { w2 := 1 }).wf = false ∧ (Instr.lop3 { w2 := 0x100 }).wf = false := by decide

/-- The same words are rejected under the names of the checks. -/
theorem test_rejects :
    rejectsAs 0xFF00000000000000 0 .reservedOpcode ∧ rejectsAs 0x008E000000000000 0 .type ∧
    rejectsAs 0x001E000000000000 0 .guard ∧ rejectsAs 0x1A0F000000000000 0 .writeSuppress ∧
    rejectsAs 0x000E000000001000 0 .unusedField ∧ rejectsAs 0x000E000000000001 0 .modifier ∧
    rejectsAs 0x0F0E000000000000 0x100 .secondWord := by decide

/-! ## Witnesses: instructions that are ready as the statements ask

Each theorem names a statement of Certificates/Slice0 and shows, for every instruction and clause of it, a state in which the clause's
hypotheses hold together. `readyAt_ready` turns it into the existence of that state. -/

/-- Instruction `i` is the turn of the probe, is ready, and `p` holds. -/
def readyFor (i : Instr) (p : Ctx → Run → Bool) (edit : Run → Run := id) : Bool :=
  readyAt (probe i edit) fun j _ c r => decide (j = i) && p c (advance c r)

/-- Ready, with a destination that takes its result at once. -/
def readyPlain (i : Instr) : Bool := readyFor i fun c _ => plainDest c

/-- IntegerArithmeticCompletes, CarriesAndByteProductsComplete, LogicAndShiftsComplete, BitFieldsComplete, ComparisonsAndMovesComplete. -/
theorem ready_integer : ([.iadd { a := .k 1, b := .k 2 }, .isub { x := 2, a := .k 1, b := .k 2 }, .imul { t := .n64, d := .g 3 }, .imulh { t := .i64 },
    .imad { c := .v 2 }, .imin {}, .imax {}, .iabs {}, .ineg {}, .iaddi { x := 0xFF0 }, .iaddx { c := .v 1, x := 1 }, .idot4 { x := 0x60 }].all readyPlain) =
    true := by decide +kernel
theorem ready_logic : ([.land {}, .lor { d := .g 1 }, .lxor { t := .n64 }, .lop3 { w2 := 0x6A }, .shl { b := .k 7 }, .shrl { b := .k 8 }, .shra { b := .k 2 },
    .rotl {}, .fshl {}, .bfx {}, .bfi {}, .popc {}, .clz {}, .brev {}, .icmp { x := 0x0A0 }, .sel { t := .f16 }, .mov { t := .f64 },
    .movi { t := .n64, w2 := 0xFFFFFFFFFFFF }].all readyPlain) = true := by decide +kernel

/-- DivisionCompletesOrTraps: a divisor that is not 0 where .TRAP asks, the corners without it, and the trap. -/
theorem ready_division :
    readyFor (.idiv { x := 1, a := .k 2, b := .k 2 }) (fun c r => plainDest c && auxOf c.f && c.lanes.all fun l => c.pb r l != 0) = true ∧
    readyPlain (.idiv { a := .k 1 }) = true ∧ readyPlain (.irem { a := .k 1 }) = true ∧
    readyFor (.irem { x := 1, a := .k 2, b := .k 2 }) (fun c r => plainDest c && c.lanes.all fun l => c.pb r l != 0) = true ∧
    readyFor (.idiv { x := 1, a := .k 1 }) (fun c r => auxOf c.f && c.lanes.any fun l => c.pb r l == 0) = true ∧
    readyFor (.irem { x := 1, a := .k 1 }) (fun c r => auxOf c.f && c.lanes.any fun l => c.pb r l == 0) = true := by decide +kernel

/-- FloatArithmeticCompletes, FloatSelectionCompletes. -/
theorem ready_float : ([.fadd { t := .f32, x := 4 }, .fsub { t := .f64 }, .fmul { t := .f16 }, .ffma { t := .bf16 }, .faddi { t := .f32, x := 0x10 },
    .fmuli { t := .f32, x := 0x10 }, .ffmai { t := .f32, x := 0x10 }, .fdiv { t := .f32 }, .fsqrt { t := .f64, x := 8 }, .fscale { t := .f32 },
    .fround { t := .f32, x := 1 }, .fdot2 { t := .f16 }, .frcp { t := .f32 }, .frsq { t := .f32 }, .fexp2 { t := .f32 }, .flog2 { t := .f32 },
    .fsin { t := .f32 }, .fcos { t := .f32 }, .fmin { t := .f32 }, .fmax { t := .f32 }, .fabs { t := .f32, x := 0x60 }, .fclass { t := .f64 },
    .fcmp { t := .f32, x := 0xE0 }].all readyPlain) = true := by decide +kernel
/-- ConversionsComplete, PackedFormatsAndFlagsComplete. -/
theorem ready_conversion : ([.cvtif { x := 0x20 }, .cvtfi { x := 0x20 }, .cvtff { x := 0x20 }, .cvtii { t := .i64 }, .pk8 { t := .f32 }, .unpk8 { t := .f32 },
    .pkl6 { t := .f32 }, .unpkl6 { t := .f32 }, .l6mul {}, .l6lin { t := .i64 }, .sclx { t := .f32 }, .fmtw {}, .pkh { t := .f16 }, .unpkh { t := .f16, x := 1 },
    .fflag {}, .fflag { x := 0x20 }, .fflag { x := 0x40 }].all readyPlain) = true := by decide +kernel

/-- LaneInstructionsChangeTheirDestinationAlone. -/
theorem ready_register_only : ([.iadd { a := .k 1 }, .idiv { a := .k 1 }, .idiv { x := 1, b := .k 2 }, .iaddx { c := .v 1 }, .fmtw {}, .fadd { t := .f32 }, .fdot2 { t := .f16 },
    .cvtff { x := 0x20 }, .fflag {}, .icmp {}, .fcmp { t := .f32 }].all fun i => readyFor i fun c r =>
    !c.usesQueue && (queueWrite c.sh c.f).isNone && (c.slices.all fun n => (c.grp.slice n).all fun s => s.wait.isNone) &&
      (!auxOf c.f || c.lanes.all fun l => c.pb r l != 0)) = true := by decide +kernel

/-! Memory and scratch. -/

/-- The launch is protected; its team's buffer and its committed stores. -/
def inProt : Run → Run := inLaunch fun l => { l with prot := true }
def storeOf (group : Nat) (dest : BufDest) : BufStore :=
  { group, lane := 0, weak := false, edge := false, taken := 4, pc := 0, hint := 0, dest, addr := 0, bytes := [1, 0, 0, 0] }
def buffering (bs : List BufStore) : Run → Run := inTeam fun t => { t with sbuf := bs }
def committing (bs : List BufStore) : Run → Run := inTeam fun t => { t with committed := bs }

/-- A group of one slice with one enabled lane. -/
def oneLane : Run → Run := inGrp fun g => { g with width := 4, slices := (g.slices.take 1).map fun s => { s with mask := 1 } }

def isOk {ε α : Type} (p : α → Bool) : Except ε α → Bool
  | .ok a => p a
  | .error _ => false
/-- A success, whatever it answers. -/
def fine {ε α : Type} : Except ε α → Bool := isOk fun _ => true

/-- LoadsComplete: .STR at an address that .STR accepts, and plain loads; LDG with no active lane. -/
def loads (one : Bool) (c : Ctx) (r : Run) : Bool :=
  plainDest c && isOk (fun x => x.1.all fun y => y.2.all fun p => (rangeFail x.2 (keyOf x.2 c.part p.leaf) (p.leaf.pa p.va) p.len).isNone)
    (globalAccess r c (if one then c.lanes.take 1 else c.lanes) 0 c.size (kindAligned c.f) (gAddr r c))
theorem ready_loads :
    readyFor (.ld { t := .n32, d := .v 4, a := .k 8, b := .k 0, x := 0x440 }) (loads false) oneLane = true ∧
    readyFor (.ld { t := .n64, d := .g 4, a := .k 8, b := .k 1, x := 0x600 }) (loads false) oneLane = true ∧
    readyFor (.ldg { t := .n32, d := .v 4, a := .k 8, b := .k 0, x := 0x400 }) (fun c r => loads true c r && c.active != 0) oneLane = true ∧
    readyFor (.ldg { t := .n32, gp := 0, d := .v 4, a := .k 8, b := .k 0, x := 0x400 }) (fun c _ => plainDest c && c.active == 0) = true := by decide +kernel

/-- StoresComplete, StoresChangeTheirBytesAlone. -/
theorem ready_stores : readyFor (.st { t := .n32, a := .k 8, b := .k 0, c := .k 1, x := 0x400 }) (fun c r =>
    !c.shadowed && !c.usesQueue && (c.slices.all fun n => (c.grp.slice n).all fun s => s.wait.isNone) &&
      fine (globalAccess r c c.lanes 1 c.size (kindAligned c.f) (gAddr r c))) oneLane = true := by decide +kernel

/-- MisalignedAccessesTrap: address 1 for accesses of four bytes; and, of scratch, an address beyond the team's. -/
def misaligned (ok : Ctx → Nat → Bool) (ea : Run → Ctx → Nat → Nat) (c : Ctx) (r : Run) : Bool :=
  !c.shadowed && !(c.grp.remotes.any (ownRemote c.pc c.slices)) && c.lanes.any fun l => !ok c (ea r c l)
def global (r : Run) (c : Ctx) (l : Nat) : Nat := (gAddr r c l).toNat
def remote (r : Run) (c : Ctx) (l : Nat) : Nat := (rAddr r c l).toNat
def byKind (c : Ctx) : Nat → Bool := kindAligned c.f
def byWord (c : Ctx) : Nat → Bool := strongAligned c.size
def byLine (c : Ctx) : Nat → Bool := lineAligned c.f
def bySize (c : Ctx) : Nat → Bool := natural c.size
def inTeamScratch (c : Ctx) (a : Nat) : Bool := scrIn c.t a 1
/-- Register g4 is 2^24 in every lane. -/
def far : Run → Run := inGrp fun g => { g with g := updAt g.g 4 fun _ => 0x1000000 }
theorem ready_misaligned :
    readyFor (.ld { t := .n32, d := .v 4, a := .k 1, b := .k 0, x := 0x440 }) (misaligned byKind global) = true ∧
    readyFor (.ldg { t := .n32, d := .v 4, a := .k 1, b := .k 0, x := 0x440 }) (misaligned byKind global) = true ∧
    readyFor (.st { t := .n32, a := .k 1, b := .k 0, x := 0x440 }) (misaligned byKind global) = true ∧
    readyFor (.atom { t := .n32, d := .v 4, a := .k 1, b := .k 0, x := 0x400 }) (misaligned bySize global) = true ∧
    readyFor (.acas { t := .n32, d := .v 4, a := .k 1, b := .k 0, x := 0x400 }) (misaligned bySize global) = true ∧
    readyFor (.red { t := .n32, a := .k 1, b := .k 0, x := 0x400 }) (misaligned bySize global) = true ∧
    readyFor (.rld { t := .n32, d := .v 4, a := .k 1, b := .k 1, x := 0x428 }) (misaligned byWord remote) = true ∧
    readyFor (.rst { t := .n32, a := .k 1, b := .k 1, x := 0x428 }) (misaligned byWord remote) = true ∧
    readyFor (.ratom { t := .n32, d := .v 4, a := .k 1, b := .k 1, x := 0x428 }) (misaligned bySize remote) = true := by decide +kernel
theorem ready_misaligned_scratch :
    readyFor (.lds { t := .n32, d := .v 4, a := .k 1, b := .k 0, x := 0x401 }) (misaligned byLine sAddr) = true ∧
    readyFor (.sts { t := .n32, a := .k 1, b := .k 0, x := 0x401 }) (misaligned byLine sAddr) = true ∧
    readyFor (.atoms { t := .n32, d := .v 4, a := .k 1, b := .k 0, x := 0x400 }) (misaligned bySize sAddr) = true ∧
    ([.lds { t := .n32, d := .v 4, a := .g 4, b := .k 0, x := 0x400 }, .sts { t := .n32, a := .g 4, b := .k 0, x := 0x400 }, .sfill { a := .g 4, b := .k 0, x := 1 },
      .sstat { t := .n32, d := .v 4, a := .g 4, b := .k 0 }, .atoms { t := .n32, d := .v 4, a := .g 4, b := .k 0, x := 0x400 }].all fun i =>
        readyFor i (misaligned inTeamScratch sAddr) far) = true := by decide +kernel

/-- ScratchAccessesComplete: each mode, LDS.TAKE and STS.GIVE on lines in the state they ask for. -/
def scratchOk (c : Ctx) (r : Run) : Bool :=
  plainDest c && !c.shadowed && fine (scratchAccess c c.lanes c.size (lineAligned c.f) (sAddr r c))
def waitsOk (want : LineState) (turn : Option Bool) (c : Ctx) (r : Run) : Bool :=
  scratchOk c r && fine (awaitLines r c (touched (sAddr r c) c.size c.lanes) want turn)
def lineAt (x : LineState) : Run → Run := inTeam fun t => setLines t [0] fun _ => x
theorem ready_scratch :
    readyFor (.lds { t := .n32, d := .v 4, a := .k 8, b := .k 0, x := 0x400 }) scratchOk = true ∧
    readyFor (.lds { t := .n32, d := .v 4, a := .k 8, b := .k 0, x := 0x401 }) (waitsOk .full none) (lineAt .full) = true ∧
    readyFor (.lds { t := .n32, d := .v 4, a := .k 8, b := .k 0, x := 0x402 }) (waitsOk .full (some false)) (lineAt .full) = true ∧
    readyFor (.sts { t := .n32, a := .k 8, b := .k 0, x := 0x400 }) scratchOk = true ∧
    readyFor (.sts { t := .n32, a := .k 8, b := .k 0, x := 0x401 }) scratchOk = true ∧
    readyFor (.sts { t := .n32, a := .k 8, b := .k 0, x := 0x402 }) (waitsOk .empty (some true)) (lineAt .empty) = true ∧
    readyFor (.sfill { a := .k 8, b := .k 0, x := 1 }) scratchOk = true ∧ readyFor (.sfill { a := .k 8, b := .k 0, x := 2 }) scratchOk = true ∧
    readyFor (.sstat { t := .n32, d := .v 4, a := .k 8, b := .k 0 }) scratchOk = true := by decide +kernel

/-- AtomicsComplete. -/
def atomicOk (new : Ctx → Run → Nat → Nat → Option Nat) (log : Bool) (c : Ctx) (r : Run) : Bool :=
  !c.shadowed && plainDest c && fine (globalAtomics r c (new c r) log)
def combine (c : Ctx) (r : Run) (l old : Nat) : Option Nat := some (atomNew c.elt (aopOf c.f) old (c.cAs r c.elt l))
theorem ready_atomics :
    readyFor (.atom { t := .n32, d := .v 4, a := .k 8, b := .k 0, c := .k 1, x := 0x400 }) (atomicOk combine true) oneLane = true ∧
    readyFor (.acas { t := .n32, d := .v 4, a := .k 8, b := .k 0, c := .k 1, x := 0x400 })
      (atomicOk (fun c r l old => if old = readSrc r c c.f.d c.elt l then some (c.cAs r c.elt l) else none) true) oneLane = true ∧
    readyFor (.red { t := .n32, a := .k 8, b := .k 0, c := .k 1, x := 0x400 }) (atomicOk combine false) oneLane = true ∧
    readyFor (.atoms { t := .n32, d := .v 4, a := .k 8, b := .k 0, c := .k 1, x := 0x400 })
      (fun c r => !c.shadowed && plainDest c && fine (scratchAccess c c.lanes c.size (natural c.size) (sAddr r c))) oneLane = true := by decide +kernel

/-- FencesAndCacheControlComplete: outside a protected launch and without lanes, and in a protected one with nothing, with committed and with buffered
stores. -/
theorem ready_fences :
    readyFor (.fence { x := 0x20 }) (fun c _ => !c.shadowed) = true ∧ readyFor (.xfence { x := 0x88 }) (fun c _ => !c.shadowed) = true ∧
    readyFor (.fence { gp := 0, x := 0x20 }) (fun c _ => c.active == 0) inProt = true ∧ readyFor (.xfence { gp := 0, x := 0x88 }) (fun c _ => c.active == 0) inProt = true ∧
    readyFor (.fence { x := 0x20 }) (fun c r => c.shadowed && c.active != 0 && !(curTeam r c).sbuf.isEmpty)
      (fun r => buffering [storeOf 3 (.scratch false)] (inProt r)) = true ∧
    readyPlain (.pref { a := .k 8, b := .k 0 }) = true ∧
    readyFor (.cinv { a := .k 8, b := .k 0, c := .k 8 }) (fun c r => fine (rangeAccess r c 0)) oneLane = true ∧
    readyFor (.cwb { a := .k 8, b := .k 0, c := .k 8 }) (fun c r => fine (rangeAccess r c 1)) oneLane = true := by decide +kernel
def fenced (held sent : Bool) (c : Ctx) (r : Run) : Bool :=
  let mine := fun (b : BufStore) => b.onPath (xbits c.f 11 9)
  c.shadowed && c.active != 0 && (curTeam r c).sbuf.any mine == held && (curTeam r c).committed.any mine == sent
theorem ready_xfences :
    readyFor (.xfence { x := 0x88 }) (fenced false false) inProt = true ∧
    readyFor (.xfence { x := 0x88 }) (fenced false true) (fun r => committing [storeOf 3 (.scratch false)] (inProt r)) = true ∧
    readyFor (.xfence { x := 0x88 }) (fenced true false) (fun r => buffering [storeOf 3 (.scratch false)] (inProt r)) = true ∧
    ([id, inProt].all fun p => readyFor (.xfence { x := 0x888 }) (fun c r =>
      xbits c.f 11 9 == 4 && c.active != 0 && fine (sendBuffered c r fun _ => true) && c.grp.rsts.all (·.done)) p) = true := by decide +kernel

/-! Remote instructions. -/

/-- Window 0 belongs to the probe's partition, reaches 64 KiB at every device and grants all rights. -/
def windowAll : List W64 := [0xFF00000000000000, 0x10000, 0, 0, 0xFFFFFFFFFFFFFFFF, 0xFFFFFFFFFFFFFFFF, 0xFFFFFFFFFFFFFFFF, 0xFFFFFF]
def withWindow (r : Run) : Run :=
  ((List.range 8).foldl (fun r i => writeWord r (0x200000 + 8 * i) (nthD 0 windowAll i)) (oneLane r)).updPart 0 fun p =>
    { p with pwin := [1, 0, 0, 0], winbase := 0x200000, windows := [(0, windowAll)] }
def remoteOk (right : Nat) (ok : Nat → Nat → Bool) (lanes : Ctx → List Nat) (c : Ctx) (r : Run) : Bool :=
  !c.shadowed && !(c.grp.remotes.any (ownRemote c.pc c.slices)) && plainDest c && lanes c != [] &&
    isOk (fun r1 => tagRoom r1 (laneReqs r1 c (lanes c) fun _ => [])) (remoteCheck r c (lanes c) right (ok c.size))
/-- A remote instruction in flight whose one reply has come. -/
def landed (i : Instr) (f : Fields) : Run → Run := fun r => withWindow (inGrp (fun g => { g with remotes :=
  [{ pc := w64 probePc, slice := 0, peer := 1, lanes := [{ lane := 0, tag := 0, ofs := 0, reply := some (0, 0, List.replicate 32 7) }]
     atom := (shape i).any (·.code == 0x72), f, low := 0 }] }) r)
def landedOk (s : State) : Bool :=
  match turnOf s with
  | some (i, t) =>
    match shape i, fieldsOf i, t.run.issuing with
    | some sh, some f, some (gid, frag) =>
      match makeCtx t.run gid frag sh f with
      | some c => c.missing.isEmpty && c.grp.remotes.any (ownRemote c.pc c.slices) && plainDest c && (queueWrite c.sh c.f).isNone && fine (remoteValues c)
      | none => false
    | _, _, _ => false
  | none => false

/-- RemoteInstructionsComplete: requests leave, no lane has one to send, replies have come, a value is replayed, nothing is outstanding. -/
theorem ready_remote_sent :
    readyFor (.rst { t := .n32, a := .k 1, b := .k 0, c := .k 3, x := 0x428 }) (remoteOk 1 strongAligned (·.lanes)) withWindow = true ∧
    readyFor (.rld { t := .n32, d := .v 4, a := .k 1, b := .k 0, x := 0x428 }) (remoteOk 0 strongAligned (·.lanes)) withWindow = true ∧
    readyFor (.ratom { t := .n32, d := .v 4, a := .k 1, b := .k 0, c := .k 3, x := 0x428 }) (fun c r =>
      remoteOk 2 natural ratomLanes c r && decide (c.l.mode = .off)) withWindow = true ∧
    readyFor (.ratom { t := .n32, d := .v 4, a := .k 1, b := .k 0, c := .k 3, x := 0x428 }) (fun c r =>
      remoteOk 2 natural ratomLanes c r && isOk (fun r1 =>
        fine (ratomResult (ratomReplay r1 c (ratomLanes c)).2 c ((ratomReplay r1 c (ratomLanes c)).1.map (·.1)) (ratomReplay r1 c (ratomLanes c)).1)) (remoteCheck r c (ratomLanes c) 2 (natural c.size)))
      (fun r => inLaunch (fun l => { l with mode := .replay 0 0 }) (withWindow r)) = true := by decide +kernel
theorem ready_remote_idle :
    readyFor (.rld { t := .n32, gn := true, gp := 0, d := .v 4, a := .k 1, b := .k 0, x := 0x428 }) (fun c r =>
      !c.shadowed && c.lanes == [] && plainDest c && fine (remoteCheck r c c.lanes 0 (strongAligned c.size)))
      (inGrp fun g => { g with p := List.replicate 7 (BitVec.allOnes 128) }) = true ∧
    readyFor (.ratom { t := .n32, gp := 0, d := .v 4, a := .k 1, b := .k 0, x := 0x428 }) (fun c r =>
      !c.shadowed && ratomLanes c == [] && plainDest c && fine (remoteCheck r c (ratomLanes c) 2 (natural c.size))) = true ∧
    readyFor (.rfence { x := 0x28 }) (fun c _ => !c.shadowed && fine (awaitStores c true fun _ => true)) = true ∧
    readyFor (.rfence { x := 0x29, a := .k 1 }) (fun c _ => !c.shadowed && fine (awaitStores c true fun _ => true)) = true := by decide +kernel
theorem ready_remote_landed :
    (let i := Instr.rld { t := .n32, d := .v 4, a := .k 1, b := .k 0, x := 0x428 }
     landedOk (probe i (landed i {})) = true) ∧
    (let i := Instr.ratom { t := .n32, d := .v 4, a := .k 1, b := .k 0, c := .k 3, x := 0x428 }
     landedOk (probe i (landed i {})) = true) := by decide +kernel

/-! Control flow, votes and masks. -/

def branchOk (b : Ctx → Run → Branch) (c : Ctx) (r : Run) : Bool := (b c r).fits c && plainDest c && c.active != 0
def vote : Ctx → Run → Branch := fun c _ => voteBranch c
def lanes (join : Bool) : Ctx → Run → Branch := fun c r => laneBranch c r join
def aligned (c : Ctx) (r : Run) : Bool := c.lanes.all fun l => c.aAs r .n32 l % 8 == 0
def inCode (c : Ctx) (r : Run) : Bool := aligned c r && c.lanes.all fun l => decide (c.aAs r .n32 l < codeSize r c.grp c.grp.super)
/-- Predicate p0 is true in lane 0 alone. -/
def laneZero : Run → Run := inGrp fun g => { g with p := updAt g.p 0 fun _ => 1 }
/-- Slice 0 has n entries on its stack. -/
def stacked (n : Nat) : Run → Run := inGrp fun g => g.updSlices [0] fun x => { x with stack := List.replicate n { pc := none, mask := 0, rpc := none, kind := .path } }
/-- Register v4 is 8 in lane 0, and 0 elsewhere. -/
def twoWays : Run → Run := inGrp fun g => { g with v := [(512, 8)] }

/-- BranchesComplete, BranchVotesMoveSlices: a vote that divides slice 0 and that no lane of slice 1 takes; stacks with just the room it asks for,
and without; a CALL in no lane. -/
theorem ready_votes_on_branches :
    readyFor (.bra { gp := 0, w2 := 0x0000000500060000 }) (fun c r => branchOk vote c r && c.slices == List.range 8 &&
      (c.grp.slice 0).any (fun x => (voteBranch c).need 0 x == 2 && x.mask != 0) && (c.grp.slice 1).any (fun x => (voteBranch c).need 1 x == 0) &&
      branchTarget c != c.nextPc) laneZero = true ∧
    readyFor (.bra { w2 := 0x0000000500060000 }) (fun c r => branchOk vote c r && (c.grp.slice 0).any fun x => x.mask != 0 && (List.range 4).all c.active.getLsbD) = true ∧
    readyFor (.bra { gp := 0, w2 := 0x0000000500060000 }) (branchOk vote) (fun r => stacked 6 (laneZero r)) = true ∧
    readyFor (.bra { gp := 0, w2 := 0x0000000500060000 }) (fun c _ => !(voteBranch c).fits c) (fun r => stacked 7 (laneZero r)) = true ∧
    readyFor (.call { d := .v 1, w2 := 0x0000000500000000 }) (branchOk vote) = true ∧
    readyFor (.call { gp := 0, d := .v 1, w2 := 0x0000000500000000 }) (fun c _ => c.active == 0) = true ∧
    readyFor (.call { gp := 0, d := .v 1, w2 := 0x0000000500000000 }) (fun c _ => c.active != 0 && !(voteBranch c).fits c) (fun r => stacked 7 (laneZero r)) = true := by
  decide +kernel
/-- BranchesComplete, BranchVotesMoveSlices: lanes that go to one address, and to two; offsets that are misaligned, outside the code, and accepted
with a stack that has no room. RET needs one entry less than BRX. -/
theorem ready_lane_branches :
    ([true, false].all fun join =>
      let i := fun (a : Opnd) => if join then Instr.brx { a, w2 := 0x60000 } else .ret { a }
      readyFor (i (.k 5)) (fun c r => branchOk (lanes join) c r && inCode c r && (c.grp.slice 0).any fun x => ((laneBranch c r join).ways 0 x).length == 1) &&
      readyFor (i (.v 4)) (fun c r => branchOk (lanes join) c r && inCode c r && (c.grp.slice 0).any fun x => ((laneBranch c r join).ways 0 x).length == 2) twoWays &&
      readyFor (i (.k 1)) (fun c r => !aligned c r) && readyFor (i (.g 4)) (fun c r => aligned c r && !inCode c r) (inGrp fun g => { g with g := updAt g.g 4 fun _ => 0x1000 }) &&
      readyFor (i (.v 4)) (branchOk (lanes join)) (fun r => stacked (if join then 6 else 7) (twoWays r)) &&
      readyFor (i (.v 4)) (fun c r => inCode c r && !(laneBranch c r join).fits c) (fun r => stacked (if join then 7 else 8) (twoWays r))) = true := by decide +kernel

/-- JoinsAndPathsComplete: REGANG of slices 0 and 1 by the fragment that is slice 0 alone. -/
theorem ready_joins :
    readyFor (.regang { a := .v 2 }) (fun c _ =>
      let set := namedSlices (maskReg c.grp (regIndex c.f.a 16)) c.grp.width
      set != 0 && c.slices.all fun n => set.getLsbD n) (fun r => oneLane (inGrp (fun g => { g with m := updAt g.m 2 fun _ => 1 }) r)) = true ∧
    readyPlain (.splits { d := .v 2, x := 1 }) = true ∧ readyPlain (.splits { d := .v 2 }) = true ∧ readyPlain (.backoff {}) = true := by decide +kernel

def barSet (f : Barrier → Barrier) : Run → Run := inTeam fun t => { t with bars := t.bars.map f }
/-- Slice 0 has an unmatched BARA of generation 0 of barrier 0. -/
def splitPhase0 : Run → Run := inGrp fun g => g.updSlices [0] fun x => { x with bara := [(0, 0)] }
def barFits (c : Ctx) (r : Run) : Bool := (curBarrier r c).spawnedForm == none || (curBarrier r c).spawnedForm == some (xbit c.f 4)
def phaseIs (p : Option Nat) (c : Ctx) (_ : Run) : Bool := c.slices.contains 0 && decide ((c.sliceOf 0).splitPhase (barNumber c) = p)
/-- BarriersComplete, at the first and the last barrier, before and after its form is fixed: a BAR without a BARA, with one of the current generation
and with one of a generation that is over; a form that is fixed otherwise; a BARA of a group that has arrived whole. -/
theorem ready_barriers :
    readyFor (.bar {}) (fun c r => barFits c r && phaseIs none c r) = true ∧
    readyFor (.bar { x := 0x1F }) (fun c r => barFits c r && phaseIs none c r) (barSet fun b => { b with spawnedForm := some true }) = true ∧
    readyFor (.bar {}) (fun c r => barFits c r && phaseIs (some 0) c r && (curBarrier r c).gen == 0) splitPhase0 = true ∧
    readyFor (.bar {}) (fun c r => barFits c r && phaseIs (some 0) c r && (curBarrier r c).gen == 1) (fun r => barSet (fun b => { b with gen := 1 }) (splitPhase0 r)) = true ∧
    readyFor (.bara { x := 3 }) (fun c r => barFits c r && !arrivedGroup (curBarrier r c) (c.gid, c.grp)) = true ∧
    readyFor (.bar {}) (fun c r => !barFits c r) (barSet fun b => { b with spawnedForm := some true }) = true ∧
    readyFor (.bara { x := 0x13 }) (fun c r => !barFits c r) (barSet fun b => { b with spawnedForm := some false }) = true ∧
    readyFor (.bara {}) (fun c r => barFits c r && arrivedGroup (curBarrier r c) (c.gid, c.grp)) (barSet fun b => { b with arrived := [(3, 0xFF)] }) = true := by
  decide +kernel

/-- EndsAndRegionsComplete: EXIT with lanes to end, with none, and in a protected launch. -/
theorem ready_ends :
    readyFor (.exit {}) (fun c _ => c.active != 0 && !c.shadowed && fine (awaitStores c false fun _ => true)) = true ∧
    readyFor (.exit { gp := 0 }) (fun c _ => c.active == 0) = true ∧
    readyFor (.exit {}) (fun c r => c.active != 0 && c.shadowed && fine (awaitStores c false fun _ => true) && fine (sendBuffered c r fun _ => true) &&
      (commitAfter r c.grp.team fun r => leaveGroup (endActive c r) c.gid).2) inProt = true ∧
    readyPlain (.region {}) = true ∧ readyPlain (.yield {}) = true ∧ readyPlain (.nop {}) = true ∧
    readyFor (.live { x := 3, w2 := 0x8000000000000001 }) (fun c _ => decide (255 < c.l.vregs) && c.grp.liveSlices.all c.slices.contains) = true := by
  decide +kernel

/-- A context pool of a page of 2 MiB at 16 GiB, homed on die 0: the 32 entries of its group stand above all that memory holds. -/
def withPool (r : Run) : Run :=
  let r := writeWord (writeWord r (probeTables + 0x20010) 0x8000000000140000) 0x140000 0x8000000000160000
  let entry := fun (i : Nat) => [(0x160002 + 16 * i, 0x40#8), (0x160006 + 16 * i, 0x30#8), (0x160007 + 16 * i, 0xC8#8), (0x16000F + 16 * i, 0x80#8)]
  { r.updPart 0 fun p => { p with cb := p.cb.map fun b => { b with ctxbase := 0x400000000, ctxsize := 0x200000 } } with
    mem := r.mem ++ (List.range 32).flatMap entry, pinned := [{ frame := 0x400000, size := 0x200000, core := false, die := 0, unit := 0 }] }

/-- SpawnCompletesOrTraps: an entry that the kernel has, one that it does not have, and a destination that is no g register. -/
theorem ready_spawn :
    readyFor (.spawn { d := .g 5, a := .g 6 }) (fun c r => c.active != 0 && (c.l.entries[xbits c.f 5 0]?).isSome &&
      (spawnGroup r c.gid c.grp c.t c.l 0 0).isSome)
      (fun r => inLaunch (fun l => { l with vregs := 16 }) (withPool r)) = true ∧
    readyFor (.spawn { d := .g 5, a := .g 6, x := 1 }) (fun c _ => c.active != 0 && (c.l.entries[xbits c.f 5 0]?).isNone) = true ∧
    readyFor (.spawn { d := .v 5, a := .g 6 }) (fun c _ => c.active != 0 && (c.l.entries[xbits c.f 5 0]?).isSome && !spawnDest c.f) = true := by decide +kernel

/-- VotesAndShufflesComplete, ReductionsAndMasksComplete. -/
theorem ready_votes :
    ([.vote { d := .v 1, a := .v 7 }, .vote { d := .v 1, a := .v 7, x := 1 }, .vote { d := .v 1, a := .v 7, x := 2 },
      .gred { t := .n32, x := 0 }, .gscan { t := .f32, x := 0x10 }, .ballot { t := .i32, d := .v 1, x := 8 }, .ballot { t := .n32, x := 3 },
      .ballot { t := .n64, x := 1 }, .mmov { d := .v 1, a := .v 2 }, .mmov { d := .v 1, a := .g 1, b := .g 2, x := 1 }, .mmov { d := .v 1, x := 3 },
      .mmov { d := .v 1, x := 4 }, .mmov { d := .v 1, x := 5 }, .mmov { d := .g 1, a := .v 2, x := 2 }, .mmov { d := .g 1, x := 0xA }].all fun i =>
        readyFor i fun c _ => plainDest c && c.active != 0) = true ∧
    readyFor (.shfl { b := .k 1, x := 0 }) (fun c _ => plainDest c && decide (shflSegment c ≤ c.grp.width)) = true ∧
    readyFor (.shfl { b := .k 1, x := 0x13 }) (fun c _ => plainDest c && decide (shflSegment c ≤ c.grp.width)) = true := by decide +kernel

/-! Matrix and engine instructions. -/

def setRegs (xs : List (Nat × W64)) : Run → Run := inGrp fun g => { g with g := xs.foldl (fun l x => updAt l x.1 fun _ => x.2) g.g }
/-- Two tiles of the smallest shape; tile 0 has the owner given. -/
def withTiles (owner : Option Nat) (r : Run) : Run :=
  inTeam (fun t => { t with cfg := { mb := 0, nb := 0, kb := 0, nt := 2, lda := 64, ldb := 64 }
                            tiles := [{ Tile.fresh with owner, w := 4 }, Tile.fresh] }) (oneLane r)
def whole (c : Ctx) : Bool := c.grp.liveSlices.all c.slices.contains
def tileIs (o : Ctx → Opnd) (n : Nat) (owner : Option Nat) (c : Ctx) (r : Run) : Bool :=
  isOk (· == n) (tileField r c (o c)) && decide ((teamTile r c.grp.team n).owner = owner) && !heldByOther r c n && (matrixQueue r c).isEmpty

/-- TileConfigurationAndTokensComplete. -/
theorem ready_tiles :
    readyFor (.tcfg { a := .g 4, b := .g 5 }) (fun c r => whole c && c.active != 0 && fld (w64 (readUniform r c c.f.a .n64)) 19 16 == 8 &&
      (matrixQueue r c).isEmpty && ((teamGroups r c.grp.team).all fun e => e.1 == c.gid) && decide (8 ≤ tilesFree (releaseTiles c r) c))
      (setRegs [(4, 0x80000), (5, 0x400040)]) = true ∧
    readyFor (.tacq { a := .v 1 }) (fun c r => whole c && tileIs (·.f.a) 1 none c r) (withTiles none) = true ∧
    readyFor (.trel { a := .v 0 }) (fun c r => whole c && tileIs (·.f.a) 0 (some 3) c r) (withTiles (some 3)) = true ∧
    readyFor (.tcnt { t := .n32, d := .v 4, a := .v 0, x := 2 }) (fun c r => plainDest c && tileIs (·.f.a) 0 none c r) (withTiles none) = true ∧
    readyFor (.twait { a := .v 0 }) (tileIs (·.f.a) 0 none) (withTiles none) = true ∧
    readyFor (.twait { x := 1 }) (fun c r => xbit c.f 0 && (matrixQueue r c).isEmpty) = true ∧
    readyFor (.tpin { t := .n32, a := .k 8, b := .k 8 }) (fun c _ => plainDest c && c.active != 0) = true ∧
    readyFor (.tpin { t := .n32, a := .k 8, b := .k 8, x := 1 }) (fun c _ => plainDest c && c.active != 0) = true := by decide +kernel

/-- MatrixWorkIsAccepted: operands and accumulators of F32, in arrays with room. -/
def mmaOk (z : Bool) (c : Ctx) (r : Run) : Bool :=
  let cfg := (curTeam r c).cfg
  let a := readUniform r c c.f.a .n64
  let b := readUniform r c c.f.b .n64
  whole c && tileIs (·.f.d) 0 none c r && a % 16 == 0 && b % 16 == 0 && isOk (fun w => mmaFormats w && mmaShapeOk cfg w z (tileWidth r c 0) &&
    fine (translateAll r c (matReq r c 0) (aRanges w cfg a ++ bRanges w cfg b ++ [aScaleRange w cfg a, bScaleRange w cfg b]))) (formatWord c)
def moveOk (store : Bool) (c : Ctx) (r : Run) : Bool :=
  let cfg := (curTeam r c).cfg
  let a := readUniform r c c.f.a .n64
  let stride := readUniform r c c.f.b .n32
  whole c && tileIs (·.f.d) 0 none c r && a % 16 == 0 && stride % 16 == 0 && isOk (fun w => moveFormats w &&
    (accWidth (fmtC w) != 8 || decide (cfg.m * cfg.n ≤ 8192)) && decide (cfg.n * moveBytes w ≤ stride) && (!store || tileWidth r c 0 == accWidth (fmtC w)) &&
    fine (translateAll r c (matReq r c (bit store)) (rowRanges a cfg.m stride (cfg.n * moveBytes w)))) (formatWord c)
def arrays (r : Run) : Run :=
  inGrp (fun g => { g with v := [(128, 0x111), (256, 0x101)] }) (setRegs [(4, 0x20000), (5, 0x30000), (6, 128)] (withTiles none r))
theorem ready_matrix :
    readyFor (.tmma { d := .v 0, a := .g 4, b := .g 5, c := .v 1 }) (mmaOk false) arrays = true ∧
    readyFor (.tmmaz { d := .v 0, a := .g 4, b := .g 5, c := .v 1 }) (mmaOk true) arrays = true ∧
    readyFor (.tzero { d := .v 0, x := 1 }) (fun c r => whole c && tileIs (·.f.d) 0 none c r) (withTiles none) = true ∧
    readyFor (.tload { d := .v 0, a := .g 4, b := .g 6, c := .v 2 }) (moveOk false) arrays = true ∧
    readyFor (.tstore { d := .v 0, a := .g 4, b := .g 6, c := .v 2 }) (moveOk true) arrays = true := by decide +kernel

/-- TileElementsComplete, at row 0 and column 1. -/
def elementOk (row col : Ctx → Opnd) (c : Ctx) (r : Run) : Bool :=
  let cfg := (curTeam r c).cfg
  whole c && c.active != 0 && (teamTile r c.grp.team 0).w == c.elt.bits / 8 &&
    c.lanes.all fun l => decide (readSrc r c (row c) .n32 l < cfg.m) && decide (readSrc r c (col c) .n32 l < cfg.n)
theorem ready_elements :
    readyFor (.trd { t := .n32, d := .v 4, a := .v 0, b := .k 0, c := .k 1 }) (fun c r =>
      elementOk (·.f.b) (·.f.c) c r && tileIs (·.f.a) 0 (some 3) c r && plainDest c) (withTiles (some 3)) = true ∧
    readyFor (.twr { t := .n32, d := .v 0, a := .k 0, b := .k 1, c := .k 2 }) (fun c r =>
      elementOk (·.f.a) (·.f.b) c r && tileIs (·.f.d) 0 (some 3) c r) (withTiles (some 3)) = true := by decide +kernel

/-- QueueBindingsComplete: a new ring and a bound one, a semaphore, and a register with and without a binding. -/
def ringBindOk (c : Ctx) (r : Run) : Bool :=
  let a := readUniform r c c.f.a .n32
  let t := curTeam r c
  let new := if xbit c.f 4 then readUniform r c c.f.b .n32 else ringCapLog t a
  !c.shadowed && c.active != 0 && decide (xbits c.f 2 0 < 4) && a % 16 == 0 && decide (1 ≤ new) && decide (new ≤ 12) && scrIn t a 16 &&
    scrIn t a (16 + 4 * 2 ^ new) && (xbit c.f 4 || ringKind t a == xbits c.f 2 0)
def semBindOk (c : Ctx) (r : Run) : Bool :=
  let a := w64 (readUniform r c c.f.a .n64)
  let q := Ctx.req r c 2
  !c.shadowed && c.active != 0 && decide (4 ≤ xbits c.f 2 0) && a.toNat % 64 == 0 && isOk (fun x =>
    let w1 := leNat ((x.1.drop 8).take 8)
    let new := if xbit c.f 4 then readUniform r c c.f.b .n32 else w1 % 16
    decide (1 ≤ new) && decide (new ≤ 10) && (!xbit c.f 4 ||
      fine (accWrite x.2 c q (c.lowest.getD 0) a (leBytes 8 0 ++ leBytes 8 (w1 - w1 % 16 + readUniform r c c.f.b .n32)))))
    (accRead r c q (c.lowest.getD 0) a 64)
def bound (kind : Nat) (obj : W64) : Run → Run := inGrp fun g => { g with q := [(0, { kind, lw := false, obj })] }
theorem ready_bindings :
    readyFor (.qbind { a := .k 8, b := .k 1, x := 0x10 }) ringBindOk = true ∧
    readyFor (.qbind { a := .k 8 }) ringBindOk (inTeam fun t => scrPut t 72 1 12) = true ∧
    readyFor (.qbind { a := .g 4, b := .k 3, x := 0x14 }) semBindOk (fun r => setRegs [(4, 0x20000)] (oneLane r)) = true ∧
    readyFor (.qunbind {}) (fun c _ => !c.shadowed && c.active != 0) = true ∧
    readyFor (.qunbind { x := 0x100 }) (fun c _ => !c.shadowed && c.active != 0) = true ∧
    readyFor (.qstat { t := .n32, d := .v 4 }) (fun c _ => plainDest c && c.active != 0 && (c.grp.q.find (xbits c.f 7 5)).isNone) = true ∧
    readyFor (.qstat { t := .n32, d := .v 4 }) (fun c r => plainDest c && c.active != 0 &&
      (c.grp.q.find (xbits c.f 7 5)).any fun b => fine (queueStatus c r b)) (bound 0 64) = true := by decide +kernel

/-- TransfersComplete: a copy each way, one with an arrival barrier as its completion object; a multicast tile, its drain, a burst read, and the
end of a handler slice. -/
def copyOk (c : Ctx) (r : Run) : Bool :=
  let a := readUniform r c c.f.a .n64
  let b := readUniform r c c.f.b .n64
  let v := readUniform r c c.f.c .n64
  let x := copyShape c.f v
  let t := curTeam r c
  !c.shadowed && c.active != 0 && !x.rejected v && (decide (x.nr ≤ 1) || decide (x.rl ≤ 16 * x.dstr)) && objKindOk t (descMode c.f) (descCpl c.f) 1 x.dsc &&
    objIn t (descMode c.f) (descCpl c.f) && (if x.ssc then scrIn t a (x.extent x.sstr) else decide (a < 2 ^ 56)) &&
    (if x.dsc then scrIn t b (x.extent x.dstr) else decide (b < 2 ^ 56)) && !engineFull r c
def tileSlot (slots : Sparse HoldSlot) (r : Run) : Run := setRegs [(4, 0x20000), (5, 1), (6, 0x100000040)] (r.updCluster 1 fun k => { k with slots })
def putWords (a : Nat) (ws : List W64) (r : Run) : Run := (ws.foldl (fun acc w => (acc.1 + 8, writeWord acc.2 acc.1 w)) (a, r)).2
theorem ready_copies :
    readyFor (.copy { a := .g 4, b := .g 5, c := .g 6, w2 := 0x400002000822 }) copyOk (setRegs [(4, 0x20000), (5, 0x80), (6, 0x200000020)]) = true ∧
    readyFor (.copy { a := .g 4, b := .g 5, c := .g 6, w2 := 1 }) copyOk (setRegs [(4, 0x80), (5, 0x20000), (6, 0x100000001)]) = true ∧
    readyFor (.copym { a := .g 4, b := .g 5, c := .g 6 }) (fun c r =>
      let v := readUniform r c c.f.c .n64
      let recv := readUniform r c c.f.b .n32
      let x := copyShape c.f v
      !c.shadowed && c.active != 0 && recv != 0 && decide (recv < 2 ^ (c.l.rows * c.l.cols)) && decide (x.rl * x.nr ≤ 65536) && !x.rejected v && !x.ssc &&
        (Sparse.find (clusterSlots r c.t.cluster) 0).isNone && decide (slotsOn r c.t.die < Config.dieSlots) && !engineFull r c &&
        fine (tileRows r c x (readUniform r c c.f.a .n64))) (fun r => oneLane (tileSlot [] r)) = true ∧
    readyFor (.cdrain { t := .n32, d := .v 4, a := .k 8, b := .k 0 }) (fun c r =>
      let t := curTeam r c
      !c.shadowed && c.active != 0 && plainDest c && fine (checkObj c t 0 0 1 true) && !engineFull r c &&
        (drainable r c.grp.team t 0).any fun h => scrIn t (readUniform r c c.f.a .n32) h.bytes.length)
      (tileSlot [(0, { bytes := [1, 2], recv := 1, drained := 0 })]) = true := by decide +kernel
theorem ready_bursts :
    readyFor (.hread { a := .g 4, b := .g 5, c := .k 0 }) (fun c r =>
      let b := readUniform r c c.f.b .n64
      let total := nfld b 15 0 * nfld b 31 16 * nfld b 47 32 * nfld b 63 48
      !c.shadowed && c.active != 0 && total == 2 && !c.l.handlers.isEmpty && objKindOk (curTeam r c) (descMode c.f) (descCpl c.f) 2 false &&
        readUniform r c c.f.a .n64 % 128 == 0 && !engineFull r c)
      (fun r => inLaunch (fun l => { l with handlers := [8] }) (setRegs [(4, 0x20000), (5, 0x1000100010002)] r)) = true ∧
    readyFor (.hend {}) (fun c _ => c.isHandler && fine (awaitStores c false fun _ => true))
      (inGrp fun g => { g with handler := some { op := 0, bseq := 0, bx := 0, by_ := 0, bz := 0, slot := 0, burst := [], entry := w64 probePc, die := 0, core := 0 } }) = true := by
  decide +kernel

/-- BarrierObjectsAndSemaphoresComplete: ABWAIT at a barrier with nothing pending and at one whose phase has moved on; SEMPOST of every lane's word into a
semaphore of eight, SEMWAIT of the one word that a semaphore holds. -/
def barrierOk (c : Ctx) (r : Run) : Bool :=
  !c.shadowed && c.active != 0 && plainDest c && readUniform r c c.f.a .n32 % 16 == 0 && scrIn (curTeam r c) (readUniform r c c.f.a .n32) 16
theorem ready_barrier_objects :
    readyFor (.abinit { a := .k 8, b := .k 1 }) (fun c r => barrierOk c r && readUniform r c c.f.b .n64 == 1) = true ∧
    readyFor (.abadd { a := .k 8, b := .k 1 }) (fun c r => barrierOk c r && decide (readUniform r c c.f.b .n64 < 2 ^ 48)) = true ∧
    readyFor (.abwait { t := .n32, d := .v 4, a := .k 8 }) (fun c r => barrierOk c r && !xbit c.f 0 &&
      c.zeroSeen (curTeam r c) (readUniform r c c.f.a .n32)) = true ∧
    readyFor (.abwait { t := .n32, d := .v 4, a := .k 8, b := .k 1, x := 1 }) (fun c r => barrierOk c r && xbit c.f 0 &&
      (barPhase (curTeam r c) (readUniform r c c.f.a .n32)).toNat != readUniform r c c.f.b .n32) = true := by decide +kernel
def semAt (ws : List W64) (r : Run) : Run := setRegs [(4, 0x20000)] (putWords 0x20000 ws (oneLane r))
theorem ready_semaphores :
    readyFor (.sempost { t := .n32, a := .g 4, b := .v 0, c := .k 0, x := 1 }) (fun c r => !c.shadowed && c.active != 0 &&
      fine (semPost r c (w64 (readUniform r c c.f.a .n64)) (w32 (readUniform r c c.f.c .n32)) (c.lanes.map fun l => w32 (c.bAs r .n32 l)))) (semAt [0, 3]) = true ∧
    readyFor (.semwait { t := .n32, d := .v 4, a := .g 4 }) (fun c r => !c.shadowed && c.active != 0 && plainDest c &&
      fine (semTake r c (w64 (readUniform r c c.f.a .n64)) 1)) (semAt [0x100000000, 3]) = true := by decide +kernel

/-- ExchangesComplete: a step of one participant, 16 elements of I32, at device 0 and die 0; a suspended step and a finished one. -/
def exchange (status : W64) (r : Run) : Run :=
  setRegs [(4, 0x20000), (5, 0x30000)] (putWords 0x20000 [64, 1, 16, 0, 0, 0, 0, 9, 0]
    (putWords 0x30000 [0x500000000, status * 0x1000000000, 0, 0, 0x40000, 0x50000, 0x20000, 0x20000] (oneLane r)))
theorem ready_exchanges :
    readyFor (.lxchg { a := .g 4, b := .g 4, c := .g 5 }) (fun c r =>
      let a := c.lxAsk (readUniform r c c.f.a .n64) (readUniform r c c.f.b .n64) (readUniform r c c.f.c .n64) 0 false 0 0
      !c.shadowed && c.active != 0 && isOk (fun x => !lxRejects x.2 a x.1 a.op false && x.1.dlay.chunks == 1 &&
        isOk (fun r2 => !lxeFull r2 a.die) (checkVirt x.2 (a.req 1) (w64 a.prog) 65)) (lxRead r a)) (exchange 0) = true ∧
    readyFor (.lxstat { t := .n64, d := .g 6, a := .g 5 }) (fun c r => !c.shadowed && c.active != 0 && plainDest c &&
      fine (accRead r c (pathReq r c 5 0) (c.lowest.getD 0) (w64 (readUniform r c c.f.a .n64 + 8)) 8)) (exchange 0) = true := by decide +kernel
def resumeOk (status : Nat) (c : Ctx) (r : Run) : Bool :=
  let prog := readUniform r c c.f.a .n64
  let a := c.lxAsk 0 0 prog 0 false 0 0
  !c.shadowed && c.active != 0 && fine (checkObj c (curTeam r c) 0 0 3 false) && isOk (fun h => progStatus h.1 == status &&
    isOk (fun x => !lxRejects x.2 { a with src := 0x20000, dst := 0x20000 } x.1 0 true && fine (bitsInMemory x.2 (a.req 0) prog 1))
      (lxRead h.2 { a with src := (nthD 0 h.1 6).toNat, dst := (nthD 0 h.1 7).toNat })) (readWords r (a.req 0) prog 8)
theorem ready_resumed :
    readyFor (.lxresume { a := .g 5 }) (resumeOk 2) (exchange 2) = true ∧ readyFor (.lxresume { a := .g 5 }) (resumeOk 3) (exchange 3) = true ∧
    readyFor (.lxresume { a := .g 5 }) (resumeOk 6) (exchange 6) = true := by decide +kernel

/-! System instructions. -/

def superLevel : Run → Run := inGrp fun g => { g with super := true }
/-- A capability table of one entry with every right, at 128 KiB. -/
def withCap (r : Run) : Run :=
  (putWords 0x20000 [0x800000000000FFFF, 0x7F] (oneLane r)).updPart 0 fun p => { p with capbase := 0x20000, capsize := 1 }

/-- UserSystemInstructionsComplete. -/
theorem ready_user :
    readyFor (.trap { x := 0xFFF }) (fun c _ => c.lowest.isSome) = true ∧ readyFor (.brk { x := 1 }) (fun c _ => c.lowest.isSome) = true ∧
    readyFor (.event { a := .k 1, x := 5 }) (fun c r => c.active != 0 && unitHasRoom r.units (coreUnit c.t.die c.t.core)) = true ∧
    readyFor (.mark { a := .k 1, x := 2 }) (fun c r => c.active != 0 && unitHasRoom r.units (coreUnit c.t.die c.t.core)) = true ∧
    readyFor (.rdcnt { t := .n64, d := .g 4, a := .k 0, b := .k 0 }) (fun c r =>
      let sel := readUniform r c c.f.a .n32
      plainDest c && c.active != 0 && nfld sel 31 24 == 0 && decide (nfld sel 15 0 < bankSize (nfld sel 23 16)) &&
        Machine.holds r c.part c.t.die (w64 (readUniform r c c.f.b .n64)) rightCounter) withCap = true ∧
    readyFor (.rdtime { t := .n64, d := .g 4 }) (fun c _ => plainDest c) = true ∧
    readyFor (.rdtime { t := .n64, d := .g 4, x := 1 }) (fun c r => plainDest c && !matrixBusy r c) = true ∧
    readyFor (.capchk { t := .n32, d := .v 4, a := .k 0, b := .k 1, x := 1 }) (fun c r => plainDest c && c.lanes.all fun l =>
      let has := rights r c.part c.t.die (w64 (c.aAs r .n64 l))
      decide (c.bAs r .n32 l < 128) && has &&& c.bAs r .n32 l == c.bAs r .n32 l) withCap = true ∧
    readyFor (.icinv { x := 0x18 }) (fun c _ => !c.shadowed) = true ∧
    readyFor (.icinv { x := 0x20 }) (fun c r => c.shadowed && (curTeam r c).sbuf.isEmpty) inProt = true ∧
    readyPlain (.isync {}) = true ∧ readyFor (.tcommit {}) (fun c _ => !c.shadowed) = true := by decide +kernel

/-- SupervisorInstructionsComplete: a return of kind 0 and one of kind 1; each kind of system register; what HALT and CTXFL write back. -/
theorem ready_supervisor :
    readyFor (.tret {}) (fun c r => (returnFrom r c.gid).isSome) superLevel = true ∧
    readyFor (.tmask {}) (fun c _ => c.grp.super) superLevel = true ∧ readyFor (.tmask { x := 1 }) (fun c _ => c.grp.super) superLevel = true ∧
    readyFor (.sysr { t := .n64, d := .g 4, x := 0x012 }) (fun c _ => plainDest c && c.active != 0) superLevel = true ∧
    ([0x010, 0x011, 0x012, 0x013, 0x014, 0x018, 0x019, 0x020, 0x028].all fun n => readyFor (.sysw { t := .n64, a := .k 0, x := n }) (fun c r =>
      c.active != 0 && sysWritable c.f.x.toNat && sysAccepts (r.part c.part) c.f.x.toNat 0) superLevel) = true ∧
    readyFor (.sysw { t := .n64, a := .k 0, x := 0x01A }) (fun c r => c.active != 0 && sysAccepts (r.part c.part) 0x01A 0 && fine (revokeBody c r 0))
      (fun r => superLevel (withCap r)) = true ∧
    readyFor (.sysw { t := .n64, a := .k 0, x := 0x021 }) (fun c r => c.active != 0 && fine (winsyncBody c r 0)) superLevel = true ∧
    readyFor (.halt { x := 5 }) (fun c r => unitHasRoom r.units (coreUnit c.t.die c.t.core) && fine (flushBody c r)) superLevel = true ∧
    readyFor (.ctxfl {}) (fun c r => fine (flushBody c r)) superLevel = true := by decide +kernel

/-- SupervisorInstructionsTrapAtUserLevel. -/
def userLevel (i : Instr) : Bool :=
  match turnOf (probe i) with
  | some (_, t) =>
    match shape i, fieldsOf i, t.run.issuing with
    | some sh, some f, some (gid, frag) => (makeCtx t.run gid frag sh f).any fun c => !c.grp.super && c.grp.deferred.isEmpty
    | _, _, _ => false
  | none => false
theorem ready_privileged :
    ([.tret {}, .tmask {}, .sysr { t := .n64, x := 0x012 }, .sysw { t := .n64, x := 0x012 }, .halt {}, .ctxfl {}].all userLevel) = true := by decide +kernel

/-- InstructionsWithoutActiveLanesOnlyAdvance. -/
theorem ready_without_lanes : ([.qbind { gp := 0 }, .qunbind { gp := 0 }, .qstat { t := .n32, gp := 0 }, .copy { gp := 0 }, .copym { gp := 0 }, .cdrain { t := .n32, gp := 0 },
    .hread { gp := 0 }, .abinit { gp := 0 }, .abwait { t := .n32, gp := 0 }, .abadd { gp := 0 }, .sempost { t := .n32, gp := 0 }, .semwait { t := .n32, gp := 0 },
    .lxchg { gp := 0 }, .lxstat { t := .n64, gp := 0 }, .lxresume { gp := 0 }, .gred { gp := 0 }, .gscan { gp := 0 }, .spawn { gp := 0, d := .g 1 },
    .tpin { t := .n32, gp := 0 }, .event { gp := 0 }, .mark { gp := 0 }].all fun i => readyFor i fun c _ => c.active == 0) = true ∧
    ([.sysr { t := .n64, gp := 0, x := 0x012 }, .sysw { t := .n64, gp := 0, x := 0x012 }].all fun i => readyFor i (fun c _ => c.active == 0) superLevel) = true := by
  decide +kernel

/-! ## Witnesses: the other statements with hypotheses -/

/-- StepRunsTheFetchedInstruction: a turn that may issue, one that may not, and a record that finds its unit's buffer full; the other clauses ask
nothing but the form of the entry. -/
def headTurn (s : State) (p : Run → Bool) : Bool :=
  match s.agenda with
  | [⟨n, .issue 3 0, f, l⟩] => p (arrives ⟨n, .issue 3 0, f, l⟩ (elapse n { s with agenda := [] })).run
  | _ => false
theorem step_turn :
    headTurn (probe (.iadd { a := .k 1, b := .k 2 })) (fun r =>
      mayIssue r 3 0 && (match fragTurn r 3 0 with | .instr i _ => decide (i = .iadd { a := .k 1, b := .k 2 }) | .done _ => false)) = true ∧
    headTurn (probe (.nop {}) (inGrp fun g => { g with ended := true })) (fun r => !mayIssue r 3 0) = true ∧
    recordsWait { Run.reset with units := [{ unit := mmpUnit, recs := List.replicate 65 { w0 := 0, w1 := 0, w2 := 0, w3 := 0, lossless := true }, drops := 0 }] } = true := by
  decide +kernel

/-- FetchDecodesMemory: one word, two words, and a word that is no instruction; a word of a loop buffer, and a misaligned program counter. -/
def fetchOk (i : Instr) (long : Bool) (p : W64 → W64 → Bool) (edit : Run → Run := id) : Bool :=
  let r := (probe i edit).run
  match r.grp 3 with
  | some g =>
    match g.slice 0 with
    | some s =>
      let q := grpReq r 3 g s.pc 6 3
      let seen := fun (r : Run) (l : Leaf) (a : W64) => correctRange r q.part (keyOf r q.part l) (l.pa a) 8
      let fresh := fun (a : W64) => (s.loopWord a).isNone && (s.oldWord a).isNone
      let good := fun (r : Run) (l : Leaf) (a : W64) => (rangeFail r (keyOf r q.part l) (l.pa a) 8).isNone &&
        (((seen r l a).core q.die q.core).icache.find (l.pa a)).all fun w => w == readWord (seen r l a) (l.pa a)
      match translate r q s.pc with
      | (.ok l1, r1) =>
        let w1 := readWord (seen r1 l1 s.pc) (l1.pa s.pc)
        let r1' := (cachedWord (seen r1 l1 s.pc) q l1 (l1.pa s.pc)).2
        s.pc.toNat % 8 == 0 && good r1 l1 s.pc && fresh s.pc && longWord w1 == long &&
          if long then
            fresh (s.pc + 8) && decide (grpReq r1' 3 g s.pc 6 3 = q) &&
              match translate r1' q (s.pc + 8) with
              | (.ok l2, r2) => good r2 l2 (s.pc + 8) && p w1 (readWord (seen r2 l2 (s.pc + 8)) (l2.pa (s.pc + 8)))
              | _ => false
          else p w1 0
      | _ => false
    | none => false
  | none => false
theorem fetch_words :
    fetchOk (.nop {}) false (fun w1 w2 => decodesTo w1 w2 (.nop {})) = true ∧
    fetchOk (.movi { t := .n64, w2 := 5 }) true (fun w1 w2 => decodesTo w1 w2 (.movi { t := .n64, w2 := 5 })) = true ∧
    fetchOk (.nop {}) false (fun w1 w2 => rejectsAs w1 w2 .reservedOpcode) (fun r => writeWord r probePc 0xFF00000000000000) = true := by decide +kernel
theorem fetch_loop :
    (let s := { Slice.start 0x10000 with loopAt := some (0x10000, 0x10040), buffer := [(0x10000, 0x8002000000000000), (0x10008, 0x0000000500060000)] }
     s.pc.toNat % 8 = 0 ∧ s.loopWord s.pc = some 0x8002000000000000 ∧ longWord 0x8002000000000000 = true ∧ s.loopWord (s.pc + 8) = some 0x0000000500060000 ∧
       decodesTo 0x8002000000000000 0x0000000500060000 (.bra { gp := 1, w2 := 0x0000000500060000 }) = true) := by decide +kernel

def isNext (o : Host.Outcome State Fault Refusal) : Bool :=
  match o with
  | .next _ => true
  | _ => false
/-- StepsKeepTheManagementPlaneLegal, FirmwareFloorsNeverFall. -/
theorem legal_step : (probe (.nop {})).mgmt.legal ∧ isNext (step (probe (.nop {}))) = true := by
  refine ⟨?_, by decide +kernel⟩
  refine ⟨by decide, by decide, by decide, by decide, ?_⟩
  intro p hp
  obtain rfl := List.eq_of_mem_replicate hp
  decide

/-- VectorResultIsWritten, UniformAndPredicateResultsAreWritten, AdvanceMovesTheIssuingSlices: registers 4, 62 and 0 to 6 of the bank. -/
theorem results_written :
    readyFor (.iadd { t := .n64, d := .v 4 }) (fun c r => !c.f.w && decide c.slices.Nodup && (r.grp c.gid).isSome && fine (writeRes r c .w64 fun l => l)) = true ∧
    readyFor (.iadd { t := .n64, d := .g 62 }) (fun c r => !c.f.w && ((r.grp c.gid).any fun g => decide (62 < g.g.length) && decide (8 ≤ g.sg.length) &&
      decide (7 ≤ g.p.length) && decide (7 ≤ g.sp.length)) && fine (writeRes r c .w64 fun l => l)) = true ∧
    readyFor (.iadd {}) (fun c _ => c.slices == List.range 8 && decide c.slices.Nodup && c.grp.slices.length == 8) = true := by decide +kernel

/-- LegalAtReset's parts, FittingWrapsOrSaturates and TrapRecordsNameTheirCause have hypotheses on numbers alone: 0 meets them, and so do the
largest fields. TrapsEnterTheirHandlers: SOFTWARE met at USER level, taken by the supervisor, and by the kernel where both delegate it. -/
def trapOk (user : Bool) (edit : Run → Run) : Bool :=
  let r := (probe (.nop {}) edit).run
  match r.grp 3 with
  | some g =>
    let i : TrapInfo := { cause := .software, detail := 0, lane := 127, code := 4095, pc := w64 probePc, addr := 0, aux := 0, deferred := false }
    let r0 := dropWaits r 3
    let e := emitGrp r0 3 (coreUnit (dieOfGrp r0 g) (coreOfGrp r0 g)) 0x0005 (i.cause.code + bit (!toUser r0 g i.cause) * 64 + bit i.deferred * 128)
    !g.super && !consumes i && toUser r0 g i.cause == user && fine (writeRecord e.2 3 i (!toUser r0 g i.cause) 0 e.1)
  | none => false
theorem traps_enter :
    trapOk false oneLane = true ∧
    trapOk true (fun r => (inGrp (fun g => { g with utvec := BitVec.allOnes 64 }) (oneLane r)).updPart 0 fun p => { p with pdeleg := BitVec.allOnes 64 }) = true := by
  decide +kernel

/-- An instruction of a protected launch whose commit, or room in the buffer, `base` answers, and that `body` then holds of. -/
def protectedOk (i : Instr) (base : Ctx → Run → Run × Bool) (body : Ctx → Run → Bool) (edit : Run → Run := id) : Bool :=
  match turnOf (probe i fun r => inProt (edit r)) with
  | some (_, t) =>
    match shape i, fieldsOf i, t.run.issuing with
    | some sh, some f, some (gid, frag) =>
      (makeCtx t.run gid frag sh f).any fun c0 =>
        (dueDeferred c0.grp).isNone && c0.early.isNone && c0.missing.isEmpty && c0.shadowed && c0.active != 0 &&
          match base c0 (c0.onto t.run) with
          | (base, true) =>
            (base.core c0.t.die c0.t.core).inject.isNone && isOk (fun x => body { c0 with pops := x.1 } (advance { c0 with pops := x.1 } x.2)) (queues c0 base)
          | _ => false
    | _, _, _ => false
  | none => false
/-- ProtectedStoresAreBuffered. -/
theorem protected_stores :
    protectedOk (.st { t := .n32, a := .k 8, b := .k 0, c := .k 1, x := 0x400 }) (fun c r => makeRoom r c) (fun c r =>
      !c.usesSem && fine (globalAccess r c c.lanes 1 c.size (kindAligned c.f) (gAddr r c))) oneLane = true ∧
    protectedOk (.sts { t := .n32, a := .k 8, b := .k 0, x := 0x401 }) (fun c r => makeRoom r c) (fun c r =>
      !c.usesSem && subOf c.f != 2 && fine (scratchAccess c c.lanes c.size (lineAligned c.f) (sAddr r c))) = true ∧
    protectedOk (.rst { t := .n32, a := .k 1, b := .k 0, c := .k 3, x := 0x428 }) (fun c r => makeRoom r c) (fun c r =>
      !c.usesSem && fine (remoteCheck r c c.lanes 1 (strongAligned c.size))) withWindow = true := by decide +kernel

def silent : Run → Run := inGrp fun g => { g with ended := true }
def inSlice (f : Slice → Slice) : Run → Run := inGrp fun g => { g with slices := g.slices.map f }
/-- ProtectedInstructionsCommitAroundTheirEffect: QUNBIND, whose work is never in flight, at its first issue and while it waits with nothing buffered;
SFILL, which acts as an atomic; and, where a group marked as ended makes the commit write no bytes that the model leaves free, RED and a store of a word
that a semaphore gives. -/
theorem protected_commits :
    protectedOk (.qunbind {}) (fun c r => commitNow r c.grp.team) (fun _ _ => true) = true ∧
    protectedOk (.qunbind {}) (fun _ r => (r, true)) (fun c r => (c.slices.any fun n => (c.grp.slice n).any fun x => x.wait.isSome) && (curTeam r c).sbuf.isEmpty)
      (inSlice fun x => { x with wait := some { kind := 8, reason := 9, object := 0, since := 0, aux := 0 } }) = true ∧
    protectedOk (.red { t := .n32, a := .k 8, b := .k 0, c := .k 1, x := 0x400 }) (fun c r => commitNow r c.grp.team) (fun c r =>
      fine (globalAtomics r c (combine c r) false)) (fun r => silent (oneLane r)) = true ∧
    protectedOk (.sfill { a := .k 8, b := .k 0, x := 1 }) (fun c r => commitNow r c.grp.team) (fun c r => fine (scratchAccess c c.lanes 1 (fun _ => true) (sAddr r c))) = true ∧
    protectedOk (.st { t := .n32, a := .k 8, b := .k 0, c := .q 0, x := 0x400 }) (fun c r => commitNow r c.grp.team) (fun c r =>
      c.usesSem && fine (globalAccess r c c.lanes 1 c.size (kindAligned c.f) (gAddr r c))) (fun r => silent (bound 4 0x20000 (semAt [0x100000000, 3] r))) = true := by decide +kernel
/-- FencesAndCacheControlComplete, UserSystemInstructionsComplete: a protected group's commit before XFENCE and ICINV, and TCOMMIT's own. -/
theorem protected_instruction_fences :
    readyFor (.icinv { x := 0x18 }) (fun c r => c.shadowed && (curTeam r c).sbuf.isEmpty && !(curTeam r c).committed.isEmpty)
      (fun r => committing [storeOf 3 (.scratch false)] (inProt r)) = true ∧
    readyFor (.icinv { x := 0x18 }) (fun c r => c.shadowed && !(curTeam r c).sbuf.isEmpty) (fun r => buffering [storeOf 3 (.scratch false)] (inProt r)) = true ∧
    readyFor (.tcommit {}) (fun c r => c.shadowed && (commitTeam r c.grp.team).2) inProt = true := by decide +kernel

/-! ## Witnesses: rows without an encoding

A row answers a next state exactly where it is due, so each theorem names a state, and the edit of it, in which the row is due. -/

/-- The row takes place. -/
def happens (i : Instr) (s : State) : Bool := isNext (exec i s)
/-- The probe's machine, edited. -/
def still (edit : Run → Run) : State := probe (.nop {}) edit
/-- The state after the instruction of the probe's turn. -/
def afterTurn (i : Instr) (edit : Run → Run) : State :=
  match turnOf (probe i edit) with
  | some (j, t) => match exec j t with | .next u => u | _ => t
  | none => still id
def edited (f : Run → Run) (s : State) : State := { s with run := f s.run }
def inOp (f : Op → Op) (s : State) : State := edited (fun r => { r with ops := r.ops.map fun e => (e.1, f e.2) }) s
/-- The operation that the engine accepted last. -/
def lastOp (s : State) : Nat := ((s.run.ops.getLast?).map (·.1)).getD 0

/-- StoresChangeTheirBytesAlone: a piece that a store has left, in blocks without a tag. -/
theorem late_piece :
    (let s := afterTurn (.st { t := .n32, a := .g 4, b := .k 0, c := .k 1, x := 0x400 }) (fun r => setRegs [(4, 0x20000)] (oneLane r))
     (s.run.late[0]?).any fun b => (b.pieces[0]?).any fun p => (blockTag s.run (p.pa / 64)).isNone && (blockTag s.run ((p.pa + p.bytes.length) / 64)).isNone) = true := by
  decide +kernel
/-- CoreUnitsAct: stores, matrix work and held records. -/
theorem due_stores :
    happens (.committedStorePerform 2) (still (inTeam fun t => { t with committed :=
      [storeOf 3 (.scratch false)] })) = true ∧
    happens (.matrixPerform 0 0 0) (afterTurn (.tzero { d := .v 0 }) (withTiles none)) = true ∧
    happens (.heldRecordPush 2 64) (still (inTeam fun t => { scrPut t 72 1 1 with held := [{ ring := 64, lines := [], words := [7] }] })) = true := by decide +kernel
/-- CoreUnitsAct: transfers and bursts. A leaf with a reserved bit makes a piece fail. -/
def copied : State := afterTurn (.copy { a := .g 4, b := .g 5, c := .g 6, w2 := 2 }) (fun r => oneLane (setRegs [(4, 0x20000), (5, 0x80), (6, 0x100000020)] r))
def burst : State := afterTurn (.hread { a := .g 4, b := .g 5, c := .k 0 }) (fun r =>
  oneLane (inLaunch (fun l => { l with handlers := [8] }) (setRegs [(4, 0x20000), (5, 0x1000100010001)] r)))
theorem due_transfers :
    happens (.copyPiece (lastOp copied) 0) copied = true ∧
    (let s := edited (fun r => writeWord r (probeTables + 0x20010) 0xC100000000000000) (inOp (fun o =>
      { o with pieces := o.pieces.map fun p => { p with src := 0x400000000 } }) copied)
     happens (.copyPieceFail (lastOp s) 0) s) = true ∧
    happens (.burstReturn (lastOp burst) 0) burst = true ∧
    (let s := inOp (fun o => { o with pieces := o.pieces.map fun p => { p with state := .held (List.replicate 128 0) } }) burst
     happens (.heldBurstStart (lastOp s) 0) s) = true ∧
    (let s := afterTurn (.cdrain { t := .n32, d := .v 4, a := .k 8, b := .k 0 }) (fun r => oneLane (tileSlot [(0, { bytes := [1, 2], recv := 1, drained := 0 })] r))
     happens (.drainLand (lastOp s)) s) = true := by decide +kernel
/-- CoreUnitsAct: an exchange of one participant, and of two, the other at device 1. -/
def exchanging (edit : Run → Run) : State := afterTurn (.lxchg { a := .g 4, b := .g 4, c := .g 5 }) (fun r => edit (exchange 0 r))
def inSteps (f : LxStep → LxStep) (s : State) : State := edited (fun r => { r with steps := r.steps.map f }) s
def pairStep : State := exchanging (putWords 0x20000 [64, 2, 16, 0, 0, 0, 0, 9, 0x200000])
theorem due_exchanges :
    happens (.lxChunkDone 0 5 0) (exchanging id) = true ∧
    happens (.lxStepDone 0 5) (inSteps (fun st => { st with bits := [0] }) (exchanging id)) = true ∧
    happens (.lxDigest 0 5 1 0 [] false) pairStep = true ∧
    happens (.lxFault 0 5 .peerDead) { pairStep with mgmt := { pairStep.mgmt with deadDevs := [1] } } = true ∧
    happens (.lxFault 0 5 .progressWrite) (edited (fun r => writeWord r (probeTables + 0x20010) 0xC100000000000000)
      (inSteps (fun st => { st with prog := 0x400000000 }) (exchanging id))) = true ∧
    happens (.stepOverdue 0 5) (edited (fun r => r.updDie 0 fun d => { d with time := 1000 }) (inSteps (fun st => { st with deadline := 1, accepted := 0 }) pairStep)) = true := by
  decide +kernel

/-- Queue 0 of partition 0 at a ring of 16 slots, with the words of its header and some records taken. -/
def withQueue (ctrl : W64) (recs : List TakenRec) (halted suspended : Bool) (r : Run) : Run :=
  (putWords 0x20000 [0x21000, 1] (putWords 0x21000 [1, 0, 0, 4, ctrl] r)).updPart 0 fun p =>
    { p with queueTable := 0x20000, queueEnable := true, queues := [(0, { taken := 0, done := 0, err := 0, recs, suspended, halted })] }
/-- The node 0 of a running graph of that queue, with its words. -/
def withNode (words : List W64) (r : Run) : Run :=
  (putWords 0x70040 words (withQueue 0 [{ slot := 0, words := [0x102, 0x70000], state := .started, code := 0 }] false false r)).updPart 0 fun p =>
    { p with graphs := [(9, { queue := 0, slot := 0, table := 0x70000, nnodes := 1, pending := [0], left := 1, ready := [0], running := [], finished := [], halted := false, dropped := false })] }
/-- A record takes place that may start, and does not halt its queue. -/
def starts (row : RecSrc → Instr) (words : List W64) (edit : Run → Run := id) : Bool :=
  match exec (row (.node 0 9 0)) (still fun r => edit (withNode words r)) with
  | .next t => !(queueState t.run 0 0).halted
  | _ => false

/-- LauncherSchedulersAndPagingAct: queues. -/
theorem due_queues :
    happens (.launcherTake 0 0) (still fun r => putWords 0x21040 [0x108] (withQueue 0 [] false false r)) = true ∧
    happens (.run 0 0) (still (withQueue 0 [] false true)) = true ∧ happens (.suspend 0 0) (still (withQueue 1 [] false false)) = true ∧
    happens (.skip 0 0) (still (withQueue 2 [{ slot := 0, words := [0x108], state := .halted, code := 0 }] true false)) = true ∧
    happens (.retry 0 0) (still (withQueue 3 [{ slot := 0, words := [0x108], state := .halted, code := 0 }] true false)) = true := by decide +kernel
/-- Records, as the ready node of a graph: an image with one entry point, a graph of one node, an exchange step, a word of memory, a launch record's
area. -/
theorem due_records :
    starts .launchRecord [0x101, 0x30000, 1, 0, 0, 0, 0, 0] (putWords 0x30000 [0x14D49594B, 0x111000000, 0x100000000040, 0, 0, 0x100000030]) = true ∧
    starts .graphRecord [0x102, 0x30000, 0, 0, 0, 0, 0, 0] (fun r => putWords 0x30000 [1] (putWords 0x30040 [4, 0x40000, 1] r)) = true ∧
    starts .signal [0x104, 0x40000, 1, 0] = true ∧ starts .waitev [0x105, 0x40000, 1] = true ∧ starts .cstart [0x106, 0x40000, 0] = true ∧
    starts .cstop [0x107, 0x40000, 0] = true ∧ starts .fenceRecord [0x108] = true := by decide +kernel
/-- A record of a ring. -/
theorem due_ring_record :
    happens (.fenceRecord (.ring 0 0 0)) (still (withQueue 0 [{ slot := 0, words := [0x108], state := .taken, code := 0 }] false false)) = true := by decide +kernel
theorem due_exchange_record :
    starts .lxRecord [0x103, 0x50000, 0x50000, 0x60000, 0, 0, 0, 0]
      (fun r => putWords 0x50000 [64, 1, 16, 0, 0, 0, 0, 9, 0] (putWords 0x60000 [0x500000000] r)) = true := by decide +kernel
/-- A wait whose word has arrived, a node that has completed, a launch whose teams have ended. -/
theorem due_ends :
    happens (.waitevComplete (.ring 0 0 0)) (still fun r => putWords 0x40000 [1] (withQueue 0 [{ slot := 0, words := [0x105, 0x40000, 1], state := .started, code := 0 }] false false r))
      = true ∧
    happens (.graphNodeComplete (.node 0 9 0)) (still fun r => (withQueue 0 [{ slot := 0, words := [0x102, 0x30000], state := .started, code := 0 }] false false r).updPart 0 fun p =>
      { p with graphs := [(9, { queue := 0, slot := 0, table := 0x30000, nnodes := 1, pending := [0], left := 1, ready := [], running := [], finished := [0], halted := false, dropped := false })] }) = true ∧
    happens (.launchComplete 0) (still (inLaunch fun l => { l with teamsLeft := 0 })) = true := by decide +kernel

/-- Schedulers: an evicted cluster to place, a die with room and nothing to place, an evicted cluster of higher priority that only core 0 could hold, a group without a
context, a pre-emption at its limit. -/
def unplaced (r : Run) : Run :=
  (inGrp (fun g => { g with ctx := none }) (inTeam (fun t => { t with resident := false }) r)).updCluster 1 fun k => { k with at_ := none, evicted := true }
theorem due_places :
    happens (.clusterPlace 0) (still unplaced) = true ∧
    happens (.stealRequest 0 0) (still (inLaunch fun l => { l with vregs := 16, lines := 64, dies := [0, 1] })) = true ∧
    happens (.preempt 0) (still fun r =>
      { (r.updDie 0 fun d => { d with cores := updAt (d.cores.map fun c => { c with fenced := true }) 0 fun c => { c with fenced := false } }) with
        clusters := r.clusters.put 9 { launch := 10, num := 0, die := 0, at_ := none, evicted := true, leaving := false, ended := false, teams := [12], slots := [] }
        teams := r.teams.put 12 { probeTeam 10 9 12 with resident := false }
        launches := r.launches.put 10 { probeLaunch with prio := 1 } }) = true ∧
    happens (.groupResume 3) (still (inGrp fun g => { g with ctx := none })) = true ∧
    happens (.preemptLimit 3) (still fun r => (inGrp (fun g => { g with heldEvict := some 0 }) r).updDie 0 fun d => { d with time := 0x20000 }) = true := by
  decide +kernel

/-- Translation: commands of the ring, a held fault record; writes through the configuration ports. -/
def command (words : List W64) : State := still fun r => putWords 0x180028 [1, 0] (putWords 0x1A0000 words r)
def atReady (m : Mgmt) : Mgmt := { m with state := .ready, powered := true, asked := some 0 }
def serving (edit : Run → Run) : State := { still edit with mgmt := atReady (still edit).mgmt }
theorem due_paging :
    happens (.inval 0) (command [1, 0, 1]) = true ∧ happens (.resolve 0) (command [2, 5, 0]) = true ∧
    happens (.pin 0) (command [3, 0x300000, 0]) = true ∧ happens (.unpin 0) (command [4, 0x300000, 0]) = true ∧
    happens (.faultRecordWrite 0) (still fun r => r.updPart 0 fun p => { p with faults := [{ words := [0, 0, 0, 0], waiter := none, tag := 1, since := 0, written := false }] })
      = true ∧
    happens (.ptroot 0 0x180000) (serving id) = true ∧ happens (.caprevoke 0 0) (serving fun r => r.updPart 0 fun p => { p with capsize := 1 }) = true ∧
    happens (.winsync 0 255) (serving id) = true ∧
    ([ConfigReg.sys 0 0x012, .queueTable 0, .queueEnable 0, .shoalFilter, .dieControl 0, .readOnly 1, .readOnly 10, .word 0x18].all fun c =>
      happens (.configWrite c 0) (serving id)) = true := by
  decide +kernel

/-- Port 0 is UP, edited, at time 10⁶. -/
def linked (f : Port → Port := id) (edit : Run → Run := id) : State :=
  let s := serving fun r => (edit r).updDie 0 fun d => { d with time := 1000000 }
  { s with mgmt := s.mgmt.updPort 0 fun _ => f { Port.reset with state := .up, width := 0, laneok := 0xFF } }
/-- FabricActs: the port. -/
theorem due_port :
    happens (.replay 0) (linked fun p => { p with mustReplay := true }) = true ∧ happens (.heartbeat 0) (linked id) = true ∧
    happens (.retrainTimeout 0) (linked fun p => { p with retraining := some 0 }) = true ∧
    happens (.widthChange 0) (linked fun p => { p with wantWidth := some 1 }) = true ∧ happens (.portSilent 0) (linked id) = true ∧
    happens (.flitReceive 0 (List.replicate 256 0)) (linked id) = true ∧ happens (.laneFail 0 7) (linked id) = true ∧
    happens (.retrainComplete 0 0x0F) (linked fun p => { p with retraining := some 0 }) = true ∧
    happens (.retrainComplete 0 0x0F) (linked fun p => { p with state := .training, width := 3 }) = true ∧ happens (.reqw 0 2) (linked id) = true := by
  decide +kernel
/-- FabricActs: requests and replies that have arrived, joins and notices, at this device and at an Atoll. -/
def arrival (p : Packet) (edit : Run → Run := id) : State := linked (fun q => { q with inbox := [(p, 1000000)] }) edit
def slot32 : List Byte := List.replicate 32 0
def asked : Request := { pkt := { type := 1, dst := 1, tag := 7 }, part := 0, group := 3, kern := 0, sent := 0, resent := 3 }
theorem due_requests :
    happens (.retransmit 1 7) (linked id fun r => { r with reqs := [asked] }) = true ∧
    happens (.rdReq 0 { type := 1, src := 1, size := 2 }) (arrival { type := 1, src := 1, size := 2 }) = true ∧
    happens (.wrReq 0 { type := 2, src := 1, size := 2, data := slot32 }) (arrival { type := 2, src := 1, size := 2, data := slot32 }) = true ∧
    happens (.atReq 0 { type := 3, src := 1, size := 2, aop := 10, data := slot32 }) (arrival { type := 3, src := 1, size := 2, aop := 10, data := slot32 }) = true ∧
    happens (.rdrep 0 { type := 4, src := 1, tag := 7, data := slot32 }) (arrival { type := 4, src := 1, tag := 7, data := slot32 } fun r => { r with reqs := [asked] })
      = true ∧
    happens (.wrack 0 { type := 5, src := 1 }) (arrival { type := 5, src := 1 }) = true ∧
    happens (.atrep 0 { type := 6, src := 1, data := slot32 }) (arrival { type := 6, src := 1, data := slot32 }) = true ∧
    (let s := linked id
     happens (.atollDiscard 0 0) { s with mgmt := s.mgmt.updAtoll 0 fun a => a.updPort 0 fun q => { q with queue := [({ type := 1 }, 0)] } }) = true := by
  decide +kernel
theorem due_notices :
    happens (.join 0 1 { type := 0x1E, src := 1 }) (linked id) = true ∧ happens (.down 0 1 { type := 0x1F, src := 1 }) (linked id) = true ∧
    happens (.joinack 0 { type := 0x25 }) (linked (fun q => { q with state := .training, width := 0, inbox := [({ type := 0x25 }, 1000000)] })) = true ∧
    happens (.joinrefuse 0 { type := 0x26 }) (linked (fun q => { q with state := .training, width := 0, inbox := [({ type := 0x26 }, 1000000)] })) = true ∧
    happens (.portdown (.device 0) { type := 0x20, offset := 0x100000000000000 }) (arrival { type := 0x20, offset := 0x100000000000000 }) = true ∧
    happens (.death (.device 0) { type := 0x21, offset := 0x100000000000000 }) (arrival { type := 0x21, offset := 0x100000000000000 }) = true ∧
    happens (.alive (.device 0) { type := 0x22, offset := 0x100000000000000 }) (arrival { type := 0x22, offset := 0x100000000000000 }) = true ∧
    happens (.park (.device 0) { type := 0x23, offset := 0x100000000000000 }) (arrival { type := 0x23, offset := 0x100000000000000 }) = true ∧
    happens (.unpark (.device 0) { type := 0x24, offset := 0x100000000000000 }) (arrival { type := 0x24, offset := 0x100000000000000 }) = true ∧
    (let s := linked id
     happens (.death (.atoll 0 0) { type := 0x21, offset := 0x100000000000000 })
       { s with mgmt := s.mgmt.updAtoll 0 fun a => a.updPort 0 fun q => { q with up := true } }) = true := by decide +kernel
theorem due_exchange_packets :
    happens (.lxpull (.device 0) { type := 8 }) (arrival { type := 8 }) = true ∧ happens (.lxpull (.atoll 0 1) { type := 8 }) (linked id) = true ∧
    happens (.lxdata (.device 0) { type := 9, data := slot32 }) (arrival { type := 9, data := slot32 }) = true ∧
    happens (.lxdata (.atoll 0 1) { type := 9, data := slot32 }) (linked id) = true ∧
    happens (.lxres (.device 0) { type := 10, data := slot32 }) (arrival { type := 10, data := slot32 }) = true := by decide +kernel

/-- ManagementPlaneActs: resets, time and observation. -/
def inMgmt (f : Mgmt → Mgmt) : State := { serving id with mgmt := f (serving id).mgmt }
/-- Nothing has come by a Ferry port for 1 s. -/
def silentFerries : State :=
  let s := serving fun r => r.updDie 0 fun d => { d with time := w64 ticks1s }
  { s with mgmt := { s.mgmt with locked := true } }
theorem due_management :
    happens .powerReset State.reset = true ∧ happens .powerReset { State.reset with mgmt := { State.reset.mgmt with failing := [(0, 47)] } } = true ∧ happens .powerLoss State.reset = true ∧ happens .moduleReset (serving id) = true ∧
    happens .mmpReset (serving id) = true ∧ happens .holdover silentFerries = true ∧ happens (.timesync none) (serving id) = true ∧
    happens (.timesync (some 1000000)) (serving id) = true ∧
    happens (.loss { kind := 1, die := 0, index := 0 }) (serving fun r => { r with units := [{ unit := { kind := 1, die := 0, index := 0 }, recs := [], drops := 3 }] })
      = true ∧
    happens (.sketchRead { kind := 1, die := 0, index := 0 }) (serving id) = true ∧ happens (.sketchRead { kind := 4, die := 0, index := 2 }) (serving id) = true ∧
    happens (.sample 0 0) (serving fun r => r.updPart 0 fun p => { p with sampleLog := some 10 }) = true ∧
    happens (.coreFence 0 47) (serving id) = true ∧ happens (.powerThrottle 0 0 3 true) (serving id) = true ∧
    happens (.haltRelease { group := 3 }) (serving (inGrp fun g => { g with parked := some (5, 0) })) = true ∧
    happens (.haltRelease { handle := some 0, group := 3 }) (serving fun r => withCap (inGrp (fun g => { g with parked := some (5, 0) }) r)) = true ∧ happens (.watchdogKill 2) (serving id) = true := by
  decide +kernel
/-- Requests with a handle that has every right, and one without. -/
theorem due_requests_of_the_host :
    ([.waitDescriptorRead 0 0, .sampleInterval 0 0 10, .sampleInterval 0 0 30, .replayMode 0 0 63 (.replay 1 2), .injectionArm 0 0 0 0 1 31].all fun i =>
      happens i (serving withCap) && happens i (serving id)) = true ∧
    handleHolds (serving withCap).run 0 0 rightReplay = true ∧ handleHolds (serving id).run 0 0 rightReplay = false := by decide +kernel
/-- Dies, repairs, keys, firmware, attestation, and the host's memory accesses. -/
def inDie (f : Die → Die) : State := serving fun r => r.updDie 0 f
theorem due_dies :
    happens (.drain 0) (inDie fun d => { d with cmd := 1 }) = true ∧ happens (.quarantine 0) (inDie fun d => { d with cmd := 2 }) = true ∧
    happens (.quarantine 0) (inDie fun d => { d with state := .drained, parking := some 0 }) = true ∧
    happens (.restart 0 true [47]) (inDie fun d => { d with cmd := 3, slot := true }) = true ∧
    happens (.restart 0 true []) (inDie fun d => { d with state := .restarting, dcpSlot := true }) = true ∧ happens (.release 0) (inDie fun d => { d with cmd := 4 }) = true ∧
    happens (.dcpReadyTimeout 0) (inDie fun d => { d with state := .restarting, time := 4000000000 }) = true ∧
    happens (.dramRepair 0 (.bank 0 0 0)) (inMgmt fun m => { m with remaps := (List.range 8).map fun n => (0, .row 0 0 0 n) }) = true ∧
    happens (.healthUpdate 0 { age := 100, tnow := 255 }) (serving id) = true ∧ happens (.eolUpdate 0 255 255) (inDie fun d => { d with time := w64 ticks1h }) = true ∧
    happens (.keyLoad 0 5 0) (serving id) = true ∧ happens (.keyClear 0) (serving id) = true := by decide +kernel
theorem due_firmware :
    happens (.firmwareCommit .mmp) (inMgmt fun m => { m with mmpSlots := [{ FwSlot.reset with state := .pending }, FwSlot.reset] }) = true ∧
    happens (.firmwareCommit .dcp) (inMgmt fun m => { m with dcpSlots := [FwSlot.reset, { FwSlot.reset with state := .pending }] }) = true ∧
    happens (.firmwareWrite .dcp true []) (serving id) = true ∧ happens (.attestation slot32) (serving id) = true ∧
    happens (.hostmemRead 0 0 0x20000 4096 true) (serving id) = true ∧ happens (.hostmemWrite 1 0 0x20000 [1, 2] false) (serving id) = true ∧
    happens (.add64 0 0 0x20000 1) (serving id) = true ∧ happens (.cas64 0 0 0x20000 0 1) (serving id) = true := by decide +kernel

end Sys2Proof.Tests
end

section
/-! ## Reading memory after a write of bytes (08) -/
namespace Sys2Proof.Machine

/-- The frame of a write: a byte outside the range written is as before. -/
theorem memByte_memWrite_of_outside {m : Memory} {a b : Nat} {bs : List Byte} (h : b < a ∨ a + bs.length ≤ b) :
    memByte (memWrite m a bs) b = memByte m b := by
  induction bs generalizing m a with
  | nil => rfl
  | cons v t ih =>
    rw [List.length_cons] at h
    exact (ih (by omega)).trans (Sparse.get_set_of_ne (by omega) 0 v)

/-- Read after write. The first byte survives the write of the rest, which starts one address above it. -/
theorem memByte_memWrite_add {m : Memory} {a i : Nat} {bs : List Byte} (h : i < bs.length) :
    memByte (memWrite m a bs) (a + i) = nthD 0 bs i := by
  induction bs generalizing m a i with
  | nil => cases h
  | cons v t ih =>
    cases i with
    | zero =>
      have hrest : memByte (memWrite m a (v :: t)) a = memByte (Sparse.set 0 m a v) a :=
        memByte_memWrite_of_outside (bs := t) (.inl a.lt_succ_self)
      exact hrest.trans (Sparse.get_set_self 0 m a v)
    | succ j =>
      have hj := ih (m := Sparse.set 0 m a v) (a := a + 1) (Nat.lt_of_succ_lt_succ h)
      rwa [Nat.add_right_comm] at hj

/-- Settles O25: read after write, and the frame. -/
theorem memoryReadsWhatWasWritten : Obligations.MemoryReadsWhatWasWritten :=
  fun _ _ _ => ⟨fun _ => memByte_memWrite_add, fun _ => memByte_memWrite_of_outside⟩

end Sys2Proof.Machine
end

section
/-! ## What a result leaves in registers, latches and predicates (02 R60 to R63, R69, 07 R205) -/
namespace Sys2Proof.Machine

/-! Lists of keys and lanes. -/

/-- Keys that rows and columns tell apart are distinct. -/
theorem nodup_flatMap_map {rows cols : List Nat} {key : Nat → Nat → Nat} (hrows : rows.Nodup) (hcols : cols.Nodup)
    (hkey : ∀ a ∈ rows, ∀ b ∈ rows, ∀ i ∈ cols, ∀ j ∈ cols, key a i = key b j → a = b ∧ i = j) :
    (rows.flatMap fun a => cols.map fun i => key a i).Nodup := by
  rw [List.Nodup, List.pairwise_flatMap]
  refine ⟨fun a ha => List.pairwise_map.mpr (List.Pairwise.imp_of_mem (fun hi hj hij h => ?_) hcols),
    List.Pairwise.imp_of_mem (fun ha hb hab x hx y hy hxy => ?_) hrows⟩
  · exact hij (hkey a ha a ha _ hi _ hj h).2
  · obtain ⟨i, hi, rfl⟩ := List.mem_map.mp hx
    obtain ⟨j, hj, rfl⟩ := List.mem_map.mp hy
    exact hab (hkey _ ha _ hb i hi j hj hxy).1

/-- Values set under keys that rows and columns tell apart are each read back. -/
theorem Sparse.get_setAll_rows {α : Type} [DecidableEq α] {d : α} {m : Sparse α} {rows : List Nat} {n : Nat} {key : Nat → Nat → Nat}
    {val : Nat → Nat → α} (hrows : rows.Nodup)
    (hkey : ∀ a ∈ rows, ∀ b ∈ rows, ∀ i < n, ∀ j < n, key a i = key b j → a = b ∧ i = j) {a i : Nat} (ha : a ∈ rows) (hi : i < n) :
    Sparse.get d (Sparse.setAll d m (rows.flatMap fun a => (List.range n).map fun i => (key a i, val a i))) (key a i) = val a i := by
  refine Sparse.get_setAll_of_mem ?_ (List.mem_flatMap.mpr ⟨a, ha, List.mem_map.mpr ⟨i, List.mem_range.mpr hi, rfl⟩⟩) d
  simp only [List.map_flatMap, List.map_map, Function.comp_def]
  refine nodup_flatMap_map hrows List.nodup_range fun a ha b hb i hi j hj h => ?_
  exact hkey a ha b hb i (List.mem_range.mp hi) j (List.mem_range.mp hj) h

@[simp] theorem resWords_length (w : ResW) (v : Nat) : (resWords w v).length = w.words := by simp [resWords]

theorem Ctx.lanes_nodup (c : Ctx) : c.lanes.Nodup := List.nodup_range.filter _

/-- A lane is active where its bit is set and its group has it. -/
theorem Ctx.mem_lanes {c : Ctx} {l : Nat} : l ∈ c.lanes ↔ l < c.grp.width ∧ c.active.getLsbD l = true := by
  simp [Ctx.lanes, lanesOf]

/-- The mask of some lanes holds their bits and no other. -/
theorem getLsbD_maskOf {ls : List Nat} {l : Nat} (hl : l < 128) : (maskOf ls).getLsbD l = decide (l ∈ ls) := by
  suffices h : ∀ m : W128, (ls.foldl (fun acc l => acc ||| (1#128 <<< l)) m).getLsbD l = (m.getLsbD l || decide (l ∈ ls)) by
    simpa [maskOf] using h 0
  induction ls with
  | nil => simp
  | cons k t ih =>
    intro m
    have hbit : (1#128 <<< k).getLsbD l = decide (l = k) := by
      simp only [BitVec.getLsbD_shiftLeft, hl, decide_true, Bool.true_and, BitVec.getLsbD_one]
      by_cases h : l = k
      · simp [h]
      · simp only [h, decide_false, Bool.and_eq_false_iff, Bool.not_eq_false', decide_eq_true_eq, decide_eq_false_iff_not]
        omega
    rw [List.foldl_cons, ih, BitVec.getLsbD_or, hbit]
    simp [Bool.or_assoc]

/-! Slices. -/

/-- An update of some slices changes each of them once, and no other. -/
theorem Grp.updSlices_getElem? {ns : List Nat} (hn : ns.Nodup) (g : Grp) (f : Slice → Slice) (k : Nat) :
    (g.updSlices ns f).slices[k]? = if k ∈ ns then (g.slices[k]?).map f else g.slices[k]? := by
  induction ns generalizing g with
  | nil => simp [Grp.updSlices]
  | cons n ns ih =>
    obtain ⟨hnot, hns⟩ := List.nodup_cons.mp hn
    have hstep : (g.updSlice n f).slices[k]? = if k = n then (g.slices[k]?).map f else g.slices[k]? := updAt_getElem? ..
    refine (ih hns (g.updSlice n f)).trans ?_
    rw [hstep]
    by_cases hk : k = n
    · simp [hk, hnot]
    · simp [hk]

/-! A result in `v` registers, and the latches. -/

/-- Each active lane reads back the words of its result. -/
theorem writeV_vReg_of_mem {g : Grp} {prot : Bool} {n : Nat} {w : ResW} {lanes : List Nat} {val : Nat → Nat} {l i : Nat}
    (hn : lanes.Nodup) (hls : ∀ j ∈ lanes, j < 128) (hl : l ∈ lanes) (hi : i < w.words) :
    vReg (writeV g prot n w lanes val) (n + i) l = nthD 0 (resWords w (resV w (val l))) i := by
  unfold vReg writeV
  simp only [resWords_length]
  refine Sparse.get_setAll_rows (key := fun l i => 128 * (n + i) + l) (val := fun l i => nthD 0 (resWords w (resV w (val l))) i) hn
    (fun a ha b hb i _ j _ h => ?_) hl hi
  have := hls a ha
  have := hls b hb
  omega

/-- The lanes of some slices. -/
def sliceLanes (ns : List Nat) : List Nat := ns.flatMap fun s => (List.range 4).map (4 * s + ·)

theorem mem_sliceLanes {ns : List Nat} {l : Nat} : l ∈ sliceLanes ns ↔ l / 4 ∈ ns := by
  simp only [sliceLanes, List.mem_flatMap, List.mem_map, List.mem_range]
  constructor
  · rintro ⟨s, hs, j, hj, rfl⟩
    rwa [show (4 * s + j) / 4 = s by omega]
  · exact fun h => ⟨l / 4, h, l % 4, by omega, by omega⟩

theorem sliceLanes_nodup {ns : List Nat} (hn : ns.Nodup) : (sliceLanes ns).Nodup := by
  refine nodup_flatMap_map hn List.nodup_range fun s _ t _ i hi j hj h => ?_
  have := List.mem_range.mp hi
  have := List.mem_range.mp hj
  omega

/-- The words that come into the latches of a lane: its result's, or zeros where it is inactive (02 R69). -/
def latchWords (active : W128) (w : ResW) (val : Nat → Nat) (l : Nat) : List W32 :=
  if active.getLsbD l then resWords w (resV w (val l)) else List.replicate w.words 0

theorem nthD_latchWords {active : W128} {w : ResW} {val : Nat → Nat} {l k : Nat} (hk : k < w.words) :
    nthD 0 (latchWords active w val l) k = if active.getLsbD l then nthD 0 (resWords w (resV w (val l))) k else 0 := by
  unfold latchWords
  split
  · rfl
  · simp [nthD, hk]

theorem shiftLatches_lat (g : Grp) (ns : List Nat) (m : W128) (w : ResW) (val : Nat → Nat) :
    (shiftLatches g ns m w val).lat = Sparse.setAll 0 g.lat ((sliceLanes ns).flatMap fun l => (List.range 8).map fun k =>
      (8 * l + k, if k < w.words then nthD 0 (latchWords m w val l) k else latchReg g (k - w.words) l)) := by
  simp [shiftLatches, sliceLanes, latchWords]

/-- The latches of the issuing slices shift by the words of the result. -/
theorem shiftLatches_latchReg_of_mem {g : Grp} {ns : List Nat} {m : W128} {w : ResW} {val : Nat → Nat} {l k : Nat} (hn : ns.Nodup)
    (hl : l / 4 ∈ ns) (hk : k < 8) : latchReg (shiftLatches g ns m w val) k l =
      if w.words ≤ k then latchReg g (k - w.words) l
      else if m.getLsbD l then nthD 0 (resWords w (resV w (val l))) k else 0 := by
  have hget := Sparse.get_setAll_rows (d := (0 : W32)) (m := g.lat) (key := fun l k => 8 * l + k)
    (val := fun l k => if k < w.words then nthD 0 (latchWords m w val l) k else latchReg g (k - w.words) l)
    (sliceLanes_nodup hn) (fun a _ b _ i hi j hj h => by omega) (mem_sliceLanes.mpr hl) hk
  rw [latchReg, shiftLatches_lat]
  refine hget.trans ?_
  by_cases hw : k < w.words
  · rw [if_pos hw, if_neg (by omega), nthD_latchWords hw]
  · rw [if_neg hw, if_pos (by omega)]

/-- Those of other slices stay. -/
theorem shiftLatches_latchReg_of_not_mem {g : Grp} {ns : List Nat} {m : W128} {w : ResW} {val : Nat → Nat} {l k : Nat} (hl : l / 4 ∉ ns)
    (hk : k < 8) : latchReg (shiftLatches g ns m w val) k l = latchReg g k l := by
  rw [latchReg, shiftLatches_lat]
  refine Sparse.get_setAll_of_not_mem ?_ 0
  simp only [List.mem_map, List.mem_flatMap, List.mem_range]
  rintro ⟨⟨a, b⟩, ⟨j, hj, i, hi, he⟩, hkey⟩
  simp only [Prod.mk.injEq] at he hkey
  obtain rfl : j = l := by omega
  exact hl (mem_sliceLanes.mp hj)

theorem shiftLatches_slices {g : Grp} {ns : List Nat} {m : W128} {w : ResW} {val : Nat → Nat} {k : Nat} {x : Slice} (hn : ns.Nodup)
    (hx : g.slices[k]? = some x) : (shiftLatches g ns m w val).slices[k]? =
      some (if k ∈ ns then { x with valid := (x.valid <<< w.words) ||| BitVec.ofNat 8 (2 ^ w.words - 1) } else x) := by
  rw [shiftLatches, Grp.updSlices_getElem? hn]
  dsimp only
  rw [hx]
  split <;> rfl

theorem resultIn_v {c : Ctx} {n : BitVec 8} (hw : c.f.w = false) (hd : c.f.d = .v n) (w : ResW) (val : Nat → Nat) (g : Grp) :
    resultIn c w val g = writeV (shiftLatches g c.slices c.active w val) c.l.prot n.toNat w c.lanes val := by
  simp [resultIn, hw, hd]

/-- Settles O10: the result is written over the group whose latches have shifted, and each part of the frame is one rule about the two. -/
theorem vectorResultIsWritten : Obligations.VectorResultIsWritten := by
  unfold Obligations.VectorResultIsWritten
  intro r r' c w val n g hg hw hd hn hr
  rw [writeRes_eq r w val (.inr fun q => by rw [hd]; nofun)] at hr
  obtain rfl := Except.ok.inj hr
  have hres := resultIn_v hw hd w val g
  obtain ⟨-, hp, hsp, hfl, hsys, hv, -⟩ := resultIn_spec c w val g
  obtain ⟨-, hsg, hssg, -⟩ := shiftLatches_spec g c.slices c.active w val
  refine ⟨⟨resultIn c w val g, by rw [Run.updGrp_grp_self, hg]; rfl, ?_, hv, ?_, ?_, ?_, ?_, ?_, hp, hsp, hfl, hsys⟩,
    fun k hk => r.updGrp_grp_of_ne hk _, rfl, rfl, rfl⟩
  · intro l hl i hi
    rw [hres]
    exact writeV_vReg_of_mem c.lanes_nodup (fun j hj => lane_lt hj) hl hi
  · intro s hs j k hj hk
    rw [hres]
    exact shiftLatches_latchReg_of_mem hn (by rwa [show (4 * s + j) / 4 = s by omega]) hk
  · intro l k hl hk
    rw [hres]
    exact shiftLatches_latchReg_of_not_mem hl hk
  · intro k x hx
    rw [hres]
    exact shiftLatches_slices hn hx
  · rw [hres]
    exact hsg
  · rw [hres]
    exact hssg

/-! A result in a `g` register, and in a predicate. -/

/-- The result is that of the lowest active lane. -/
theorem resultIn_g {c : Ctx} {n : BitVec 6} {l : Nat} (hw : c.f.w = false) (hd : c.f.d = .g n) (hl : c.lowest = some l) (w : ResW)
    (val : Nat → Nat) (g : Grp) : resultIn c w val g = setG g n.toNat (resG w (val l)) := by
  simp [resultIn, hw, hd, hl]

/-- With no active lane nothing is written. -/
theorem resultIn_g_of_no_lane {c : Ctx} {n : BitVec 6} (hw : c.f.w = false) (hd : c.f.d = .g n) (hl : c.lowest = none) (w : ResW)
    (val : Nat → Nat) (g : Grp) : resultIn c w val g = g := by
  simp [resultIn, hw, hd, hl]

/-- Nothing else of the group's registers and latches changes. -/
theorem resultIn_g_spec {c : Ctx} {n : BitVec 6} (hw : c.f.w = false) (hd : c.f.d = .g n) (w : ResW) (val : Nat → Nat) (g : Grp) :
    (resultIn c w val g).v = g.v ∧ (resultIn c w val g).lat = g.lat := by
  cases hl : c.lowest with
  | none => simp [resultIn_g_of_no_lane hw hd hl]
  | some l =>
    obtain ⟨-, hv, -, -, hlat, -⟩ := setG_spec g n.toNat (resG w (val l))
    rw [resultIn_g hw hd hl]
    exact ⟨hv, hlat⟩

theorem gReg_setG_self {g : Grp} {n : Nat} (h64 : n < 64) (hn : n < g.g.length) (hs : 8 ≤ g.sg.length) (w : W64) :
    gReg (setG g n w) n = w := by
  unfold gReg setG
  by_cases h : (g.super && decide (56 ≤ n)) = true
  · simp only [h, ite_true]
    exact nthD_updAt_self (by omega) _
  · simp only [h, Bool.false_eq_true, ite_false]
    exact nthD_updAt_self hn _

theorem predMask_setPred_self {g : Grp} {n : Nat} {m : W128} (h7 : n < 7) (hp : 7 ≤ g.p.length) (hs : 7 ≤ g.sp.length) :
    predMask (setPred g n m) n = m := by
  have hne : n ≠ 7 := by omega
  unfold predMask setPred
  rw [if_neg hne, if_neg hne]
  by_cases h : g.super = true
  · simp only [h, ite_true]
    exact nthD_updAt_self (by omega) _
  · simp only [h, Bool.false_eq_true, ite_false]
    exact nthD_updAt_self (by omega) _

theorem predMask_setPred_of_ne {g : Grp} {n k : Nat} {m : W128} (h : k ≠ n) : predMask (setPred g n m) k = predMask g k := by
  unfold predMask setPred
  by_cases h7 : n = 7
  · rw [if_pos h7]
  · rw [if_neg h7]
    by_cases hs : g.super = true <;> simp [hs, nthD_updAt_of_ne h]

/-- A predicate write changes one predicate of its group. -/
theorem setPred_spec (g : Grp) (n : Nat) (m : W128) :
    let h := setPred g n m
    h.team = g.team ∧ h.slices = g.slices ∧ h.v = g.v ∧ h.g = g.g ∧ h.sg = g.sg ∧ h.lat = g.lat ∧ h.fflags = g.fflags ∧ systemKept g h ∧
      ∀ k, k ≠ n → predMask h k = predMask g k := by
  have hpreds : ∀ k, k ≠ n → predMask (setPred g n m) k = predMask g k := fun k hk => predMask_setPred_of_ne hk
  refine ⟨?_, ?_, ?_, ?_, ?_, ?_, ?_, ?_, hpreds⟩
  all_goals
    unfold setPred
    split
    · simp [systemKept]
    · split <;> simp [systemKept]

/-- A group with a predicate result. -/
def predIn (c : Ctx) (o : Opnd) (val : Nat → Bool) (g : Grp) : Grp :=
  setPred g (regIndex o 8) ((predMask g (regIndex o 8) &&& ~~~c.active) ||| maskOf (c.lanes.filter val))

theorem writePred_eq (r : Run) (c : Ctx) (o : Opnd) (val : Nat → Bool) : writePred r c o val = r.updGrp c.gid (predIn c o val) := rfl

/-- A predicate result changes one predicate of its group. -/
theorem predIn_spec (c : Ctx) (o : Opnd) (val : Nat → Bool) (g : Grp) :
    let h := predIn c o val g
    h.team = g.team ∧ h.slices = g.slices ∧ h.v = g.v ∧ h.g = g.g ∧ h.sg = g.sg ∧ h.lat = g.lat ∧ h.fflags = g.fflags ∧ systemKept g h ∧
      ∀ k, k ≠ regIndex o 8 → predMask h k = predMask g k :=
  setPred_spec g (regIndex o 8) _

/-- A lane of a written predicate: the result in an active lane, nothing beyond the group's lanes, the old bit in an inactive lane. -/
theorem getLsbD_predIn {c : Ctx} {o : Opnd} {val : Nat → Bool} {g : Grp} {l : Nat} (hl : l < 128) (ho : regIndex o 8 < 7)
    (hp : 7 ≤ g.p.length) (hs : 7 ≤ g.sp.length) : (predMask (predIn c o val g) (regIndex o 8)).getLsbD l =
      if l ∈ c.lanes then val l else if c.active.getLsbD l then false else (predMask g (regIndex o 8)).getLsbD l := by
  rw [predIn, predMask_setPred_self ho hp hs, BitVec.getLsbD_or, BitVec.getLsbD_and, BitVec.getLsbD_not, getLsbD_maskOf hl]
  by_cases hm : l ∈ c.lanes
  · simp [hm, (Ctx.mem_lanes.mp hm).2]
  · cases hact : c.active.getLsbD l <;> simp [hm, hl]

/-- A `g` source does not depend on the lane. -/
theorem readSrc_g (r : Run) (c : Ctx) (n : BitVec 6) (e : Elt) (l k : Nat) : readSrc r c (.g n) e l = readSrc r c (.g n) e k := rfl

/-- Settles O11: the three clauses are the rules of `setG`, of a `g` source, and of `setPred`. -/
theorem uniformAndPredicateResultsAreWritten : Obligations.UniformAndPredicateResultsAreWritten := by
  unfold Obligations.UniformAndPredicateResultsAreWritten
  refine ⟨fun r r' c w val n g hg hw hd hn hs hr => ?_, readSrc_g, fun r c o val g hg hp hs => ?_⟩
  · rw [writeRes_eq r w val (.inr fun q => by rw [hd]; nofun)] at hr
    obtain rfl := Except.ok.inj hr
    obtain ⟨-, hp, -, -, hsys, -, hg'⟩ := resultIn_spec c w val g
    obtain ⟨hv, hlat⟩ := resultIn_g_spec hw hd w val g
    refine ⟨resultIn c w val g, by rw [Run.updGrp_grp_self, hg]; rfl, fun l hl => ?_, fun hl => resultIn_g_of_no_lane hw hd hl w val g,
      fun k hk h64 => hg' k h64 (.inr fun m hm => ?_), hv, hp, hlat, hsys⟩
    · rw [resultIn_g hw hd hl]
      exact gReg_setG_self n.isLt hn hs _
    · rw [hd] at hm
      exact Opnd.g.inj hm ▸ hk
  · obtain ⟨-, -, hv, hgg, -, -, -, hsys, hpreds⟩ := predIn_spec c o val g
    refine ⟨predIn c o val g, by rw [writePred_eq, Run.updGrp_grp_self, hg]; rfl, fun l hl h7 => ?_, hpreds, rfl, hv, hgg, hsys⟩
    have h8 : regIndex o 8 < 8 := Nat.mod_lt _ (by omega)
    exact getLsbD_predIn hl (by omega) hp hs

end Sys2Proof.Machine
end

section
/-! ## The frame of the instructions that compute in registers (07 R205, R206, R215, R238) -/
namespace Sys2Proof.Machine

/-! Waits. -/

/-- A group keeps its team, and its slices what they wait for. -/
def Grp.sameWaits (g h : Grp) : Prop := h.team = g.team ∧ ∀ n, (h.slice n).map (·.wait) = (g.slice n).map (·.wait)

theorem Grp.sameWaits_of_eq {g h : Grp} (ht : h.team = g.team) (hs : h.slices = g.slices) : g.sameWaits h :=
  ⟨ht, fun n => by rw [Grp.slice, hs, Grp.slice]⟩

theorem Grp.sameWaits.trans {g h k : Grp} (a : g.sameWaits h) (b : h.sameWaits k) : g.sameWaits k :=
  ⟨b.1.trans a.1, fun n => (b.2 n).trans (a.2 n)⟩

/-- An update of slices that leaves each one's wait leaves them all. -/
theorem Grp.updSlices_sameWaits (g : Grp) (ns : List Nat) {f : Slice → Slice} (hf : ∀ x, (f x).wait = x.wait) :
    g.sameWaits (g.updSlices ns f) := by
  induction ns generalizing g with
  | nil => exact Grp.sameWaits_of_eq rfl rfl
  | cons n ns ih =>
    refine Grp.sameWaits.trans (h := g.updSlice n f) ⟨rfl, fun k => ?_⟩ (ih _)
    rw [Grp.slice, Grp.updSlice, updAt_getElem?, Grp.slice]
    by_cases h : k = n
    · rw [if_pos h, Option.map_map]
      exact congrArg (fun m => Option.map m g.slices[k]?) (funext hf)
    · rw [if_neg h]

/-- No slice of some waits on a semaphore. -/
def Grp.noSemWaitIn (g : Grp) (ns : List Nat) : Prop := ∀ n x w, n ∈ ns → g.slice n = some x → x.wait = some w → w.kind ≠ 7

theorem Grp.sameWaits.noSemWaitIn {g h : Grp} {ns : List Nat} (a : g.sameWaits h) (hg : g.noSemWaitIn ns) : h.noSemWaitIn ns := by
  intro n x w hn hx hw
  have hmap := a.2 n
  rw [hx, Option.map_some, hw] at hmap
  obtain ⟨y, hy, hyw⟩ := Option.map_eq_some_iff.mp hmap.symm
  exact hg n y w hn hy hyw

/-- Then those slices count at no semaphore. -/
theorem waitObjects_of_noSemWaitIn {g : Grp} {ns : List Nat} (h : g.noSemWaitIn ns) :
    waitObjects g ns (fun w => w.kind == 7 && w.reason == 8) = [] := by
  have hnone : ∀ n, (if ns.contains n == true then
      ((g.slices[n]?).bind fun s => s.wait.bind fun w => if (w.kind == 7 && w.reason == 8) = true then some w.object.toNat else none)
      else none) = none := by
    intro n
    split
    · rename_i hn
      refine Option.bind_eq_none_iff.mpr fun x hx => Option.bind_eq_none_iff.mpr fun w hw => ?_
      have hk := h n x w (by simpa using hn) hx hw
      simp [hk]
    · rfl
  unfold waitObjects
  dsimp only
  rw [List.filterMap_eq_nil_iff.mpr fun n _ => hnone n]
  rfl

/-! What stays the same for the readers of a group. -/

theorem Grp.keeps.vReg {g h : Grp} (a : g.keeps h) (k l : Nat) : vReg h k l = vReg g k l := by
  obtain ⟨hv, -⟩ := a
  simp only [Machine.vReg, hv]

theorem Grp.keeps.gReg {g h : Grp} (a : g.keeps h) (k : Nat) : gReg h k = gReg g k := by
  obtain ⟨-, hg, hsg, -, -, -, -, -, -, hsuper, -⟩ := a
  simp only [Machine.gReg, hg, hsg, hsuper]

theorem Grp.keeps.predMask {g h : Grp} (a : g.keeps h) (k : Nat) : predMask h k = predMask g k := by
  obtain ⟨-, -, -, hp, hsp, -, -, -, -, hsuper, -⟩ := a
  simp only [Machine.predMask, hp, hsp, hsuper]

theorem Grp.keeps.systemKept {g h : Grp} (a : g.keeps h) : systemKept g h := by
  obtain ⟨-, -, -, -, -, -, -, hs⟩ := a
  exact hs

theorem Grp.keeps.fflags {g h : Grp} (a : g.keeps h) : h.fflags = g.fflags := by
  obtain ⟨-, -, -, -, -, -, hf, -⟩ := a
  exact hf

theorem Grp.keeps.regs {g h : Grp} (a : g.keeps h) : h.v = g.v ∧ h.g = g.g ∧ h.sg = g.sg := by
  obtain ⟨hv, hg, hsg, -⟩ := a
  exact ⟨hv, hg, hsg⟩

theorem Grp.keeps.preds {g h : Grp} (a : g.keeps h) : h.p = g.p ∧ h.sp = g.sp := by
  obtain ⟨-, -, -, hp, hsp, -⟩ := a
  exact ⟨hp, hsp⟩

theorem systemKept.trans {g h k : Grp} (a : systemKept g h) (b : systemKept h k) : systemKept g k := by
  simp only [systemKept] at *
  simp_all

theorem systemKept.super {g h : Grp} (a : systemKept g h) : h.super = g.super := by
  obtain ⟨-, -, hs, -⟩ := a
  exact hs

theorem onlyDest.trans {c : Ctx} {w : ResW} {g h k : Grp} (a : onlyDest c w g h) (b : onlyDest c w h k) : onlyDest c w g k := by
  obtain ⟨hsys, hv, hg⟩ := a
  obtain ⟨hsys', hv', hg'⟩ := b
  exact ⟨hsys.trans hsys', fun j l hl hd => (hv' j l hl hd).trans (hv j l hl hd), fun j hj hd => (hg' j hj hd).trans (hg j hj hd)⟩

theorem Grp.keeps.onlyDest {g h : Grp} (a : g.keeps h) (c : Ctx) (w : ResW) : onlyDest c w g h :=
  ⟨a.systemKept, fun k l _ _ => a.vReg k l, fun k _ _ => a.gReg k⟩

/-! What an instruction that moves no queue word executes on. -/

/-- A fold whose every step answers what it is given answers what it began with. -/
theorem foldlM_eq_ok_of_fixed {ε α β : Type} {f : α → β → Except ε α} {a : α} (hf : ∀ x, f a x = .ok a) (xs : List β) :
    xs.foldlM f a = .ok a := by
  induction xs with
  | nil => rfl
  | cons x xs ih =>
    rw [List.foldlM_cons, hf]
    exact ih

/-- With no active lane no semaphore is looked at. -/
theorem queueCheck_of_no_lane {c : Ctx} (ha : c.active = 0) (r : Run) (e : Nat × Nat) : queueCheck c r e = .ok r := by
  unfold queueCheck
  split <;> simp [ha]

theorem lanes_of_no_lane {c : Ctx} (ha : c.active = 0) : c.lanes = [] :=
  List.eq_nil_iff_forall_not_mem.mpr fun l hl => by
    have hbit := (Ctx.mem_lanes.mp hl).2
    rw [ha, BitVec.ofNat_eq_ofNat, BitVec.getLsbD_zero] at hbit
    cases hbit

/-- With no active lane a binding moves no word. -/
theorem queueWords_of_no_lane {c : Ctx} (ha : c.active = 0) (b : QBind) (w : Nat) : c.queueWords b w = 0 := by
  unfold Ctx.queueWords
  rw [lanes_of_no_lane ha, if_pos ha]
  split <;> rfl

/-- With no active lane no word is popped. -/
theorem queuePop_of_no_lane {c : Ctx} (ha : c.active = 0) (acc : List (Nat × List Nat) × Run) (e : Nat × Nat) : queuePop c acc e = .ok acc := by
  unfold queuePop
  split
  · dsimp only
    rw [queueWords_of_no_lane ha, if_pos rfl]
  · rfl

theorem queueReads_eq_nil {c : Ctx} (hu : c.usesQueue = false) (ha : c.active ≠ 0) : queueReads c.sh c.f = [] := by
  simp only [Ctx.usesQueue, Bool.and_eq_false_iff, bne_eq_false_iff_eq, ha, false_or, Bool.or_eq_false_iff, Bool.not_eq_false',
    List.isEmpty_iff] at hu
  exact hu.1

/-- With no queue word to pop or to push, nothing is popped and nothing changes. -/
theorem queues_of_no_words {c : Ctx} (hu : c.usesQueue = false) (hq : queueWrite c.sh c.f = none) (r : Run) : queues c r = .ok ([], r) := by
  have hfold : (queueReads c.sh c.f).foldlM (queueCheck c) r = .ok r ∧ (queueReads c.sh c.f).foldlM (queuePop c) ([], r) = .ok ([], r) := by
    by_cases ha : c.active = 0
    · exact ⟨foldlM_eq_ok_of_fixed (queueCheck_of_no_lane ha r) _, foldlM_eq_ok_of_fixed (queuePop_of_no_lane ha ([], r)) _⟩
    · rw [queueReads_eq_nil hu ha]
      exact ⟨rfl, rfl⟩
  unfold queues
  simp only [hq, Option.toList_none, List.append_nil, hfold, bind, Except.bind, List.foldlM_nil, pure, Except.pure]

/-- What a ready instruction that moves no queue word executes on is the state of its issue, with the address of its accesses. -/
theorem Ready.run_eq {i : Instr} {s : State} {c : Ctx} {r : Run} (h : Ready i s c r) (hu : c.usesQueue = false)
    (hq : queueWrite c.sh c.f = none) : r = c.onto s.run := by
  obtain ⟨sh, f, c0, base, -, -, -, -, hc0, -, -, -, hb, hqueues⟩ := h
  have hsem : c.usesSem = false := usesSem_of_no_queue hu
  have hu0 : c0.usesQueue = false := by rw [hc0] at hu; exact hu
  have hq0 : queueWrite c0.sh c0.f = none := by rw [hc0] at hq; exact hq
  have hbase : c.before c.wordsCmp (c.onto s.run) = (base, true) := by rw [hc0]; exact hb
  rw [show c.wordsCmp = .none by simp [Ctx.wordsCmp, hsem]] at hbase
  rw [queues_of_no_words hu0 hq0] at hqueues
  exact (Prod.mk.inj (Except.ok.inj hqueues)).2.symm.trans (Prod.mk.inj hbase).1.symm

/-! The instructions of classes 0 to 2. -/

/-- An opcode of classes 0 to 2, which begins no region. -/
def OpShape.arithmetic (sh : OpShape) : Bool := decide (sh.code < 0x60) && !sh.region

/-- One with a result in its D field. -/
def OpShape.computes (sh : OpShape) : Bool := sh.arithmetic && match sh.d with | .res _ => true | _ => false

theorem OpShape.arithmetic_of_computes {sh : OpShape} (h : sh.computes = true) : sh.arithmetic = true := (Bool.and_eq_true_iff.mp h).1

/-- Such an instruction performs none of its group's late stores. -/
theorem settles_of_arithmetic {c : Ctx} (h : c.sh.arithmetic = true) (hu : c.usesQueue = false) : c.settles = false := by
  simp only [OpShape.arithmetic, Bool.and_eq_true, decide_eq_true_eq] at h
  obtain ⟨hcode, -⟩ := h
  have hstore : c.sh.code ≠ 0x63 := by omega
  unfold Ctx.settles
  simp only [hu, hstore, ne_eq, not_false_eq_true, true_or, Bool.or_eq_false_iff, Bool.and_eq_false_iff, decide_eq_false_iff_not,
    beq_eq_false_iff_ne, List.contains_eq_mem, List.mem_cons, List.not_mem_nil, or_false, and_self, true_and]
  omega

/-- A result that goes to no queue register goes to a register or to the latches. -/
theorem dest_of_no_queueWrite {c : Ctx} (h : c.sh.computes = true) (hq : queueWrite c.sh c.f = none) : c.f.w = true ∨ ∀ n, c.f.d ≠ .q n := by
  cases hw : c.f.w with
  | true => exact .inl rfl
  | false =>
    refine .inr fun n hd => ?_
    unfold OpShape.computes at h
    unfold queueWrite at hq
    rw [hw, hd] at hq
    cases hd' : c.sh.d <;> simp [hd'] at h hq

/-- The step of an instruction that touches no queue register and no semaphore. -/
structure RegisterStep (i : Instr) (s t : State) (c : Ctx) (r : Run) : Prop where
  ready : Ready i s c r
  noWords : c.usesQueue = false
  noDest : queueWrite c.sh c.f = none
  noWait : noSemWait c
  next : exec i s = .next t

/-- The effect of `i` on what it executes on is `edit` of its own group. -/
def Edits (i : Instr) (c : Ctx) (r : Run) (edit : Grp → Grp) : Prop :=
  ∃ body : Body, (∀ s, exec i s = issue i { body } s) ∧ body c (advance c r) = .ok ((advance c r).updGrp c.gid edit)

theorem advance_sameWaits {c : Ctx} {r : Run} {g h : Grp} (hg : r.grp c.gid = some g) (hb : c.beginsRegion = false)
    (hh : (advance c r).grp c.gid = some h) : g.sameWaits h := by
  unfold advance at hh
  simp only [hb, Bool.false_eq_true, ite_false, Run.updGrp_grp_self, hg, Option.map_some, Option.some.injEq] at hh
  subst hh
  have hmoved := Grp.updSlices_sameWaits g c.slices (f := fun s => { s with pc := s.pc + w64 c.len, last := r.tick, lastPc := c.pc }) fun _ => rfl
  split
  · obtain ⟨hteam, hwaits⟩ := hmoved.trans (Grp.updSlices_sameWaits _ c.slices (f := fun s => { s with valid := 0 }) fun _ => rfl)
    exact ⟨hteam, hwaits⟩
  · obtain ⟨hteam, hwaits⟩ := hmoved
    exact ⟨hteam, hwaits⟩

/-- The frame of an instruction of classes 0 to 2: outside its group and team nothing changes, and of its group only what `edit` changes. -/
theorem Edits.frame {i : Instr} {s t : State} {c : Ctx} {r : Run} {edit : Grp → Grp} (he : Edits i c r edit) (h : RegisterStep i s t c r)
    (hsh : c.sh.arithmetic = true) (hedit : ∀ g : Grp, g.sameWaits (edit g)) :
    restKept c s t ∧ ∃ g0 g', c.grp.keeps g0 ∧ (edit g0).keeps g' ∧ t.run.grp c.gid = some g' := by
  obtain ⟨hready, hu, hq, hwait, hnext⟩ := h
  obtain ⟨body, hexec, hbody⟩ := he
  have hregion : c.sh.region = false := by simpa using (Bool.and_eq_true_iff.mp hsh).2
  have hbegins : c.beginsRegion = false := by simp [Ctx.beginsRegion, hregion, hu]
  have hr : r = { s.run with accPc := c.pc, accHint := c.retention } :=
    (hready.run_eq hu hq).trans (Ctx.onto_of_plain (settles_of_arithmetic hsh hu) _)
  obtain ⟨-, -, -, hgrp, -⟩ := hready.fields
  have hgrp' : r.grp c.gid = some c.grp := by rw [hr]; exact hgrp
  obtain ⟨hadv, g0, hg0, hkeep0, hteam0⟩ := advance_spec hgrp' hregion hu c.grp.team
  have hwaits : c.grp.sameWaits (edit g0) := (advance_sameWaits hgrp' hbegins hg0).trans (hedit g0)
  have hg1 : ((advance c r).updGrp c.gid edit).grp c.gid = some (edit g0) := by rw [Run.updGrp_grp_self, hg0]; rfl
  obtain ⟨hend, g', hg', hkeep', -⟩ := endWaits_spec hg1 (waitObjects_of_noSemWaitIn (hwaits.noSemWaitIn hwait))
  rw [hwaits.1] at hend
  have hstart : s.run.restSame c.gid c.grp.team r := by rw [hr]; exact ⟨fun _ _ => rfl, fun _ _ => rfl, rfl, rfl, rfl⟩
  obtain ⟨hgrps, hteams, hmem, hlaunches, hops⟩ :=
    (((hstart.trans hadv).trans (Run.restSame_updGrp ..)).trans hend).trans (countIssue_restSame c.gid c.grp.team c _)
  have hdone : exec i s = .next (completed s c ((advance c r).updGrp c.gid edit)) := by
    rw [hexec]
    exact issue_completed hready (.inr (.inr rfl)) (.inl rfl) rfl hbody
  obtain rfl : completed s c ((advance c r).updGrp c.gid edit) = t := Host.Outcome.next.inj (hdone.symm.trans hnext)
  have hrun : (completed s c ((advance c r).updGrp c.gid edit)).run = countIssue c (endWaits ((advance c r).updGrp c.gid edit) c.gid c.slices) :=
    closing_of_no_queue hu _
  unfold restKept
  rw [hrun]
  exact ⟨⟨hgrps, fun a => by rw [hmem], hteams, hlaunches, hops, rfl⟩, g0, g', hkeep0, hkeep', hg'⟩

/-! Results, flags and predicates as edits. -/

theorem setG_sameWaits (g : Grp) (n : Nat) (w : W64) : g.sameWaits (setG g n w) := by
  unfold setG
  split <;> exact Grp.sameWaits_of_eq rfl rfl

/-- A result leaves the waits of its group's slices. -/
theorem resultIn_sameWaits (c : Ctx) (w : ResW) (val : Nat → Nat) (g : Grp) : g.sameWaits (resultIn c w val g) := by
  have hlat : g.sameWaits (shiftLatches g c.slices c.active w val) :=
    (Grp.sameWaits_of_eq rfl rfl).trans (Grp.updSlices_sameWaits _ _ fun _ => rfl)
  unfold resultIn
  split
  · exact hlat
  · split
    · exact hlat.trans (Grp.sameWaits_of_eq rfl rfl)
    · split
      · exact setG_sameWaits ..
      · exact Grp.sameWaits_of_eq rfl rfl
    · exact Grp.sameWaits_of_eq rfl rfl

theorem resultIn_onlyDest (c : Ctx) (w : ResW) (val : Nat → Nat) (g : Grp) : onlyDest c w g (resultIn c w val g) := by
  obtain ⟨-, -, -, -, hsys, hv, hg⟩ := resultIn_spec c w val g
  exact ⟨hsys, hv, hg⟩

/-- An edit of flags, of active lanes alone. -/
def FlagEdit (c : Ctx) (edit : Grp → Grp) : Prop :=
  ∀ g, ∃ x, edit g = { g with fflags := x } ∧ ∀ l, l ∉ c.lanes → Sparse.get (0 : BitVec 5) x l = Sparse.get (0 : BitVec 5) g.fflags l

theorem flagEdit_id (c : Ctx) : FlagEdit c fun g => g := fun g => ⟨g.fflags, rfl, fun _ _ => rfl⟩

/-- Flags set in the active lanes are an edit of theirs. -/
theorem flagEdit_setAll (c : Ctx) (fl : Grp → Nat → BitVec 5) :
    FlagEdit c fun g => { g with fflags := Sparse.setAll (0 : BitVec 5) g.fflags (c.lanes.map fun l => (l, fl g l)) } := by
  refine fun g => ⟨_, rfl, fun l hl => Sparse.get_setAll_of_not_mem ?_ 0⟩
  simpa using hl

/-- A group with flags raised in the active lanes. -/
def raiseIn (c : Ctx) (fl : Nat → BitVec 5) (g : Grp) : Grp :=
  { g with fflags := Sparse.setAll (0 : BitVec 5) g.fflags (c.lanes.map fun l => (l, Sparse.get 0 g.fflags l ||| fl l)) }

theorem raiseFlags_eq (r : Run) (c : Ctx) (fl : Nat → BitVec 5) : raiseFlags r c fl = r.updGrp c.gid (raiseIn c fl) := rfl

theorem flagEdit_raiseIn (c : Ctx) (fl : Nat → BitVec 5) : FlagEdit c (raiseIn c fl) :=
  flagEdit_setAll c fun g l => Sparse.get 0 g.fflags l ||| fl l

theorem FlagEdit.sameWaits {c : Ctx} {edit : Grp → Grp} (h : FlagEdit c edit) (g : Grp) : g.sameWaits (edit g) := by
  obtain ⟨x, hx, -⟩ := h g
  rw [hx]
  exact Grp.sameWaits_of_eq rfl rfl

/-- Some flags of active lanes, then a result. -/
def FlagsAndResult (i : Instr) (w : Ctx → ResW) : Prop :=
  ∃ body : Body, (∀ s, exec i s = issue i { body } s) ∧
    ∀ c r, ∃ edit val, FlagEdit c edit ∧ body c r = writeRes (r.updGrp c.gid edit) c (w c) val

theorem flagsAndResult_of_flagWork {i : Instr} {w : Ctx → ResW} {val : Ctx → Run → Nat → Nat × BitVec 5}
    (he : ∀ s, exec i s = issue i
      { body := fun c r => writeRes (raiseFlags r c fun l => (val c r l).2) c (w c) fun l => (val c r l).1 } s) : FlagsAndResult i w :=
  ⟨_, he, fun c r => ⟨_, _, flagEdit_raiseIn c fun l => (val c r l).2, rfl⟩⟩

/-- FFLAG writes the flags as they were, and clears some, sets some, or leaves them (07 R238). -/
theorem fflag_flagsAndResult (f : Fields) : FlagsAndResult (.fflag f) fun _ => .n32 := by
  refine ⟨fflagBody, fun _ => rfl, fun c r => ?_⟩
  unfold fflagBody
  dsimp only
  split
  · exact ⟨_, _, flagEdit_id c, by rw [Run.updGrp_id]⟩
  · exact ⟨_, _, flagEdit_setAll c fun _ l => Sparse.get 0 c.grp.fflags l &&& ~~~BitVec.ofNat 5 (c.aAs r .n32 l), rfl⟩
  · exact ⟨_, _, flagEdit_setAll c fun _ l => Sparse.get 0 c.grp.fflags l ||| BitVec.ofNat 5 (c.aAs r .n32 l), rfl⟩

theorem predIn_sameWaits (c : Ctx) (o : Opnd) (val : Nat → Bool) (g : Grp) : g.sameWaits (predIn c o val g) := by
  obtain ⟨hteam, hslices, -⟩ := predIn_spec c o val g
  exact Grp.sameWaits_of_eq hteam hslices

theorem predIn_onlyDest (c : Ctx) (w : ResW) (o : Opnd) (val : Nat → Bool) (g : Grp) : onlyDest c w g (predIn c o val g) := by
  obtain ⟨-, -, hv, hg, hsg, -, -, hsys, -⟩ := predIn_spec c o val g
  exact ⟨hsys, fun k l _ _ => by simp only [vReg, hv], fun k _ _ => by simp only [gReg, hg, hsg, hsys.super]⟩

theorem resultIn_predMask (c : Ctx) (w : ResW) (val : Nat → Nat) (g : Grp) (k : Nat) : predMask (resultIn c w val g) k = predMask g k := by
  obtain ⟨-, hp, hsp, -, hsys, -⟩ := resultIn_spec c w val g
  simp only [predMask, hp, hsp, hsys.super]

/-! The frame of each kind. -/

section
variable {i : Instr} {s t : State} {c : Ctx} {r : Run} {w : ResW}

/-- What an instruction with a result is: an opcode of classes 0 to 2 whose result goes to no queue register. -/
theorem RegisterStep.dest (h : RegisterStep i s t c r) (hsh : (shape i).any OpShape.computes = true) :
    c.sh.arithmetic = true ∧ (c.f.w = true ∨ ∀ n, c.f.d ≠ .q n) := by
  rw [h.ready.fields.1] at hsh
  exact ⟨OpShape.arithmetic_of_computes hsh, dest_of_no_queueWrite hsh h.noDest⟩

/-- One result a lane: the destination changes, and no flag or predicate. -/
theorem RegisterStep.frame_of_result {body : Body} {val : Nat → Nat} (h : RegisterStep i s t c r)
    (hsh : (shape i).any OpShape.computes = true) (he : ∀ s, exec i s = issue i { body } s)
    (hb : body c (advance c r) = writeRes (advance c r) c w val) :
    restKept c s t ∧ ∃ g', t.run.grp c.gid = some g' ∧ onlyDest c w c.grp g' ∧ (g'.p = c.grp.p ∧ g'.sp = c.grp.sp) ∧
      g'.fflags = c.grp.fflags := by
  obtain ⟨harith, hdest⟩ := h.dest hsh
  have hedits : Edits i c r (resultIn c w val) := ⟨body, he, hb.trans (writeRes_eq _ w val hdest)⟩
  obtain ⟨hrest, g0, g', h0, h1, hg'⟩ := hedits.frame h harith (resultIn_sameWaits c w val)
  obtain ⟨-, hp, hsp, hfl, -⟩ := resultIn_spec c w val g0
  refine ⟨hrest, g', hg', ((h0.onlyDest c w).trans (resultIn_onlyDest c w val g0)).trans (h1.onlyDest c w), ⟨?_, ?_⟩, ?_⟩
  · exact (h1.preds.1.trans hp).trans h0.preds.1
  · exact (h1.preds.2.trans hsp).trans h0.preds.2
  · exact (h1.fflags.trans hfl).trans h0.fflags

/-- A result with flags: beside the destination, flags of active lanes change. -/
theorem RegisterStep.frame_of_flags {w : Ctx → ResW} (h : RegisterStep i s t c r) (hsh : (shape i).any OpShape.computes = true)
    (he : FlagsAndResult i w) :
    restKept c s t ∧ ∃ g', t.run.grp c.gid = some g' ∧ onlyDest c (w c) c.grp g' ∧ (g'.p = c.grp.p ∧ g'.sp = c.grp.sp) ∧
      ∀ l, l ∉ c.lanes → Sparse.get (0 : BitVec 5) g'.fflags l = Sparse.get (0 : BitVec 5) c.grp.fflags l := by
  obtain ⟨harith, hdest⟩ := h.dest hsh
  obtain ⟨body, hexec, hbody⟩ := he
  obtain ⟨edit, val, hflags, hb⟩ := hbody c (advance c r)
  have hedits : Edits i c r fun g => resultIn c (w c) val (edit g) :=
    ⟨body, hexec, by rw [hb, writeRes_eq _ (w c) val hdest, Run.updGrp_updGrp]⟩
  obtain ⟨hrest, g0, g', h0, h1, hg'⟩ := hedits.frame h harith fun g => (hflags.sameWaits g).trans (resultIn_sameWaits c (w c) val _)
  obtain ⟨x, hx, hothers⟩ := hflags g0
  rw [hx] at h1
  obtain ⟨-, hp, hsp, hfl, -⟩ := resultIn_spec c (w c) val { g0 with fflags := x }
  have hflagged : onlyDest c (w c) g0 { g0 with fflags := x } := ⟨⟨rfl, rfl, rfl, rfl, rfl, rfl, rfl⟩, fun _ _ _ _ => rfl, fun _ _ _ => rfl⟩
  refine ⟨hrest, g', hg',
    (((h0.onlyDest c (w c)).trans hflagged).trans (resultIn_onlyDest c (w c) val _)).trans (h1.onlyDest c (w c)), ⟨?_, ?_⟩, fun l hl => ?_⟩
  · exact (h1.preds.1.trans hp).trans h0.preds.1
  · exact (h1.preds.2.trans hsp).trans h0.preds.2
  · rw [h1.fflags, hfl, ← h0.fflags]
    exact hothers l hl

/-- A result and then a predicate: beside the destination, one predicate changes. -/
theorem RegisterStep.frame_of_result_pred {o : Opnd} {carry : Nat → Bool} {val : Nat → Nat} (h : RegisterStep i s t c r)
    (hsh : c.sh.arithmetic = true) (he : Edits i c r fun g => predIn c o carry (resultIn c w val g)) :
    restKept c s t ∧ ∃ g', t.run.grp c.gid = some g' ∧ onlyDest c w c.grp g' ∧
      (∀ k, k ≠ regIndex o 8 → predMask g' k = predMask c.grp k) ∧ g'.fflags = c.grp.fflags := by
  obtain ⟨hrest, g0, g', h0, h1, hg'⟩ := he.frame h hsh fun g => (resultIn_sameWaits c w val g).trans (predIn_sameWaits c o carry _)
  obtain ⟨-, -, -, hfl, -⟩ := resultIn_spec c w val g0
  obtain ⟨-, -, -, -, -, -, hfl', -, hpreds⟩ := predIn_spec c o carry (resultIn c w val g0)
  refine ⟨hrest, g', hg',
    (((h0.onlyDest c w).trans (resultIn_onlyDest c w val g0)).trans (predIn_onlyDest c w o carry _)).trans (h1.onlyDest c w), fun k hk => ?_, ?_⟩
  · rw [h1.predMask, hpreds k hk, resultIn_predMask, h0.predMask]
  · rw [h1.fflags, hfl', hfl, h0.fflags]

/-- A comparison: flags of active lanes and one predicate change. -/
theorem RegisterStep.frame_of_pred {edit : Grp → Grp} {val : Nat → Bool} (h : RegisterStep i s t c r)
    (hsh : (shape i).any OpShape.arithmetic = true) (hflags : FlagEdit c edit) (he : Edits i c r fun g => predIn c c.f.d val (edit g)) :
    restKept c s t ∧ ∃ g0 g', c.grp.keeps g0 ∧ t.run.grp c.gid = some g' ∧ systemKept c.grp g' ∧
      g'.v = c.grp.v ∧ g'.g = c.grp.g ∧ g'.sg = c.grp.sg ∧
      (∀ k, k ≠ regIndex c.f.d 8 → predMask g' k = predMask c.grp k) ∧ g'.fflags = (edit g0).fflags ∧
      ∀ l, l ∉ c.lanes → Sparse.get (0 : BitVec 5) g'.fflags l = Sparse.get (0 : BitVec 5) c.grp.fflags l := by
  rw [h.ready.fields.1] at hsh
  obtain ⟨hrest, g0, g', h0, h1, hg'⟩ := he.frame h hsh fun g => (hflags.sameWaits g).trans (predIn_sameWaits c _ val _)
  obtain ⟨x, hx, hothers⟩ := hflags g0
  obtain ⟨-, -, hv, hg, hsg, -, hfl, hsys, hpreds⟩ := predIn_spec c c.f.d val (edit g0)
  rw [hx] at hsys hv hg hsg hfl hpreds h1
  obtain ⟨hv0, hg0, hsg0⟩ := h0.regs
  obtain ⟨hv1, hg1, hsg1⟩ := h1.regs
  have hflag : systemKept g0 { g0 with fflags := x } := ⟨rfl, rfl, rfl, rfl, rfl, rfl, rfl⟩
  refine ⟨hrest, g0, g', h0, hg', ((h0.systemKept.trans hflag).trans hsys).trans h1.systemKept, (hv1.trans hv).trans hv0, (hg1.trans hg).trans hg0,
    (hsg1.trans hsg).trans hsg0, fun k hk => ?_, ?_, fun l hl => ?_⟩
  · rw [h1.predMask, hpreds k hk, ← h0.predMask]
    rfl
  · rw [hx, h1.fflags, hfl]
  · rw [h1.fflags, hfl, ← h0.fflags]
    exact hothers l hl

end

/-! The instructions of each kind. -/

/-- Instructions whose effect is one result of type T a lane. -/
def resultInstrs (f : Fields) : List Instr :=
  [.iadd f, .isub f, .imul f, .imulh f, .imad f, .imin f, .imax f, .iabs f, .ineg f, .iaddi f, .idot4 f, .land f, .lor f, .lxor f,
    .lop3 f, .shl f, .shrl f, .shra f, .rotl f, .fshl f, .bfx f, .bfi f, .popc f, .clz f, .brev f, .sel f, .mov f, .movi f, .cvtii f]

theorem shape_of_resultInstrs {f : Fields} {i : Instr} (h : i ∈ resultInstrs f) : (shape i).any OpShape.computes = true :=
  List.all_eq_true.mp (show ((resultInstrs f).all fun i => (shape i).any OpShape.computes) = true from rfl) i h

theorem exec_of_resultInstrs (f : Fields) : ∀ i ∈ resultInstrs f, ∃ val : Ctx → Run → Nat → Nat,
    ∀ s, exec i s = issue i { body := fun c r => writeRes r c c.tw (val c r) } s := by
  simp only [resultInstrs, List.forall_mem_cons, List.not_mem_nil, false_imp_iff, implies_true, and_true]
  and_intros
  all_goals exact ⟨_, fun _ => rfl⟩

/-- Instructions whose effect is one result a lane and the flags that it raises, each with the placement of its result. -/
def flagWorkInstrs (f : Fields) : List (Instr × (Ctx → ResW)) :=
  [(.fadd f, Ctx.tw), (.fsub f, Ctx.tw), (.fmul f, Ctx.tw), (.ffma f, Ctx.tw), (.faddi f, Ctx.tw), (.fmuli f, Ctx.tw), (.ffmai f, Ctx.tw),
    (.fdiv f, Ctx.tw), (.fsqrt f, Ctx.tw), (.fscale f, Ctx.tw), (.fround f, Ctx.tw), (.frcp f, Ctx.tw), (.frsq f, Ctx.tw), (.fexp2 f, Ctx.tw),
    (.flog2 f, Ctx.tw), (.fsin f, Ctx.tw), (.fcos f, Ctx.tw), (.fmin f, Ctx.tw), (.fmax f, Ctx.tw), (.fabs f, Ctx.tw), (.fdot2 f, fun _ => .n32),
    (.fclass f, fun _ => .n32), (.cvtif f, fun c => eltRes (fmtElt (fnOf c.f % 8))), (.cvtfi f, Ctx.tw),
    (.cvtff f, fun c => eltRes (fmtElt (fnOf c.f / 8))), (.pk8 f, fun _ => .n32), (.unpk8 f, Ctx.tw), (.pkl6 f, fun _ => .n32), (.unpkl6 f, Ctx.tw),
    (.l6mul f, fun _ => .n32), (.l6lin f, Ctx.tw), (.sclx f, fun _ => .n32), (.pkh f, fun _ => .n32), (.unpkh f, fun _ => .n32)]

/-- Those, and FFLAG. -/
def flagInstrs (f : Fields) : List (Instr × (Ctx → ResW)) := flagWorkInstrs f ++ [(.fflag f, fun _ => .n32)]

theorem shape_of_flagInstrs {f : Fields} {x : Instr × (Ctx → ResW)} (h : x ∈ flagInstrs f) : (shape x.1).any OpShape.computes = true :=
  List.all_eq_true.mp (show ((flagInstrs f).all fun x => (shape x.1).any OpShape.computes) = true from rfl) x h

theorem flagsAndResult_of_flagWorkInstrs (f : Fields) : ∀ x ∈ flagWorkInstrs f, FlagsAndResult x.1 x.2 := by
  simp only [flagWorkInstrs, List.forall_mem_cons, List.not_mem_nil, false_imp_iff, implies_true, and_true]
  and_intros
  all_goals exact flagsAndResult_of_flagWork fun _ => rfl

theorem flagsAndResult_of_flagInstrs {f : Fields} {x : Instr × (Ctx → ResW)} (h : x ∈ flagInstrs f) : FlagsAndResult x.1 x.2 := by
  rcases List.mem_append.mp h with h | h
  · exact flagsAndResult_of_flagWorkInstrs f x h
  · obtain rfl := List.mem_singleton.mp h
    exact fflag_flagsAndResult f

theorem zeroDivisor_eq_none {c : Ctx} {r : Run} (h : auxOf c.f = true → ∀ l ∈ c.lanes, c.pb r l ≠ 0) : zeroDivisor c r = none := by
  unfold zeroDivisor
  split
  · rename_i haux
    exact List.find?_eq_none.mpr fun l hl => by simpa [Ctx.pb] using h haux l hl
  · rfl

/-- A division whose divisors `.TRAP` accepts has its result for its effect (07 R207). -/
theorem divWork_body {pick : Nat × Nat → Nat} {c : Ctx} {r : Run} (h : auxOf c.f = true → ∀ l ∈ c.lanes, c.pb r l ≠ 0) :
    (divWork pick).body c r = writeRes r c c.tw fun l => pick (divide c.elt (satOf c.f) (c.aAs r c.elt l) (c.bAs r c.elt l)) := by
  unfold divWork
  dsimp only
  rw [zeroDivisor_eq_none h]
  rfl

theorem edits_iaddx {f : Fields} {c : Ctx} (r : Run) (hdest : c.f.w = true ∨ ∀ n, c.f.d ≠ .q n) : Edits (.iaddx f) c r fun g =>
    predIn c c.f.c (fun l => (iaddxLane c (advance c r) l).2) (resultIn c c.tw (fun l => (iaddxLane c (advance c r) l).1) g) := by
  refine ⟨_, fun _ => rfl, ?_⟩
  rw [writeRes_eq _ _ _ hdest]
  simp only [bind, Except.bind, writePred_eq, Run.updGrp_updGrp]
  rfl

theorem edits_icmp (f : Fields) (c : Ctx) (r : Run) : Edits (.icmp f) c r (predIn c c.f.d fun l =>
    combine c (intCond (fnOf c.f) (c.ia (advance c r) l) (c.ib (advance c r) l)) l) := ⟨_, fun _ => rfl, rfl⟩

theorem edits_fcmp (f : Fields) (c : Ctx) (r : Run) : Edits (.fcmp f) c r fun g =>
    predIn c c.f.d (fun l => combine c (fcmpLane c (advance c r) l).1 l) (raiseIn c (fun l => (fcmpLane c (advance c r) l).2) g) :=
  ⟨fcmpBody, fun _ => rfl, by rw [fcmpBody, writePred_eq, raiseFlags_eq, Run.updGrp_updGrp]⟩

/-- Settles O24: each list of the statement is one kind of effect, whose frame follows from what its edit of the group can change. -/
theorem laneInstructionsChangeTheirDestinationAlone : Obligations.LaneInstructionsChangeTheirDestinationAlone := by
  unfold Obligations.LaneInstructionsChangeTheirDestinationAlone
  intro i f s t c r hready hwords hdest hwait hnext
  have h : RegisterStep i s t c r := ⟨hready, hwords, hdest, hwait, hnext⟩
  refine ⟨?results, ?iaddx, ?fmtw, ?flags, ?comparisons⟩
  case results =>
    rintro (hi | ⟨hi, hdiv⟩)
    · obtain ⟨val, hexec⟩ := exec_of_resultInstrs f i hi
      exact h.frame_of_result (shape_of_resultInstrs hi) hexec rfl
    · simp only [List.mem_cons, List.not_mem_nil, or_false] at hi
      rcases hi with rfl | rfl
      · exact h.frame_of_result rfl (fun _ => rfl) (divWork_body (pick := Prod.fst) hdiv)
      · exact h.frame_of_result rfl (fun _ => rfl) (divWork_body (pick := Prod.snd) hdiv)
  case iaddx =>
    rintro rfl
    obtain ⟨harith, hreg⟩ := h.dest rfl
    exact h.frame_of_result_pred harith (edits_iaddx r hreg)
  case fmtw =>
    rintro rfl
    exact h.frame_of_result (body := fun c r => writeRes r c .n32 (fmtwLane c r)) rfl (fun _ => rfl) rfl
  case flags =>
    intro w hi
    obtain ⟨x, hx, hxi⟩ := List.mem_map.mp (show (i, w) ∈ (flagInstrs f).map fun x => (x.1, x.2 c) from hi)
    obtain ⟨rfl, rfl⟩ := Prod.mk.inj hxi
    exact h.frame_of_flags (shape_of_flagInstrs hx) (flagsAndResult_of_flagInstrs hx)
  case comparisons =>
    intro hi
    simp only [List.mem_cons, List.not_mem_nil, or_false] at hi
    rcases hi with rfl | rfl
    · obtain ⟨hrest, g0, g', h0, hg', hsys, hv, hg, hsg, hp, hf, hothers⟩ := h.frame_of_pred rfl (flagEdit_id c) (edits_icmp f c r)
      exact ⟨hrest, g', hg', hsys, hv, hg, hsg, hp, hothers, fun _ => hf.trans h0.fflags⟩
    · obtain ⟨hrest, g0, g', -, hg', hsys, hv, hg, hsg, hp, -, hothers⟩ :=
        h.frame_of_pred rfl (flagEdit_raiseIn c _) (edits_fcmp f c r)
      exact ⟨hrest, g', hg', hsys, hv, hg, hsg, hp, hothers, nofun⟩

end Sys2Proof.Machine
end

section
/-! ## Integers read from patterns and fitted to a type (00 R12, 03 R80) -/
namespace Sys2Proof.Machine

theorem lowBits_cast (n : Nat) (x : Int) : (lowBits n x : Int) = x % (2 ^ n : Nat) :=
  Int.toNat_of_nonneg (x.emod_nonneg (Int.natCast_ne_zero.mpr (Nat.ne_of_gt (Nat.two_pow_pos n))))

/-- Two's complement: the residue modulo 2^n that is nearest to 0. -/
theorem sext_eq_bmod {n : Nat} (hn : 0 < n) (v : Nat) : sext n v = Int.bmod v (2 ^ n) := by
  have hhalf : 2 ^ (n - 1) * 2 = 2 ^ n := Nat.two_pow_pred_mul_two hn
  have hpow : ((2 ^ n : Nat) : Int) = 2 ^ n := Int.natCast_pow 2 n
  rw [sext, Int.bmod_def, ← Int.natCast_emod, ← hpow]
  split <;> split <;> omega

theorem Elt.bits_pos (e : Elt) : 0 < e.bits := by cases e <;> decide

/-- A format is read either in two's complement or as unsigned, and its range is the one of that reading. -/
theorem readI_signed_or_unsigned (e : Elt) :
    ((∀ b, readI e b = sext e.bits b) ∧ intMin e = -2 ^ (e.bits - 1) ∧ intMax e = 2 ^ (e.bits - 1) - 1) ∨
    ((∀ b, readI e b = (b % 2 ^ e.bits : Nat)) ∧ intMin e = 0 ∧ intMax e = 2 ^ e.bits - 1) := by
  cases e with
  | i8 | i16 | i32 | i64 => exact .inl ⟨fun _ => rfl, rfl, rfl⟩
  | _ => exact .inr ⟨fun _ => rfl, rfl, rfl⟩

theorem readI_emod (e : Elt) (b : Nat) : readI e b % (2 ^ e.bits : Nat) = b % (2 ^ e.bits : Nat) := by
  obtain ⟨hread, -, -⟩ | ⟨hread, -, -⟩ := readI_signed_or_unsigned e
  · rw [hread, sext_eq_bmod e.bits_pos, Int.bmod_emod]
  · rw [hread, Int.natCast_emod, Int.emod_emod]

theorem readI_mem_range (e : Elt) (b : Nat) : intMin e ≤ readI e b ∧ readI e b ≤ intMax e := by
  have hhalf : 2 ^ (e.bits - 1) * 2 = 2 ^ e.bits := Nat.two_pow_pred_mul_two e.bits_pos
  have hpow (n : Nat) : (2 : Int) ^ n = (2 ^ n : Nat) := (Int.natCast_pow 2 n).symm
  have hpos : 0 < 2 ^ e.bits := Nat.two_pow_pos e.bits
  obtain ⟨hread, hmin, hmax⟩ | ⟨hread, hmin, hmax⟩ := readI_signed_or_unsigned e
  · have hlow := Int.le_bmod (x := b) hpos
    have hhigh := Int.bmod_lt (x := b) hpos
    rw [hread, hmin, hmax, sext_eq_bmod e.bits_pos, hpow]
    omega
  · have hlt := Nat.mod_lt b hpos
    rw [hread, hmin, hmax, hpow]
    omega

theorem intMax_sub_intMin (e : Elt) : intMax e - intMin e = (2 ^ e.bits : Nat) - 1 := by
  cases e <;> rfl

/-- The range of a format holds each residue modulo 2^n once. -/
theorem eq_of_mem_range_of_emod_eq {e : Elt} {x y : Int} (hx : intMin e ≤ x ∧ x ≤ intMax e) (hy : intMin e ≤ y ∧ y ≤ intMax e)
    (h : x % (2 ^ e.bits : Nat) = y % (2 ^ e.bits : Nat)) : x = y := by
  have hwidth := intMax_sub_intMin e
  have hoffset : x - intMin e = y - intMin e :=
    calc x - intMin e = (x - intMin e) % (2 ^ e.bits : Nat) := (Int.emod_eq_of_lt (by omega) (by omega)).symm
      _ = (y - intMin e) % (2 ^ e.bits : Nat) := by rw [Int.sub_emod, h, ← Int.sub_emod]
      _ = y - intMin e := Int.emod_eq_of_lt (by omega) (by omega)
  exact (Int.sub_left_inj (intMin e)).mp hoffset

theorem readI_lowBits_emod (e : Elt) (x : Int) : readI e (lowBits e.bits x) % (2 ^ e.bits : Nat) = x % (2 ^ e.bits : Nat) := by
  rw [readI_emod, lowBits_cast, Int.emod_emod]

theorem readI_lowBits_of_mem_range {e : Elt} {x : Int} (hx : intMin e ≤ x ∧ x ≤ intMax e) : readI e (lowBits e.bits x) = x :=
  eq_of_mem_range_of_emod_eq (readI_mem_range e _) hx (readI_lowBits_emod e x)

theorem satInt_mem_range (e : Elt) (x : Int) : intMin e ≤ satInt e x ∧ satInt e x ≤ intMax e := by
  have hle : intMin e ≤ intMax e := Int.le_trans (readI_mem_range e 0).1 (readI_mem_range e 0).2
  exact ⟨Int.le_max_left .., Int.max_le.mpr ⟨hle, Int.min_le_left ..⟩⟩

/-- Settles O14: the pattern holds the residue of the integer, and the range holds each residue once. -/
theorem fittingWrapsOrSaturates : Obligations.FittingWrapsOrSaturates := by
  unfold Obligations.FittingWrapsOrSaturates
  intro e x _
  obtain ⟨hmin, hmax⟩ := readI_mem_range e (intResult e false x)
  refine ⟨readI_lowBits_emod e x, hmin, hmax, ?_⟩
  calc readI e (intResult e true x) = satInt e x := readI_lowBits_of_mem_range (satInt_mem_range e x)
    _ = max (intMin e) (min x (intMax e)) := by rw [satInt, Int.min_comm]

end Sys2Proof.Machine
end

section
/-! ## Fences and cache control (05 R153, R154, 08 R256 to R259) -/
namespace Sys2Proof.Machine

/-! XFENCE. -/

/-- An XFENCE from REMOTE has nothing to wait for: every RST of its group has left, and each is acknowledged (05 R153). -/
def Ctx.acknowledged (c : Ctx) (r : Run) : Prop :=
  xbits c.f 11 9 = 4 → sendBuffered c r (fun _ => true) = .ok () ∧ ∀ x ∈ c.grp.rsts, x.done = true

theorem xfenceBody_of_no_lane {c : Ctx} (h : c.active = 0) (r : Run) : xfenceBody c r = .ok r := by
  simp [xfenceBody, h]

/-- Past its wait, what an XFENCE does turns on the stores of its path alone. -/
theorem xfenceBody_of_acknowledged {c : Ctx} {r : Run} (hact : c.active ≠ 0) (hack : c.acknowledged r) :
    xfenceBody c r =
      if !c.shadowed then .ok r
      else if (curTeam r c).sbuf.any fun b => b.onPath (xbits c.f 11 9) then .error (.undone fun r => (commitNow r c.grp.team).1)
      else .ok (fenceMarks c (if (curTeam r c).committed.any fun b => b.onPath (xbits c.f 11 9) then performCommitted r c.grp.team else r)) := by
  unfold xfenceBody
  rw [if_neg hact]
  by_cases hpath : xbits c.f 11 9 = 4
  · obtain ⟨hsent, hdone⟩ := hack hpath
    have hopen : (c.grp.rsts.any fun x => !x.done) = false := by simpa using hdone
    simp only [hpath, ite_true, hsent, hopen, Bool.false_eq_true, ite_false, bind, Except.bind]
  · simp only [hpath, ite_false, bind, Except.bind]

/-- Outside a protected launch an XFENCE with nothing to wait for changes nothing. -/
theorem xfenceBody_of_unpaired {c : Ctx} {r : Run} (hs : c.shadowed = false) (hack : c.acknowledged r) : xfenceBody c r = .ok r := by
  by_cases hact : c.active = 0
  · exact xfenceBody_of_no_lane hact r
  · rw [xfenceBody_of_acknowledged hact hack, hs]
    rfl

/-- Where the buffer holds no store of its path, it performs the committed ones. -/
theorem xfenceBody_of_none_buffered {c : Ctx} {r : Run} (hs : c.shadowed = true) (hact : c.active ≠ 0) (hack : c.acknowledged r)
    (hbuf : ∀ b ∈ (curTeam r c).sbuf, ¬ b.onPath (xbits c.f 11 9) = true) :
    xfenceBody c r =
      .ok (fenceMarks c (if (curTeam r c).committed.any fun b => b.onPath (xbits c.f 11 9) then performCommitted r c.grp.team else r)) := by
  rw [xfenceBody_of_acknowledged hact hack, hs, List.any_eq_false.mpr hbuf]
  rfl

/-- Where it holds one, a commit takes the fence's place. -/
theorem xfenceBody_of_buffered {c : Ctx} {r : Run} (hs : c.shadowed = true) (hact : c.active ≠ 0) (hack : c.acknowledged r)
    (hbuf : ∃ b ∈ (curTeam r c).sbuf, b.onPath (xbits c.f 11 9) = true) :
    xfenceBody c r = .error (.undone fun r => (commitNow r c.grp.team).1) := by
  rw [xfenceBody_of_acknowledged hact hack, hs, List.any_eq_true.mpr hbuf]
  rfl

/-- An XFENCE has no value operand and no result, so it moves no queue word. -/
theorem Ready.xfence_usesQueue {f : Fields} {s : State} {c : Ctx} {r : Run} (h : Ready (.xfence f) s c r) : c.usesQueue = false := by
  have hsh := Option.some.inj h.fields.1
  exact usesQueue_of_fields (hsh ▸ rfl) (by simp [queueWrite, ← hsh])

theorem acts_xfence {f : Fields} {ok : Ctx → Run → Prop} {act : Ctx → Run → Run} (h : ∀ c r, ok c r → xfenceBody c r = .ok (act c r)) :
    Acts (.xfence f) ok act :=
  acts_of_body (w := { body := xfenceBody }) (fun _ => rfl) (fun _ => rfl) rfl rfl fun _ c r _ => h c (advance c r)

/-! FENCE and cache control. -/

theorem acts_fence {f : Fields} {ok : Ctx → Run → Prop} {act : Ctx → Run → Run}
    (h : ∀ c r, ok c r → (if c.shadowed && c.active != 0 then fenceMarks c (performCommitted r c.grp.team) else r) = act c r) :
    Acts (.fence f) ok act :=
  acts_of_body (fun _ => rfl) (fun _ => rfl) rfl rfl fun _ c r _ hok => congrArg Except.ok (h c (advance c r) hok)

/-- An instruction on the lines of some ranges completes where the ranges translate. -/
theorem completes_of_ranges {i : Instr} {kind : Nat} {act : Ctx → List (Nat × List Piece64) → Run → Run}
    (he : ∀ s, exec i s = issue i { body := fun c r => (rangeAccess r c kind).map fun x => act c x.1 x.2 } s) :
    ∀ s c r r1 as, Ready i s c r → rangeAccess (advance c r) c kind = .ok (as, r1) → exec i s = .next (completed s c (act c as r1)) := by
  intro s c r r1 as h hr
  rw [he]
  exact issue_completed h (.inr (.inr rfl)) (.inl rfl) rfl (congrArg (Except.map fun x => act c x.1 x.2) hr)

/-- Settles O32: the cases of each fence's effect, and the ranges of CINV and CWB. -/
theorem fencesAndCacheControlComplete : Obligations.FencesAndCacheControlComplete := by
  unfold Obligations.FencesAndCacheControlComplete
  intro f
  refine ⟨?fence, ?fence_protected, ⟨?xfence_no_lane, ?xfence, ?xfence_protected, ?xfence_commits⟩, ?pref, ?cinv, ?cwb⟩
  case fence =>
    refine acts_fence fun c r hok => ?_
    rcases hok with hs | hact
    · rw [hs]
      rfl
    · rw [hact, Bool.and_comm]
      rfl
  case fence_protected =>
    refine acts_fence fun c r ⟨hs, hact⟩ => ?_
    rw [hs, bne_iff_ne.mpr hact]
    rfl
  case xfence_no_lane => exact acts_xfence fun _ r hact => xfenceBody_of_no_lane hact r
  case xfence => exact acts_xfence fun _ _ ⟨hs, hack⟩ => xfenceBody_of_unpaired hs hack
  case xfence_protected => exact acts_xfence fun _ _ ⟨hs, hact, hack, hbuf⟩ => xfenceBody_of_none_buffered hs hact hack hbuf
  case xfence_commits =>
    intro s c r h hs hact hack hbuf
    exact issue_undone (w := { body := xfenceBody }) h (.inr (.inr rfl)) (.inl rfl) h.xfence_usesQueue (xfenceBody_of_buffered hs hact hack hbuf)
  case pref => exact acts_of_body (fun _ => rfl) (fun _ => rfl) rfl rfl fun _ _ _ _ _ => rfl
  case cinv => exact completes_of_ranges fun _ => rfl
  case cwb => exact completes_of_ranges fun _ => rfl

end Sys2Proof.Machine
end

section
/-! ## The encoding (06 R168 to R187): every decoding step has the encoder's step for its inverse -/
namespace Sys2Proof.Machine

/-! Words and bytes. -/

@[simp] theorem bytesOfWord_length (w : W64) : (bytesOfWord w).length = 8 := by simp [bytesOfWord]

theorem wordOfBytes_bytesOfWord (w : W64) : wordOfBytes (bytesOfWord w) = w := by
  apply BitVec.eq_of_toNat_eq
  simp [wordOfBytes, bytesOfWord, List.range_succ, Nat.shiftRight_eq_div_pow]
  omega

/-! The fields of a word. -/

theorem splitWord_joinWord (r : RawWord) : splitWord (joinWord r) = r := by
  simp only [splitWord, joinWord, BitVec.extractLsb'_append_eq_of_le, BitVec.extractLsb'_append_eq_right, BitVec.extractLsb'_eq_self,
    Nat.reduceLeDiff, Nat.reduceSub]

theorem joinWord_splitWord (v : W64) : joinWord (splitWord v) = v := by
  simp (disch := rfl) only [splitWord, joinWord, BitVec.extractLsb'_append_extractLsb'_eq_extractLsb']
  exact BitVec.extractLsb'_eq_self

theorem longWord_eq (w : W64) : longWord w = longOp (splitWord w).op := rfl

/-! Types, bits and operands. -/

theorem tyOfCode_tyCode (t : Ty) : tyOfCode (tyCode t) = t := by cases t <;> rfl

theorem tyCode_tyOfCode : ∀ c : BitVec 3, tyCode (tyOfCode c) = c := by decide

theorem ofBool_beq_one : ∀ c : BitVec 1, BitVec.ofBool (c == 1) = c := by decide

theorem beq_one_ofBool (b : Bool) : (BitVec.ofBool b == 1) = b := by cases b <;> rfl

theorem bits_opndOf : ∀ n : BitVec 9, (opndOf n).bits = n := by decide

theorem opndOf_bits (o : Opnd) : opndOf o.bits = o := by
  cases o with
  | v n => revert n; decide
  | g n => revert n; decide
  | b n => revert n; decide
  | q n => revert n; decide
  | k n => revert n; decide
  | sr n => revert n; decide
  | bad n => revert n; decide

theorem fieldsOfRaw_rawOfFields (code : Nat) (f : Fields) : fieldsOfRaw (rawOfFields code f) f.w2 = f := by
  simp only [fieldsOfRaw, rawOfFields, tyOfCode_tyCode, beq_one_ofBool, opndOf_bits]

theorem rawOfFields_fieldsOfRaw (r : RawWord) (w2 : W64) : rawOfFields r.op.toNat (fieldsOfRaw r w2) = r := by
  simp only [fieldsOfRaw, rawOfFields, tyCode_tyOfCode, ofBool_beq_one, bits_opndOf, BitVec.ofNat_toNat, BitVec.setWidth_eq]

/-! The opcode map (06 R185). -/

theorem fieldsOf_of_shape {i : Instr} {sh : OpShape} (hs : shape i = some sh) : ∃ f, fieldsOf i = some f := by
  cases i
  all_goals cases hs <;> exact ⟨_, rfl⟩

theorem shape_code_lt {i : Instr} {sh : OpShape} (hs : shape i = some sh) : sh.code < 256 := by
  cases i
  all_goals cases hs <;> exact Nat.le_of_ble_eq_true rfl

/-- The second word is a matter of the opcode alone (06 R186). -/
theorem longOp_code {i : Instr} {sh : OpShape} (hs : shape i = some sh) : longOp (BitVec.ofNat 8 sh.code) = (sh.word2 != .short) := by
  cases i
  all_goals cases hs <;> rfl

theorem ofCode_code {i : Instr} {sh : OpShape} {f : Fields} (hs : shape i = some sh) (hf : fieldsOf i = some f) : ofCode sh.code f = some i := by
  cases i
  all_goals cases hs <;> cases hf <;> rfl

theorem shape_of_ofCode {n : Nat} {f : Fields} {i : Instr} (h : ofCode n f = some i) :
    fieldsOf i = some f ∧ (∃ sh, shape i = some sh ∧ sh.code = n) ∧ (ofCode n {}).isSome := by
  unfold ofCode at h
  split at h <;> cases h <;> exact ⟨rfl, ⟨_, rfl, rfl⟩, rfl⟩

/-- The instruction of an opcode is the one whose row has that code. -/
theorem ofCode_eq_some_iff {n : Nat} {f : Fields} {i : Instr} :
    ofCode n f = some i ↔ fieldsOf i = some f ∧ ∃ sh, shape i = some sh ∧ sh.code = n := by
  constructor
  · intro h
    obtain ⟨hf, hs, -⟩ := shape_of_ofCode h
    exact ⟨hf, hs⟩
  · rintro ⟨hf, sh, hs, rfl⟩
    exact ofCode_code hs hf

/-- Whether an opcode is assigned does not hang on the other fields. -/
theorem ofCode_eq_none {n : Nat} (h : ofCode n {} = none) (f : Fields) : ofCode n f = none := by
  cases hi : ofCode n f with
  | none => rfl
  | some i =>
    obtain ⟨-, -, hn⟩ := shape_of_ofCode hi
    rw [h] at hn
    cases hn

/-! Decoding of words. -/

theorem rejectOf_eq_none_iff {sh : OpShape} {f : Fields} : rejectOf sh f = none ↔ fieldsOk sh f = true := by
  simp only [rejectOf, fieldsOk, Bool.and_eq_true]
  grind

/-- Words decode to an instruction exactly where its opcode and its fields are theirs and the fields pass the checks of R184 step 3. -/
theorem decodeWords_eq_ok_iff {w1 w2 : W64} {i : Instr} :
    decodeWords w1 w2 = .ok i ↔ ∃ sh f, shape i = some sh ∧ fieldsOf i = some f ∧ fieldsOk sh f = true ∧
      sh.code = (splitWord w1).op.toNat ∧ f = fieldsOfRaw (splitWord w1) (if longWord w1 then w2 else 0) := by
  rw [longWord_eq]
  unfold decodeWords
  dsimp only
  generalize fieldsOfRaw (splitWord w1) _ = f
  constructor
  · intro h
    split at h
    · cases h
    · rename_i j hj
      obtain ⟨hf, sh, hs, hc⟩ := ofCode_eq_some_iff.mp hj
      simp only [hs, hf] at h
      split at h
      · cases h
      · rename_i hr
        cases h
        exact ⟨sh, f, hs, hf, rejectOf_eq_none_iff.mp hr, hc, rfl⟩
  · rintro ⟨sh, g, hs, hf, hok, hc, rfl⟩
    simp only [ofCode_eq_some_iff.mpr ⟨hf, sh, hs, hc⟩, hs, hf, rejectOf_eq_none_iff.mpr hok]

/-- The words of an instruction of the map: its second word is there where its first one is long. -/
theorem encode_eq {i : Instr} {sh : OpShape} {f : Fields} (hs : shape i = some sh) (hf : fieldsOf i = some f) :
    encode i = if sh.word2 != .short then [joinWord (rawOfFields sh.code f), f.w2] else [joinWord (rawOfFields sh.code f)] := by
  simp only [encode, hs, hf]
  cases sh.word2 <;> rfl

theorem longWord_joinWord {i : Instr} {sh : OpShape} (hs : shape i = some sh) (f : Fields) :
    longWord (joinWord (rawOfFields sh.code f)) = (sh.word2 != .short) := by
  rw [longWord_eq, splitWord_joinWord]
  exact longOp_code hs

/-- The first word of an instruction, with its second one where it is long, decodes to it. -/
theorem decodeWords_joinWord {i : Instr} {sh : OpShape} {f : Fields} (hs : shape i = some sh) (hf : fieldsOf i = some f)
    (hok : fieldsOk sh f = true) {w2 : W64} (h2 : longWord (joinWord (rawOfFields sh.code f)) = true → w2 = f.w2) :
    decodeWords (joinWord (rawOfFields sh.code f)) w2 = .ok i := by
  have hlong := longWord_joinWord hs f
  have hw2 : (if longWord (joinWord (rawOfFields sh.code f)) then w2 else 0) = f.w2 := by
    split
    · rename_i h
      exact h2 h
    · rename_i h
      have hshort : (sh.word2 == .short) = true := by simpa [hlong] using h
      simp only [fieldsOk, secondWordOk, hshort, ite_true, Bool.and_eq_true, beq_iff_eq] at hok
      exact hok.2.symm
  refine decodeWords_eq_ok_iff.mpr ⟨sh, f, hs, hf, hok, ?_, ?_⟩
  · rw [splitWord_joinWord]
    exact (Nat.mod_eq_of_lt (shape_code_lt hs)).symm
  · rw [hw2, splitWord_joinWord, fieldsOfRaw_rawOfFields]

/-! Decoding of bytes. -/

theorem take_bytesOfWord (w : W64) (rest : List Byte) : (bytesOfWord w ++ rest).take 8 = bytesOfWord w := List.take_left' (bytesOfWord_length w)

theorem drop_bytesOfWord (w : W64) (rest : List Byte) : (bytesOfWord w ++ rest).drop 8 = rest := List.drop_left' (bytesOfWord_length w)

theorem decodeBytes_short {w1 : W64} {i : Instr} (hl : longWord w1 = false) (h : ∀ w2, decodeWords w1 w2 = .ok i) (rest : List Byte) :
    decodeBytes (bytesOfWord w1 ++ rest) = .ok (i, rest) := by
  have hlen : (bytesOfWord w1 ++ rest).length = 8 + rest.length := by rw [List.length_append, bytesOfWord_length]
  have h8 : ¬ 8 + rest.length < 8 := by omega
  simp only [decodeBytes, hlen, if_neg h8, take_bytesOfWord, drop_bytesOfWord, wordOfBytes_bytesOfWord, hl, Bool.false_eq_true, ite_false, h]

theorem decodeBytes_long {w1 w2 : W64} {i : Instr} (hl : longWord w1 = true) (h : decodeWords w1 w2 = .ok i) (rest : List Byte) :
    decodeBytes (bytesOfWord w1 ++ (bytesOfWord w2 ++ rest)) = .ok (i, rest) := by
  have hlen : (bytesOfWord w1 ++ (bytesOfWord w2 ++ rest)).length = 16 + rest.length := by
    rw [List.length_append, List.length_append, bytesOfWord_length, bytesOfWord_length]
    omega
  have h8 : ¬ 16 + rest.length < 8 := by omega
  have h16 : ¬ 16 + rest.length < 16 := by omega
  have hdrop : (bytesOfWord w1 ++ (bytesOfWord w2 ++ rest)).drop 16 = rest := by
    rw [show 16 = 8 + 8 from rfl, ← List.drop_drop, drop_bytesOfWord, drop_bytesOfWord]
  simp only [decodeBytes, hlen, if_neg h8, if_neg h16, hdrop, take_bytesOfWord, drop_bytesOfWord, wordOfBytes_bytesOfWord, hl, ite_true, h]

/-! What the obligations say of the encoding. -/

/-- Settles O2: the encoder's fields are those that the decoder reads back, and the length is a matter of the opcode. -/
theorem encodedInstructionsDecode : Obligations.EncodedInstructionsDecode := by
  unfold Obligations.EncodedInstructionsDecode
  intro i rest hc hwf
  obtain ⟨sh, hs⟩ := Option.isSome_iff_exists.mp hc
  obtain ⟨f, hf⟩ := fieldsOf_of_shape hs
  have hok : fieldsOk sh f = true := by simpa only [Instr.wf, hs, hf] using hwf
  have hlong := longWord_joinWord hs f
  rw [encodeBytes, encode_eq hs hf]
  cases h : sh.word2 != .short with
  | false =>
    rw [h] at hlong
    simp only [Bool.false_eq_true, ite_false, List.flatMap_cons, List.flatMap_nil, List.append_nil]
    exact decodeBytes_short hlong (fun _ => decodeWords_joinWord hs hf hok fun hl => absurd (hl.symm.trans hlong) (by decide)) rest
  | true =>
    rw [h] at hlong
    simp only [ite_true, List.flatMap_cons, List.flatMap_nil, List.append_nil, List.append_assoc]
    exact decodeBytes_long hlong (decodeWords_joinWord hs hf hok fun _ => rfl) rest

/-- Settles O3: the fields that the decoder reads make up the words again. -/
theorem decodedWordsEncode : Obligations.DecodedWordsEncode := by
  unfold Obligations.DecodedWordsEncode
  intro w1 w2 i h
  obtain ⟨sh, f, hs, hf, hok, hc, hfr⟩ := decodeWords_eq_ok_iff.mp h
  have hlong : longWord w1 = (sh.word2 != .short) := by
    rw [longWord_eq, ← longOp_code hs, hc, BitVec.ofNat_toNat, BitVec.setWidth_eq]
  have hw1 : joinWord (rawOfFields sh.code f) = w1 := by rw [hc, hfr, rawOfFields_fieldsOfRaw, joinWord_splitWord]
  refine ⟨?_, by simp [Instr.coded, hs], by simp only [Instr.wf, hs, hf, hok]⟩
  rw [encode_eq hs hf, hw1, ← hlong, hfr]
  cases longWord w1 <;> rfl

/-- The map has 156 opcodes (R185). -/
theorem assigned_opcodes : ((List.range 256).filter fun n => (ofCode n {}).isSome).length = 156 := by decide +kernel

/-- A reserved opcode is refused before any other field is looked at. -/
theorem decodeWords_of_reserved {w1 : W64} (h : ofCode (splitWord w1).op.toNat {} = none) (w2 : W64) :
    decodeWords w1 w2 = .error .reservedOpcode := by
  simp only [decodeWords, ofCode_eq_none h]

/-- Settles O1: the words by evaluation, the reserved opcodes in general. -/
theorem manualWordsDecode : Obligations.ManualWordsDecode := by
  unfold Obligations.ManualWordsDecode
  exact ⟨rfl, rfl, rfl, rfl, rfl, assigned_opcodes, fun _ w2 h => decodeWords_of_reserved h w2⟩

end Sys2Proof.Machine
end

section
/-! ## The fetch (06 R169, R184, 09 R290) -/
namespace Sys2Proof.Machine

theorem Sparse.find_filter_eq_none {α : Type} {m : Sparse α} {k : Nat} (h : Sparse.find m k = none) (p : Nat × α → Bool) :
    Sparse.find (m.filter p) k = none := by
  induction m with
  | nil => rfl
  | cons e t ih =>
    obtain ⟨j, v⟩ := e
    have hj : j ≠ k := fun hj => by simp [Sparse.find, hj] at h
    have ht : Sparse.find t k = none := by simpa [Sparse.find, hj] using h
    by_cases hp : p (j, v) = true <;> simp [hp, Sparse.find, hj, ih ht]

/-! A slice that has taken a word. -/

theorem Slice.oldWord_took_new (s : Slice) (a w b : W64) : (s.took a w .new).oldWord b = none := rfl

theorem Slice.loopWord_took_new {s : Slice} {a b : W64} (h : s.loopWord b = none) (hab : b ≠ a) (w : W64) :
    (s.took a w .new).loopWord b = none := by
  have hne : b.toNat ≠ a.toNat := fun h => hab (BitVec.eq_of_toNat_eq h)
  unfold Slice.loopWord at h ⊢
  cases hl : s.loopAt.isSome with
  | false => simp [Slice.took, hl]
  | true =>
    rw [hl, if_pos rfl] at h
    simp only [Slice.took, hl, ite_true, Sparse.find_put_of_ne hne, Sparse.find_filter_eq_none h]

theorem add_eight_ne (a : W64) : a + 8 ≠ a := by
  bv_omega

/-- Settles O5: each word by the law of the place that it comes from, then the decoder. -/
theorem fetchDecodesMemory : Obligations.FetchDecodesMemory := by
  unfold Obligations.FetchDecodesMemory
  intro r r1 r2 gid g s l1 l2 i q seen fresh good w1 r1' w2
  refine ⟨fun ha ht1 ⟨hfail1, hcache1⟩ ⟨hloop1, hold1⟩ => ?memory, ?loop, ?misaligned⟩
  case memory =>
    have hfetch1 : fetchWord r gid g s s.pc s.pc = .ok (w1, .new, r1') := fetchWord_good rfl ht1 hfail1 rfl hcache1 hloop1 hold1
    have hshort : longWord w1 = false →
        (if longWord w1 then fetchWord r1' gid g (s.took s.pc w1 .new) s.pc (s.pc + 8) else .ok (0, .loop, r1')) = .ok (0, .loop, r1') :=
      fun hl => by rw [hl]; rfl
    refine ⟨fun hl hd => ?short, fun hl ⟨hloop2, _⟩ hq ht2 ⟨hfail2, hcache2⟩ hd => ?long, fun hl e he => ?undecoded⟩
    case short => exact ⟨_, by rw [fetch_eq ha hfetch1 (hshort hl), hd]⟩
    case long =>
      have hfetch2 : fetchWord r1' gid g (s.took s.pc w1 .new) s.pc (s.pc + 8) = .ok (w2, .new, _) :=
        fetchWord_good hq ht2 hfail2 rfl hcache2 (Slice.loopWord_took_new hloop2 (add_eight_ne s.pc) w1) (Slice.oldWord_took_new ..)
      exact ⟨_, by rw [fetch_eq ha hfetch1 (by rw [if_pos hl]; exact hfetch2), hd]⟩
    case undecoded => rw [fetch_eq ha hfetch1 (hshort hl), he]
  case loop =>
    intro w1 w2 ha hw1 hw2 hd
    have hfetch2 : (if longWord w1 then fetchWord r gid g (s.took s.pc w1 .loop) s.pc (s.pc + 8) else .ok (0, .loop, r)) = .ok (w2, .loop, r) := by
      split
      · rename_i hl
        rw [if_pos hl] at hw2
        exact fetchWord_loop hw2
      · rename_i hl
        rw [if_neg hl] at hw2
        rw [hw2]
    exact ⟨_, by rw [fetch_eq ha (fetchWord_loop hw1) hfetch2, hd]⟩
  case misaligned =>
    intro ha
    have ha' : (s.pc.toNat % 8 != 0) = true := by simpa using ha
    unfold fetch
    simp only [ha', ite_true]

end Sys2Proof.Machine
end

section
/-! ## The advance (06 R169, 02 R71, 01 R46, 10 R316, R317) -/
namespace Sys2Proof.Machine

/-! Region starts. -/

theorem applyStaged_spec {r : Run} {gid : Nat} {g : Grp} (hg : r.grp gid = some g) :
    (applyStaged r gid).grp gid = some { g with staged := [] } ∧ r.restSame gid g.team (applyStaged r gid) := by
  have hteams := foldl_updTeam_restSame gid g.team g.staged (fun st t =>
    { t with tiles := updAt t.tiles st.tile fun x =>
              { x with nan := satAdd32 x.nan st.nan, inv := satAdd32 x.inv st.inv, ovf := satAdd32 x.ovf st.ovf } }) r
  obtain ⟨hrest, hgroups⟩ := hteams
  unfold applyStaged
  simp only [hg]
  refine ⟨?_, hrest.trans (Run.restSame_updGrp ..)⟩
  rw [Run.updGrp_grp_self, Run.grp, hgroups, show r.groups.find gid = some g from hg]
  rfl

/-- A region start changes what its group holds and stages, and the counters of its tiles. -/
theorem groupRegionStart_spec {r : Run} {gid : Nat} {g : Grp} (hg : r.grp gid = some g) :
    r.restSame gid g.team (groupRegionStart r gid) ∧ ∃ undo holds staged no,
      (groupRegionStart r gid).grp gid = some { g with undo := undo, holds := holds, staged := staged, regionNo := no } ∧
        (g.super = false → holds = [] ∧ undo = []) := by
  unfold groupRegionStart
  simp only [hg]
  split
  · rename_i hs
    exact ⟨Run.restSame_updGrp .., _, _, _, _, by rw [Run.updGrp_grp_self, hg]; rfl, fun h => absurd (hs.symm.trans h) (by decide)⟩
  · split
    · exact ⟨Run.restSame_updGrp .., _, _, _, _, by rw [Run.updGrp_grp_self, hg]; rfl, fun _ => ⟨rfl, rfl⟩⟩
    · obtain ⟨happ, hrest⟩ := applyStaged_spec hg
      exact ⟨hrest.trans (Run.restSame_updGrp ..), _, _, _, _, by rw [Run.updGrp_grp_self, happ]; rfl, fun _ => ⟨rfl, rfl⟩⟩

/-! The slices of an instruction that advances. -/

@[simp] theorem Grp.updSlices_slices_length (g : Grp) (ns : List Nat) (f : Slice → Slice) : (g.updSlices ns f).slices.length = g.slices.length := by
  induction ns generalizing g with
  | nil => rfl
  | cons n ns ih => exact (ih (g.updSlice n f)).trans (updAt_length ..)

/-- A slice past an instruction, before a region begins there. -/
def Ctx.pastIt (c : Ctx) (tick : Nat) (x : Slice) : Slice :=
  { x with pc := x.pc + w64 c.len, last := tick, lastPc := c.pc, valid := if c.sh.switch || c.usesQueue then 0 else x.valid }

/-- The group of an instruction with its slices past it. -/
def Ctx.groupPastIt (c : Ctx) (tick : Nat) (g : Grp) : Grp :=
  let g := g.updSlices c.slices fun s => { s with pc := s.pc + w64 c.len, last := tick, lastPc := c.pc }
  let g := if c.sh.switch || c.usesQueue then g.updSlices c.slices fun s => { s with valid := 0 } else g
  { g with lastIssue := tick }

theorem advance_eq (c : Ctx) (r : Run) :
    advance c r = if c.beginsRegion then regionStart (r.updGrp c.gid (c.groupPastIt r.tick)) c.gid c.slices
      else r.updGrp c.gid (c.groupPastIt r.tick) := rfl

theorem Ctx.groupPastIt_spec (c : Ctx) (tick : Nat) (g : Grp) :
    let h := c.groupPastIt tick g
    g.keeps h ∧ h.team = g.team ∧ h.slices.length = g.slices.length ∧ h.lastIssue = tick ∧ h.staged = g.staged ∧ h.holds = g.holds ∧
      h.undo = g.undo := by
  unfold Ctx.groupPastIt
  dsimp only
  split <;> simp [Grp.keeps, systemKept]

theorem Ctx.groupPastIt_getElem? {c : Ctx} (hn : c.slices.Nodup) (tick : Nat) (g : Grp) (k : Nat) :
    (c.groupPastIt tick g).slices[k]? = if k ∈ c.slices then (g.slices[k]?).map (c.pastIt tick) else g.slices[k]? := by
  unfold Ctx.groupPastIt Ctx.pastIt
  dsimp only
  split
  · rw [Grp.updSlices_getElem? hn, Grp.updSlices_getElem? hn]
    split
    · rw [Option.map_map]; rfl
    · rfl
  · exact Grp.updSlices_getElem? hn ..

/-- What the advance leaves of its group where no region begins. -/
theorem advance_plain {c : Ctx} {r : Run} {g : Grp} (hb : c.beginsRegion = false) (hg : r.grp c.gid = some g) :
    (advance c r).grp c.gid = some (c.groupPastIt r.tick g) ∧ (advance c r).teams = r.teams ∧ r.restSame c.gid g.team (advance c r) := by
  rw [advance_eq, hb]
  simp only [Bool.false_eq_true, ite_false]
  refine ⟨by rw [Run.updGrp_grp_self, hg]; rfl, rfl, Run.restSame_updGrp ..⟩

/-- What it leaves where one begins: the same, with the slices at their regions' entries and less what the group's region held. -/
theorem advance_region {c : Ctx} {r : Run} {g : Grp} (hb : c.beginsRegion = true) (hn : c.slices.Nodup) (hg : r.grp c.gid = some g) :
    r.restSame c.gid g.team (advance c r) ∧ ∃ g', (advance c r).grp c.gid = some g' ∧ g.keeps g' ∧ g'.slices.length = g.slices.length ∧
      g'.lastIssue = r.tick ∧ (g.super = false → g'.holds = [] ∧ g'.undo = []) ∧
      ∀ k, g'.slices[k]? = if k ∈ c.slices then (g.slices[k]?).map fun x => (c.pastIt r.tick x).beginRegion else g.slices[k]? := by
  obtain ⟨hkeeps, hteam, hlen, hlast, -⟩ := c.groupPastIt_spec r.tick g
  have hpast : (r.updGrp c.gid (c.groupPastIt r.tick)).grp c.gid = some (c.groupPastIt r.tick g) := by rw [Run.updGrp_grp_self, hg]; rfl
  obtain ⟨hrest, undo, holds, staged, no, hstart, hfree⟩ := groupRegionStart_spec hpast
  rw [hteam] at hrest
  rw [hkeeps.systemKept.super] at hfree
  rw [advance_eq, hb]
  simp only [ite_true, regionStart]
  refine ⟨((Run.restSame_updGrp ..).trans hrest).trans (Run.restSame_updGrp ..), _, by rw [Run.updGrp_grp_self, hstart]; rfl, ?_, ?_, ?_, ?_, ?_⟩
  · simpa [Grp.keeps, systemKept] using hkeeps
  · simpa using hlen
  · simpa using hlast
  · simpa using hfree
  · intro k
    rw [Grp.updSlices_getElem? hn, c.groupPastIt_getElem? hn]
    split
    · rw [Option.map_map]; rfl
    · rfl

/-- Settles O12: by whether a region begins at the new program counter. -/
theorem advanceMovesTheIssuingSlices : Obligations.AdvanceMovesTheIssuingSlices := by
  unfold Obligations.AdvanceMovesTheIssuingSlices
  intro r c g hg hn _
  cases hb : c.beginsRegion with
  | false =>
    obtain ⟨⟨hv, hgr, -, hp, -, hlat, hff, hsys⟩, -, hlen, hlast, hstaged, hholds, hundo⟩ := c.groupPastIt_spec r.tick g
    obtain ⟨hadv, hteams, hother, -, hmem, -⟩ := advance_plain hb hg
    refine ⟨_, hadv, hlen, fun n x hx => ?_, hv, hgr, hp, hlat, hff, hsys, hlast, by simp,
      fun _ => ⟨hstaged, hholds, hundo, hteams⟩, hmem, hother⟩
    rw [c.groupPastIt_getElem? hn, hx]
    by_cases hin : n ∈ c.slices <;> simp [hin, Ctx.pastIt]
  | true =>
    obtain ⟨⟨hother, -, hmem, -⟩, g', hadv, ⟨hv, hgr, -, hp, -, hlat, hff, hsys⟩, hlen, hlast, hfree, hslices⟩ := advance_region hb hn hg
    refine ⟨g', hadv, hlen, fun n x hx => ?_, hv, hgr, hp, hlat, hff, hsys, hlast, fun _ => hfree, by simp, hmem, hother⟩
    rw [hslices, hx]
    by_cases hin : n ∈ c.slices <;> simp [hin, Ctx.pastIt, Slice.beginRegion]

end Sys2Proof.Machine
end

section
/-! ## PRIVILEGE (06 R184 step 4, R187) -/
namespace Sys2Proof.Machine

/-- PRIVILEGE comes before every other check of R184 that an instruction meets. -/
theorem early_of_privileged {c : Ctx} (hs : c.sh.super = true) (hu : c.grp.super = false) : c.early = some .privilege := by
  simp [Ctx.early, hs, hu]

/-- A SUPERVISOR instruction that is issued at USER level, with no deferred cause held, traps before it has any effect. -/
theorem issue_privileged {i : Instr} {w : Work} {s : State} {c : Ctx} {sh : OpShape} {f : Fields} {gid frag : Nat} (hsh : shape i = some sh)
    (hf : fieldsOf i = some f) (hi : s.run.issuing = some (gid, frag)) (hm : makeCtx s.run gid frag sh f = some c) (hs : sh.super = true)
    (hu : c.grp.super = false) (hd : c.grp.deferred = []) (hw : w.finish = none) :
    issue i w s = .next { s with run := trapAt (c.onto s.run) gid c.slices (c.trap .privilege 0 (c.lowest.getD 0) 0) [] } := by
  obtain ⟨hgid, -, hcsh, -⟩ := makeCtx_fields hm
  have hfly : c.flying w = false := by simp [Ctx.flying, hw]
  have hdue : dueDeferred c.grp = none := by simp [dueDeferred, hd]
  have hearly : c.early = some .privilege := early_of_privileged (hcsh ▸ hs) hu
  unfold issue
  rw [hsh, hf, hi]
  simp only [hm, issueCtx, hfly, hdue, hearly, hgid, ite_self, Bool.false_eq_true, ite_false]

/-- The SUPERVISOR instructions are issued as such, and none is in flight while it waits. -/
theorem exec_supervisor {f : Fields} {i : Instr} (h : i ∈ [Instr.tret f, .tmask f, .sysr f, .sysw f, .halt f, .ctxfl f]) :
    fieldsOf i = some f ∧ (shape i).all OpShape.super = true ∧ ∃ w : Work, w.finish = none ∧ ∀ s, exec i s = issue i w s := by
  simp only [List.mem_cons, List.not_mem_nil, or_false] at h
  rcases h with rfl | rfl | rfl | rfl | rfl | rfl
  all_goals exact ⟨rfl, rfl, _, rfl, fun _ => rfl⟩

/-- Settles O52: the six are issued alike, and the check of their level is the first. -/
theorem supervisorInstructionsTrapAtUserLevel : Obligations.SupervisorInstructionsTrapAtUserLevel := by
  unfold Obligations.SupervisorInstructionsTrapAtUserLevel
  intro i f s c sh gid frag hmem hsh hi hm hu hd
  obtain ⟨hf, hsuper, w, hw, hexec⟩ := exec_supervisor hmem
  rw [hsh] at hsuper
  rw [hexec, issue_privileged hsh hf hi hm hsuper hu hd hw]

end Sys2Proof.Machine
end

section
/-! ## Forms and results of the instructions that compute in lanes (06 R172, R179, R185, 07 R202 to R205) -/
namespace Sys2Proof.Machine

/-! Forms. -/

/-- A well-formed instruction has a type that its row accepts, and passes its row's check of the X field. -/
theorem type_and_modifiers_of_wf {i : Instr} {sh : OpShape} {f : Fields} (hs : shape i = some sh) (hf : fieldsOf i = some f) (h : i.wf = true) :
    f.t ∈ sh.types ∧ sh.xOk = true := by
  simp only [Instr.wf, hs, hf, fieldsOk, Bool.and_eq_true] at h
  obtain ⟨⟨⟨⟨⟨htype, -⟩, -⟩, -⟩, hmod⟩, -⟩ := h
  exact ⟨List.contains_iff_mem.mp htype, hmod⟩

theorem aluX_eq_true_iff {f : Fields} {fn rm sat aux : Bool} :
    aluX f fn rm sat aux = true ↔ imfOf f = false ∧ fn = true ∧ (rm = false → rmOf f = 0) ∧ (sat = false → satOf f = false) ∧
      (aux = false → auxOf f = false) := by
  cases rm <;> cases sat <;> cases aux <;> simp [aluX, and_assoc]

theorem immX_eq_true_iff {f : Fields} {rm sat aux : Bool} :
    immX f rm sat aux = true ↔ imfOf f = true ∧ (rm = false → rmOf f = 0) ∧ (sat = false → satOf f = false) ∧
      (aux = false → auxOf f = false) := by
  cases rm <;> cases sat <;> cases aux <;> simp [immX, and_assoc]

/-- The forms of an opcode are those of its row. -/
theorem forms_of_shape {op : Fields → Instr} {sh : Fields → OpShape} {code : Nat} {ts : List Ty} {x : Fields → Prop}
    (hrow : ∀ f, shape (op f) = some (sh f) ∧ fieldsOf (op f) = some f ∧ (sh f).code = code ∧ (sh f).types = ts)
    (hx : ∀ f, (sh f).xOk = true → x f) : Forms op code ts x := by
  intro f
  obtain ⟨hs, hf, hc, ht⟩ := hrow f
  refine ⟨ofCode_eq_some_iff.mpr ⟨hf, sh f, hs, hc⟩, fun hwf => ?_⟩
  obtain ⟨htype, hmod⟩ := type_and_modifiers_of_wf hs hf hwf
  exact ⟨ht ▸ htype, hx f hmod⟩

/-- A row without function, rounding or auxiliary modifier. -/
theorem forms_of_bare {op : Fields → Instr} {sh : Fields → OpShape} {code : Nat} {ts : List Ty} {sat : Bool}
    (hrow : ∀ f, shape (op f) = some (sh f) ∧ fieldsOf (op f) = some f ∧ (sh f).code = code ∧ (sh f).types = ts)
    (hx : ∀ f, (sh f).xOk = aluX f (fnOf f == 0) false sat false) : Forms op code ts (bareX sat) :=
  forms_of_shape hrow fun f h => by
    obtain ⟨-, hfn, hrm, hsat, haux⟩ := aluX_eq_true_iff.mp (hx f ▸ h)
    exact ⟨by simpa using hfn, hrm rfl, haux rfl, hsat⟩

/-! Results. -/

/-- A result may be said in another way. -/
theorem Yields.congr {i : Instr} {w : Ctx → ResW} {val val' : Ctx → Run → Nat → Nat} (h : Yields i w val)
    (hval : ∀ c r l, val' c r l = val c r l) : Yields i w val' := by
  obtain rfl : val' = val := funext fun c => funext fun r => funext fun l => hval c r l
  exact h

end Sys2Proof.Machine
end

section
/-! ## Integer arithmetic (07 R206 to R209) -/
namespace Sys2Proof.Machine

/-- Settles O13: each is the exact operation in every lane, and its row has no modifier but SAT. -/
theorem integerArithmeticCompletes : Obligations.IntegerArithmeticCompletes := by
  unfold Obligations.IntegerArithmeticCompletes
  refine ⟨?saturating, ?plain, ?signed, ?immediate, fun f => ?results⟩
  case saturating | plain | signed =>
    simp only [List.forall_mem_cons, List.not_mem_nil, false_imp_iff, implies_true, and_true]
    and_intros
    all_goals exact forms_of_bare (fun _ => ⟨rfl, rfl, rfl, rfl⟩) fun _ => rfl
  case immediate =>
    refine forms_of_shape (fun _ => ⟨rfl, rfl, rfl, rfl⟩) fun f h => ?_
    obtain ⟨-, hrm, -, haux⟩ := immX_eq_true_iff.mp h
    exact ⟨hrm rfl, haux rfl⟩
  case results =>
    and_intros
    all_goals exact yields_of_lane fun _ => rfl

/-! Division. -/

theorem divide_fst (e : Elt) (sat : Bool) (a b : Nat) :
    (divide e sat a b).1 =
      if readI e b = 0 then 2 ^ e.bits - 1
      else if readI e a = intMin e ∧ readI e b = -1 then (if sat then lowBits e.bits (intMax e) else a)
      else lowBits e.bits (Int.tdiv (readI e a) (readI e b)) := by
  simp only [divide, Bool.and_eq_true, decide_eq_true_eq]
  split
  · rfl
  · split <;> rfl

theorem divide_snd (e : Elt) (sat : Bool) (a b : Nat) :
    (divide e sat a b).2 =
      if readI e b = 0 then a
      else if readI e a = intMin e ∧ readI e b = -1 then 0
      else lowBits e.bits (Int.tmod (readI e a) (readI e b)) := by
  simp only [divide, Bool.and_eq_true, decide_eq_true_eq]
  split
  · rfl
  · split <;> rfl

/-- A division whose divisors `.TRAP` accepts completes. -/
theorem divWork_yields {i : Instr} {pick : Nat × Nat → Nat} {val : Ctx → Run → Nat → Nat} (he : ∀ s, exec i s = issue i (divWork pick) s)
    (hval : ∀ c r l, val c r l = pick (divide c.elt (satOf c.f) (c.pa r l) (c.pb r l))) :
    YieldsIf i (fun c r => auxOf c.f = true → ∀ l ∈ c.lanes, c.pb r l ≠ 0) Ctx.tw val := by
  intro s c r h hp hok
  obtain ⟨r', hr'⟩ := writeRes_plain hp (advance c r) c.tw (val c (advance c r))
  refine ⟨r', hr', ?_⟩
  rw [he]
  refine issue_completed h (.inr (.inr rfl)) (.inl rfl) rfl ((divWork_body hok).trans (Eq.trans ?_ hr'))
  exact congrArg (writeRes (advance c r) c c.tw) (funext fun l => (hval c (advance c r) l).symm)

/-- With `.TRAP` a zero divisor raises `ARITH` for the lowest lane that has one, before any lane is written. -/
theorem divWork_traps {i : Instr} {pick : Nat × Nat → Nat} (he : ∀ s, exec i s = issue i (divWork pick) s) :
    Traps i fun c r => if auxOf c.f then (c.lanes.find? fun l => c.pb r l == 0).map fun l => c.trap .arith 0 l 0 else none := by
  intro s c r t h ht
  have hzero : (zeroDivisor c (advance c r)).map (fun l => c.trap .arith 0 l 0) = some t := by
    refine Eq.trans ?_ ht
    unfold zeroDivisor
    dsimp only
    split <;> rfl
  obtain ⟨l, hl, rfl⟩ := Option.map_eq_some_iff.mp hzero
  have hbody : (divWork pick).body c (advance c r) = .error (c.fail .arith l) := by
    unfold divWork
    dsimp only
    rw [hl]
  rw [he]
  exact issue_traps h (.inr (.inr rfl)) (.inl rfl) hbody

/-- Settles O15: whether `.TRAP` finds a zero divisor decides between the two outcomes of a division. -/
theorem divisionCompletesOrTraps : Obligations.DivisionCompletesOrTraps := by
  unfold Obligations.DivisionCompletesOrTraps
  refine ⟨?idiv, ?irem, fun f => ⟨⟨?quotient, ?remainder⟩, divWork_traps fun _ => rfl, divWork_traps fun _ => rfl⟩⟩
  case idiv =>
    refine forms_of_shape (fun _ => ⟨rfl, rfl, rfl, rfl⟩) fun f h => ?_
    obtain ⟨-, hfn, hrm, -⟩ := aluX_eq_true_iff.mp h
    exact ⟨by simpa using hfn, hrm rfl⟩
  case irem =>
    refine forms_of_shape (fun _ => ⟨rfl, rfl, rfl, rfl⟩) fun f h => ?_
    obtain ⟨-, hfn, hrm, hsat, -⟩ := aluX_eq_true_iff.mp h
    exact ⟨by simpa using hfn, hrm rfl, hsat rfl⟩
  case quotient => exact divWork_yields (fun _ => rfl) fun c r l => (divide_fst c.elt (satOf c.f) (c.pa r l) (c.pb r l)).symm
  case remainder => exact divWork_yields (fun _ => rfl) fun c r l => (divide_snd c.elt (satOf c.f) (c.pa r l) (c.pb r l)).symm

/-! Carries and byte products. -/

/-- A sum of two numbers of n bits and a carry is its low n bits and its carry out. -/
theorem addCarry_sum {n a b k : Nat} (ha : a < 2 ^ n) (hb : b < 2 ^ n) (hk : k ≤ 1) :
    (addCarry n false a b k).1 < 2 ^ n ∧ (addCarry n false a b k).1 + bit (addCarry n false a b k).2 * 2 ^ n = a + b + k := by
  refine ⟨Nat.mod_lt _ (Nat.two_pow_pos n), ?_⟩
  change (a + b + k) % 2 ^ n + bit (decide (2 ^ n ≤ a + b + k)) * 2 ^ n = a + b + k
  by_cases hcarry : 2 ^ n ≤ a + b + k
  · rw [Nat.mod_eq_sub_mod hcarry, Nat.mod_eq_of_lt (by omega)]
    simp only [hcarry, decide_true, bit, if_true]
    omega
  · rw [Nat.mod_eq_of_lt (by omega)]
    simp [hcarry, bit]

/-- A difference of two numbers of n bits with a borrow is its low n bits less its borrow out. -/
theorem addCarry_difference {n a b k : Nat} (ha : a < 2 ^ n) (hb : b < 2 ^ n) (hk : k ≤ 1) :
    (addCarry n true a b k).1 < 2 ^ n ∧ (addCarry n true a b k).1 + b + k = a + bit (addCarry n true a b k).2 * 2 ^ n := by
  refine ⟨Nat.mod_lt _ (Nat.two_pow_pos n), ?_⟩
  change (a + 2 ^ (n + 1) - b - k) % 2 ^ n + b + k = a + bit (decide (a < b + k)) * 2 ^ n
  have hdouble : 2 ^ (n + 1) = 2 ^ n + 2 ^ n := Nat.two_pow_succ n
  by_cases hborrow : a < b + k
  · rw [show a + 2 ^ (n + 1) - b - k = a + 2 ^ n - b - k + 2 ^ n by omega, Nat.add_mod_right, Nat.mod_eq_of_lt (by omega)]
    simp only [hborrow, decide_true, bit, if_true]
    omega
  · rw [show a + 2 ^ (n + 1) - b - k = a - b - k + 2 ^ n + 2 ^ n by omega, Nat.add_mod_right, Nat.add_mod_right, Nat.mod_eq_of_lt (by omega)]
    simp only [hborrow, decide_false, bit, Bool.false_eq_true, if_false]
    omega

/-- IADDX in one lane, with the carry in taken by cases. -/
theorem iaddxLane_eq (c : Ctx) (r : Run) (l : Nat) :
    iaddxLane c r l = addCarry c.elt.bits (auxOf c.f) (c.pa r l) (c.pb r l)
      (if fnOf c.f % 2 = 1 ∨ regIndex c.f.c 8 = 7 then 0 else bit (c.predAt c.f.c l)) := by
  have hcarry : bit (!(fnOf c.f % 2 == 1) && regIndex c.f.c 8 != 7 && c.predAt c.f.c l) =
      if fnOf c.f % 2 = 1 ∨ regIndex c.f.c 8 = 7 then 0 else bit (c.predAt c.f.c l) := by
    split
    · rename_i h
      rcases h with h | h <;> simp [h, bit]
    · rename_i h
      obtain ⟨hfn, hreg⟩ := not_or.mp h
      rw [beq_eq_false_iff_ne.mpr hfn, bne_iff_ne.mpr hreg]
      rfl
  rw [← hcarry]
  rfl

/-- IADDX writes its result and then its carry. -/
theorem exec_iaddx {f : Fields} {s : State} {c : Ctx} {r r' : Run} (h : Ready (.iaddx f) s c r)
    (hr : writeRes (advance c r) c c.tw (fun l => (iaddxLane c (advance c r) l).1) = .ok r') :
    exec (.iaddx f) s = .next (completed s c (writePred r' c c.f.c fun l => (iaddxLane c (advance c r) l).2)) := by
  refine issue_completed h (.inr (.inr rfl)) (.inl rfl) rfl ?_
  change (writeRes (advance c r) c c.tw (fun l => (iaddxLane c (advance c r) l).1) >>= fun r' =>
    Except.ok (writePred r' c c.f.c fun l => (iaddxLane c (advance c r) l).2)) = _
  rw [hr]
  rfl

theorem dot4_eq (sa sb : Bool) (a b : Nat) :
    dot4 sa sb a b = byteOf sa a 0 * byteOf sb b 0 + byteOf sa a 1 * byteOf sb b 1 + byteOf sa a 2 * byteOf sb b 2 +
      byteOf sa a 3 * byteOf sb b 3 := by
  simp [dot4, List.range_succ]

/-- Settles O16: the low bits and the carry make up the exact sum, and a borrow the exact difference. -/
theorem carriesAndByteProductsComplete : Obligations.CarriesAndByteProductsComplete := by
  unfold Obligations.CarriesAndByteProductsComplete
  refine ⟨?iaddx, ?idot4, fun f s c r h hp => ?carry, fun n a b k ha hb hk => ?sums, fun f => ?products, fun v i => ⟨rfl, rfl⟩⟩
  case iaddx =>
    refine forms_of_shape (fun _ => ⟨rfl, rfl, rfl, rfl⟩) fun f h => ?_
    obtain ⟨-, hfn, hrm, hsat, -⟩ := aluX_eq_true_iff.mp h
    exact ⟨by simpa using hfn, hrm rfl, hsat rfl⟩
  case idot4 =>
    refine forms_of_shape (fun _ => ⟨rfl, rfl, rfl, rfl⟩) fun f h => ?_
    obtain ⟨-, hfn, hrm, -⟩ := aluX_eq_true_iff.mp h
    exact ⟨by simpa using hfn, hrm rfl⟩
  case carry =>
    dsimp only
    simp only [← iaddxLane_eq]
    obtain ⟨r', hr'⟩ := writeRes_plain hp (advance c r) c.tw fun l => (iaddxLane c (advance c r) l).1
    exact ⟨r', hr', exec_iaddx h hr'⟩
  case sums =>
    obtain ⟨hlow, hsum⟩ := addCarry_sum ha hb hk
    exact ⟨hlow, hsum, addCarry_difference ha hb hk⟩
  case products =>
    refine (yields_of_lane fun _ => rfl).congr fun c r l => ?_
    rw [dot4_eq]
    rfl

end Sys2Proof.Machine
end

section
/-! ## Logic, shifts, bit fields, comparisons and moves (07 R210 to R214) -/
namespace Sys2Proof.Machine

/-! Numbers bit by bit. -/

theorem testBit_bit (b : Bool) (i : Nat) : (bit b).testBit i = (decide (i = 0) && b) := by
  rw [← Nat.testBit_bool_toNat]
  cases b <;> rfl

theorem bitsFrom_succ (n : Nat) (p : Nat → Bool) : bitsFrom (n + 1) p = bitsFrom n p + bit (p n) * 2 ^ n := by
  simp [bitsFrom, List.range_succ]

theorem bitsFrom_lt (n : Nat) (p : Nat → Bool) : bitsFrom n p < 2 ^ n := by
  induction n with
  | zero => simp [bitsFrom]
  | succ n ih =>
    rw [bitsFrom_succ, Nat.pow_succ]
    cases p n <;> simp only [bit, Bool.false_eq_true, if_true, if_false] <;> omega

/-- The number built from bits has them. -/
theorem testBit_bitsFrom (n : Nat) (p : Nat → Bool) (i : Nat) : (bitsFrom n p).testBit i = (decide (i < n) && p i) := by
  induction n with
  | zero => simp [bitsFrom]
  | succ n ih =>
    rw [bitsFrom_succ, Nat.add_comm, Nat.mul_comm, Nat.testBit_two_pow_mul_add _ (bitsFrom_lt n p), ih, testBit_bit]
    rcases Nat.lt_trichotomy i n with h | rfl | h
    · simp [h, Nat.lt_succ_of_lt h]
    · simp
    · simp [Nat.not_lt_of_gt h, Nat.not_lt_of_ge (Nat.succ_le_of_lt h), Nat.sub_ne_zero_of_lt h]

theorem testBit_lop3 (n lut a b k i : Nat) :
    (lop3 n lut a b k).testBit i = (decide (i < n) && lut.testBit (4 * bit (a.testBit i) + 2 * bit (b.testBit i) + bit (k.testBit i))) :=
  testBit_bitsFrom n _ i

theorem testBit_bitReverse {n i : Nat} (a : Nat) (hi : i < n) : (bitReverse n a).testBit i = a.testBit (n - 1 - i) := by
  rw [bitReverse, testBit_bitsFrom, decide_eq_true hi, Bool.true_and]

/-- A rotation puts the high bits of a pattern below its low ones. -/
theorem testBit_rotateLeft {n a i : Nat} (k : Nat) (ha : a < 2 ^ n) (hi : i < n) :
    (rotateLeft n a k).testBit i = a.testBit ((i + (n - k % n)) % n) := by
  have hk : k % n < n := Nat.mod_lt k (Nat.zero_lt_of_lt hi)
  have hsplit : 2 ^ n = 2 ^ (k % n) * 2 ^ (n - k % n) := by rw [← Nat.pow_add, Nat.add_sub_cancel' (Nat.le_of_lt hk)]
  have hhigh : a / 2 ^ (n - k % n) < 2 ^ (k % n) := Nat.div_lt_of_lt_mul (by rwa [Nat.mul_comm, ← hsplit])
  have hrot : rotateLeft n a k = 2 ^ (k % n) * (a % 2 ^ (n - k % n)) + a / 2 ^ (n - k % n) := by
    rw [rotateLeft, hsplit, Nat.mul_comm a, Nat.mul_mod_mul_left]
  rw [hrot, Nat.testBit_two_pow_mul_add _ hhigh]
  generalize k % n = r at hk
  split
  · rename_i hlow
    rw [Nat.testBit_div_two_pow, Nat.mod_eq_of_lt (by omega)]
  · rename_i hlow
    rw [Nat.testBit_mod_two_pow, decide_eq_true (by omega), Bool.true_and,
      show i + (n - r) = i - r + n by omega, Nat.add_mod_right, Nat.mod_eq_of_lt (by omega)]

theorem lt_two_pow_bitLen (a : Nat) : a < 2 ^ bitLen a := by
  unfold bitLen
  split
  · rename_i h
    simp [h]
  · exact Nat.lt_log2_self

theorem bitLen_le {n a : Nat} (h : a < 2 ^ n) : bitLen a ≤ n := by
  unfold bitLen
  split
  · exact Nat.zero_le n
  · rename_i ha
    exact (Nat.log2_lt ha).mpr h

theorem testBit_pred_bitLen {a : Nat} (h : 0 < bitLen a) : a.testBit (bitLen a - 1) = true := by
  unfold bitLen at h ⊢
  split
  · rename_i ha
    simp [ha] at h
  · rename_i ha
    exact Nat.testBit_log2 ha

/-- The numbers from 0 on that have a property end at the first one without it. -/
theorem length_takeWhile_range {n k : Nat} {p : Nat → Bool} (hk : k ≤ n) (hp : ∀ j < k, p j = true) (hend : k < n → p k = false) :
    ((List.range n).takeWhile p).length = k := by
  obtain ⟨m, rfl⟩ := Nat.exists_eq_add_of_le hk
  rw [List.range_add, List.takeWhile_append_of_pos fun j hj => hp j (List.mem_range.mp hj)]
  cases m with
  | zero => simp
  | succ m => simp [List.range_succ_eq_map, hend (by omega)]

/-- The leading zeros are those before the highest bit that is set. -/
theorem leadingZeros_eq {n a : Nat} (h : a < 2 ^ n) :
    leadingZeros n a = ((List.range n).takeWhile fun j => !a.testBit (n - 1 - j)).length := by
  have hlen := bitLen_le h
  refine (length_takeWhile_range (Nat.sub_le ..) (fun j hj => ?_) fun hj => ?_).symm
  · have hzero : a.testBit (n - 1 - j) = false :=
      Nat.testBit_lt_two_pow (Nat.lt_of_lt_of_le (lt_two_pow_bitLen a) (Nat.pow_le_pow_right Nat.zero_lt_two (by omega)))
    rw [hzero]
    rfl
  · rw [show n - 1 - (n - bitLen a) = bitLen a - 1 by omega, testBit_pred_bitLen (by omega)]
    rfl

/-! Logic and shifts. -/

/-- Settles O17: each is its operation in every lane, and the bits of the model's own operations are those of R210. -/
theorem logicAndShiftsComplete : Obligations.LogicAndShiftsComplete := by
  unfold Obligations.LogicAndShiftsComplete
  refine ⟨?forms, fun f => ?results, fun n lut a b k i => ?bits⟩
  case forms =>
    simp only [List.forall_mem_cons, List.not_mem_nil, false_imp_iff, implies_true, and_true]
    and_intros
    all_goals exact forms_of_bare (fun _ => ⟨rfl, rfl, rfl, rfl⟩) fun _ => rfl
  case results =>
    and_intros
    all_goals exact yields_of_lane fun _ => rfl
  case bits => exact ⟨testBit_lop3 .., testBit_rotateLeft k, leadingZeros_eq, testBit_bitReverse a⟩

/-! Bit fields. -/

/-- A field lies within the pattern. -/
theorem fieldLen_le (n ctl : Nat) : fieldLen n ctl ≤ n - ctl % 256 := by
  unfold fieldLen
  dsimp only
  split
  · exact Nat.zero_le _
  · exact Nat.min_le_right ..

/-- An inserted field replaces the bits at its place, and no other. -/
theorem testBit_bitInsert (n a b ctl i : Nat) :
    (bitInsert n a b ctl).testBit i =
      if ctl % 256 ≤ i ∧ i < ctl % 256 + fieldLen n ctl then a.testBit (i - ctl % 256) else b.testBit i := by
  unfold bitInsert
  dsimp only
  generalize fieldLen n ctl = len
  generalize ctl % 256 = pos
  split
  · rename_i hlen
    rw [if_neg (by omega)]
  · have hlow : b % 2 ^ pos < 2 ^ pos := Nat.mod_lt _ (Nat.two_pow_pos pos)
    have hfield : 2 ^ pos * (a % 2 ^ len) + b % 2 ^ pos < 2 ^ (pos + len) := by
      calc 2 ^ pos * (a % 2 ^ len) + b % 2 ^ pos < 2 ^ pos * (a % 2 ^ len + 1) := by rw [Nat.mul_add_one]; omega
        _ ≤ 2 ^ pos * 2 ^ len := Nat.mul_le_mul_left _ (Nat.mod_lt _ (Nat.two_pow_pos len))
        _ = 2 ^ (pos + len) := (Nat.pow_add ..).symm
    rw [Nat.mul_comm (b / _), Nat.mul_comm (a % _), Nat.add_assoc, Nat.testBit_two_pow_mul_add _ hfield, Nat.testBit_two_pow_mul_add _ hlow,
      Nat.testBit_div_two_pow, Nat.testBit_mod_two_pow, Nat.testBit_mod_two_pow]
    rcases Nat.lt_or_ge i pos with hi | hi
    · simp [hi, Nat.not_le_of_gt hi, Nat.lt_add_right len hi]
    · rcases Nat.lt_or_ge i (pos + len) with hj | hj
      · rw [if_pos hj, if_neg (Nat.not_lt_of_ge hi), if_pos ⟨hi, hj⟩, decide_eq_true (by omega), Bool.true_and]
      · rw [if_neg (Nat.not_lt_of_ge hj), if_neg fun h => Nat.not_lt_of_ge hj h.2, Nat.sub_add_cancel hj]

theorem intMin_tyElt_neg_iff (t : Ty) : intMin (tyElt t) < 0 ↔ tySigned t = true := by
  cases t <;> decide

/-- Settles O18: the signed formats are those of the signed types, and an insertion changes its field alone. -/
theorem bitFieldsComplete : Obligations.BitFieldsComplete := by
  unfold Obligations.BitFieldsComplete
  refine ⟨?forms, fun f => ⟨?extract, yields_of_lane fun _ => rfl⟩, fun n a b ctl i => ⟨rfl, fun _ _ => testBit_bitInsert n a b ctl i⟩⟩
  case forms =>
    simp only [List.forall_mem_cons, List.not_mem_nil, false_imp_iff, implies_true, and_true]
    and_intros
    all_goals exact forms_of_bare (fun _ => ⟨rfl, rfl, rfl, rfl⟩) fun _ => rfl
  case extract =>
    refine (yields_of_lane fun _ => rfl).congr fun c r l => ?_
    simp only [← intMin_tyElt_neg_iff]
    rfl

/-! Comparisons and moves. -/

/-- Settles O19: each is its operation in every lane. -/
theorem comparisonsAndMovesComplete : Obligations.ComparisonsAndMovesComplete := by
  unfold Obligations.ComparisonsAndMovesComplete
  refine ⟨?icmp, ?sel, fun f => ⟨yieldsPred_of_lane fun _ => rfl, fun a b => ⟨rfl, decide_not.symm, rfl, rfl, rfl, rfl⟩,
    yields_of_lane fun _ => rfl, yields_of_lane fun _ => rfl, yields_of_lane fun _ => rfl⟩⟩
  case icmp =>
    refine forms_of_shape (fun _ => ⟨rfl, rfl, rfl, rfl⟩) fun f h => ?_
    obtain ⟨-, hfn, hrm, hsat, -⟩ := aluX_eq_true_iff.mp h
    exact ⟨by simpa using hfn, hrm rfl, hsat rfl⟩
  case sel => exact forms_of_bare (fun _ => ⟨rfl, rfl, rfl, rfl⟩) fun _ => rfl

end Sys2Proof.Machine
end

section
/-! ## Floating point and conversions (03 R91 to R93, 07 R215 to R238) -/
namespace Sys2Proof.Machine

/-! The rounding of a magnitude (03 R91). -/

/-- What is exact is not rounded up. -/
theorem roundsUp_of_exact {full : Nat} (h : 0 < full) (rm : Nat) (neg odd : Bool) : roundsUp rm neg odd 0 full = false := by
  unfold roundsUp
  split <;> simp [Nat.ne_of_lt h]

/-- At a place `k` bits above the lowest, the bits below it decide. -/
theorem roundAt_add (rm : Nat) (neg : Bool) (m k : Nat) (e : Int) :
    roundAt rm neg m e (e + k) =
      (if roundsUp rm neg (m / 2 ^ k % 2 == 1) (m % 2 ^ k) (2 ^ k) then m / 2 ^ k + 1 else m / 2 ^ k, m % 2 ^ k == 0) := by
  cases k with
  | zero => simp [roundAt, roundsUp_of_exact, Nat.mod_one]
  | succ k =>
    have hplace : (e + (k + 1 : Nat) - e).toNat = k + 1 := by omega
    rw [roundAt, if_neg (by omega), hplace]

/-- The nearest, an even one between two. -/
theorem roundsUp_nearest (neg : Bool) {n rem full : Nat} :
    roundsUp 0 neg (n % 2 == 1) rem full = false ↔ 2 * rem < full ∨ (2 * rem = full ∧ n % 2 = 0) := by
  simp only [roundsUp, Bool.or_eq_false_iff, Bool.and_eq_false_iff, decide_eq_false_iff_not, beq_eq_false_iff_ne]
  omega

theorem roundsUp_up (neg odd : Bool) {rem full : Nat} : roundsUp 2 neg odd rem full = false ↔ rem = 0 ∨ neg = true := by
  cases neg <;> simp [roundsUp]

theorem roundsUp_down (neg odd : Bool) {rem full : Nat} : roundsUp 3 neg odd rem full = false ↔ rem = 0 ∨ neg = false := by
  cases neg <;> simp [roundsUp]

/-- The lower neighbour where a condition holds, the upper one elsewhere. -/
theorem roundAt_add_fst {rm : Nat} {neg : Bool} {m k : Nat} (e : Int) {p : Prop} [Decidable p]
    (h : roundsUp rm neg (m / 2 ^ k % 2 == 1) (m % 2 ^ k) (2 ^ k) = false ↔ p) :
    (roundAt rm neg m e (e + k)).1 = if p then m / 2 ^ k else m / 2 ^ k + 1 := by
  rw [roundAt_add]
  by_cases hp : p
  · simp [hp, h.mpr hp]
  · simp [hp, h]

/-! Sums and products of finite numbers (07 R215). -/

theorem withNans_of_numbers {t : Elt} {xs : List Nat} (h : ∀ x ∈ xs, (readF t x).isNan = false) (f : List FVal → Nat × BitVec 5) :
    withNans t xs f = f (xs.map (readF t)) := by
  have hnone : xs.find? (fun b => (readF t b).isNan) = none := List.find?_eq_none.mpr fun x hx => by simp [h x hx]
  unfold withNans
  dsimp only
  rw [hnone]

theorem isNan_of_finite {t : Elt} {a m : Nat} {n : Bool} {e : Int} (h : readF t a = .fin n m e) : (readF t a).isNan = false := by
  rw [h]
  rfl

section
variable {t : Elt} {rm a b c ma mb mc : Nat} {na nb nc : Bool} {ea eb ec : Int}
  (ha : readF t a = .fin na ma ea) (hb : readF t b = .fin nb mb eb) (hc : readF t c = .fin nc mc ec)
include ha hb

theorem fadd_of_finite : fadd t rm a b = addVal t rm (.fin na ma ea) (.fin nb mb eb) := by
  rw [fadd, withNans_of_numbers (by simp [isNan_of_finite ha, isNan_of_finite hb]), ha, hb]

theorem fsub_of_finite : fsub t rm a b = addVal t rm (.fin na ma ea) (FVal.fin nb mb eb).flip := by
  rw [fsub, withNans_of_numbers (by simp [isNan_of_finite ha, isNan_of_finite hb]), ha, hb]

theorem fmul_of_finite : fmul t rm a b = roundVal t rm false (.fin (na != nb) (ma * mb) (ea + eb)) := by
  rw [fmul, withNans_of_numbers (by simp [isNan_of_finite ha, isNan_of_finite hb]), ha, hb]
  rfl

include hc in
theorem ffma_of_finite : ffma t rm a b c = addVal t rm (.fin (na != nb) (ma * mb) (ea + eb)) (.fin nc mc ec) := by
  rw [ffma, ha, hb]
  change withNans t [c] (fun _ => addVal t rm (.fin (na != nb) (ma * mb) (ea + eb)) (readF t c)) = _
  rw [withNans_of_numbers (by simp [isNan_of_finite hc]), hc]

end

/-- Settles O20: finite numbers are no NaNs, so each operation rounds its exact result, and the bits below a place say which neighbour that is. -/
theorem floatArithmeticCompletes : Obligations.FloatArithmeticCompletes := by
  unfold Obligations.FloatArithmeticCompletes
  refine ⟨?finite, fun x y => ⟨rfl, rfl⟩, ?rounding, fun f => ?results⟩
  case finite =>
    intro e rm a b c ma mb mc na nb nc ea eb ec ha hb hc
    exact ⟨fadd_of_finite ha hb, fsub_of_finite ha hb, fmul_of_finite ha hb, ffma_of_finite ha hb hc⟩
  case rounding =>
    intro neg m k e
    refine ⟨fun rm => ?exact, roundAt_add_fst e (roundsUp_nearest neg), ?toZero, roundAt_add_fst e (roundsUp_up neg _),
      roundAt_add_fst e (roundsUp_down neg _)⟩
    case exact => rw [roundAt_add]; rfl
    case toZero => rw [roundAt_add]; rfl
  case results =>
    and_intros
    all_goals exact yieldsFlags_of_lane fun _ => rfl

/-- Settles O21: each is its operation in every lane, FCMP's with its flags. -/
theorem floatSelectionCompletes : Obligations.FloatSelectionCompletes := by
  unfold Obligations.FloatSelectionCompletes
  intro f
  refine ⟨?fmin, ?fmax, ?fabs, ?fclass, ?fcmp⟩
  case fmin | fmax | fabs | fclass => exact yieldsFlags_of_lane fun _ => rfl
  case fcmp => exact acts_of_body (w := { body := fcmpBody }) (fun _ => rfl) (fun _ => rfl) rfl rfl fun _ _ _ _ _ => rfl

/-- Settles O22: each is its conversion in every lane. -/
theorem conversionsComplete : Obligations.ConversionsComplete := by
  unfold Obligations.ConversionsComplete
  intro f
  exact ⟨yieldsFlags_of_lane fun _ => rfl, yieldsFlags_of_lane fun _ => rfl, yieldsFlags_of_lane fun _ => rfl, yields_of_lane fun _ => rfl⟩

/-- FFLAG by its function: it reads, clears or sets flags (07 R238). -/
theorem fflagBody_eq (c : Ctx) (r : Run) :
    let old := fun (l : Nat) => Sparse.get (0 : BitVec 5) c.grp.fflags l
    let m := fun (l : Nat) => BitVec.ofNat 5 (c.aAs r .n32 l)
    fflagBody c r = writeRes (if fnOf c.f = 0 then r
      else putFlags r c fun l => if fnOf c.f = 1 then old l &&& ~~~(m l) else old l ||| m l) c .n32 fun l => (old l).toNat := by
  unfold fflagBody
  dsimp only
  split
  · rename_i h
    rw [if_pos h]
  · rename_i h
    simp [h]
  · rename_i h0 h1
    simp only [if_neg h0, if_neg h1]

/-- Settles O23: each packs or unpacks in every lane; FFLAG's edit of flags comes before its result. -/
theorem packedFormatsAndFlagsComplete : Obligations.PackedFormatsAndFlagsComplete := by
  unfold Obligations.PackedFormatsAndFlagsComplete
  intro f
  refine ⟨?pk8, ?unpk8, ?pkl6, ?unpkl6, ?l6mul, ?l6lin, ?sclx, ?fmtw, ?pkh, ?unpkh, fun s c r h hp => ?fflag⟩
  case pk8 | unpk8 | pkl6 | unpkl6 | l6mul | l6lin | sclx | pkh | unpkh => exact yieldsFlags_of_lane fun _ => rfl
  case fmtw => exact yields_of_lane fun _ => rfl
  case fflag =>
    obtain ⟨r', hr'⟩ := writeRes_plain hp _ .n32 fun l => (Sparse.get (0 : BitVec 5) c.grp.fflags l).toNat
    exact ⟨r', hr', issue_completed (w := { body := fflagBody }) h (.inr (.inr rfl)) (.inl rfl) rfl ((fflagBody_eq c (advance c r)).trans hr')⟩

end Sys2Proof.Machine
end

section
/-! ## Accesses to memory and scratch that complete (08 R248 to R255) -/
namespace Sys2Proof.Machine

/-! What completes with a result, and what waits for its replies. -/

/-- An instruction whose effect ends in one result, for a plain destination, completes with it. -/
theorem exec_completes_with_result {i : Instr} {w : Work} {s : State} {c c' : Ctx} {r r1 : Run} {res : ResW} {val : Nat → Nat}
    (he : ∀ s, exec i s = issue i w s) (h : Ready i s c r) (hc : c.shadowed = false ∨ c.active = 0 ∨ w.cmp c.f = .none)
    (hf : w.finish = none ∨ c.grp.remotes.any (ownRemote c.pc c.slices) = false) (hfin : w.fin = fun _ r => r) (hp : plainDest c' = true)
    (hb : w.body c (advance c r) = writeRes r1 c' res val) :
    ∃ r', writeRes r1 c' res val = .ok r' ∧ exec i s = .next (completed s c r') := by
  obtain ⟨r', hr'⟩ := writeRes_plain hp r1 res val
  exact ⟨r', hr', by rw [he]; exact issue_completed h hc hf hfin (hb.trans hr')⟩

/-- An instruction whose requests leave waits for their replies, whatever commits its words ask for first (08 R262). -/
theorem issue_sent {i : Instr} {w : Work} {s : State} {c : Ctx} {r : Run} {x : Wait} {keep : Run → Run} (h : Ready i s c r)
    (hc : c.shadowed = false ∨ c.active = 0 ∨ w.cmp c.f = .none)
    (hf : w.finish = none ∨ c.grp.remotes.any (ownRemote c.pc c.slices) = false)
    (hb : w.body c (advance c r) = .error (.sent x keep)) :
    issue i w s = .next { s with run := beginWait (keep r) c.gid c.slices x (fun _ r => r) (c.sh.switch || c.usesQueue) } := by
  obtain ⟨base, -, h⟩ := issue_ready h hc hf
  rw [h, readyOutcome, hb]

/-! Loads (R248, R250). -/

theorem loadWork_body {lanes : Ctx → List Nat} {pick : Ctx → Nat → Nat} {c : Ctx} {r r1 r2 : Run} {as : List (Nat × List Piece64)}
    {vals : Sparse Nat} (ha : globalAccess r c (lanes c) 0 c.size (kindAligned c.f) (gAddr r c) = .ok (as, r1))
    (hv : readLanes r1 c as = .ok (vals, r2)) : (loadWork lanes pick).body c r =
      writeRes (replicateAll r2 c as) c (loadRes c.f) fun l => extendTo c.f (Sparse.get 0 vals (pick c l)) := by
  unfold loadWork
  simp only [ha, hv, bind, Except.bind]

/-- LDG's effect: none without an active lane, else the load of the lowest one. -/
def ldgBody : Body := fun c r =>
  if c.active = 0 then .ok r else (loadWork (fun c => c.lanes.take 1) fun c _ => c.lowest.getD 0).body c r

theorem exec_ldg (f : Fields) (s : State) : exec (.ldg f) s = issue (.ldg f) { body := ldgBody } s := rfl

theorem ldgBody_of_no_lane {c : Ctx} (h : c.active = 0) (r : Run) : ldgBody c r = .ok r := if_pos h

theorem ldgBody_of_lane {c : Ctx} (h : c.active ≠ 0) (r : Run) :
    ldgBody c r = (loadWork (fun c => c.lanes.take 1) fun c _ => c.lowest.getD 0).body c r := if_neg h

/-- A load of some lanes completes where their accesses pass and no block fails. -/
theorem load_completes {i : Instr} {body : Body} {lanes : Ctx → List Nat} {pick : Ctx → Nat → Nat} {s : State} {c : Ctx} {r r1 : Run}
    {as : List (Nat × List Piece64)} (he : ∀ s, exec i s = issue i { body } s) (h : Ready i s c r)
    (hbody : body c (advance c r) = (loadWork lanes pick).body c (advance c r)) (hp : plainDest c = true)
    (ha : globalAccess (advance c r) c (lanes c) 0 c.size (kindAligned c.f) (gAddr (advance c r) c) = .ok (as, r1))
    (hgood : goodPieces r1 c.part as) :
    ∃ vals r2 r', readLanes r1 c as = .ok (vals, r2) ∧
      writeRes (replicateAll r2 c as) c (loadRes c.f) (fun l => extendTo c.f (Sparse.get 0 vals (pick c l))) = .ok r' ∧
      exec i s = .next (completed s c r') := by
  obtain ⟨vals, r2, hv⟩ := readLanes_good hgood
  obtain ⟨r', hr', hx⟩ := exec_completes_with_result he h (.inr (.inr rfl)) (.inl rfl) rfl hp (hbody.trans (loadWork_body ha hv))
  exact ⟨vals, r2, r', hv, hr', hx⟩

/-- Settles O26: both loads are one effect, for all active lanes or for the lowest, and lanes whose blocks are good read them. -/
theorem loadsComplete : Obligations.LoadsComplete := by
  unfold Obligations.LoadsComplete
  intro f s c r r1 as hp
  refine ⟨fun h ha hgood => ?ld, fun h hnone => ?idle, fun h hact ha hgood => ?ldg⟩
  case ld => exact load_completes (lanes := Ctx.lanes) (pick := fun _ l => l) (fun _ => rfl) h rfl hp ha hgood
  case idle =>
    rw [exec_ldg]
    exact issue_completed h (.inr (.inr rfl)) (.inl rfl) rfl (ldgBody_of_no_lane hnone _)
  case ldg =>
    exact load_completes (lanes := fun c => c.lanes.take 1) (pick := fun c _ => c.lowest.getD 0) (exec_ldg f) h (ldgBody_of_lane hact _) hp ha
      hgood

/-! Stores (R249). -/

/-- ST outside a protected launch leaves its lanes' stores, to be performed. -/
theorem exec_st {f : Fields} {s : State} {c : Ctx} {r r1 : Run} {as : List (Nat × List Piece64)} (h : Ready (.st f) s c r)
    (ha : globalAccess (advance c r) c c.lanes 1 c.size (kindAligned c.f) (gAddr (advance c r) c) = .ok (as, r1)) (hu : c.unpaired) :
    exec (.st f) s = .next (completed s c (storeLate r1 (as.map fun x => laneLate c x.1 x.2 (storeVal r1 c x.1)))) := by
  have hs : c.shadowed = false := hu
  refine issue_completed h (.inl hs) (.inl rfl) rfl ?_
  simp only [ha, bind, Except.bind, hs, Bool.false_eq_true, ite_false]

/-- Settles O27. -/
theorem storesComplete : Obligations.StoresComplete := fun _ _ _ _ _ _ h ha hu => exec_st h ha hu

/-! Scratch (R251). -/

/-- Settles O30: each effect follows its checks, which pass. -/
theorem scratchAccessesComplete : Obligations.ScratchAccessesComplete := by
  unfold Obligations.ScratchAccessesComplete
  intro f s c r
  refine ⟨fun hcmp h hp hin hwait => ?lds, fun hu h hin hwait => ?sts, fun hu h hin => ?sfill, fun h hp hin => ?sstat⟩
  case lds =>
    refine exec_completes_with_result (fun _ => rfl) h (hcmp.imp id fun hsub => .inr (if_neg hsub)) (.inl rfl) rfl hp ?_
    by_cases hplain : subOf c.f = 0
    · simp [hin, hplain, bind, Except.bind]
    · simp [hin, hplain, hwait.resolve_left hplain, bind, Except.bind]
  case sts =>
    have hs : c.shadowed = false := hu
    refine issue_completed h (.inl hs) (.inl rfl) rfl ?_
    by_cases hgive : subOf c.f = 2
    · simp [hin, hgive, hwait.resolve_left (fun hne => hne hgive), hs, bind, Except.bind]
    · simp [hin, hgive, hs, bind, Except.bind]
  case sfill =>
    refine issue_completed h (.inl hu) (.inl rfl) rfl ?_
    simp only [hin, bind, Except.bind]
  case sstat =>
    refine exec_completes_with_result (fun _ => rfl) h (.inr (.inr rfl)) (.inl rfl) rfl hp ?_
    simp only [hin, bind, Except.bind]
    rfl

/-! Atomics (R252 to R255). -/

/-- The effect of an atomic on global memory with a result. -/
def atomicBody (new : Ctx → Run → Nat → Nat → Option Nat) : Body := fun c r => do
  let (old, r') ← globalAtomics r c (new c r) true
  atomRes r' c old

theorem exec_atom (f : Fields) (s : State) :
    exec (.atom f) s = issue (.atom f) { cmp := fun _ => .atomic, body := atomicBody fun c r => atomWith r c } s := rfl

theorem exec_acas (f : Fields) (s : State) :
    exec (.acas f) s = issue (.acas f)
      { cmp := fun _ => .atomic, body := atomicBody fun c r l old => casNew (readSrc r c c.f.d c.elt l) old (c.cAs r c.elt l) } s := rfl

/-- An atomic outside a protected launch completes with the old values of the lanes that acted. -/
theorem atomic_completes {i : Instr} {new : Ctx → Run → Nat → Nat → Option Nat} {s : State} {c : Ctx} {r r1 : Run} {old : Sparse Nat}
    (he : ∀ s, exec i s = issue i { cmp := fun _ => .atomic, body := atomicBody new } s) (hu : c.unpaired) (h : Ready i s c r)
    (hp : plainDest c = true) (ha : globalAtomics (advance c r) c (new c (advance c r)) true = .ok (old, r1)) :
    ∃ r', atomRes r1 c old = .ok r' ∧ exec i s = .next (completed s c r') := by
  have hb : atomicBody new c (advance c r) = atomRes r1 c old := by
    unfold atomicBody
    simp only [ha, bind, Except.bind]
  exact exec_completes_with_result he h (.inl hu) (.inl rfl) rfl hp hb

theorem atomNew_of_int {e : Elt} (he : e ∈ [Elt.i32, .n32, .i64, .n64]) (old x : Nat) :
    atomNew e 0 old x = lowBits e.bits (readI e old + readI e x) ∧ atomNew e 1 old x = lowBits e.bits (readI e old - readI e x) ∧
    atomNew e 2 old x = old &&& x ∧ atomNew e 3 old x = old ||| x ∧ atomNew e 4 old x = old ^^^ x ∧
    atomNew e 5 old x = (if readI e x < readI e old then x else old) ∧ atomNew e 6 old x = (if readI e old < readI e x then x else old) ∧
    atomNew e 7 old x = x ∧ atomNew e 8 old x = (if old < x then old + 1 else 0) ∧
    atomNew e 9 old x = (if old = 0 ∨ x < old then x else old - 1) := by
  have hint : isFloatElt e = false := by
    simp only [List.mem_cons, List.not_mem_nil, or_false] at he
    rcases he with rfl | rfl | rfl | rfl <;> rfl
  have hcount : atomNew e 8 old x = if old < x then old + 1 else 0 := by
    by_cases h : x ≤ old
    · simp [atomNew, h, Nat.not_lt.mpr h]
    · simp [atomNew, h, Nat.lt_of_not_le h]
  refine ⟨?_, rfl, rfl, rfl, rfl, ?_, ?_, rfl, hcount, ?_⟩
  all_goals simp [atomNew, hint]

/-- Settles O31: each atomic's effect answers as the statement says, and the operations on integers are those of R253. -/
theorem atomicsComplete : Obligations.AtomicsComplete := by
  unfold Obligations.AtomicsComplete
  intro f s c r r1 old r0 result hu
  refine ⟨fun h hp ha => ?atom, fun h hp ha => ?acas, fun h ha => ?red, fun h hp hin => ?atoms, fun e old x he => atomNew_of_int he old x⟩
  case atom => exact atomic_completes (exec_atom f) hu h hp ha
  case acas => exact atomic_completes (exec_acas f) hu h hp ha
  case red =>
    refine issue_completed h (.inl hu) (.inl rfl) rfl ?_
    exact congrArg (Except.map Prod.snd) ha
  case atoms =>
    refine exec_completes_with_result (fun _ => rfl) h (.inl hu) (.inl rfl) rfl (c' := { c with active := c.active &&& maskOf _ }) hp ?_
    have hin' : scratchAccess c c.lanes c.size (natural c.size) (sAddr (advance c r) c) = .ok () := hin
    simp only [hin', bind, Except.bind]
    rfl

end Sys2Proof.Machine
end

section
/-! ## Remote instructions that complete (08 R262 to R265) -/
namespace Sys2Proof.Machine

theorem laneReqs_isEmpty (r : Run) (c : Ctx) (lanes : List Nat) (data : Nat → List Byte) : (laneReqs r c lanes data).isEmpty = lanes.isEmpty :=
  List.isEmpty_map

theorem sendBuffered_of_unpaired {c : Ctx} (hu : c.unpaired) (r : Run) (covers : Nat → Bool) : sendBuffered c r covers = .ok () := by
  have hs : c.shadowed = false := hu
  simp [sendBuffered, hs]

/-- The effect of RLD while no request of it is in flight. -/
def rldBody : Body := fun c r => do
  let r ← remoteCheck r c c.lanes 0 (strongAligned c.size)
  let ls := laneReqs r c c.lanes fun _ => []
  if ls.isEmpty then writeRes r c (loadRes c.f) fun _ => 0
  else if !tagRoom r ls then .error (.wait remoteWait fun _ r => r)
  else .error (.sent remoteWait fun r => launchRemote r c 1 0 false ls)

/-- What RLD leaves when its replies have come. -/
def rldFinish : Body := fun c r => do
  let vals ← remoteValues c
  writeRes (dropOwn r c) c (loadRes c.f) fun l => extendTo c.f (Sparse.get 0 vals l)

theorem rldFinish_of_values {c : Ctx} {vals : Sparse Nat} (h : remoteValues c = .ok vals) (r : Run) :
    rldFinish c r = writeRes (dropOwn r c) c (loadRes c.f) fun l => extendTo c.f (Sparse.get 0 vals l) := by
  unfold rldFinish
  simp only [h, bind, Except.bind]

/-- What is RLD's own. -/
def rldWork : Work := { body := rldBody, finish := some rldFinish }

theorem exec_rld (f : Fields) (s : State) : exec (.rld f) s = issue (.rld f) rldWork s := rfl

theorem rldBody_of_lanes {c : Ctx} {r r1 : Run} (hchk : remoteCheck r c c.lanes 0 (strongAligned c.size) = .ok r1) (hne : c.lanes ≠ [])
    (hroom : tagRoom r1 (laneReqs r1 c c.lanes fun _ => []) = true) :
    rldBody c r = .error (.sent remoteWait fun r => launchRemote r c 1 0 false (laneReqs r1 c c.lanes fun _ => [])) := by
  simp [rldBody, hchk, bind, Except.bind, laneReqs_isEmpty, hne, hroom]

theorem rldBody_of_no_lane {c : Ctx} {r r1 : Run} (hchk : remoteCheck r c c.lanes 0 (strongAligned c.size) = .ok r1) (hnil : c.lanes = []) :
    rldBody c r = writeRes r1 c (loadRes c.f) fun _ => 0 := by
  have hnone : (laneReqs r1 c c.lanes fun _ => []).isEmpty = true := by simpa [laneReqs_isEmpty] using hnil
  unfold rldBody
  simp only [hchk, bind, Except.bind, hnone, ite_true]

/-- The bytes that a lane of RATOM sends: the operand, behind the compared value for `.CAS` (18 R461). -/
def ratomOperand (c : Ctx) (r : Run) (l : Nat) : List Byte :=
  (if aopOf c.f = 10 then leBytes c.size (readSrc r c c.f.d c.elt l) else []) ++ leBytes c.size (c.cAs r c.elt l)

/-- The requests of RATOM. -/
def ratomReqs (c : Ctx) (r : Run) : List LaneReq := laneReqs r c (ratomLanes c) fun l => slotBytes 0 (ratomOperand c r l)

/-- The effect of RATOM while no request of it is in flight. -/
def ratomBody : Body := fun c r => do
  let r ← remoteCheck r c (ratomLanes c) 2 (natural c.size)
  if (ratomReqs c r).isEmpty then ratomResult r c [] []
  else
    match c.l.mode with
    | .replay _ _ =>
      let (vals, r) := ratomReplay r c (ratomLanes c)
      ratomResult r c (vals.map (·.1)) vals
    | _ =>
      if !tagRoom r (ratomReqs c r) then .error (.wait remoteWait fun _ r => r)
      else .error (.sent remoteWait fun r' => launchRemote (regionStart r' c.gid c.slices) c 3 (aopOf c.f) true (ratomReqs c r))

/-- What RATOM leaves when its replies have come. -/
def ratomFinish : Body := fun c r => do
  let vals ← remoteValues c
  ratomResult r c ((ownRemotes c).flatMap fun x => x.lanes.map (·.lane)) vals

theorem ratomFinish_of_values {c : Ctx} {vals : Sparse Nat} (h : remoteValues c = .ok vals) (r : Run) :
    ratomFinish c r = ratomResult r c ((ownRemotes c).flatMap fun x => x.lanes.map (·.lane)) vals := by
  unfold ratomFinish
  simp only [h, bind, Except.bind]

/-- What is RATOM's own. -/
def ratomWork : Work := { cmp := fun _ => .atomic, compared := ratomLanes, body := ratomBody, finish := some ratomFinish }

theorem exec_ratom (f : Fields) (s : State) : exec (.ratom f) s = issue (.ratom f) ratomWork s := rfl

theorem ratomBody_of_lanes {c : Ctx} {r r1 : Run} (hchk : remoteCheck r c (ratomLanes c) 2 (natural c.size) = .ok r1) (hne : ratomLanes c ≠ [])
    (hmode : ∀ a b, c.l.mode ≠ .replay a b) (hroom : tagRoom r1 (ratomReqs c r1) = true) :
    ratomBody c r = .error (.sent remoteWait fun r =>
      launchRemote (regionStart r c.gid c.slices) c 3 (aopOf c.f) true (ratomReqs c r1)) := by
  have hsome : (ratomReqs c r1).isEmpty = false := by simpa [ratomReqs, laneReqs_isEmpty] using hne
  unfold ratomBody
  -- of the modes, `hmode` leaves the alternative that sends
  simp only [hchk, bind, Except.bind, hsome, hroom, Bool.not_true, Bool.false_eq_true, ite_false]

theorem ratomBody_of_replay {c : Ctx} {r r1 : Run} {a b : Nat} (hchk : remoteCheck r c (ratomLanes c) 2 (natural c.size) = .ok r1)
    (hne : ratomLanes c ≠ []) (hmode : c.l.mode = .replay a b) : ratomBody c r =
      ratomResult (ratomReplay r1 c (ratomLanes c)).2 c ((ratomReplay r1 c (ratomLanes c)).1.map (·.1)) (ratomReplay r1 c (ratomLanes c)).1 := by
  have hsome : (ratomReqs c r1).isEmpty = false := by simpa [ratomReqs, laneReqs_isEmpty] using hne
  unfold ratomBody
  simp only [hchk, bind, Except.bind, hsome, hmode, Bool.false_eq_true, ite_false]

theorem ratomBody_of_no_lane {c : Ctx} {r r1 : Run} (hchk : remoteCheck r c (ratomLanes c) 2 (natural c.size) = .ok r1)
    (hnil : ratomLanes c = []) : ratomBody c r = ratomResult r1 c [] [] := by
  have hnone : (ratomReqs c r1).isEmpty = true := by simpa [ratomReqs, laneReqs_isEmpty] using hnil
  unfold ratomBody
  simp only [hchk, bind, Except.bind, hnone, ite_true]

theorem ratomResult_plain {c : Ctx} (hp : plainDest c = true) (r : Run) (lanes : List Nat) (vals : Sparse Nat) :
    ∃ r', ratomResult r c lanes vals = .ok r' :=
  writeRes_plain (c := { c with active := maskOf lanes }) hp _ _ _

/-- Settles O33: each instruction's effect, by whether it has requests to send, waits or completes; a landed one has its `finish` for its effect. -/
theorem remoteInstructionsComplete : Obligations.RemoteInstructionsComplete := by
  unfold Obligations.RemoteInstructionsComplete
  intro f s c r r1 r0 waits hu
  have hs : c.shadowed = false := hu
  refine ⟨fun h hchk hroom => ?rst, fun hidle => ⟨fun h hchk => ⟨fun hne hroom => ?rldSent, fun hnil hp => ?rldNoLane⟩,
    fun h hchk => ⟨fun hne hmode hroom => ?ratomSent, fun a b hmode hne hp => ?ratomReplayed, fun hnil hp => ?ratomNoLane⟩⟩,
    fun vals h hp hq hvals => ?rldLanded, fun vals h hp hq hvals => ?ratomLanded, fun h hopen => ?rfence⟩
  case rst =>
    have hchk' : remoteCheck (advance c r) c c.lanes 1 (strongAligned c.size) = .ok r1 := hchk
    refine issue_completed h (.inl hs) (.inl rfl) rfl ?_
    simp [hchk', bind, Except.bind, hs, hroom]
  case rldSent =>
    exact (exec_rld f s).trans <| issue_sent (w := rldWork) h (.inl hs) (.inr hidle) (rldBody_of_lanes hchk hne hroom)
  case rldNoLane => exact exec_completes_with_result (exec_rld f) h (.inl hs) (.inr hidle) rfl hp (rldBody_of_no_lane hchk hnil)
  case ratomSent =>
    exact (exec_ratom f s).trans <| issue_sent (w := ratomWork) h (.inl hs) (.inr hidle) (ratomBody_of_lanes hchk hne hmode hroom)
  case ratomReplayed =>
    exact exec_completes_with_result (c' := { c with active := maskOf _ }) (exec_ratom f) h (.inl hs) (.inr hidle) rfl hp
      (ratomBody_of_replay hchk hne hmode)
  case ratomNoLane =>
    exact exec_completes_with_result (c' := { c with active := maskOf [] }) (exec_ratom f) h (.inl hs) (.inr hidle) rfl hp
      (ratomBody_of_no_lane hchk hnil)
  case rldLanded =>
    obtain ⟨r', hr'⟩ := writeRes_plain hp (dropOwn (advance c (c.onto s.run)) c) (loadRes c.f) fun l => extendTo c.f (Sparse.get 0 vals l)
    exact ⟨r', hr', issue_landed h hu rfl rfl hq ((rldFinish_of_values hvals _).trans hr')⟩
  case ratomLanded =>
    obtain ⟨r', hr'⟩ := ratomResult_plain hp (advance c (c.onto s.run)) ((ownRemotes c).flatMap fun x => x.lanes.map (·.lane)) vals
    exact ⟨r', hr', issue_landed h hu rfl rfl hq ((ratomFinish_of_values hvals _).trans hr')⟩
  case rfence =>
    refine issue_completed h (.inl hs) (.inl rfl) rfl ?_
    simp only [sendBuffered_of_unpaired hu, bind, Except.bind]
    exact congrArg (Except.map fun _ => advance c r) hopen

end Sys2Proof.Machine
end

section
/-! ## Addresses that are not accepted (08 R243, R244) -/
namespace Sys2Proof.Machine

/-- MISALIGNED of the lowest of some lanes whose address is not accepted. -/
def misalignedTrap (c : Ctx) (lanes : List Nat) (ok : Nat → Bool) (ea : Nat → W64) : Option TrapInfo :=
  (lanes.find? fun l => !ok (ea l).toNat).map fun l => c.trap .misaligned 0 l (ea l)

/-- SCRATCH_BOUND of the lowest active lane beyond the team's allocation. -/
def outsideTrap (c : Ctx) (n : Nat) (ea : Nat → Nat) : Option TrapInfo :=
  (c.lanes.find? fun l => !scrIn c.t (ea l) n).map fun l => c.trap .scratchBound 0 l (w64 (ea l))

/-- What a scratch access meets: its alignment comes first. -/
def scratchTrap (c : Ctx) (r : Run) (n : Nat) (ok : Nat → Bool) : Option TrapInfo :=
  (misalignedTrap c c.lanes ok fun l => w64 (sAddr r c l)).orElse fun _ => outsideTrap c n (sAddr r c)

/-- The check of alignment is that trap, and passes where there is none. -/
theorem checkAligned_eq (c : Ctx) (lanes : List Nat) (ok : Nat → Bool) (ea : Nat → W64) :
    checkAligned c lanes ok (fun l => (ea l).toNat) =
      match misalignedTrap c lanes ok ea with
      | some t => .error (.trap t [])
      | none => .ok () := by
  unfold checkAligned misalignedTrap
  cases lanes.find? fun l => !ok (ea l).toNat <;> simp [Ctx.misaligned, w64]

theorem globalAccess_misaligned {c : Ctx} {lanes : List Nat} {ok : Nat → Bool} {ea : Nat → W64} {t : TrapInfo}
    (h : misalignedTrap c lanes ok ea = some t) (r : Run) (kind size : Nat) : globalAccess r c lanes kind size ok ea = .error (.trap t []) := by
  unfold globalAccess
  rw [checkAligned_eq, h]
  rfl

theorem globalAtomics_misaligned {c : Ctx} {r : Run} {t : TrapInfo} (h : misalignedTrap c c.lanes (natural c.size) (gAddr r c) = some t)
    (new : Nat → Nat → Option Nat) (log : Bool) : globalAtomics r c new log = .error (.trap t []) := by
  unfold globalAtomics
  simp only [globalAccess_misaligned h, bind, Except.bind]

theorem remoteCheck_misaligned {c : Ctx} {r : Run} {lanes : List Nat} {ok : Nat → Bool} {t : TrapInfo}
    (h : misalignedTrap c lanes ok (rAddr r c) = some t) (right : Nat) : remoteCheck r c lanes right ok = .error (.trap t []) := by
  unfold remoteCheck
  rw [checkAligned_eq, h]
  rfl

/-- A scratch offset has 32 bits. -/
theorem sAddr_toNat (r : Run) (c : Ctx) (l : Nat) : (w64 (sAddr r c l)).toNat = sAddr r c l := by
  have h : sAddr r c l < 2 ^ 32 := Nat.mod_lt _ (by decide)
  simp only [w64, BitVec.toNat_ofNat]
  omega

theorem scratchAccess_traps {c : Ctx} {r : Run} {n : Nat} {ok : Nat → Bool} {t : TrapInfo} (h : scratchTrap c r n ok = some t) :
    scratchAccess c c.lanes n ok (sAddr r c) = .error (.trap t []) := by
  have halign := checkAligned_eq c c.lanes ok fun l => w64 (sAddr r c l)
  simp only [sAddr_toNat] at halign
  unfold scratchAccess
  rw [halign]
  unfold scratchTrap at h
  cases hbad : misalignedTrap c c.lanes ok fun l => w64 (sAddr r c l) with
  | some u =>
    rw [hbad] at h
    obtain rfl := Option.some.inj h
    rfl
  | none =>
    rw [hbad] at h
    obtain ⟨l, hl, rfl⟩ := Option.map_eq_some_iff.mp h
    simp only [bind, Except.bind, hl]

theorem loadWork_misaligned {lanes : Ctx → List Nat} {pick : Ctx → Nat → Nat} {c : Ctx} {r : Run} {t : TrapInfo}
    (h : misalignedTrap c (lanes c) (kindAligned c.f) (gAddr r c) = some t) : (loadWork lanes pick).body c r = .error (.trap t []) := by
  unfold loadWork
  simp only [globalAccess_misaligned h, bind, Except.bind]

theorem atomicBody_misaligned {c : Ctx} {r : Run} {t : TrapInfo} (h : misalignedTrap c c.lanes (natural c.size) (gAddr r c) = some t)
    (new : Ctx → Run → Nat → Nat → Option Nat) : atomicBody new c r = .error (.trap t []) := by
  unfold atomicBody
  simp only [globalAtomics_misaligned h, bind, Except.bind]

theorem strongAligned_eq (n a : Nat) : strongAligned n a = (a % (if n ≤ 2 then n else 4) == 0) := by
  unfold strongAligned
  split <;> rfl

/-- Outside a protected launch `i` takes the trap that `trap` answers. -/
def TrapsUnpaired (i : Instr) (trap : Ctx → Run → Option TrapInfo) : Prop :=
  ∀ s c r t, c.unpaired → Ready i s c r → trap c (advance c r) = some t →
    exec i s = .next { s with run := trapAt (c.onto s.run) c.gid c.slices t [] }

/-- A trap that the effect answers, of an instruction that is not in flight. -/
theorem trapsUnpaired_of_body {i : Instr} {w : Work} {trap : Ctx → Run → Option TrapInfo} (he : ∀ s, exec i s = issue i w s)
    (hb : ∀ c r t, trap c r = some t →
      (w.finish = none ∨ c.grp.remotes.any (ownRemote c.pc c.slices) = false) ∧ w.body c r = .error (.trap t [])) : TrapsUnpaired i trap := by
  intro s c r t hu h ht
  obtain ⟨hf, hbody⟩ := hb c (advance c r) t ht
  rw [he, issue_traps h (.inl hu) hf hbody, Ctx.begun_of_unpaired hu]

theorem ld_traps (f : Fields) : Traps (.ld f) fun c r => misalignedTrap c c.lanes (kindAligned c.f) (gAddr r c) :=
  fun _ _ _ _ h ht => issue_traps (w := loadWork Ctx.lanes fun _ l => l) h (.inr (.inr rfl)) (.inl rfl) (loadWork_misaligned ht)

theorem ldg_traps (f : Fields) : Traps (.ldg f) fun c r => misalignedTrap c (c.lanes.take 1) (kindAligned c.f) (gAddr r c) := by
  intro s c r t h ht
  have hact : c.active ≠ 0 := fun hnone => by simp [misalignedTrap, lanes_of_no_lane hnone] at ht
  rw [exec_ldg]
  exact issue_traps h (.inr (.inr rfl)) (.inl rfl) ((ldgBody_of_lane hact _).trans (loadWork_misaligned (lanes := fun c => c.lanes.take 1) ht))

theorem sstat_traps (f : Fields) : Traps (.sstat f) fun c r => scratchTrap c r 1 fun _ => true := by
  intro s c r t h ht
  refine issue_traps h (.inr (.inr rfl)) (.inl rfl) ?_
  simp only [scratchAccess_traps ht, bind, Except.bind]

theorem st_traps (f : Fields) : TrapsUnpaired (.st f) fun c r => misalignedTrap c c.lanes (kindAligned c.f) (gAddr r c) := by
  refine trapsUnpaired_of_body (fun _ => rfl) fun c r t ht => ⟨.inl rfl, ?_⟩
  simp only [globalAccess_misaligned ht, bind, Except.bind]

theorem lds_traps (f : Fields) : TrapsUnpaired (.lds f) fun c r => scratchTrap c r c.size (lineAligned c.f) := by
  refine trapsUnpaired_of_body (fun _ => rfl) fun c r t ht => ⟨.inl rfl, ?_⟩
  simp only [scratchAccess_traps ht, bind, Except.bind]

theorem sts_traps (f : Fields) : TrapsUnpaired (.sts f) fun c r => scratchTrap c r c.size (lineAligned c.f) := by
  refine trapsUnpaired_of_body (fun _ => rfl) fun c r t ht => ⟨.inl rfl, ?_⟩
  simp only [scratchAccess_traps ht, bind, Except.bind]

theorem sfill_traps (f : Fields) : TrapsUnpaired (.sfill f) fun c r => scratchTrap c r 1 fun _ => true := by
  refine trapsUnpaired_of_body (fun _ => rfl) fun c r t ht => ⟨.inl rfl, ?_⟩
  simp only [scratchAccess_traps ht, bind, Except.bind]

theorem atomic_traps {i : Instr} {new : Ctx → Run → Nat → Nat → Option Nat}
    (he : ∀ s, exec i s = issue i { cmp := fun _ => .atomic, body := atomicBody new } s) :
    TrapsUnpaired i fun c r => misalignedTrap c c.lanes (natural c.size) (gAddr r c) :=
  trapsUnpaired_of_body he fun _ _ _ ht => ⟨.inl rfl, atomicBody_misaligned ht new⟩

theorem atomics_trap (f : Fields) : ∀ i ∈ [Instr.atom f, .acas f, .red f],
    TrapsUnpaired i fun c r => misalignedTrap c c.lanes (natural c.size) (gAddr r c) := by
  simp only [List.forall_mem_cons, List.not_mem_nil, false_imp_iff, implies_true, and_true]
  refine ⟨atomic_traps (exec_atom f), atomic_traps (exec_acas f), ?_⟩
  refine trapsUnpaired_of_body (fun _ => rfl) fun c r t ht => ⟨.inl rfl, ?_⟩
  simp only [globalAtomics_misaligned ht, Except.map]

theorem atoms_traps (f : Fields) : TrapsUnpaired (.atoms f) fun c r => scratchTrap c r c.size (natural c.size) := by
  refine trapsUnpaired_of_body (fun _ => rfl) fun c r t ht => ⟨.inl rfl, ?_⟩
  simp only [scratchAccess_traps ht, bind, Except.bind]

theorem rst_traps (f : Fields) : TrapsUnpaired (.rst f) fun c r => misalignedTrap c c.lanes (strongAligned c.size) (rAddr r c) := by
  refine trapsUnpaired_of_body (fun _ => rfl) fun c r t ht => ⟨.inl rfl, ?_⟩
  simp only [remoteCheck_misaligned ht, bind, Except.bind]

/-- A trap that an instruction takes only while no request of it is in flight. -/
def unlessFlying (c : Ctx) (t : Option TrapInfo) : Option TrapInfo := if c.grp.remotes.any (ownRemote c.pc c.slices) then none else t

theorem unlessFlying_eq_some {c : Ctx} {t : Option TrapInfo} {u : TrapInfo} (h : unlessFlying c t = some u) :
    c.grp.remotes.any (ownRemote c.pc c.slices) = false ∧ t = some u := by
  simpa [unlessFlying] using h

theorem rld_traps (f : Fields) :
    TrapsUnpaired (.rld f) fun c r => unlessFlying c (misalignedTrap c c.lanes (strongAligned c.size) (rAddr r c)) := by
  refine trapsUnpaired_of_body (exec_rld f) fun c r t ht => ?_
  obtain ⟨hidle, ht⟩ := unlessFlying_eq_some ht
  refine ⟨.inr hidle, ?_⟩
  simp only [rldWork, rldBody, remoteCheck_misaligned ht, bind, Except.bind]

theorem ratom_traps (f : Fields) :
    TrapsUnpaired (.ratom f) fun c r => unlessFlying c (misalignedTrap c (ratomLanes c) (natural c.size) (rAddr r c)) := by
  refine trapsUnpaired_of_body (exec_ratom f) fun c r t ht => ?_
  obtain ⟨hidle, ht⟩ := unlessFlying_eq_some ht
  refine ⟨.inr hidle, ?_⟩
  simp only [ratomWork, ratomBody, remoteCheck_misaligned ht, bind, Except.bind]

/-- Settles O29: the checks come first in the effect of each access. -/
theorem misalignedAccessesTrap : Obligations.MisalignedAccessesTrap := by
  unfold Obligations.MisalignedAccessesTrap
  exact ⟨fun f => ⟨ld_traps f, ldg_traps f, sstat_traps f, st_traps f, lds_traps f, sts_traps f, sfill_traps f, atomics_trap f, atoms_traps f,
      rst_traps f, rld_traps f, ratom_traps f⟩,
    fun f n a => ⟨strongAligned_eq n a, rfl, fun h => by simp [kindAligned, h], fun h => by simp [kindAligned, h]⟩⟩

end Sys2Proof.Machine
end

section
/-! ## What reads and translations leave as it was (16 R420 to R422, 17 R450) -/
namespace Sys2Proof.Machine

/-- Memory, the stores that are not performed yet, and all work are as before: what a read of memory, or a translation, leaves. -/
def Run.readsOnly (r t : Run) : Prop := r.sameWork t ∧ t.mem = r.mem ∧ t.late = r.late

theorem Run.readsOnly_refl (r : Run) : r.readsOnly r := ⟨r.sameWork_refl, rfl, rfl⟩

theorem Run.readsOnly.trans {r s t : Run} (a : r.readsOnly s) (b : s.readsOnly t) : r.readsOnly t := by
  obtain ⟨hw, hm, hl⟩ := a
  obtain ⟨hw', hm', hl'⟩ := b
  exact ⟨hw.trans hw', hm'.trans hm, hl'.trans hl⟩

theorem foldl_readsOnly {α : Type} {f : Run → α → Run} (h : ∀ (r : Run) a, r.readsOnly (f r a)) (xs : List α) (r : Run) :
    r.readsOnly (xs.foldl f r) := by
  induction xs generalizing r with
  | nil => exact r.readsOnly_refl
  | cons x xs ih => exact (h r x).trans (ih (f r x))

theorem Run.count_readsOnly (r : Run) (p b c n : Nat) : r.readsOnly (r.count p b c n) := ⟨⟨rfl, rfl, rfl, rfl, rfl⟩, rfl, rfl⟩

theorem Run.updDie_readsOnly (r : Run) (n : Nat) (f : Die → Die) : r.readsOnly (r.updDie n f) := ⟨⟨rfl, rfl, rfl, rfl, rfl⟩, rfl, rfl⟩

theorem Run.newFree_readsOnly (r : Run) : r.readsOnly r.newFree.2 := ⟨⟨rfl, rfl, rfl, rfl, rfl⟩, rfl, rfl⟩

theorem Run.tags_readsOnly (r : Run) (m : Sparse BlockTag) : r.readsOnly { r with tags := m } := ⟨⟨rfl, rfl, rfl, rfl, rfl⟩, rfl, rfl⟩

theorem ite_readsOnly {p : Prop} [Decidable p] {r s t : Run} (hs : r.readsOnly s) (ht : r.readsOnly t) : r.readsOnly (if p then s else t) := by
  split
  · exact hs
  · exact ht

theorem emit'_readsOnly (r : Run) (u : UnitId) (type payload : Nat) (parent : W64) : r.readsOnly (emit' r u type payload parent) :=
  ⟨emit_sameWork .., rfl, rfl⟩

/-! Caches. -/

theorem sketchAdd_readsOnly (r : Run) (u : UnitId) (key n : Nat) : r.readsOnly (sketchAdd r u key n) := by
  unfold sketchAdd
  exact ite_readsOnly ⟨⟨rfl, rfl, rfl, rfl, rfl⟩, rfl, rfl⟩ ⟨⟨rfl, rfl, rfl, rfl, rfl⟩, rfl, rfl⟩

theorem evictLine_readsOnly (r : Run) (part d s : Nat) : r.readsOnly (evictLine r part d s) := by
  unfold evictLine
  dsimp only
  split
  · exact r.readsOnly_refl
  · exact ((ite_readsOnly (r.count_readsOnly ..) r.readsOnly_refl).trans (Run.newFree_readsOnly _)).trans (Run.updDie_readsOnly ..)
  · exact r.newFree_readsOnly.trans (Run.updDie_readsOnly ..)

theorem sliceRoom_readsOnly (fuel : Nat) (r : Run) (part d s : Nat) : r.readsOnly (sliceRoom fuel r part d s) := by
  induction fuel generalizing r with
  | zero => exact r.readsOnly_refl
  | succ n ih =>
    unfold sliceRoom
    exact ite_readsOnly ((evictLine_readsOnly ..).trans (ih _)) r.readsOnly_refl

theorem touchOne_readsOnly (r : Run) (part : Nat) (dirty : Bool) (line : Nat) : r.readsOnly (touchOne r part dirty line) := by
  unfold touchOne
  dsimp only
  split
  · exact (r.count_readsOnly ..).trans (Run.updDie_readsOnly ..)
  · exact ((((r.count_readsOnly ..).trans (Run.count_readsOnly ..)).trans (sketchAdd_readsOnly ..)).trans (sliceRoom_readsOnly ..)).trans
      (Run.updDie_readsOnly ..)

theorem touchUncached_readsOnly (r : Run) (part : Nat) (dirty : Bool) (n line : Nat) : r.readsOnly (touchUncached r part dirty n line) := by
  unfold touchUncached
  dsimp only
  split
  · exact (r.count_readsOnly ..).trans (Run.updDie_readsOnly ..)
  · exact r.count_readsOnly ..

theorem touchHome_readsOnly (r : Run) (part home pa n : Nat) (dirty : Bool) : r.readsOnly (touchHome r part home pa n dirty) := by
  unfold touchHome
  refine ite_readsOnly r.readsOnly_refl (ite_readsOnly ?cached (ite_readsOnly ?uncached r.readsOnly_refl))
  case cached => exact foldl_readsOnly (fun r k => touchOne_readsOnly r part dirty k) _ r
  case uncached => exact foldl_readsOnly (fun r k => touchUncached_readsOnly r part dirty _ k) _ r

/-! Blocks. -/

theorem markBlock_readsOnly (r : Run) (b : Nat) (m : Cause × Nat) : r.readsOnly (markBlock r b m) := by
  refine ⟨markBlock_sameWork .., markBlock_mem .., ?_⟩
  unfold markBlock
  dsimp only
  split
  · rfl
  · split <;> rfl

theorem correctBlock_readsOnly (part : Nat) (key : Option (Nat × Nat)) (a n : Nat) (r : Run) (block : Nat) :
    r.readsOnly (correctBlock part key a n r block) := by
  unfold correctBlock
  split
  · exact r.readsOnly_refl
  · refine ite_readsOnly ?_ r.readsOnly_refl
    exact ((((emit'_readsOnly ..).trans (Run.count_readsOnly ..)).trans (Run.newFree_readsOnly _)).trans (Run.updDie_readsOnly ..)).trans
      (Run.tags_readsOnly ..)

theorem readMarks_readsOnly (r : Run) (part : Nat) (key : Option (Nat × Nat)) (a n : Nat) : r.readsOnly (readMarks r part key a n) := by
  have hcorrect : ∀ n, r.readsOnly (correctRange r part key a n) := fun n => foldl_readsOnly (correctBlock_readsOnly part key a n) _ r
  unfold readMarks
  split
  · exact hcorrect n
  · exact (hcorrect _).trans (markBlock_readsOnly ..)

theorem ownRead_readsOnly (r : Run) (part pa n : Nat) : r.readsOnly (ownRead r part pa n) :=
  (readMarks_readsOnly ..).trans (touchHome_readsOnly ..)

/-! Translation. -/

theorem walked_readsOnly (q : Req) (w : Walk) (r : Run) : r.readsOnly (walked q w r) := by
  have hreads : r.readsOnly (w.reads.foldl (fun r a => ownRead r q.part a 16) ((r.count q.part 2 5 1).count q.part 2 6 1)) :=
    ((r.count_readsOnly ..).trans (Run.count_readsOnly ..)).trans (foldl_readsOnly (fun r a => ownRead_readsOnly r q.part a 16) _ _)
  unfold walked
  exact (hreads.trans (ite_readsOnly (Run.newFree_readsOnly _) (Run.readsOnly_refl _))).trans (Run.updDie_readsOnly ..)

theorem walkNow_readsOnly (r : Run) (q : Req) (va : Nat) : r.readsOnly (walkNow r q va).2 := by
  unfold walkNow
  dsimp only
  split
  · exact r.readsOnly_refl
  · exact r.newFree_readsOnly

theorem cachedLeaf_readsOnly (r : Run) (q : Req) (va : Nat) : r.readsOnly (cachedLeaf r q va).2 := by
  unfold cachedLeaf
  split
  · exact r.readsOnly_refl
  · dsimp only
    split
    all_goals
      split
      · exact r.newFree_readsOnly
      · exact r.readsOnly_refl

theorem tlbPut_readsOnly (q : Req) (l : Leaf) (r : Run) : r.readsOnly (tlbPut q l r) := by
  unfold tlbPut
  refine ite_readsOnly r.readsOnly_refl ?_
  exact ((ite_readsOnly r.newFree_readsOnly r.readsOnly_refl).trans (Run.updDie_readsOnly ..)).trans (Run.updDie_readsOnly ..)

theorem translate_readsOnly (r : Run) (q : Req) (va : W64) : r.readsOnly (translate r q va).2 := by
  have hcached := cachedLeaf_readsOnly r q va.toNat
  unfold translate
  dsimp only
  split
  · exact r.readsOnly_refl
  · generalize cachedLeaf r q va.toNat = cached at hcached
    obtain ⟨found, s⟩ := cached
    cases found with
    | some l =>
      dsimp only
      split
      · exact hcached
      · exact hcached.trans (tlbPut_readsOnly ..)
    | none =>
      have hwalk := (hcached.trans (walkNow_readsOnly s q va.toNat)).trans (walked_readsOnly q (walkNow s q va.toNat).1 _)
      dsimp only
      split
      · exact hwalk
      · split
        · exact hwalk
        · exact hwalk.trans (tlbPut_readsOnly ..)

/-- An address that translates is canonical (04 R111). -/
theorem canonical_of_translate {r t : Run} {q : Req} {va : W64} {l : Leaf} (h : translate r q va = (.ok l, t)) : va.toNat < 2 ^ 56 := by
  refine Nat.lt_of_not_le fun hbig => ?_
  unfold translate at h
  rw [if_pos hbig] at h
  cases (Prod.mk.inj h).1

end Sys2Proof.Machine
end

section
/-! ## The frame of stores and of their pieces (08 R249, 05 R141, R160, 12 R352) -/
namespace Sys2Proof.Machine

/-! The pieces of an access. -/

/-- What follows a success has had its value. -/
theorem exists_of_bind_eq_ok {ε α β : Type} {x : Except ε α} {f : α → Except ε β} {y : β} (h : (x >>= f) = .ok y) :
    ∃ a, x = .ok a ∧ f a = .ok y := by
  cases x with
  | error e => cases h
  | ok a => exact ⟨a, rfl, h⟩

theorem exists_of_map_eq_ok {ε α β : Type} {x : Except ε α} {f : α → β} {y : β} (h : x.map f = .ok y) : ∃ a, x = .ok a ∧ f a = y := by
  cases x with
  | error e => cases h
  | ok a => exact ⟨a, rfl, Except.ok.inj h⟩

/-- What every successful step of a fold keeps holds of what the fold answers. -/
theorem foldlM_ok_induction {ε α β : Type} {P : α → Prop} {f : α → β → Except ε α} {xs : List β} {a y : α}
    (hf : ∀ a, P a → ∀ x ∈ xs, ∀ b, f a x = .ok b → P b) (ha : P a) (h : xs.foldlM f a = .ok y) : P y := by
  induction xs generalizing a with
  | nil => exact Except.ok.inj h ▸ ha
  | cons x xs ih =>
    rw [List.foldlM_cons] at h
    obtain ⟨b, hb, hrest⟩ := exists_of_bind_eq_ok h
    exact ih (fun a ha z hz => hf a ha z (List.mem_cons_of_mem _ hz)) (hf a ha x List.mem_cons_self b hb) hrest

/-- A piece of an access begins at a canonical address and lies in one region of 64 KiB. -/
def Piece64.small (p : Piece64) : Prop := p.va.toNat < 2 ^ 56 ∧ p.len ≤ 2 ^ 16

theorem regions_len_le {va n : Nat} {x : Nat × Nat} (h : x ∈ regions va n) : x.2 ≤ 2 ^ 16 := by
  simp only [regions, List.mem_map] at h
  obtain ⟨i, -, rfl⟩ := h
  dsimp only
  omega

theorem pieceOf_spec {r t : Run} {c : Ctx} {q : Req} {lane va n : Nat} {p : Piece64} (hn : n ≤ 2 ^ 16) (h : pieceOf r c q lane va n = .ok (p, t)) :
    p.small ∧ r.readsOnly t := by
  have hreads := translate_readsOnly r q (w64 va)
  unfold pieceOf at h
  split at h
  · cases h
  · rename_i leaf t' htr
    obtain ⟨rfl, rfl⟩ := Prod.mk.inj (Except.ok.inj h)
    rw [htr] at hreads
    exact ⟨⟨canonical_of_translate htr, hn⟩, hreads⟩

theorem laneAccess_spec {r t : Run} {c : Ctx} {q : Req} {lane n : Nat} {a : W64} {ps : List Piece64}
    (h : laneAccess r c q lane a n = .ok (ps, t)) : (∀ p ∈ ps, p.small) ∧ r.readsOnly t := by
  refine foldlM_ok_induction (P := fun acc : List Piece64 × Run => (∀ p ∈ acc.1, p.small) ∧ r.readsOnly acc.2) ?_
    ⟨by simp, r.readsOnly_refl⟩ h
  rintro acc ⟨hsmall, hreads⟩ x hx b hb
  obtain ⟨⟨p, s⟩, hp, rfl⟩ := exists_of_map_eq_ok hb
  obtain ⟨hp, hs⟩ := pieceOf_spec (regions_len_le hx) hp
  refine ⟨fun y hy => ?_, hreads.trans hs⟩
  rcases List.mem_append.mp hy with hy | hy
  · exact hsmall y hy
  · exact List.mem_singleton.mp hy ▸ hp

theorem translateLanes_go_spec {r t : Run} {c : Ctx} {q : Req} {lanes : List Nat} {ea : Nat → W64} {size : Nat → Nat}
    {faultsOf : List Nat → List (Req × FaultInfo)} {acc as : List (Nat × List Piece64)} (hacc : ∀ x ∈ acc, ∀ p ∈ x.2, p.small)
    (h : translateLanes.go c q ea size faultsOf acc r lanes = .ok (as, t)) : (∀ x ∈ as, ∀ p ∈ x.2, p.small) ∧ r.readsOnly t := by
  induction lanes generalizing acc r with
  | nil =>
    obtain ⟨rfl, rfl⟩ := Prod.mk.inj (Except.ok.inj h)
    exact ⟨hacc, r.readsOnly_refl⟩
  | cons l ls ih =>
    unfold translateLanes.go at h
    split at h
    · rename_i x hx
      obtain ⟨hsmall, hreads⟩ := laneAccess_spec hx
      have hacc' : ∀ y ∈ acc ++ [(l, x.1)], ∀ p ∈ y.2, p.small := by
        intro y hy
        rcases List.mem_append.mp hy with hy | hy
        · exact hacc y hy
        · exact List.mem_singleton.mp hy ▸ hsmall
      obtain ⟨has, hrest⟩ := ih hacc' h
      exact ⟨has, hreads.trans hrest⟩
    · cases h

/-- The pieces of accesses that pass are small, and their translation only reads. -/
theorem globalAccess_spec {r t : Run} {c : Ctx} {lanes : List Nat} {kind size : Nat} {ok : Nat → Bool} {ea : Nat → W64}
    {as : List (Nat × List Piece64)} (h : globalAccess r c lanes kind size ok ea = .ok (as, t)) :
    (∀ x ∈ as, ∀ p ∈ x.2, p.small) ∧ r.readsOnly t := by
  obtain ⟨_, -, h⟩ := exists_of_bind_eq_ok h
  obtain ⟨_, -, h⟩ := exists_of_bind_eq_ok h
  exact translateLanes_go_spec (acc := []) (by simp) h

/-! The pieces of a store. -/

/-- Bytes cut at the boundaries of a size lie where the bytes lay, and no cut is empty. -/
theorem cutsAt_mem {fuel size a : Nat} {bs : List Byte} (hsize : 0 < size) {x : Nat × List Byte} (h : x ∈ cutsAt fuel size a bs) :
    a ≤ x.1 ∧ x.1 + x.2.length ≤ a + bs.length ∧ 0 < x.2.length := by
  induction fuel generalizing a bs with
  | zero => cases h
  | succ fuel ih =>
    have hmod := Nat.mod_lt a hsize
    unfold cutsAt at h
    split at h
    · cases h
    · rename_i hne
      have hpos : 0 < bs.length := List.length_pos_iff.mpr (by simpa using hne)
      rcases List.mem_cons.mp h with rfl | h
      · simp only [List.length_take]
        omega
      · obtain ⟨hlo, hhi, hlen⟩ := ih h
        rw [List.length_drop] at hhi
        omega

theorem storePieces_mem {strong : Bool} {a : Nat} {bs : List Byte} {x : Nat × List Byte} (h : x ∈ storePieces strong a bs) :
    a ≤ x.1 ∧ x.1 + x.2.length ≤ a + bs.length := by
  obtain ⟨hlo, hhi, -⟩ := cutsAt_mem (by split <;> decide) h
  exact ⟨hlo, hhi⟩

/-- A piece of a store lies in a piece of its access. -/
def LatePiece.within (q : LatePiece) (p : Piece64) : Prop :=
  q.leaf = p.leaf ∧ p.va.toNat ≤ q.va.toNat ∧ q.va.toNat + q.bytes.length ≤ p.va.toNat + p.len

theorem storePiece_within {strong : Bool} {p : Piece64} (hp : p.small) {bs : List Byte} (hbs : bs.length ≤ p.len) {x : Nat × List Byte}
    (h : x ∈ storePieces strong p.va.toNat bs) : ({ leaf := p.leaf, va := w64 x.1, bytes := x.2 } : LatePiece).within p := by
  obtain ⟨hlo, hhi⟩ := storePieces_mem h
  obtain ⟨hva, hlen⟩ := hp
  have hnowrap : (w64 x.1).toNat = x.1 := by
    simp only [w64, BitVec.toNat_ofNat]
    omega
  refine ⟨rfl, ?_, ?_⟩
  all_goals
    dsimp only
    omega

theorem latePieces_within {c : Ctx} {ps : List Piece64} (hps : ∀ p ∈ ps, p.small) {v : Nat} {q : LatePiece} (h : q ∈ latePieces c ps v) :
    ∃ p ∈ ps, q.within p := by
  refine List.foldlRecOn (motive := fun acc : List LatePiece × List Byte => ∀ q ∈ acc.1, ∃ p ∈ ps, q.within p) ps _ (by simp)
    (fun acc hacc p hp q hq => ?_) q h
  rcases List.mem_append.mp hq with hq | hq
  · exact hacc q hq
  · obtain ⟨x, hx, rfl⟩ := List.mem_map.mp hq
    exact ⟨p, hp, storePiece_within (hps p hp) (List.length_take_le ..) hx⟩

/-! ST. -/

theorem endWaits_late {r : Run} {gid : Nat} {g : Grp} {ns : List Nat} (hg : r.grp gid = some g)
    (h : waitObjects g ns (fun w => w.kind == 7 && w.reason == 8) = []) : (endWaits r gid ns).late = r.late := by
  unfold endWaits
  rw [show r.groups.find gid = some g from hg]
  dsimp only
  rw [h, List.foldl_nil]
  exact List.foldlRecOn (motive := fun t : Run => t.late = r.late) _ _ rfl fun _ ht _ _ => ht

/-- What ST is issued as: it begins no region, writes no queue register, and performs no store of its group first. -/
theorem Ready.st_fields {f : Fields} {s : State} {c : Ctx} {r : Run} (h : Ready (.st f) s c r) (hu : c.usesQueue = false) :
    c.sh.region = false ∧ queueWrite c.sh c.f = none ∧ c.settles = false := by
  obtain ⟨hsh, -⟩ := h.fields
  have hcode : c.sh.code = 0x61 := by rw [← Option.some.inj hsh]
  have hd : c.sh.d = .none := by rw [← Option.some.inj hsh]
  refine ⟨by rw [← Option.some.inj hsh], ?_, ?_⟩
  · simp [queueWrite, hd]
  · simp [Ctx.settles, hu, hcode]

/-- An instruction that moves no queue word and begins no region, whose effect reads and leaves some stores to be performed: nothing else of memory, of
other groups and of its group's registers changes. -/
theorem completed_storeLate_frame {s : State} {c : Ctx} {r1 : Run} (ss : List LateStore) (hgrp : s.run.grp c.gid = some c.grp)
    (hsettles : c.settles = false) (hregion : c.sh.region = false) (hu : c.usesQueue = false) (hwait : noSemWait c)
    (hreads : (advance c (c.onto s.run)).readsOnly r1) :
    let t := (completed s c (storeLate r1 ss)).run
    t.mem = s.run.mem ∧ t.late = s.run.late ++ settledLate ss ∧ (∀ g, g ≠ c.gid → t.grp g = s.run.grp g) ∧
      ∃ g', t.grp c.gid = some g' ∧ c.grp.keeps g' := by
  have hbegins : c.beginsRegion = false := by simp [Ctx.beginsRegion, hregion, hu]
  have honto : (c.onto s.run).mem = s.run.mem ∧ (c.onto s.run).late = s.run.late := by simp [Ctx.onto_of_plain hsettles]
  have hgrp' : (c.onto s.run).grp c.gid = some c.grp := by simpa using hgrp
  obtain ⟨⟨hadvGrps, -, hadvMem, -⟩, g0, hg0, hkeep0, -⟩ := advance_spec hgrp' hregion hu c.grp.team
  have hadvLate : (advance c (c.onto s.run)).late = (c.onto s.run).late := by simp [advance, hbegins]
  have hnowait := waitObjects_of_noSemWaitIn ((advance_sameWaits hgrp' hbegins hg0).noSemWaitIn hwait)
  obtain ⟨⟨hgroups, -⟩, hmem, hlate⟩ := hreads
  have hsame : ∀ k, (storeLate r1 ss).grp k = (advance c (c.onto s.run)).grp k := fun k => congrArg (Sparse.find · k) hgroups
  have hg1 : (storeLate r1 ss).grp c.gid = some g0 := (hsame _).trans hg0
  obtain ⟨⟨hendGrps, -, hendMem, -⟩, g', hg', hkeep', -⟩ := endWaits_spec hg1 hnowait
  have hendLate := endWaits_late hg1 hnowait
  have hrun : (completed s c (storeLate r1 ss)).run = countIssue c (endWaits (storeLate r1 ss) c.gid c.slices) := closing_of_no_queue hu _
  dsimp only
  rw [hrun]
  refine ⟨?mem, ?late, fun k hk => ?grps, g', hg', hkeep0.trans hkeep'⟩
  case mem => exact ((hendMem.trans hmem).trans hadvMem).trans honto.1
  case late =>
    calc (endWaits (storeLate r1 ss) c.gid c.slices).late = r1.late ++ settledLate ss := hendLate
      _ = s.run.late ++ settledLate ss := by rw [hlate, hadvLate, honto.2]
  case grps => exact (((hendGrps k hk).trans (hsame k)).trans (hadvGrps k hk)).trans (c.onto_grp s.run k)

/-! A piece that is performed. -/

/-- The pieces by blocks are cuts. -/
theorem blockPieces_eq_cutsAt (fuel a : Nat) (bs : List Byte) : blockPieces fuel a bs = cutsAt fuel 64 a bs := by
  induction fuel generalizing a bs with
  | zero => rfl
  | succ fuel ih =>
    unfold blockPieces cutsAt
    split
    · rfl
    · exact congrArg _ (ih _ _)

theorem writeBlock_memByte_of_outside {r : Run} {key : Option (Nat × Nat)} {a b : Nat} {bs : List Byte} (h : b < a ∨ a + bs.length ≤ b) :
    memByte (writeBlock r key a bs).mem b = memByte r.mem b := by
  rcases writeBlock_mem r key a bs with hm | hm
  · rw [hm, memByte_memWrite_of_outside h]
  · rw [hm]

theorem foldl_writeBlock_memByte_of_outside {ps : List (Nat × List Byte)} {r : Run} {key : Option (Nat × Nat)} {b : Nat}
    (h : ∀ p ∈ ps, b < p.1 ∨ p.1 + p.2.length ≤ b) : memByte (ps.foldl (fun r p => writeBlock r key p.1 p.2) r).mem b = memByte r.mem b :=
  List.foldlRecOn (motive := fun t : Run => memByte t.mem b = memByte r.mem b) ps _ rfl fun _ ht p hp =>
    (writeBlock_memByte_of_outside (h p hp)).trans ht

/-- A write under a key is its cuts at block boundaries, each written. -/
theorem writeKeyed_eq (r : Run) (key : Option (Nat × Nat)) (a : Nat) (bs : List Byte) :
    writeKeyed r key a bs = (cutsAt (bs.length / 64 + 2) 64 a bs).foldl (fun r p => writeBlock r key p.1 p.2) r := by
  rw [writeKeyed, blockPieces_eq_cutsAt]

/-- It changes no byte outside its range. -/
theorem writeKeyed_memByte_of_outside {r : Run} {key : Option (Nat × Nat)} {a b : Nat} {bs : List Byte} (h : b < a ∨ a + bs.length ≤ b) :
    memByte (writeKeyed r key a bs).mem b = memByte r.mem b := by
  rw [writeKeyed_eq]
  refine foldl_writeBlock_memByte_of_outside fun p hp => ?_
  obtain ⟨hlo, hhi, -⟩ := cutsAt_mem (by decide) hp
  omega

/-- A block without a tag takes its bytes, and no other block's tag changes. -/
theorem writeBlock_of_untagged {r : Run} {key : Option (Nat × Nat)} {a : Nat} {bs : List Byte} (h : blockTag r (a / 64) = none) :
    (writeBlock r key a bs).mem = memWrite r.mem a bs ∧ ∀ k, k ≠ a / 64 → blockTag (writeBlock r key a bs) k = blockTag r k := by
  refine ⟨by simp [writeBlock, h], fun k hk => ?_⟩
  simp only [writeBlock, h, Option.isNone_none, Bool.or_true, ite_true]
  exact Sparse.find_put_of_ne hk _

/-- Bytes put in blocks of which none is tagged are read back. Each cut is written in one block, and the later ones in later blocks. -/
theorem writeCuts_memByte {fuel a : Nat} {bs : List Byte} {r : Run} {key : Option (Nat × Nat)} (hfuel : a % 64 + bs.length ≤ 64 * fuel)
    (htags : ∀ k, a / 64 ≤ k → k ≤ (a + bs.length) / 64 → blockTag r k = none) {k : Nat} (hk : k < bs.length) :
    memByte ((cutsAt fuel 64 a bs).foldl (fun r p => writeBlock r key p.1 p.2) r).mem (a + k) = nthD 0 bs k := by
  induction fuel generalizing a bs r k with
  | zero => omega
  | succ fuel ih =>
    have hne : bs.isEmpty = false := List.isEmpty_eq_false_iff.mpr (List.ne_nil_of_length_pos (by omega))
    unfold cutsAt
    simp only [hne, Bool.false_eq_true, ite_false, List.foldl_cons]
    obtain ⟨n, hn⟩ : ∃ n, n = 64 - a % 64 := ⟨_, rfl⟩
    rw [← hn]
    obtain ⟨hmem, hothers⟩ := writeBlock_of_untagged (key := key) (bs := bs.take n) (htags (a / 64) (Nat.le_refl _) (by omega))
    by_cases hfirst : k < n
    · rw [foldl_writeBlock_memByte_of_outside, hmem, memByte_memWrite_add (by rw [List.length_take]; omega)]
      · simp [nthD, hfirst]
      · intro p hp
        obtain ⟨hlo, -⟩ := cutsAt_mem (by decide) hp
        omega
    · have hrest := ih (a := a + n) (bs := bs.drop n) (r := writeBlock r key a (bs.take n)) (k := k - n) (by rw [List.length_drop]; omega)
        (fun j hlo hhi => by
          rw [List.length_drop] at hhi
          rw [hothers j (by omega)]
          exact htags j (by omega) (by omega))
        (by rw [List.length_drop]; omega)
      rw [show a + n + (k - n) = a + k by omega] at hrest
      rw [hrest]
      simp [nthD, show n + (k - n) = k by omega]

/-- A write under a key to blocks without a tag is read back. -/
theorem writeKeyed_memByte {r : Run} {key : Option (Nat × Nat)} {a : Nat} {bs : List Byte}
    (htags : ∀ k, a / 64 ≤ k → k ≤ (a + bs.length) / 64 → blockTag r k = none) {k : Nat} (hk : k < bs.length) :
    memByte (writeKeyed r key a bs).mem (a + k) = nthD 0 bs k := by
  rw [writeKeyed_eq]
  exact writeCuts_memByte (by omega) htags hk

/-- What memory holds once a piece is performed is what its write leaves. -/
theorem performPiece_mem (b : LateStore) (r : Run) (p : LatePiece) :
    (performPiece b r p).mem =
      (writeKeyed { r with accPc := b.pc, accHint := b.hint } (keyOf r b.part p.leaf) p.pa p.bytes).mem := by
  obtain ⟨-, hmem, -⟩ := touchHome_readsOnly (writeKeyed { r with accPc := b.pc, accHint := b.hint } (keyOf r b.part p.leaf) p.pa p.bytes)
    b.part p.leaf.home p.pa p.bytes.length true
  exact hmem

theorem lateAct_eq {r : Run} {i j : Nat} {b : LateStore} {p : LatePiece} (hb : r.late[i]? = some b) (hp : b.pieces[j]? = some p) :
    lateAct i j r = { performPiece b r p with late := (lateAct i j r).late } := by
  unfold lateAct
  rw [hb]
  dsimp only
  rw [hp]

/-- Settles O28: ST leaves pieces within those of its accesses, and the performance of a piece is one write under a key. -/
theorem storesChangeTheirBytesAlone : Obligations.StoresChangeTheirBytesAlone := by
  unfold Obligations.StoresChangeTheirBytesAlone
  refine ⟨fun f s t c r r1 as h hu hwait hunp ha hnext => ?store, fun r i j b p hb hp => ?piece⟩
  case store =>
    obtain ⟨hregion, hq, hsettles⟩ := h.st_fields hu
    obtain ⟨-, -, -, hgrp, -⟩ := h.fields
    obtain ⟨hsmall, hreads⟩ := globalAccess_spec ha
    obtain rfl := Host.Outcome.next.inj ((exec_st h ha hunp).symm.trans hnext)
    rw [h.run_eq hu hq] at hreads
    obtain ⟨hmem, hlate, hgrps, g', hg', hkeep⟩ := completed_storeLate_frame
      (as.map fun x => laneLate c x.1 x.2 (storeVal r1 c x.1)) hgrp hsettles hregion hu hwait hreads
    obtain ⟨hv, hg, hsg⟩ := hkeep.regs
    obtain ⟨-, -, -, hp, -, hlat, hfl, hsys⟩ := hkeep
    exact ⟨fun a => congrArg (memByte · a) hmem, hlate, fun x hx q hq => latePieces_within (hsmall x hx) hq, hgrps, rfl,
      g', hg', hv, hg, hsg, hp, hfl, hlat, hsys⟩
  case piece =>
    obtain ⟨hgroups, hteams, -⟩ := performPiece_sameWork b r p
    rw [lateAct_eq hb hp]
    refine ⟨fun a ha => ?frame, fun htags k hk => ?bytes, hgroups, hteams⟩
    case frame =>
      dsimp only
      rw [performPiece_mem]
      exact writeKeyed_memByte_of_outside ha
    case bytes =>
      dsimp only
      rw [performPiece_mem]
      exact writeKeyed_memByte (r := { r with accPc := b.pc, accHint := b.hint }) htags hk

end Sys2Proof.Machine
end

section
/-! ## Spawned groups, votes, shuffles, reductions and masks (09 R273 to R276, R281, R284) -/
namespace Sys2Proof.Machine

/-! A word in D's `g` register, unless it is discarded: SPAWN's status (R281), MMOV's part of a mask (R284). -/

/-- A word put in that register. -/
def putDestG (c : Ctx) (r : Run) (v : W64) : Run :=
  match c.f.w, c.f.d with
  | false, .g n => r.updGrp c.gid fun g => setG g n.toNat v
  | _, _ => r

/-- SPAWN looks at the discard before the register. -/
theorem discard_then_register_eq (c : Ctx) (r : Run) (v : W64) :
    (if c.f.w then .ok r else match c.f.d with
      | .g n => .ok (r.updGrp c.gid fun g => setG g n.toNat v)
      | _ => .ok r : Except Stop Run) = .ok (putDestG c r v) := by
  unfold putDestG
  cases c.f.w with
  | true => rfl
  | false => cases c.f.d <;> rfl

/-- MMOV looks at both at once. -/
theorem discard_and_register_eq (c : Ctx) (r : Run) (v : W64) :
    (match c.f.w, c.f.d with
      | false, .g n => .ok (r.updGrp c.gid fun g => setG g n.toNat v)
      | _, _ => .ok r : Except Stop Run) = .ok (putDestG c r v) := by
  unfold putDestG
  cases c.f.w with
  | true => rfl
  | false => cases c.f.d <;> rfl

/-! SPAWN (R281). -/

theorem spawnDest_iff (f : Fields) : spawnDest f = true ↔ f.w = true ∨ ∃ n, f.d = .g n := by
  unfold spawnDest
  cases f.d <;> simp

/-- Settles O39: the entry is looked at first, then D, then whether there is room. -/
theorem spawnCompletesOrTraps : Obligations.SpawnCompletesOrTraps := by
  unfold Obligations.SpawnCompletesOrTraps
  intro f s c r h hact r0 entry named put traps
  have hnamed : spawnDest c.f = true ↔ named := spawnDest_iff c.f
  refine ⟨fun ofs hofs hn => ?created, fun hnone => ?no_entry, fun hsome hn => ?no_register⟩
  case created =>
    change c.l.entries[xbits c.f 5 0]? = some ofs at hofs
    refine issue_completed h (.inr (.inr rfl)) (.inl rfl) rfl ?_
    simp only [if_neg hact, hofs, hnamed.mpr hn, Bool.not_true, Bool.false_eq_true, if_false]
    refine (discard_then_register_eq c _ _).trans ?_
    cases spawnGroup (advance c r) c.gid c.grp c.t c.l (w64 (c.l.codeBase + ofs)) (w64 (readUniform (advance c r) c c.f.a .n64)) with
    | none => rfl
    | some made => rfl
  case no_entry =>
    change c.l.entries[xbits c.f 5 0]? = none at hnone
    refine issue_traps h (.inr (.inr rfl)) (.inl rfl) ?_
    simp only [if_neg hact, hnone]
    rfl
  case no_register =>
    obtain ⟨ofs, hofs⟩ := Option.isSome_iff_exists.mp hsome
    change c.l.entries[xbits c.f 5 0]? = some ofs at hofs
    refine issue_traps h (.inr (.inr rfl)) (.inl rfl) ?_
    simp only [if_neg hact, hofs, Bool.eq_false_iff.mpr fun hd => hn (hnamed.mp hd)]
    rfl

/-! Votes and shuffles (R273 to R275). -/

/-- Settles O40: a ballot goes to a mask or to a result, and SHFL's segment is held to the width before its lanes read. -/
theorem votesAndShufflesComplete : Obligations.VotesAndShufflesComplete := by
  unfold Obligations.VotesAndShufflesComplete
  intro f
  refine ⟨yieldsPred_of_lane fun _ => rfl, fun s c r h hp => ⟨fun hmask => ?mask, fun hvalue => ?value⟩, fun s c r h hp hseg => ?shuffle⟩
  case mask => exact issue_completed h (.inr (.inr rfl)) (.inl rfl) rfl (if_pos hmask)
  case value =>
    exact exec_completes_with_result (fun _ => rfl) h (.inr (.inr rfl)) (.inl rfl) rfl hp (if_neg (Bool.not_eq_true _ ▸ hvalue))
  case shuffle =>
    exact exec_completes_with_result (fun _ => rfl) h (.inr (.inr rfl)) (.inl rfl) rfl hp (if_neg (Nat.not_lt.mpr hseg))

/-! Reductions (R276). -/

/-- A reduction by a group with an active lane completes with the combinations and their flags. -/
theorem reduceWork_completes {i : Instr} {set : Ctx → Nat → List Nat} {s : State} {c : Ctx} {r : Run}
    (he : ∀ s, exec i s = issue i (reduceWork set) s) (h : Ready i s c r) (hp : plainDest c = true) (hact : c.active ≠ 0) :
    let val := fun (l : Nat) => combineValues c.f c.elt ((set c l).map fun j => c.pa (advance c r) j)
    ∃ r', writeRes (raiseFlags (advance c r) c fun l => (val l).2) c c.tw (fun l => (val l).1) = .ok r' ∧ exec i s = .next (completed s c r') :=
  exec_completes_with_result he h (.inr (.inr rfl)) (.inl rfl) rfl hp (if_neg hact)

/-- The lanes whose values GSCAN combines in lane l. -/
def scanLanes (c : Ctx) (l : Nat) : List Nat := c.lanes.filter fun j => decide (j < l) || (j == l && !xbit c.f 4)

theorem exec_gred (f : Fields) (s : State) : exec (.gred f) s = issue (.gred f) (reduceWork fun c _ => c.lanes) s := rfl

theorem exec_gscan (f : Fields) (s : State) : exec (.gscan f) s = issue (.gscan f) (reduceWork scanLanes) s := rfl

theorem combineI_add (e : Elt) (xs : List Nat) : combineI e 0 false xs = lowBits e.bits (xs.map (readI e)).sum := by
  rw [List.sum_eq_foldl]
  rfl

/-- Settles O41: a reduction takes its lanes from a list, and MMOV writes a mask or a part of one. -/
theorem reductionsAndMasksComplete : Obligations.ReductionsAndMasksComplete := by
  unfold Obligations.ReductionsAndMasksComplete
  intro f
  refine ⟨⟨fun s c r h hp hact => ?gred, fun s c r h hp hact => ?gscan⟩, fun e xs _ => ⟨combineI_add e xs, rfl, rfl⟩,
    fun s c r h hsub => ?mask, fun s c r h hsub => ?part⟩
  case gred => exact (reduceWork_completes (exec_gred f) h hp hact :)
  case gscan => exact (reduceWork_completes (exec_gscan f) h hp hact :)
  case mask => exact issue_completed h (.inr (.inr rfl)) (.inl rfl) rfl (if_neg hsub)
  case part => exact issue_completed h (.inr (.inr rfl)) (.inl rfl) rfl ((if_pos hsub).trans (discard_and_register_eq c (advance c r) _))

end Sys2Proof.Machine
end

section
/-! ## User system instructions (09 R285 to R293) -/
namespace Sys2Proof.Machine

/-- An instruction of a row without value operands and without a result moves no queue word. -/
theorem Ready.usesQueue_of_shape {i : Instr} {sh : OpShape} {s : State} {c : Ctx} {r : Run} (h : Ready i s c r) (hi : shape i = some sh)
    (hsrc : ∀ f, sources sh f = []) (hd : sh.d = .none) : c.usesQueue = false := by
  obtain rfl : sh = c.sh := Option.some.inj (hi.symm.trans h.fields.1)
  exact usesQueue_of_fields (hsrc c.f) (by simp [queueWrite, hd])

/-! Traps by instruction (R285). -/

/-- An instruction that moves no queue word and reports a trap takes it, with what it leaves behind. -/
theorem issue_reports {i : Instr} {w : Work} {s : State} {c : Ctx} {r : Run} {t : TrapInfo} {keep : Run → Run} (h : Ready i s c r)
    (hc : c.shadowed = false ∨ c.active = 0 ∨ w.cmp c.f = .none)
    (hf : w.finish = none ∨ c.grp.remotes.any (ownRemote c.pc c.slices) = false) (hu : c.usesQueue = false)
    (hb : w.body c (advance c r) = .error (.report t keep)) :
    issue i w s = .next { s with run := trapAt (c.onto s.run) c.gid c.slices t [] keep } := by
  obtain ⟨base, hbase, h⟩ := issue_ready h hc hf
  rw [h, readyOutcome, hb, ← Ctx.begun_of_no_sem (usesSem_of_no_queue hu), Ctx.begun, hbase]

/-- Such an instruction completes, and traps at its lowest active lane. -/
theorem softTrap_reports {i : Instr} {cause : Cause} {s : State} {c : Ctx} {r : Run} {l : Nat} (he : ∀ s, exec i s = issue i (softTrap cause) s)
    (h : Ready i s c r) (hu : c.usesQueue = false) (hl : c.lowest = some l) :
    let keep := fun (r : Run) => countIssue c (advance c (endWaits r c.gid c.slices))
    exec i s = .next { s with run := trapAt (c.onto s.run) c.gid c.slices { c.trap cause 0 l 0 with code := c.f.x.toNat } [] keep } := by
  rw [he]
  refine issue_reports h (.inr (.inr rfl)) (.inl rfl) hu ?_
  unfold softTrap
  dsimp only
  rw [hl]

/-! Events (R286). -/

/-- A record is emitted where an active lane asks for it and the recorder has room. -/
theorem eventWork_completes {i : Instr} {type : Fields → Nat} {s : State} {c : Ctx} {r : Run} (he : ∀ s, exec i s = issue i (eventWork type) s)
    (h : Ready i s c r) (hroom : c.active = 0 ∨ unitHasRoom (advance c r).units (coreUnit c.t.die c.t.core) = true) :
    exec i s = .next (completed s c (if c.active = 0 then advance c r
      else (emitGrp (advance c r) c.gid (coreUnit c.t.die c.t.core) (type c.f) (readUniform (advance c r) c c.f.a .n32)).2)) := by
  rw [he]
  refine issue_completed h (.inr (.inr rfl)) (.inl rfl) rfl ?_
  unfold eventWork
  by_cases hact : c.active = 0
  · simp only [if_pos hact]
  · simp only [if_neg hact, if_pos (hroom.resolve_left hact)]

/-! Counters, time and capabilities (R287 to R289). -/

/-- A selector of a counter that is there, and a handle that holds the right, read it. -/
theorem rdcnt_completes {f : Fields} {s : State} {c : Ctx} {r : Run} (h : Ready (.rdcnt f) s c r) (hp : plainDest c = true) (hact : c.active ≠ 0) :
    let sel := readUniform (advance c r) c c.f.a .n32
    let handle := w64 (readUniform (advance c r) c c.f.b .n64)
    nfld sel 31 24 = 0 → nfld sel 15 0 < bankSize (nfld sel 23 16) → holds (advance c r) c.part c.t.die handle rightCounter = true →
    ∃ r', writeRes (rightsSeen (advance c r) c.part c.t.die handle) c .w64
        (fun _ => (nthD 0 (nthD [] ((advance c r).part c.part).banks (nfld sel 23 16)) (nfld sel 15 0)).toNat) = .ok r' ∧
      exec (.rdcnt f) s = .next (completed s c r') := by
  intro sel handle hsel hindex hright
  refine exec_completes_with_result (fun _ => rfl) h (.inr (.inr rfl)) (.inl rfl) rfl hp ((if_neg hact).trans ?_)
  have hgood : ¬ (nfld sel 31 24 != 0 || decide (bankSize (nfld sel 23 16) ≤ nfld sel 15 0)) = true := by simpa [hsel] using hindex
  exact (if_neg hgood).trans (if_neg (by simpa using hright))

/-- Rights that each active lane asks for within the seven there are, and has where `.TRAP` demands it, are answered. -/
theorem capchk_completes {f : Fields} {s : State} {c : Ctx} {r : Run} (h : Ready (.capchk f) s c r) (hp : plainDest c = true) :
    let has := fun (l : Nat) => rights (advance c r) c.part c.t.die (w64 (c.aAs (advance c r) .n64 l))
    let want := fun (l : Nat) => c.bAs (advance c r) .n32 l
    (∀ l ∈ c.lanes, want l < 128 ∧ (xbit c.f 0 = true → has l &&& want l = want l)) →
    ∃ r', writeRes (c.lanes.foldl (fun x l => rightsSeen x c.part c.t.die (w64 (c.aAs (advance c r) .n64 l))) (advance c r)) c .n32 has = .ok r' ∧
      exec (.capchk f) s = .next (completed s c r') := by
  intro has want hok
  have hknown : (c.lanes.find? fun l => decide (128 ≤ want l)) = none := List.find?_eq_none.mpr fun l hl => by
    simpa using (hok l hl).1
  have hheld : (if xbit c.f 0 then c.lanes.find? fun l => has l &&& want l != want l else none) = none := by
    split
    · exact List.find?_eq_none.mpr fun l hl => by simpa using (hok l hl).2 ‹_›
    · rfl
  refine exec_completes_with_result (fun _ => rfl) h (.inr (.inr rfl)) (.inl rfl) rfl hp ?_
  simp only [want, has] at hknown hheld
  simp only [hknown, hheld]
  rfl

/-! Code that has been rewritten (R291). -/

/-- Where no store of the group is buffered, what is committed is performed, and then the words are invalidated. -/
theorem icinv_completes {f : Fields} {s : State} {c : Ctx} {r : Run} (h : Ready (.icinv f) s c r)
    (hbuf : (c.shadowed && (curTeam (advance c r) c).sbuf.any fun b => b.group == c.gid) = false) :
    let committed := c.shadowed && (curTeam (advance c r) c).committed.any fun b => b.group == c.gid
    exec (.icinv f) s = .next (completed s c (invalidate (if committed then performCommitted (advance c r) c.grp.team else advance c r)
      (if scopeOf c.f = 3 then some c.t.die else none))) :=
  issue_completed h (.inr (.inr rfl)) (.inl rfl) rfl (if_neg (Bool.eq_false_iff.mp hbuf))

/-- Where one is buffered, a commit takes the instruction's place. -/
theorem icinv_commits {f : Fields} {s : State} {c : Ctx} {r : Run} (h : Ready (.icinv f) s c r)
    (hbuf : (c.shadowed && (curTeam (advance c r) c).sbuf.any fun b => b.group == c.gid) = true) :
    exec (.icinv f) s = .next { s with run := (commitNow (c.onto s.run) c.grp.team).1 } :=
  issue_undone (act := fun r => (commitNow r c.grp.team).1) h (.inr (.inr rfl)) (.inl rfl) (h.usesQueue_of_shape rfl (fun _ => rfl) rfl)
    (if_pos hbuf)

/-- Settles O50: each instruction by what its effect answers; ICINV and TCOMMIT by whether the group is protected. -/
theorem userSystemInstructionsComplete : Obligations.UserSystemInstructionsComplete := by
  unfold Obligations.UserSystemInstructionsComplete
  intro f s c r r0 trapped u event
  refine ⟨fun l hl => ⟨fun h => ?trap, fun h => ?brk⟩, fun hroom => ⟨fun h => ?event, fun h => ?mark⟩, fun h hp hact => ?rdcnt,
    fun h hp hidle => ?rdtime, fun h hp => ?capchk, fun h => ⟨fun hu => ?icinv, fun hs hnone => ?icinv_protected, fun hs hsome => ?icinv_commits⟩,
    fun h => ?isync, fun h => ⟨fun hu => ?tcommit, fun r1 hs hcommit => ?tcommit_protected⟩⟩
  case trap => exact softTrap_reports (fun _ => rfl) h (h.usesQueue_of_shape rfl (fun _ => rfl) rfl) hl
  case brk => exact softTrap_reports (fun _ => rfl) h (h.usesQueue_of_shape rfl (fun _ => rfl) rfl) hl
  case event => exact eventWork_completes (type := fun f => 0xF000 ||| f.x.toNat) (fun _ => rfl) h hroom
  case mark => exact eventWork_completes (type := fun f => 0xE000 + xbits f 1 0) (fun _ => rfl) h hroom
  case rdcnt => exact rdcnt_completes h hp hact
  case rdtime =>
    refine exec_completes_with_result (fun _ => rfl) h (.inr (.inr rfl)) (.inl rfl) rfl hp (if_neg fun hwait => ?_)
    obtain ⟨hord, hbusy⟩ := Bool.and_eq_true_iff.mp hwait
    exact Bool.false_ne_true ((hidle hord).symm.trans hbusy)
  case capchk => exact capchk_completes h hp
  case icinv =>
    have hs : c.shadowed = false := hu
    have hx := icinv_completes h (by rw [hs]; rfl)
    rw [hs] at hx
    exact hx
  case icinv_protected =>
    have hx := icinv_completes h (by simpa [hs] using hnone)
    rw [hs] at hx
    exact hx
  case icinv_commits => exact icinv_commits h (by simpa [hs] using hsome)
  case isync => exact issue_completed h (.inr (.inr rfl)) (.inl rfl) rfl rfl
  case tcommit => exact issue_completed h (.inl hu) (.inl rfl) rfl (if_neg (Bool.eq_false_iff.mp hu))
  case tcommit_protected =>
    refine issue_completed h (.inr (.inr rfl)) (.inl rfl) rfl ((if_pos hs).trans ?_)
    change commitTeam (advance c r) c.grp.team = (r1, true) at hcommit
    rw [hcommit]

end Sys2Proof.Machine
end

section
/-! ## Matrix instructions (10 R295 to R317) -/
namespace Sys2Proof.Machine

/-! The checks that they share, where they pass. -/

/-- What follows a check that passes is what its answer leads to. -/
theorem bind_of_eq_ok {ε α β : Type} {x : Except ε α} {a : α} (h : x = .ok a) (f : α → Except ε β) : (x >>= f) = f a := by
  rw [h]
  rfl

/-- A fragment with all the group's live slices passes (01 R39). -/
theorem wholeGroup_ok {c : Ctx} (h : ∀ k ∈ c.grp.liveSlices, k ∈ c.slices) : wholeGroup c = .ok () :=
  if_pos (List.all_eq_true.mpr fun k hk => List.contains_iff_mem.mpr (h k hk))

theorem tokenFree_ok {r : Run} {c : Ctx} {n : Nat} (h : (teamTile r c.grp.team n).owner = none) : tokenFree r c n = .ok () :=
  if_neg (by rw [h]; exact Bool.false_ne_true)

theorem tokenHeld_ok {r : Run} {c : Ctx} {n : Nat} (h : (teamTile r c.grp.team n).owner = some c.gid) : tokenHeld r c n = .ok () := if_pos h

/-- Nothing keeps the unit from accepting an instruction on a tile: no other group holds it, and the queue has room (R299, R317). -/
def unitFree (r : Run) (c : Ctx) (n : Nat) : Prop := heldByOther r c n = false ∧ (matrixQueue r c).length < Config.matrixQueue

theorem unitReady_ok {r : Run} {c : Ctx} {n : Nat} (h : unitFree r c n) : unitReady r c n = .ok () := by
  obtain ⟨hheld, hroom⟩ := h
  exact if_neg (by simpa [hheld] using hroom)

/-- None of the group's instructions on a tile, or on any, is in the unit. -/
theorem ownWork_eq_none {r : Run} {c : Ctx} {tile : Option Nat} (h : ∀ m ∈ matrixQueue r c, m.group = c.gid → ∃ n, tile = some n ∧ m.tile ≠ n) :
    ownWork r c tile = none :=
  List.find?_eq_none.mpr fun m hm hwork => by
    obtain ⟨hmine, hon⟩ := Bool.and_eq_true_iff.mp hwork
    obtain ⟨n, rfl, hne⟩ := h m hm (beq_iff_eq.mp hmine)
    exact hne (beq_iff_eq.mp hon).symm

/-! Configurations (R295, R315). -/

/-- With no active lane a configuration has no effect (R298). -/
theorem tcfg_of_no_lane {f : Fields} {s : State} {c : Ctx} {r : Run} (h : Ready (.tcfg f) s c r) (hw : ∀ k ∈ c.grp.liveSlices, k ∈ c.slices)
    (hact : c.active = 0) : exec (.tcfg f) s = .next (completed s c (advance c r)) :=
  issue_completed h (.inr (.inr rfl)) (.inl rfl) rfl ((bind_of_eq_ok (wholeGroup_ok hw) _).trans (if_pos hact))

/-- A legal configuration is taken where the team has no work in the unit, no other group has a hold, and the tiles are free once its own are. -/
theorem tcfg_configures {f : Fields} {s : State} {c : Ctx} {r : Run} (h : Ready (.tcfg f) s c r) (hw : ∀ k ∈ c.grp.liveSlices, k ∈ c.slices)
    (hact : c.active ≠ 0) (hidle : ∀ m ∈ matrixQueue (advance c r) c, m.team ≠ c.grp.team)
    (hholds : ∀ e ∈ teamGroups (advance c r) c.grp.team, e.1 = c.gid ∨ e.2.holds = []) :
    let shape := w64 (readUniform (advance c r) c c.f.a .n64)
    let stride := w64 (readUniform (advance c r) c c.f.b .n64)
    fld shape 63 20 = 0 → fld shape 15 14 = 0 → fld stride 63 32 = 0 → fld shape 19 16 ≤ 8 →
    fld shape 19 16 ≤ tilesFree (releaseTiles c (advance c r)) c →
    exec (.tcfg f) s = .next (completed s c (configure c shape stride (releaseTiles c (advance c r)))) := by
  intro shape stride hhigh hmid hstride htiles hfree
  have hlegal : (fld shape 63 20 != 0 || fld shape 15 14 != 0 || fld stride 63 32 != 0 || decide (9 ≤ fld shape 19 16)) = false := by
    rw [hhigh, hmid, hstride, decide_eq_false (by omega)]
    rfl
  have hbusy : ((matrixQueue (advance c r) c).find? fun m => m.team == c.grp.team) = none :=
    List.find?_eq_none.mpr fun m hm => by simpa using hidle m hm
  have hheld : ((teamGroups (advance c r) c.grp.team).find? fun e => e.1 != c.gid && !e.2.holds.isEmpty) = none :=
    List.find?_eq_none.mpr fun e he => by rcases hholds e he with h | h <;> simp [h]
  refine issue_completed h (.inr (.inr rfl)) (.inl rfl) rfl ((bind_of_eq_ok (wholeGroup_ok hw) _).trans ?_)
  simp only [shape, stride] at hlegal hfree ⊢
  simp only [if_neg hact, hlegal, hbusy, hheld, if_neg (Nat.not_lt.mpr hfree), Bool.false_eq_true, if_false]

/-! Tokens (R306). -/

theorem tacq_takes {f : Fields} {s : State} {c : Ctx} {r : Run} {n : Nat} (h : Ready (.tacq f) s c r)
    (hw : ∀ k ∈ c.grp.liveSlices, k ∈ c.slices) (hn : tileField (advance c r) c c.f.a = .ok n)
    (hfree : (teamTile (advance c r) c.grp.team n).owner = none) (hheld : heldByOther (advance c r) c n = false)
    (hidle : ∀ m ∈ matrixQueue (advance c r) c, m.team = c.grp.team → m.tile ≠ n) :
    exec (.tacq f) s = .next (completed s c (updTile (advance c r) c.grp.team n fun x => { x with owner := some c.gid })) := by
  have hbusy : ((matrixQueue (advance c r) c).any fun m => m.team == c.grp.team && m.tile == n) = false :=
    List.any_eq_false.mpr fun m hm => by simpa using hidle m hm
  refine issue_completed h (.inr (.inr rfl)) (.inl rfl) rfl ((bind_of_eq_ok (wholeGroup_ok hw) _).trans ((bind_of_eq_ok hn _).trans ?_))
  simp [hfree, hheld, hbusy]

theorem trel_gives {f : Fields} {s : State} {c : Ctx} {r : Run} {n : Nat} (h : Ready (.trel f) s c r)
    (hw : ∀ k ∈ c.grp.liveSlices, k ∈ c.slices) (hn : tileField (advance c r) c c.f.a = .ok n)
    (hown : (teamTile (advance c r) c.grp.team n).owner = some c.gid) :
    exec (.trel f) s = .next (completed s c (updTile (advance c r) c.grp.team n fun x => { x with owner := none })) :=
  issue_completed h (.inr (.inr rfl)) (.inl rfl) rfl
    ((bind_of_eq_ok (wholeGroup_ok hw) _).trans ((bind_of_eq_ok hn _).trans (bind_of_eq_ok (tokenHeld_ok hown) _)))

/-! Waits, counts and pins (R300, R313, R314). -/

/-- A wait ends where the unit has no work of the group that it names. -/
theorem twait_ends {f : Fields} {s : State} {c : Ctx} {r : Run} {n : Nat} (h : Ready (.twait f) s c r)
    (hn : xbit c.f 0 = true ∨ tileField (advance c r) c c.f.a = .ok n)
    (hidle : ∀ m ∈ matrixQueue (advance c r) c, m.group = c.gid → xbit c.f 0 = false ∧ m.tile ≠ n) :
    exec (.twait f) s = .next (completed s c (advance c r)) := by
  refine issue_completed h (.inr (.inr rfl)) (.inl rfl) rfl ?_
  by_cases hall : xbit c.f 0 = true
  · have hnone : ownWork (advance c r) c none = none :=
      ownWork_eq_none fun m hm hmine => absurd hall (Bool.eq_false_iff.mp (hidle m hm hmine).1)
    refine (if_pos hall).trans ((bind_of_eq_ok rfl _).trans ?_)
    simp only [hnone]
  · have hnone : ownWork (advance c r) c (some n) = none := ownWork_eq_none fun m hm hmine => ⟨n, rfl, (hidle m hm hmine).2⟩
    refine (if_neg hall).trans ((bind_of_eq_ok (congrArg (Except.map some) (hn.resolve_left hall)) _).trans ?_)
    simp only [hnone]

/-- Settles O42: each instruction by its checks, which pass, in their order. -/
theorem tileConfigurationAndTokensComplete : Obligations.TileConfigurationAndTokensComplete := by
  unfold Obligations.TileConfigurationAndTokensComplete
  intro f s c r n r0 shape stride whole mine
  refine ⟨tcfg_of_no_lane, fun h hw hact hhigh hmid hstride htiles hidle hholds => tcfg_configures h hw hact hidle hholds hhigh hmid hstride htiles,
    tacq_takes, trel_gives, fun h hp hn hidle => ?count, twait_ends, fun h hp hact => ?pin⟩
  case count =>
    refine exec_completes_with_result (fun _ => rfl) h (.inr (.inr rfl)) (.inl rfl) rfl hp ((bind_of_eq_ok hn _).trans ?_)
    rw [ownWork_eq_none fun m hm hmine => ⟨n, rfl, hidle m hm hmine⟩]
    dsimp only
    generalize xbits c.f 1 0 = counter
    match counter with
    | 0 | 1 | _ + 2 => rfl
  case pin => exact exec_completes_with_result (fun _ => rfl) h (.inr (.inr rfl)) (.inl rfl) rfl hp (if_neg hact)

/-! Elements (R307, R316). -/

/-- An owned tile of T's width, and each active lane's row and column within it, pass the checks. -/
theorem elementCheck_ok {r : Run} {c : Ctx} {n : Nat} {tile row col : Opnd} (hw : ∀ k ∈ c.grp.liveSlices, k ∈ c.slices)
    (hn : tileField r c tile = .ok n) (hown : (teamTile r c.grp.team n).owner = some c.gid)
    (hwidth : (teamTile r c.grp.team n).w = c.elt.bits / 8)
    (hin : ∀ l ∈ c.lanes, readSrc r c row .n32 l < (curTeam r c).cfg.m ∧ readSrc r c col .n32 l < (curTeam r c).cfg.n) :
    elementCheck r c tile row col =
      .ok (n, fun l => readSrc r c row .n32 l * (curTeam r c).cfg.n + readSrc r c col .n32 l) := by
  have hinside : (c.lanes.find? fun l => decide ((curTeam r c).cfg.m ≤ readSrc r c row .n32 l ∨ (curTeam r c).cfg.n ≤ readSrc r c col .n32 l)) = none :=
    List.find?_eq_none.mpr fun l hl => by simpa using hin l hl
  refine (bind_of_eq_ok (wholeGroup_ok hw) _).trans ((bind_of_eq_ok hn _).trans ((bind_of_eq_ok (tokenHeld_ok hown) _).trans ?_))
  simp only [hwidth, hinside, bne_self_eq_false, Bool.false_eq_true, if_false]

/-- Settles O44: both instructions make the same checks, and TRD without an active lane reads nothing. -/
theorem tileElementsComplete : Obligations.TileElementsComplete := by
  unfold Obligations.TileElementsComplete
  intro f s c r n r0 cfg x inside at_ hw hown hwidth
  refine ⟨fun h hp hn hin => ⟨fun hact => ?idle, fun hact => ?read⟩, fun h hact hn hin => ?write⟩
  case idle =>
    exact issue_completed h (.inr (.inr rfl)) (.inl rfl) rfl ((bind_of_eq_ok (elementCheck_ok hw hn hown hwidth hin) _).trans (if_pos hact))
  case read =>
    exact exec_completes_with_result (fun _ => rfl) h (.inr (.inr rfl)) (.inl rfl) rfl hp
      ((bind_of_eq_ok (elementCheck_ok hw hn hown hwidth hin) _).trans (if_neg hact))
  case write =>
    exact issue_completed h (.inr (.inr rfl)) (.inl rfl) rfl ((bind_of_eq_ok (elementCheck_ok hw hn hown hwidth hin) _).trans (if_neg hact))

/-! Accepted work (R299, R301, R308, R309). -/

section
variable {c : Ctx} {r r1 : Run} {n : Nat} {w : W32} {leaves : List (Nat × Leaf)}
  (hw : ∀ k ∈ c.grp.liveSlices, k ∈ c.slices) (hn : tileField r c c.f.d = .ok n) (hfree : (teamTile r c.grp.team n).owner = none)
include hw hn hfree

/-- A multiply-accumulate passes its checks in the order of R301. -/
theorem mmaBody_accepts {z : Bool} (hfmt : formatWord c = .ok w) (hknown : mmaFormats w = true)
    (hshape : mmaShapeOk (curTeam r c).cfg w z (tileWidth r c n) = true) :
    let cfg := (curTeam r c).cfg
    let a := readUniform r c c.f.a .n64
    let b := readUniform r c c.f.b .n64
    a % 16 = 0 → b % 16 = 0 →
    translateAll r c (matReq r c 0) (aRanges w cfg a ++ bRanges w cfg b ++ [aScaleRange w cfg a, bScaleRange w cfg b]) = .ok (leaves, r1) →
    unitFree r1 c n →
    mmaBody z c r =
      .ok (accept r1 c { blankOp r1 c (if z then 0xA2 else 0xA1) n with fmt := w, base := w64 a, base2 := w64 b, leaves } true (!z)) := by
  intro cfg a b ha hb hpages hroom
  have haligned : ¬ (a % 16 != 0 || b % 16 != 0) = true := by simp [ha, hb]
  refine (bind_of_eq_ok (wholeGroup_ok hw) _).trans ((bind_of_eq_ok hfmt _).trans ((if_neg (by simp [hknown])).trans ?_))
  refine (bind_of_eq_ok hn _).trans ((if_neg (by simp [hshape])).trans ((bind_of_eq_ok (tokenFree_ok hfree) _).trans ?_))
  exact (if_neg haligned).trans ((bind_of_eq_ok hpages _).trans (bind_of_eq_ok (unitReady_ok hroom) _))

/-- A load or a store passes its checks in the order of R309. -/
theorem moveBody_accepts {store : Bool} (hfmt : formatWord c = .ok w) (hknown : moveFormats w = true)
    (hwidth : store = true → tileWidth r c n = accWidth (fmtC w)) :
    let cfg := (curTeam r c).cfg
    let a := readUniform r c c.f.a .n64
    let stride := readUniform r c c.f.b .n32
    (accWidth (fmtC w) = 8 → cfg.m * cfg.n ≤ 8192) → stride % 16 = 0 → cfg.n * moveBytes w ≤ stride → a % 16 = 0 →
    translateAll r c (matReq r c (bit store)) (rowRanges a cfg.m stride (cfg.n * moveBytes w)) = .ok (leaves, r1) → unitFree r1 c n →
    moveBody store c r =
      .ok (accept r1 c { blankOp r1 c (if store then 0xA8 else 0xA9) n with fmt := w, base := w64 a, stride, leaves } (!store) false) := by
  intro cfg a stride hsize hstride hrow ha hpages hroom
  have hlegal : ¬ ((accWidth (fmtC w) == 8 && decide (8192 < cfg.m * cfg.n)) || stride % 16 != 0 || decide (stride < cfg.n * moveBytes w) ||
      (store && tileWidth r c n != accWidth (fmtC w))) = true := by
    simpa [hstride, hrow] using ⟨hsize, hwidth⟩
  refine (bind_of_eq_ok (wholeGroup_ok hw) _).trans ((bind_of_eq_ok hfmt _).trans ((if_neg (by simp [hknown])).trans ?_))
  refine (bind_of_eq_ok hn _).trans ((if_neg hlegal).trans ((bind_of_eq_ok (tokenFree_ok hfree) _).trans ?_))
  exact (if_neg (by simpa using ha)).trans ((bind_of_eq_ok hpages _).trans (bind_of_eq_ok (unitReady_ok hroom) _))

end

theorem exec_mma (z : Bool) (f : Fields) (s : State) :
    exec (if z then .tmmaz f else .tmma f) s = issue (if z then .tmmaz f else .tmma f) { body := mmaBody z } s := by
  cases z <;> rfl

theorem exec_move (store : Bool) (f : Fields) (s : State) :
    exec (if store then .tstore f else .tload f) s = issue (if store then .tstore f else .tload f) { body := moveBody store } s := by
  cases store <;> rfl

/-- Settles O43: the checks pass one after another, and what is left is the acceptance. -/
theorem matrixWorkIsAccepted : Obligations.MatrixWorkIsAccepted := by
  unfold Obligations.MatrixWorkIsAccepted
  intro f s c r r1 n w leaves r0 cfg a b ready hw hn hfree
  refine ⟨fun z h hfmt hknown hshape ha hb hpages hroom => ?mma, fun h hroom => ?zero,
    fun store h hfmt hknown hsize hstride hrow hwidth ha hpages hroom => ?move⟩
  case mma =>
    rw [exec_mma]
    exact issue_completed h (.inr (.inr rfl)) (.inl rfl) rfl (mmaBody_accepts hw hn hfree hfmt hknown hshape ha hb hpages hroom)
  case zero =>
    exact issue_completed h (.inr (.inr rfl)) (.inl rfl) rfl ((bind_of_eq_ok (wholeGroup_ok hw) _).trans ((bind_of_eq_ok hn _).trans
      ((bind_of_eq_ok (tokenFree_ok hfree) _).trans (bind_of_eq_ok (unitReady_ok hroom) _))))
  case move =>
    rw [exec_move]
    exact issue_completed h (.inr (.inr rfl)) (.inl rfl) rfl
      (moveBody_accepts hw hn hfree hfmt hknown hwidth hsize hstride hrow ha hpages hroom)

end Sys2Proof.Machine
end

section
/-! ## Engine instructions (11 R322 to R351) -/
namespace Sys2Proof.Machine

/-! What those that act only where a lane is active share (R322). -/

section
variable {i : Instr} {cmp : Fields → Cmp} {body : Body} {s : State} {c : Ctx} {r : Run}
  (he : ∀ s, exec i s = issue i { cmp, body := whenActive body } s) (h : Ready i s c r) (hu : c.unpaired) (hact : c.active ≠ 0)
include he h hu hact

/-- With an active lane, outside a protected launch, such an instruction completes with what its effect answers. -/
theorem whenActive_completes {r' : Run} (hb : body c (advance c r) = .ok r') : exec i s = .next (completed s c r') :=
  (he s).trans (issue_completed h (.inl hu) (.inl rfl) rfl ((if_neg hact).trans hb))

/-- The same for an effect that ends in a result, for a plain destination. -/
theorem whenActive_completes_with_result {r1 : Run} {res : ResW} {val : Nat → Nat} (hp : plainDest c = true)
    (hb : body c (advance c r) = writeRes r1 c res val) :
    ∃ r', writeRes r1 c res val = .ok r' ∧ exec i s = .next (completed s c r') :=
  exec_completes_with_result he h (.inl hu) (.inl rfl) rfl hp ((if_neg hact).trans hb)

end

/-! The two tests that recur: of an alignment, and of what must hold. -/

theorem aligned_ok {a n : Nat} (h : a % n = 0) : ¬ (a % n != 0) = true := by simp [h]

theorem required_ok {p : Bool} (h : p = true) : ¬ (!p) = true := by simp [h]

/-! Bindings (R325, R326). -/

/-- A ring of a legal capacity inside the allocation is bound, and begins empty with `.INIT`. -/
theorem qbind_binds_ring {f : Fields} {s : State} {c : Ctx} {r : Run} (h : Ready (.qbind f) s c r) (hu : c.unpaired) (hact : c.active ≠ 0)
    (hkind : xbits c.f 2 0 < 4) :
    let r0 := advance c r
    let kind := xbits c.f 2 0
    let init := xbit c.f 4
    let cap := readUniform r0 c c.f.b .n32
    let a := readUniform r0 c c.f.a .n32
    let t := curTeam r0 c
    let new := if init then cap else ringCapLog t a
    let set := fun (t : Team) => scrPut (scrPut t a 8 0) (a + 8) 1 (kind * 16 + cap)
    a % 16 = 0 → 1 ≤ new → new ≤ 12 → scrIn t a 16 = true → scrIn t a (16 + 4 * 2 ^ new) = true → (init = true ∨ ringKind t a = kind) →
    exec (.qbind f) s = .next (completed s c ((if init then r0.updTeam c.grp.team set else r0).updGrp c.gid fun g =>
      { g with q := g.q.put (xbits c.f 7 5) { kind, lw := xbit c.f 3, obj := w64 a } })) := by
  intro r0 kind init cap a t new set halign hlow hhigh hheader hwords hsame
  have hinside : ¬ (decide (1 ≤ new) && decide (new ≤ 12) && !scrIn t a (16 + 4 * 2 ^ new)) = true := by simp [hwords]
  have hlegal : ¬ (decide (new = 0) || decide (12 < new) || (!init && ringKind t a != kind)) = true := by
    have h0 : new ≠ 0 := by omega
    rcases hsame with hs | hs <;> simp [h0, hhigh, hs]
  exact whenActive_completes (fun _ => rfl) h hu hact ((if_pos hkind).trans ((if_neg (aligned_ok halign)).trans
    ((if_neg (required_ok hheader)).trans ((if_neg hinside).trans (if_neg hlegal)))))

/-- A semaphore of a legal capacity is bound, and begins empty with `.INIT`. -/
theorem qbind_binds_semaphore {f : Fields} {s : State} {c : Ctx} {r r1 r2 : Run} {bs : List Byte} (h : Ready (.qbind f) s c r) (hu : c.unpaired)
    (hact : c.active ≠ 0) (hkind : 4 ≤ xbits c.f 2 0) :
    let r0 := advance c r
    let init := xbit c.f 4
    let cap := readUniform r0 c c.f.b .n32
    let a := w64 (readUniform r0 c c.f.a .n64)
    let q := Ctx.req r0 c 2
    let w1 := leNat ((bs.drop 8).take 8)
    let new := if init then cap else w1 % 16
    a.toNat % 64 = 0 → accRead r0 c q (c.lowest.getD 0) a 64 = .ok (bs, r1) → 1 ≤ new → new ≤ 10 →
    (init = true → accWrite r1 c q (c.lowest.getD 0) a (leBytes 8 0 ++ leBytes 8 (w1 - w1 % 16 + cap)) = .ok r2) →
    exec (.qbind f) s = .next (completed s c ((if init then r2 else r1).updGrp c.gid fun g =>
      { g with q := g.q.put (xbits c.f 7 5) { kind := xbits c.f 2 0, lw := xbit c.f 3, obj := a } })) := by
  intro r0 init cap a q w1 new halign hread hlow hhigh hwrite
  have hlegal : ¬ (decide (new = 0) || decide (10 < new)) = true := by
    have h0 : new ≠ 0 := by omega
    simp [h0, hhigh]
  refine whenActive_completes (fun _ => rfl) h hu hact ((if_neg (Nat.not_lt.mpr hkind)).trans ((if_neg (aligned_ok halign)).trans
    ((bind_of_eq_ok hread _).trans ((if_neg hlegal).trans ?_))))
  by_cases hinit : init = true
  · rw [if_pos hinit, if_pos hinit]
    exact bind_of_eq_ok (hwrite hinit) _
  · rw [if_neg hinit, if_neg hinit]

/-- QSTAT of a register that is not bound reads 0. -/
theorem qstat_of_unbound {f : Fields} {s : State} {c : Ctx} {r : Run} (h : Ready (.qstat f) s c r) (hu : c.unpaired) (hact : c.active ≠ 0)
    (hp : plainDest c = true) (hq : c.grp.q.find (xbits c.f 7 5) = none) :
    ∃ r', writeRes (advance c r) c .n32 (fun _ => 0) = .ok r' ∧ exec (.qstat f) s = .next (completed s c r') :=
  whenActive_completes_with_result (fun _ => rfl) h hu hact hp (by rw [hq])

/-- QSTAT of a bound one reads its status. -/
theorem qstat_of_bound {f : Fields} {s : State} {c : Ctx} {r r1 : Run} {b : QBind} {v : Nat} (h : Ready (.qstat f) s c r) (hu : c.unpaired)
    (hact : c.active ≠ 0) (hp : plainDest c = true) (hq : c.grp.q.find (xbits c.f 7 5) = some b)
    (hstatus : queueStatus c (advance c r) b = .ok (v, r1)) :
    ∃ r', writeRes r1 c .n32 (fun _ => v) = .ok r' ∧ exec (.qstat f) s = .next (completed s c r') :=
  whenActive_completes_with_result (fun _ => rfl) h hu hact hp (by rw [hq]; exact bind_of_eq_ok hstatus _)

/-- Settles O45: each check passes in its order; QSTAT by whether the register is bound. -/
theorem queueBindingsComplete : Obligations.QueueBindingsComplete := by
  unfold Obligations.QueueBindingsComplete
  intro f s c r r0 kind init cap bound hu hact
  refine ⟨fun h hkind => qbind_binds_ring h hu hact hkind, fun bs r1 r2 h hkind => qbind_binds_semaphore h hu hact hkind,
    fun h => whenActive_completes (fun _ => rfl) h hu hact rfl,
    fun h hp => ⟨qstat_of_unbound h hu hact hp, fun b v r1 => qstat_of_bound h hu hact hp⟩⟩

/-! Transfers (R329 to R335). -/

/-- A side of a transfer that lies inside the allocation, or at a canonical address, passes its check. -/
theorem side_ok {scratch inside : Bool} {a : Nat} (h : if scratch then inside = true else a < 2 ^ 56) :
    ¬ (scratch && !inside) = true ∧ ¬ (!scratch && decide (2 ^ 56 ≤ a)) = true := by
  cases scratch with
  | true => simpa using h
  | false => simpa using h

/-- A copy that its checks pass is accepted (R329). -/
theorem copy_is_accepted {f : Fields} {s : State} {c : Ctx} {r : Run} (h : Ready (.copy f) s c r) (hu : c.unpaired) (hact : c.active ≠ 0) :
    let r0 := advance c r
    let a := readUniform r0 c c.f.a .n64
    let b := readUniform r0 c c.f.b .n64
    let v := readUniform r0 c c.f.c .n64
    let x := copyShape c.f v
    let t := curTeam r0 c
    let mode := descMode c.f
    let cpl := descCpl c.f
    x.rejected v = false → (1 < x.nr → x.rl ≤ 16 * x.dstr) → objKindOk t mode cpl 1 x.dsc = true → objIn t mode cpl = true →
    (if x.ssc then scrIn t a (x.extent x.sstr) = true else a < 2 ^ 56) → (if x.dsc then scrIn t b (x.extent x.dstr) = true else b < 2 ^ 56) →
    engineFull r0 c = false →
    exec (.copy f) s = .next (completed s c (acceptOp c r0
      { c.op .copy mode cpl (x.rl * x.nr) (copyPieces r0 c x a b) with srcSc := x.ssc, dstSc := x.dsc, dst := b })) := by
  intro r0 a b v x t mode cpl hshape hrows hkind hobj hsrc hdst hroom
  have hlegal : ¬ (x.rejected v || (decide (1 < x.nr) && decide (16 * x.dstr < x.rl)) || !objKindOk t mode cpl 1 x.dsc) = true := by
    simpa [hshape, hkind] using hrows
  obtain ⟨hsrcIn, hsrcCanon⟩ := side_ok hsrc
  obtain ⟨hdstIn, hdstCanon⟩ := side_ok hdst
  exact whenActive_completes (fun _ => rfl) h hu hact ((if_neg hlegal).trans ((if_neg hsrcIn).trans ((if_neg hdstIn).trans
    ((if_neg (required_ok hobj)).trans ((if_neg hsrcCanon).trans ((if_neg hdstCanon).trans (if_neg (Bool.eq_false_iff.mp hroom))))))))

/-- A multicast tile that its checks pass stands in a free slot (R330). -/
theorem copym_fills_slot {f : Fields} {s : State} {c : Ctx} {r r1 : Run} {bytes : List Byte} (h : Ready (.copym f) s c r) (hu : c.unpaired)
    (hact : c.active ≠ 0) :
    let r0 := advance c r
    let a := readUniform r0 c c.f.a .n64
    let v := readUniform r0 c c.f.c .n64
    let x := copyShape c.f v
    let slot := xbits c.f 3 0
    let recv := readUniform r0 c c.f.b .n32
    recv ≠ 0 → recv < 2 ^ (c.l.rows * c.l.cols) → x.rl * x.nr ≤ 65536 → x.rejected v = false →
    (if x.ssc then scrIn (curTeam r0 c) a (x.extent x.sstr) = true else a < 2 ^ 56) →
    Sparse.find (clusterSlots r0 c.t.cluster) slot = none → slotsOn r0 c.t.die < Config.dieSlots → engineFull r0 c = false →
    tileRows r0 c x a = .ok (bytes, r1) →
    exec (.copym f) s = .next (completed s c (freeSlots (r1.updCluster c.t.cluster fun k =>
      { k with slots := k.slots.put slot { bytes, recv, drained := 0 } }) c.t.cluster)) := by
  intro r0 a v x slot recv hsome hteams hsize hshape hsrc hfree hdie hroom hrows
  have hlegal : ¬ (decide (recv = 0) || decide (2 ^ (c.l.rows * c.l.cols) ≤ recv) || decide (65536 < x.rl * x.nr) || x.rejected v) = true := by
    simpa [hsome, hshape, hteams] using hsize
  have hplace : ¬ ((Sparse.find (clusterSlots r0 c.t.cluster) slot).isSome || decide (Config.dieSlots ≤ slotsOn r0 c.t.die) ||
      engineFull r0 c) = true := by
    simpa [hfree, hroom] using hdie
  obtain ⟨hsrcIn, hsrcCanon⟩ := side_ok hsrc
  exact whenActive_completes (fun _ => rfl) h hu hact ((if_neg hlegal).trans ((if_neg hsrcIn).trans ((if_neg hsrcCanon).trans
    ((if_neg hplace).trans (bind_of_eq_ok hrows _)))))

/-- A drain of a tile that the team may drain is accepted, with the tile's length as its result (R331). -/
theorem cdrain_is_accepted {f : Fields} {s : State} {c : Ctx} {r : Run} {tile : HoldSlot} (h : Ready (.cdrain f) s c r) (hu : c.unpaired)
    (hact : c.active ≠ 0) (hp : plainDest c = true) :
    let r0 := advance c r
    let t := curTeam r0 c
    let at_ := readUniform r0 c c.f.a .n32
    let obj := readUniform r0 c c.f.b .n32
    let n := tile.bytes.length
    let m := xbits c.f 5 4
    let piece : Piece := { ofs := 0, len := n, src := 0, dst := at_, state := .todo, handlerCause := none }
    drainable r0 c.grp.team t (xbits c.f 3 0) = some tile → checkObj c t m obj 1 true = .ok () → scrIn t at_ n = true → engineFull r0 c = false →
    ∃ r', writeRes (acceptOp c r0 { c.op .cdrain m obj n [piece] with dstSc := true, dst := at_, data := tile.bytes, hidx := xbits c.f 3 0 })
        c .n32 (fun _ => n) = .ok r' ∧ exec (.cdrain f) s = .next (completed s c r') := by
  intro r0 t at_ obj n m piece htile hobj hinside hroom
  change drainable (advance c r) c.grp.team (curTeam (advance c r) c) (xbits c.f 3 0) = some tile at htile
  refine whenActive_completes_with_result (fun _ => rfl) h hu hact hp ?_
  simp only [htile]
  exact (bind_of_eq_ok hobj _).trans ((if_neg (required_ok hinside)).trans (if_neg (Bool.eq_false_iff.mp hroom)))

/-- A burst read that its checks pass is accepted, and is the next of its group (R332). -/
theorem hread_is_accepted {f : Fields} {s : State} {c : Ctx} {r : Run} (h : Ready (.hread f) s c r) (hu : c.unpaired) (hact : c.active ≠ 0) :
    let r0 := advance c r
    let a := readUniform r0 c c.f.a .n64
    let b := readUniform r0 c c.f.b .n64
    let v := readUniform r0 c c.f.c .n64
    let t := curTeam r0 c
    let mode := descMode c.f
    let cpl := descCpl c.f
    let nx := nfld b 15 0
    let ny := nfld b 31 16
    let nz := nfld b 47 32
    let total := nx * ny * nz * nfld b 63 48
    let hidx := w2bits c.f 31 26
    let o := { c.op .hread mode cpl (128 * total) (burstPieces a ny nz nx total v) with
      nx, ny, nz, hidx, tag := w32 (w2bits c.f 63 32), gregs := (List.range 64).map (gReg c.grp), ordinal := c.grp.hreadOrd }
    total ≠ 0 → total < 2 ^ 24 → nfld v 63 63 = 0 → hidx < c.l.handlers.length → objKindOk t mode cpl 2 false = true → a % 128 = 0 →
    objIn t mode cpl = true → a < 2 ^ 56 → engineFull r0 c = false →
    exec (.hread f) s = .next (completed s c ((acceptOp c r0 o).updGrp c.gid fun g => { g with hreadOrd := g.hreadOrd + 1 })) := by
  intro r0 a b v t mode cpl nx ny nz total hidx o hsome hcount htop hhandler hkind halign hobj hcanon hroom
  have hlegal : ¬ (decide (total = 0) || decide (2 ^ 24 ≤ total) || nfld v 63 63 != 0 || decide (c.l.handlers.length ≤ hidx) ||
      !objKindOk t mode cpl 2 false) = true := by
    simp only [hkind, htop, decide_eq_false hsome, decide_eq_false (Nat.not_le.mpr hcount), decide_eq_false (Nat.not_le.mpr hhandler)]
    decide
  exact whenActive_completes (fun _ => rfl) h hu hact ((if_neg hlegal).trans ((if_neg (aligned_ok halign)).trans
    ((if_neg (required_ok hobj)).trans ((if_neg (Nat.not_le.mpr hcanon)).trans (if_neg (Bool.eq_false_iff.mp hroom))))))

/-- HEND ends a handler slice whose RSTs are acknowledged; nothing of a handler slice is compared or committed (R335). -/
theorem hend_ends_handler {f : Fields} {s : State} {c : Ctx} {r : Run} (h : Ready (.hend f) s c r) (hh : c.isHandler = true)
    (hrsts : awaitStores c false (fun _ => true) = .ok ()) :
    exec (.hend f) s = .next { s with run := endHandler (completed s c (advance c r)).run c.gid none } := by
  have hclose : ∀ x, closing c x = x := closing_of_no_queue (h.usesQueue_of_shape rfl (fun _ => rfl) rfl)
  have hb : (if c.isHandler then (awaitStores c false fun _ => true).map fun _ => advance c r else .error c.illegal) = .ok (advance c r) := by
    rw [if_pos hh, hrsts]
    rfl
  refine (issue_completes h (.inr (.inr rfl)) (.inl rfl) hb).trans ?_
  simp only [completed, hclose]

/-- Settles O46: each check passes in its order, and what is left is the acceptance. -/
theorem transfersComplete : Obligations.TransfersComplete := by
  unfold Obligations.TransfersComplete
  intro f s c r r0 a b v x t mode cpl
  exact ⟨hend_ends_handler, fun hu hact => ⟨fun h => copy_is_accepted h hu hact, fun bytes r1 h => copym_fills_slot h hu hact,
    fun tile h hp => cdrain_is_accepted h hu hact hp, fun h => hread_is_accepted h hu hact⟩⟩

/-! Arrival barriers and semaphores (R336 to R340). -/

theorem barrierAt_ok {c : Ctx} {r : Run} (h : readUniform r c c.f.a .n32 % 16 = 0 ∧ scrIn (curTeam r c) (readUniform r c c.f.a .n32) 16 = true) :
    barrierAt c r = .ok (readUniform r c c.f.a .n32) := by
  obtain ⟨halign, hinside⟩ := h
  exact (if_neg (aligned_ok halign)).trans (if_neg (required_ok hinside))

/-- Settles O47: the barrier passes its checks, or the semaphore answers, and the rest of each effect follows. -/
theorem barrierObjectsAndSemaphoresComplete : Obligations.BarrierObjectsAndSemaphoresComplete := by
  unfold Obligations.BarrierObjectsAndSemaphoresComplete
  intro f s c r r0 a n t barrier hu hact
  refine ⟨fun h hbar hsome hcount => ?init, fun h hbar hcount => ?add, fun h hp hbar hdone => ?wait, fun r1 h hpost => ?post,
    fun ws r1 h hp htake => ?take⟩
  case init =>
    have hlegal : ¬ (decide (n = 0) || decide (2 ^ 48 ≤ n)) = true := by simpa [hsome] using hcount
    exact whenActive_completes (fun _ => rfl) h hu hact ((bind_of_eq_ok (barrierAt_ok hbar) _).trans (if_neg hlegal))
  case add =>
    exact whenActive_completes (fun _ => rfl) h hu hact ((bind_of_eq_ok (barrierAt_ok hbar) _).trans (if_neg (Nat.not_le.mpr hcount)))
  case wait =>
    have hends : (if xbit c.f 0 then decide ((barPhase t a).toNat ≠ readUniform r0 c c.f.b .n32) else c.zeroSeen t a) = true := by
      by_cases hphase : xbit c.f 0 = true
      · rw [if_pos hphase] at hdone ⊢
        exact decide_eq_true hdone
      · rwa [if_neg hphase] at hdone ⊢
    exact whenActive_completes_with_result (fun _ => rfl) h hu hact hp ((bind_of_eq_ok (barrierAt_ok hbar) _).trans (if_pos hends))
  case post => exact whenActive_completes (fun _ => rfl) h hu hact hpost
  case take => exact whenActive_completes_with_result (fun _ => rfl) h hu hact hp (bind_of_eq_ok htake _)

/-! Exchanges (R343 to R351). -/

/-- An access at issue that answers goes on with its answer. -/
theorem orStop_ok {α : Type} {c : Ctx} {q : Req} {r : Run} {v : α} (act : Run → AccOr α) (h : act r = .ok v) : orStop c q act r = .ok v := by
  unfold orStop
  rw [h]

/-- An exchange whose arrays, layouts, progress object and completion object pass is accepted, with a place in the unit. -/
theorem lxchg_is_accepted {f : Fields} {s : State} {c : Ctx} {r r1 r2 : Run} {x : LxRead} (h : Ready (.lxchg f) s c r) (hu : c.unpaired)
    (hact : c.active ≠ 0) :
    let r0 := advance c r
    let t := curTeam r0 c
    let a := c.lxAsk (readUniform r0 c c.f.a .n64) (readUniform r0 c c.f.b .n64) (readUniform r0 c c.f.c .n64)
      (w2bits c.f 3 0) (w2bits c.f 24 24 == 1) (descMode c.f) (descCpl c.f)
    let n := if x.dlay.parts.contains (a.me r1) then x.dlay.chunks else 0
    let e := issueEvent r2 c 0xCB a.cmode
    a.src % 64 = 0 → a.dst % 64 = 0 → a.prog % 64 = 0 → objIn t a.cmode a.cpl = true → lxRead r0 a = .ok (x, r1) →
    lxRejects r1 a x a.op false = false → objKindOk t a.cmode a.cpl 3 false = true →
    checkVirt r1 (a.req 1) (w64 a.prog) (64 + bitmapBytes n) = .ok r2 → lxeFull r2 a.die = false →
    exec (.lxchg f) s = .next (completed s c (lxAccept e.2 a x a.op 0 [] e.1 true)) := by
  intro r0 t a n e hsrc hdst hprog hobj hread hlegal hkind hpages hroom
  have haligned : ¬ (a.src % 64 != 0 || a.dst % 64 != 0 || a.prog % 64 != 0) = true := by simp [hsrc, hdst, hprog]
  have hpass : ¬ (lxRejects r1 a x a.op false || !objKindOk t a.cmode a.cpl 3 false) = true := by simp [hlegal, hkind]
  refine whenActive_completes (fun _ => rfl) h hu hact ((if_neg haligned).trans ((if_neg (required_ok hobj)).trans ?_))
  refine (bind_of_eq_ok (orStop_ok (lxRead · a) hread) _).trans ((if_neg hpass).trans ?_)
  refine (bind_of_eq_ok (orStop_ok (checkVirt · (a.req 1) (w64 a.prog) (64 + bitmapBytes n)) hpages) _).trans ?_
  exact if_neg (Bool.eq_false_iff.mp hroom)

/-- A progress object that reads, of a step that is DONE, completes the resumption's object. -/
theorem lxresume_of_done {f : Fields} {s : State} {c : Ctx} {r r1 : Run} {head : List W64} (h : Ready (.lxresume f) s c r) (hu : c.unpaired)
    (hact : c.active ≠ 0) :
    let r0 := advance c r
    let prog := readUniform r0 c c.f.a .n64
    let cpl := readUniform r0 c c.f.b .n32
    let cmode := xbits c.f 1 0
    let a := c.lxAsk 0 0 prog 0 false cmode cpl
    prog % 64 = 0 → checkObj c (curTeam r0 c) cmode cpl 3 false = .ok () → readWords r0 (a.req 0) prog 8 = .ok (head, r1) → progStatus head = 2 →
    exec (.lxresume f) s = .next (completed s c (match cmode with
      | 1 => arrive r1 c.grp.team cpl 1
      | 3 => postRecord r1 c.grp.team cpl [progStepid head, w32 (fld (nthD 0 head 1) 47 40 * 16 + 2)]
      | _ => r1)) := by
  intro r0 prog cpl cmode a halign hobj hread hdone
  have hlegal : ¬ (decide (progStatus head = 0) || decide (progStatus head = 1) || decide (6 < progStatus head)) = true := by simp [hdone]
  refine whenActive_completes (fun _ => rfl) h hu hact ((if_neg (aligned_ok halign)).trans ((bind_of_eq_ok hobj _).trans ?_))
  exact (bind_of_eq_ok (orStop_ok (readWords · (a.req 0) prog 8) hread) _).trans ((if_neg hlegal).trans (if_pos hdone))

/-- One of a step that ended otherwise goes on from the chunks whose bits are set. -/
theorem lxresume_is_accepted {f : Fields} {s : State} {c : Ctx} {r r1 r2 r3 : Run} {head : List W64} {x : LxRead} {bits : List Nat}
    (h : Ready (.lxresume f) s c r) (hu : c.unpaired) (hact : c.active ≠ 0) :
    let r0 := advance c r
    let prog := readUniform r0 c c.f.a .n64
    let cpl := readUniform r0 c c.f.b .n32
    let cmode := xbits c.f 1 0
    let a := c.lxAsk 0 0 prog 0 false cmode cpl
    let endp := (findStep r1 a.die (progStepid head)).any (·.endp)
    let op := fld (nthD 0 head 1) 35 32
    let a' := { a with src := (nthD 0 head 6).toNat, dst := (nthD 0 head 7).toNat, op, endp }
    let n := if x.dlay.parts.contains (a'.me r2) then x.dlay.chunks else 0
    let e := issueEvent r3 c 0xCD cmode
    prog % 64 = 0 → checkObj c (curTeam r0 c) cmode cpl 3 false = .ok () → readWords r0 (a.req 0) prog 8 = .ok (head, r1) →
    3 ≤ progStatus head → progStatus head ≤ 6 → lxRead r1 a' = .ok (x, r2) → lxRejects r2 a' x op true = false →
    bitsInMemory r2 (a'.req 0) prog n = .ok (bits, r3) →
    (lxeFull r3 a.die = false ∨ (findStep r3 a.die (progStepid head)).any (·.active) = true) →
    exec (.lxresume f) s = .next (completed s c (lxAccept e.2 a' x op (fld (nthD 0 head 1) 50 48) bits e.1 false)) := by
  intro r0 prog cpl cmode a endp op a' n e halign hobj hread hlow hhigh hlayouts hpass hbits hroom
  have hlegal : ¬ (decide (progStatus head = 0) || decide (progStatus head = 1) || decide (6 < progStatus head)) = true := by
    simp only [Bool.or_eq_true, decide_eq_true_eq]
    omega
  have hopen : progStatus head ≠ 2 := by omega
  have hplace : ¬ (lxeFull r3 a.die && !(findStep r3 a.die (progStepid head)).any (·.active)) = true := by
    rcases hroom with hr | hr <;> simp [hr]
  refine whenActive_completes (fun _ => rfl) h hu hact ((if_neg (aligned_ok halign)).trans ((bind_of_eq_ok hobj _).trans ?_))
  refine (bind_of_eq_ok (orStop_ok (readWords · (a.req 0) prog 8) hread) _).trans ((if_neg hlegal).trans ((if_neg hopen).trans ?_))
  refine (bind_of_eq_ok (orStop_ok (lxRead · a') hlayouts) _).trans ((if_neg (Bool.eq_false_iff.mp hpass)).trans ?_)
  exact (bind_of_eq_ok (orStop_ok (bitsInMemory · (a'.req 0) prog n) hbits) _).trans (if_neg hplace)

/-- Settles O48: each access at issue answers, and each check passes, in their order. -/
theorem exchangesComplete : Obligations.ExchangesComplete := by
  unfold Obligations.ExchangesComplete
  intro f s c r r0 t hu hact
  refine ⟨fun x r1 r2 h => lxchg_is_accepted h hu hact, fun bs r1 h hp halign hread => ?stat, ?resume⟩
  case stat =>
    exact whenActive_completes_with_result (fun _ => rfl) h hu hact hp ((if_neg (aligned_ok halign)).trans (bind_of_eq_ok hread _))
  case resume =>
    intro prog cpl cmode a head r1 h halign hobj hread
    exact ⟨lxresume_of_done h hu hact halign hobj hread,
      fun x r2 r3 bits hlow hhigh => lxresume_is_accepted h hu hact halign hobj hread hlow hhigh⟩

end Sys2Proof.Machine
end

section
/-! ## Instructions without an active lane (11 R322, 09 R276, R281, R286, 14 R376) -/
namespace Sys2Proof.Machine

/-- An instruction whose effect is none without an active lane only advances then. -/
theorem only_advances_of_no_lane {i : Instr} {w : Work} {s : State} {c : Ctx} {r : Run} (he : ∀ s, exec i s = issue i w s) (h : Ready i s c r)
    (hact : c.active = 0) (hf : w.finish = none) (hfin : w.fin = fun _ r => r) (hb : ∀ r, w.body c r = .ok r) :
    exec i s = .next (completed s c (advance c r)) :=
  (he s).trans (issue_completed h (.inr (.inl hact)) (.inl hf) hfin (hb _))

/-- SPAWN looks at its destination first (R281). -/
theorem spawn_only_advances {f : Fields} {s : State} {c : Ctx} {r : Run} (h : Ready (.spawn f) s c r) (hd : c.f.w = true ∨ ∃ n, c.f.d = .g n)
    (hact : c.active = 0) : exec (.spawn f) s = .next (completed s c (advance c r)) :=
  only_advances_of_no_lane (fun _ => rfl) h hact rfl rfl fun _ => (if_pos hact).trans (if_pos ((spawnDest_iff c.f).mpr hd))

/-- Settles O49: SPAWN has its destination to look at; the effect of every other one begins with the test for an active lane. -/
theorem instructionsWithoutActiveLanesOnlyAdvance : Obligations.InstructionsWithoutActiveLanesOnlyAdvance := by
  unfold Obligations.InstructionsWithoutActiveLanesOnlyAdvance
  intro i f s c r hi h hd hact
  by_cases hs : i = .spawn f
  · subst hs
    exact spawn_only_advances h (hd rfl) hact
  · simp only [List.mem_cons, hs, false_or, List.not_mem_nil, or_false] at hi
    rcases hi with rfl | rfl | rfl | rfl | rfl | rfl | rfl | rfl | rfl | rfl | rfl | rfl |
      rfl | rfl | rfl | rfl | rfl | rfl | rfl | rfl | rfl | rfl
    all_goals exact only_advances_of_no_lane (fun _ => rfl) h hact rfl rfl fun _ => if_pos hact

end Sys2Proof.Machine
end

section
/-! ## What bounds the management plane, and what leaves through it (18 R456 to R463, 19 R475, R476, 20 R505, R510) -/
namespace Sys2Proof.Machine

/-! A port. -/

/-- What a legal management plane asks of each port. -/
def Port.legal (p : Port) : Prop := p.buffer.length ≤ Config.replayFlits ∧ p.nextSeq < 4096 ∧ p.reqw < 3

/-- What `Port.legal` reads of a port. -/
def Port.bounded (p : Port) : List Flit × Nat × Nat := (p.buffer, p.nextSeq, p.reqw)

theorem Port.legal_of_bounded_eq {p q : Port} (h : q.bounded = p.bounded) (hp : p.legal) : q.legal := by
  simp only [Port.bounded, Prod.mk.injEq] at h
  obtain ⟨hbuffer, hseq, hreqw⟩ := h
  rwa [Port.legal, hbuffer, hseq, hreqw]

theorem Port.reset_legal : Port.reset.legal := ⟨by decide, by decide, by decide⟩

/-- A port whose flits are gone keeps nothing for replay. -/
theorem Port.legal_of_empty_buffer {p q : Port} (hb : q.buffer = []) (hn : q.nextSeq = p.nextSeq) (hr : q.reqw = p.reqw) (hp : p.legal) : q.legal := by
  obtain ⟨-, hseq, hreqw⟩ := hp
  exact ⟨by simp [hb], hn ▸ hseq, hr ▸ hreqw⟩

theorem Port.credited_bounded (p : Port) (f : Flit) : (p.credited f).2.bounded = p.bounded := by
  unfold Port.credited
  split <;> rfl

theorem Port.sendIdle_bounded (p : Port) (nak : Bool) : (p.sendIdle nak).bounded = p.bounded :=
  (p.credited_bounded (idleFlit nak) :)

theorem Port.refuse_bounded (p : Port) : p.refuse.bounded = p.bounded := by
  unfold Port.refuse
  split
  · rfl
  · exact Port.sendIdle_bounded _ true

/-- A flit that is sent takes one place of the replay buffer. -/
theorem Port.sendNext_spec (p : Port) (f : Flit) :
    (p.sendNext f).buffer.length = p.buffer.length + 1 ∧ (p.sendNext f).nextSeq < 4096 ∧ (p.sendNext f).reqw = p.reqw := by
  have h := p.credited_bounded { f with seq := p.nextSeq }
  simp only [Port.bounded, Prod.mk.injEq] at h
  obtain ⟨hbuffer, -, hreqw⟩ := h
  exact ⟨by simp [Port.sendNext, hbuffer], Nat.mod_lt _ (by decide), hreqw⟩

/-- Flits that fit the replay buffer leave a legal port legal. -/
theorem Port.foldl_sendNext_legal {fs : List Flit} {p : Port} (hp : p.legal) (hfit : p.buffer.length + fs.length ≤ Config.replayFlits) :
    (fs.foldl Port.sendNext p).legal := by
  induction fs generalizing p with
  | nil => exact hp
  | cons f fs ih =>
    obtain ⟨hlen, hseq, hreqw⟩ := p.sendNext_spec f
    rw [List.length_cons] at hfit
    exact ih ⟨by omega, hseq, hreqw ▸ hp.2.2⟩ (by omega)

theorem Port.transmit_legal {p : Port} (now : W64) (hp : p.legal) : (p.transmit now).legal := by
  unfold Port.transmit
  split
  · exact hp
  dsimp only
  split
  · exact hp
  have hbuffer := hp.1
  refine Port.legal_of_bounded_eq rfl (Port.foldl_sendNext_legal (fs := p.unsent.take (min p.unsent.length (Config.replayFlits - p.buffer.length))) hp ?_)
  rw [List.length_take]
  omega

theorem portTurn_legal (r : Run) (a : Nat) {p : Port} (hp : p.legal) : (portTurn r a p).legal := by
  refine Port.transmit_legal _ (Port.legal_of_bounded_eq (p := p) ?_ hp)
  dsimp only
  split
  · split <;> rfl
  · rfl

theorem ackedRest_length_le (buffer : List Flit) (ack : Nat) : (ackedRest buffer ack).length ≤ buffer.length := by
  unfold ackedRest
  split
  · simp
  · rfl

/-- What a port receives frees places of its replay buffer and takes none. -/
theorem Port.receive_legal {p : Port} (now : W64) (wire : List Byte) (hp : p.legal) : (p.receive now wire).legal := by
  unfold Port.receive
  split
  · exact Port.legal_of_bounded_eq (p := p) p.refuse_bounded hp
  dsimp only
  split
  · exact Port.legal_of_bounded_eq (Port.refuse_bounded _) hp
  obtain ⟨hbuffer, hseq, hreqw⟩ := hp
  have hacked : ∀ ack, (ackedRest p.buffer ack).length ≤ Config.replayFlits := fun ack => (ackedRest_length_le _ _).trans hbuffer
  split
  · exact ⟨hacked _, hseq, hreqw⟩
  · exact ⟨hacked _, hseq, hreqw⟩

/-! The management plane. -/

/-- A change that keeps a legal management plane legal and lowers no floor. -/
def Mgmt.advances (m n : Mgmt) : Prop := (m.legal → n.legal) ∧ m.floorsRise n

/-- What `Mgmt.legal` and `Mgmt.floorsRise` read, but for the ports. -/
def Mgmt.stored (m : Mgmt) : List FwSlot × List FwSlot × List (Nat × Repair) × Nat × Nat := (m.mmpSlots, m.dcpSlots, m.pending, m.mmpFloor, m.dcpFloor)

theorem Mgmt.advances.trans {m n k : Mgmt} (a : m.advances n) (b : n.advances k) : m.advances k :=
  ⟨fun h => b.1 (a.1 h), a.2.1.trans b.2.1, a.2.2.trans b.2.2⟩

/-- What is stored stays, and so do the ports, each legal where it was. -/
theorem Mgmt.advances_of_stored_eq {m n : Mgmt} (hs : n.stored = m.stored) (hl : n.ports.length = m.ports.length)
    (hp : (∀ p ∈ m.ports, p.legal) → ∀ p ∈ n.ports, p.legal) : m.advances n := by
  simp only [Mgmt.stored, Prod.mk.injEq] at hs
  obtain ⟨hmmp, hdcp, hpending, hmmpFloor, hdcpFloor⟩ := hs
  refine ⟨fun ⟨h1, h2, h3, h4, h5⟩ => ⟨?_, ?_, ?_, ?_, hp h5⟩, ?_⟩
  · rwa [hmmp]
  · rwa [hdcp]
  · rwa [hl]
  · rwa [hpending]
  · rw [Mgmt.floorsRise, hmmpFloor, hdcpFloor]
    exact ⟨le_rfl, le_rfl⟩

theorem Mgmt.advances_of_eq {m n : Mgmt} (hs : n.stored = m.stored) (hp : n.ports = m.ports) : m.advances n :=
  Mgmt.advances_of_stored_eq hs (by rw [hp]) fun h => by rwa [hp]

theorem Mgmt.advances_refl (m : Mgmt) : m.advances m := Mgmt.advances_of_eq rfl rfl

/-- A port of a legal management plane is legal, and so is what a port that is not there reads as. -/
theorem Mgmt.port_legal {m : Mgmt} (h : ∀ p ∈ m.ports, p.legal) (a : Nat) : (m.port a).legal := by
  unfold Mgmt.port nthD
  cases ha : m.ports[a]? with
  | none => exact Port.reset_legal
  | some p => exact h p (List.mem_of_getElem? ha)

theorem mem_updAt {α : Type} {l : List α} {n : Nat} {f : α → α} {y : α} (h : y ∈ updAt l n f) : y ∈ l ∨ ∃ x ∈ l, y = f x := by
  obtain ⟨k, hk⟩ := List.getElem?_of_mem h
  rw [updAt_getElem?] at hk
  split at hk
  · obtain ⟨x, hx, rfl⟩ := Option.map_eq_some_iff.mp hk
    exact .inr ⟨x, List.mem_of_getElem? hx, rfl⟩
  · exact .inl (List.mem_of_getElem? hk)

theorem Mgmt.advances_updPort (m : Mgmt) (a : Nat) {f : Port → Port} (hf : ∀ p, p.legal → (f p).legal) : m.advances (m.updPort a f) := by
  refine Mgmt.advances_of_stored_eq rfl (updAt_length ..) fun h p hp => ?_
  rcases mem_updAt hp with hp | ⟨x, hx, rfl⟩
  · exact h p hp
  · exact hf x (h x hx)

/-- An update of a port that leaves what is bounded as it is. -/
theorem Mgmt.advances_updPort_of_eq (m : Mgmt) (a : Nat) {f : Port → Port} (hf : ∀ p, (f p).bounded = p.bounded) : m.advances (m.updPort a f) :=
  m.advances_updPort a fun p => Port.legal_of_bounded_eq (hf p)

theorem Mgmt.advances_mapPorts (m : Mgmt) {f : Port → Port} (hf : ∀ p, p.legal → (f p).legal) : m.advances { m with ports := m.ports.map f } := by
  refine Mgmt.advances_of_stored_eq rfl (List.length_map _) fun h p hp => ?_
  obtain ⟨q, hq, rfl⟩ := List.mem_map.mp hp
  exact hf q (h q hq)

theorem Mgmt.advances_rangePorts (m : Mgmt) {f : Nat → Port} (hf : ∀ a, (m.port a).legal → (f a).legal) :
    m.advances { m with ports := (List.range m.ports.length).map f } := by
  refine Mgmt.advances_of_stored_eq rfl (by simp) fun h p hp => ?_
  obtain ⟨a, -, rfl⟩ := List.mem_map.mp hp
  exact hf a (Mgmt.port_legal h a)

theorem Mgmt.advances_updAtoll (m : Mgmt) (a : Nat) (f : Atoll → Atoll) : m.advances (m.updAtoll a f) := Mgmt.advances_of_eq rfl rfl

theorem answer_advances (m : Mgmt) (x : Reply) : m.advances (answer m x) := Mgmt.advances_of_eq rfl rfl
theorem answerOn_advances (ferry : Nat) (m : Mgmt) (x : Reply) : m.advances (answerOn ferry m x) := Mgmt.advances_of_eq rfl rfl
theorem protectLog_advances (r : Run) (m : Mgmt) : m.advances (protectLog r m) := Mgmt.advances_of_eq rfl rfl

theorem foldl_advances {α β : Type} (m : β → Mgmt) {f : β → α → β} (hf : ∀ x a, (m x).advances (m (f x a))) (l : List α) (x : β) :
    (m x).advances (m (l.foldl f x)) := by
  induction l generalizing x with
  | nil => exact Mgmt.advances_refl _
  | cons a l ih => exact (hf x a).trans (ih _)

theorem floodDevice_advances (m : Mgmt) (except_ : Option Nat) (p : Packet) : m.advances (floodDevice m except_ p) := by
  refine m.advances_rangePorts fun a h => ?_
  dsimp only
  split
  · exact Port.legal_of_bounded_eq rfl h
  · exact h

/-! Packets on their way (18 R458, R463). -/

theorem leave_advances (s : Run × Mgmt) (a : Nat) (p : Packet) : s.2.advances (leave s a p).2 :=
  (s.2.advances_updPort_of_eq (f := fun x => x.enqueue { p with route := a, acktag := oldestTag s.1 p.dst }) a fun _ => rfl).trans
    (Mgmt.advances_updAtoll _ a _)

theorem pumpOne_advances (s : Run × Mgmt) (p : Packet) (rest : List Packet) : s.2.advances (pumpOne s p rest).2 := by
  unfold pumpOne
  dsimp only
  split
  · split
    · split <;> exact Mgmt.advances_refl _
    · split
      · exact Mgmt.advances_refl _
      · split
        · exact Mgmt.advances_refl _
        · exact leave_advances s _ _
  split
  · exact Mgmt.advances_refl _
  split
  · split
    · exact leave_advances s _ _
    · exact Mgmt.advances_refl _
  · split
    · rename_i a r _
      exact leave_advances (r, s.2) a p
    · exact Mgmt.advances_refl _

theorem pumpAll_advances (ps : List Packet) (s : Run × Mgmt) : s.2.advances (pumpAll s ps).2 := by
  induction ps generalizing s with
  | nil => exact Mgmt.advances_refl _
  | cons p ps ih => exact (pumpOne_advances s p ps).trans (ih _)

theorem pump_advances (s : Run × Mgmt) : s.2.advances (pump s).2 :=
  (pumpAll_advances _ ({ s.1 with outbox := [] }, s.2)).trans (Mgmt.advances_rangePorts _ fun a => portTurn_legal _ a)

/-! Records on their way (19 R475, R476). -/

theorem shoalWrite_advances (r : Run) (m : Mgmt) (e : EvRec) : m.advances (shoalWrite r m e).2 := by
  unfold shoalWrite
  dsimp only
  split <;> exact Mgmt.advances_of_eq rfl rfl

theorem drainRecs_advances (u : UnitId) (recs : List EvRec) (s : Run × Mgmt) : s.2.advances (drainRecs u recs s).2.2 := by
  induction recs generalizing s with
  | nil => exact Mgmt.advances_refl _
  | cons e t ih =>
    unfold drainRecs
    dsimp only
    split
    · exact ih s
    split
    · exact (shoalWrite_advances s.1 s.2 e).trans (ih _)
    split
    · exact Mgmt.advances_refl _
    · exact Mgmt.advances.trans (Mgmt.advances_of_eq rfl rfl) (ih (_, { s.2 with dropped := s.2.dropped + 1 }))

theorem narrows_advances (s : Run × Mgmt) : s.2.advances (narrows s).2 :=
  foldl_advances (fun acc : List UnitBuffer × (Run × Mgmt) => acc.2.2) (fun acc b => drainRecs_advances b.unit b.recs acc.2) s.1.units ([], s)

end Sys2Proof.Machine
end

section
/-! ## Ports and arriving packets keep the bounds of the management plane (18 R456 to R470) -/
namespace Sys2Proof.Machine

/-! Ports and lanes (18 R456 to R459, R462). -/

theorem losePort_advances (s : Run × Mgmt) (a : Nat) (st : PortState) : s.2.advances (losePort s a st).2 := by
  unfold losePort linkEvent
  refine Mgmt.advances.trans ?_ (Mgmt.advances_updAtoll (s.2.updPort a _) a _)
  exact s.2.advances_updPort a fun p => Port.legal_of_empty_buffer (p := p) rfl rfl rfl

theorem laneFailAct_advances (a lane : Nat) (s : Run × Mgmt) : s.2.advances (laneFailAct a lane s).2 := by
  unfold laneFailAct
  have hlane : s.2.advances (s.2.updPort a fun p => { p with laneok := (s.2.port a).laneok &&& ~~~(1#8 <<< lane) }) :=
    s.2.advances_updPort_of_eq a fun _ => rfl
  dsimp only
  split
  · exact hlane
  split
  · exact hlane.trans (losePort_advances (s.1, _) a .down)
  · exact hlane.trans (Mgmt.advances_updPort_of_eq _ a fun _ => rfl)

theorem flitAct_advances (a : Nat) (wire : List Byte) (s : Run × Mgmt) : s.2.advances (flitAct a wire s).2 := by
  unfold flitAct
  have hflit : s.2.advances (s.2.updPort a fun p => p.receive (portNow s.1 a) wire) := s.2.advances_updPort a fun _ => Port.receive_legal _ wire
  dsimp only
  split
  · exact hflit
  · refine (hflit.trans ?_).trans (laneFailAct_advances a _ (s.1.newFree.2, _))
    exact Mgmt.advances_updPort_of_eq _ a fun _ => rfl

theorem retrainCompleteAct_advances (a : Nat) (laneok : Byte) (s : Run × Mgmt) : s.2.advances (retrainCompleteAct a laneok s).2 := by
  unfold retrainCompleteAct linkEvent
  dsimp only
  split
  · refine Mgmt.advances.trans ?_ (losePort_advances (s.1, s.2.updPort a fun p => { p with laneok }) a .down)
    exact s.2.advances_updPort_of_eq a fun _ => rfl
  · split
    · refine Mgmt.advances.trans ?_ (Mgmt.advances_updPort_of_eq (s.2.updPort a _) a fun _ => rfl)
      exact s.2.advances_updPort_of_eq a fun _ => rfl
    · exact s.2.advances_updPort_of_eq a fun _ => rfl

/-- Every value of REQW but the reserved one is a legal width (18 R462). -/
theorem reqwAct_advances (a : Nat) {width : Nat} (h : width < 3) (m : Mgmt) : m.advances (reqwAct a width m) :=
  m.advances_updPort a fun _ ⟨hbuffer, hseq, _⟩ => ⟨hbuffer, hseq, h⟩

theorem widthChangeAct_advances (a : Nat) (s : Run × Mgmt) : s.2.advances (widthChangeAct a s).2 :=
  s.2.advances_updPort_of_eq a fun _ => rfl

theorem replay_advances (m : Mgmt) (a : Nat) (now : W64) : m.advances (m.updPort a fun p => p.replay now) := m.advances_updPort_of_eq a fun _ => rfl

theorem heartbeat_advances (m : Mgmt) (a : Nat) (now : W64) : m.advances (m.updPort a fun p => { p.sendIdle false with lastTx := now }) :=
  m.advances_updPort_of_eq a fun p => p.sendIdle_bounded false

theorem retransmitAct_advances (dev tag : Nat) (s : Run × Mgmt) : s.2.advances (retransmitAct dev tag s).2 := by
  unfold retransmitAct
  split
  · exact Mgmt.advances_refl _
  · split <;> exact Mgmt.advances_refl _

/-! Packets that arrive (18 R463 to R470). -/

theorem takePacket_advances (s : Run × Mgmt) (a : Nat) (p : Packet) : s.2.advances (takePacket s a p).2 := by
  unfold takePacket
  dsimp only
  split
  · exact s.2.advances_updPort_of_eq a fun _ => rfl
  · exact s.2.advances_updAtoll a _

theorem requestAct_advances (a : Nat) (p : Packet) (s : Run × Mgmt) : s.2.advances (requestAct a p s).2 := by
  unfold requestAct
  refine (takePacket_advances s a p).trans ?_
  dsimp only
  split
  · exact Mgmt.advances_updAtoll _ a _
  split
  · exact Mgmt.advances_of_eq rfl rfl
  split <;> exact Mgmt.advances_of_eq rfl rfl

theorem replyAct_advances (a : Nat) (p : Packet) (s : Run × Mgmt) : s.2.advances (replyAct a p s).2 := by
  unfold replyAct
  refine (takePacket_advances s a p).trans ?_
  dsimp only
  split
  · exact Mgmt.advances_updAtoll _ a _
  split
  · exact Mgmt.advances_updPort_of_eq _ a fun _ => rfl
  split <;> exact Mgmt.advances_updAtoll _ a _

theorem pullAct_advances (a : Nat) (p : Packet) (s : Run × Mgmt) : s.2.advances (pullAct a p s).2 := by
  unfold pullAct
  split
  · exact takePacket_advances s a p
  dsimp only
  split
  · rename_i r _
    exact takePacket_advances (r, s.2) a p
  · exact Mgmt.advances_refl _
  · rename_i r _
    exact takePacket_advances (r, s.2) a p
  · exact Mgmt.advances_refl _

theorem contributionAct_advances (a : Nat) (rank : Option Nat) (p : Packet) (s : Run × Mgmt) : s.2.advances (contributionAct a rank p s).2 := by
  unfold contributionAct
  dsimp only
  split
  · exact takePacket_advances s a p
  · split <;> exact takePacket_advances s a p

theorem lxPacket_advances {party : Party} {p : Packet} {device : Nat → Run × Mgmt → Run × Mgmt}
    (hd : ∀ a s, (s.2 : Mgmt).advances (device a s).2) (s : Run × Mgmt) : s.2.advances (lxPacket party p device s).2 := by
  cases party with
  | device a => exact hd a s
  | atoll a m => exact s.2.advances_updAtoll a _

theorem joinAct_advances (atoll port : Nat) (p : Packet) (s : Run × Mgmt) : s.2.advances (joinAct atoll port p s).2 := s.2.advances_updAtoll atoll _

theorem downAct_advances (atoll port : Nat) (p : Packet) (s : Run × Mgmt) : s.2.advances (downAct atoll port p s).2 := s.2.advances_updAtoll atoll _

theorem joinackAct_advances (a : Nat) (p : Packet) (s : Run × Mgmt) : s.2.advances (joinackAct a p s).2 := by
  unfold joinackAct linkEvent
  refine (takePacket_advances s a p).trans ?_
  dsimp only
  split
  · exact Mgmt.advances_updPort_of_eq _ a fun _ => rfl
  · exact Mgmt.advances_refl _

theorem joinrefuseAct_advances (a : Nat) (p : Packet) (s : Run × Mgmt) : s.2.advances (joinrefuseAct a p s).2 := by
  unfold joinrefuseAct
  refine (takePacket_advances s a p).trans ?_
  dsimp only
  split
  · exact Mgmt.advances_updPort_of_eq _ a fun _ => rfl
  · exact Mgmt.advances_refl _

theorem deviceNotice_advances (a : Nat) (p : Packet) (s : Run × Mgmt) : s.2.advances (deviceNotice a p s).2 := by
  unfold deviceNotice endRequests
  dsimp only
  split
  · exact Mgmt.advances_of_eq rfl rfl
  · split <;> exact Mgmt.advances_of_eq rfl rfl
  · split <;> exact Mgmt.advances_of_eq rfl rfl
  · exact Mgmt.advances_of_eq rfl rfl
  · exact Mgmt.advances_of_eq rfl rfl

theorem noticeAct_advances (party : Party) (p : Packet) (s : Run × Mgmt) : s.2.advances (noticeAct party p s).2 := by
  cases party with
  | atoll a m => exact s.2.advances_updAtoll a _
  | device a =>
    unfold noticeAct
    refine (takePacket_advances s a p).trans ?_
    dsimp only
    split
    · exact Mgmt.advances_refl _
    · refine Mgmt.advances.trans ?_ (deviceNotice_advances a p (_, _))
      exact Mgmt.advances.trans (Mgmt.advances_of_eq rfl rfl) (floodDevice_advances _ (some a) p)

end Sys2Proof.Machine
end

section
/-! ## Tools, dies, firmware and resets keep the bounds of the management plane (19 R474, R492, 20 R498 to R514) -/
namespace Sys2Proof.Machine

/-! Tools, the control node and dies (19 R474, R492, 20 R501 to R507). -/

theorem timesyncAct_advances (stepTo : Option W64) (s : Run × Mgmt) : s.2.advances (timesyncAct stepTo s).2 := by
  cases stepTo <;> exact Mgmt.advances_of_eq rfl rfl

theorem sketchAct_advances (u : UnitId) (s : Run × Mgmt) : s.2.advances (sketchAct u s).2 := answer_advances s.2 _

theorem hostFail_advances (ferry part : Nat) (e : AccFail × Run) (s : Run × Mgmt) : s.2.advances (hostFail ferry part e s).2 := by
  unfold hostFail
  split <;> exact answerOn_advances ferry s.2 _

theorem hostRead_advances (ferry part : Nat) (va : W64) (bytes : Nat) (s : Run × Mgmt) : s.2.advances (hostRead ferry part va bytes s).2 := by
  unfold hostRead
  split
  · exact answerOn_advances ferry s.2 _
  · exact hostFail_advances ferry part _ s

theorem hostWrite_advances (ferry part : Nat) (va : W64) (data : List Byte) (s : Run × Mgmt) : s.2.advances (hostWrite ferry part va data s).2 := by
  unfold hostWrite
  split
  · exact answerOn_advances ferry s.2 _
  · exact hostFail_advances ferry part _ s

theorem hostAtomic_advances (ferry part : Nat) (va : W64) (new : W64 → Option W64) (s : Run × Mgmt) :
    s.2.advances (hostAtomic ferry part va new s).2 := by
  unfold hostAtomic
  dsimp only
  split
  · exact hostFail_advances ferry part _ s
  split
  · exact answerOn_advances ferry s.2 _
  split
  · exact answerOn_advances ferry s.2 _
  · exact hostFail_advances ferry part _ s

theorem floodPark_advances (s : Run × Mgmt) (type die : Nat) : s.2.advances (floodPark s type die).2 := by
  unfold floodPark
  dsimp only
  refine Mgmt.advances.trans ?_ (floodDevice_advances _ none _)
  split <;> exact Mgmt.advances_of_eq rfl rfl

theorem quarantineAct_advances (die : Nat) (s : Run × Mgmt) : s.2.advances (quarantineAct die s).2 := by
  unfold quarantineAct
  split
  · split
    · exact floodPark_advances (_, s.2) 0x23 die
    · exact Mgmt.advances_refl _
  · exact Mgmt.advances_refl _

theorem releaseAct_advances (die : Nat) (s : Run × Mgmt) : s.2.advances (releaseAct die s).2 := by
  unfold releaseAct
  split
  · exact floodPark_advances (_, s.2) 0x24 die
  · exact Mgmt.advances_refl _

/-- A pending list within some bound, all else that is stored as it was. -/
theorem Mgmt.advances_of_pending_le {m n : Mgmt} (hp : m.pending.length ≤ 4096 → n.pending.length ≤ 4096) (hports : n.ports = m.ports)
    (hs : (n.mmpSlots, n.dcpSlots, n.mmpFloor, n.dcpFloor) = (m.mmpSlots, m.dcpSlots, m.mmpFloor, m.dcpFloor)) : m.advances n := by
  simp only [Prod.mk.injEq] at hs
  obtain ⟨hmmp, hdcp, hmmpFloor, hdcpFloor⟩ := hs
  refine ⟨fun ⟨h1, h2, h3, h4, h5⟩ => ⟨hmmp ▸ h1, hdcp ▸ h2, hports ▸ h3, hp h4, hports ▸ h5⟩, ?_⟩
  rw [Mgmt.floorsRise, hmmpFloor, hdcpFloor]
  exact ⟨le_rfl, le_rfl⟩

theorem fuseRepairs_advances (m : Mgmt) (die : Nat) : m.advances (fuseRepairs m die) :=
  Mgmt.advances_of_pending_le (fun h => (List.length_filter_le ..).trans h) rfl rfl

/-- A repair enters the pending list where that has room (20 R505). -/
theorem repairAct_advances (die : Nat) (x : Repair) (s : Run × Mgmt) : s.2.advances (repairAct die x s).2 := by
  refine Mgmt.advances_of_pending_le (fun h => ?_) rfl rfl
  unfold repairAct
  dsimp only
  split
  · rename_i hroom
    simpa [pendingMax] using hroom
  · exact h

theorem restartAct_advances (die : Nat) (failed : List Nat) (s : Run × Mgmt) : s.2.advances (restartAct die failed s).2 := by
  unfold restartAct
  refine (narrows_advances s).trans ?_
  dsimp only
  split
  · exact Mgmt.advances_refl _
  split
  · exact Mgmt.advances_refl _
  · exact fuseRepairs_advances _ die

theorem dcpTimeoutAct_advances (die : Nat) (s : Run × Mgmt) : s.2.advances (dcpTimeoutAct die s).2 := by
  unfold dcpTimeoutAct
  dsimp only
  split
  · exact narrows_advances s
  · exact Mgmt.advances_refl _

/-! Firmware (20 R510, R511). -/

/-- Two slots stay two, and a floor that does not fall. -/
theorem setSlots_advances (m : Mgmt) (kind : FwKind) {xs : List FwSlot} {floor : Nat} (hl : xs.length = (fwSlots m kind).length)
    (hf : fwFloor m kind ≤ floor) : m.advances (setSlots m kind xs floor) := by
  cases kind with
  | mmp => exact ⟨fun ⟨h1, h2, h3, h4, h5⟩ => ⟨hl.trans h1, h2, h3, h4, h5⟩, hf, le_rfl⟩
  | dcp => exact ⟨fun ⟨h1, h2, h3, h4, h5⟩ => ⟨h1, hl.trans h2, h3, h4, h5⟩, le_rfl, hf⟩

theorem writeImage_advances (kind : FwKind) (slot : Bool) (image : List Byte) (m : Mgmt) : m.advances (writeImage kind slot image m) :=
  (setSlots_advances m kind (updAt_length ..) le_rfl).trans (answer_advances _ _)

/-- A commit raises the floor to the version that it makes ACTIVE, and never lowers it (20 R510). -/
theorem commitAct_advances (kind : FwKind) (m : Mgmt) : m.advances (commitAct kind m) := by
  unfold commitAct
  split
  · exact Mgmt.advances_refl _
  · exact setSlots_advances m kind (by simp) (le_max_left ..)

/-! Resets (20 R513, R514). -/

/-- DOWN is sent by ports that a reset then clears: it is not bounded by their replay buffers, and leaves all else that is stored. -/
theorem sendDown_stored (r : Run) (m : Mgmt) (kind : Nat) :
    (sendDown r m kind).stored = m.stored ∧ (sendDown r m kind).ports.length = m.ports.length := by
  unfold sendDown
  refine List.foldlRecOn (motive := fun n : Mgmt => n.stored = m.stored ∧ n.ports.length = m.ports.length) _ _ ⟨rfl, rfl⟩ fun n hn a _ => ?_
  dsimp only
  split
  · exact hn
  · exact ⟨hn.1, (updAt_length ..).trans hn.2⟩

/-- A reset clears the ports, and keeps what is stored (20 R513). -/
theorem resetMgmt_advances {m n : Mgmt} (now : W64) (hs : n.stored = m.stored) (hl : n.ports.length = m.ports.length) :
    m.advances (resetMgmt now n) := by
  refine Mgmt.advances_of_stored_eq hs ((List.length_map _).trans hl) fun _ p hp => ?_
  obtain ⟨q, -, rfl⟩ := List.mem_map.mp hp
  exact Port.legal_of_bounded_eq rfl Port.reset_legal

theorem bringUp_advances (kind : Nat) (failed : List (Nat × Nat)) (s : Run × Mgmt) : s.2.advances (bringUp kind failed s).2 := by
  unfold bringUp
  dsimp only
  split
  · exact Mgmt.advances_of_eq rfl rfl
  · have hfused := foldl_advances (fun m => m) fuseRepairs_advances (List.range Config.dies) s.2
    generalize (List.range Config.dies).foldl fuseRepairs s.2 = m at hfused
    refine (hfused.trans (m.advances_mapPorts (f := fun p => { p with state := .training }) fun p => Port.legal_of_bounded_eq rfl)).trans ?_
    exact Mgmt.advances_of_eq rfl rfl

theorem powerReset_advances (s : Run × Mgmt) : s.2.advances (powerReset s).2 := by
  unfold powerReset
  refine Mgmt.advances.trans ?_ (bringUp_advances 0 _ (_, resetMgmt _ _))
  split
  · obtain ⟨hs, hl⟩ := sendDown_stored s.1 s.2 0
    exact resetMgmt_advances _ hs hl
  · exact resetMgmt_advances _ rfl rfl

theorem moduleReset_advances (s : Run × Mgmt) : s.2.advances (moduleReset s).2 := by
  unfold moduleReset
  obtain ⟨hs, hl⟩ := sendDown_stored (narrows s).1 (narrows s).2 1
  exact ((narrows_advances s).trans (resetMgmt_advances _ hs hl)).trans (bringUp_advances 1 _ (_, resetMgmt _ _))

theorem mmpReset_advances (s : Run × Mgmt) : s.2.advances (mmpReset s).2 := by
  unfold mmpReset
  refine (narrows_advances s).trans ?_
  dsimp only
  split <;> exact Mgmt.advances_of_eq rfl rfl

theorem powerLoss_advances (s : Run × Mgmt) : s.2.advances (powerLoss s).2 := by
  refine Mgmt.advances_of_stored_eq rfl (List.length_map _) fun _ p hp => ?_
  obtain ⟨q, -, rfl⟩ := List.mem_map.mp hp
  exact Port.reset_legal

theorem finishBoot_advances (s : Run × Mgmt) : s.2.advances (finishBoot s).2 := by
  unfold finishBoot
  split
  · refine Mgmt.advances.trans ?_ (foldl_advances Prod.snd (fun x d => floodPark_advances x 0x23 d) _ (_, _))
    exact Mgmt.advances_of_eq rfl rfl
  · exact Mgmt.advances_refl _

/-! Writes of the configuration space (20 R499, R500). -/

theorem configPut_advances (reg : ConfigReg) (v : W64) (s : Run × Mgmt) : s.2.advances (configPut reg v s).2 := by
  cases reg <;> exact Mgmt.advances_of_eq rfl rfl

theorem configAct_advances (reg : ConfigReg) (v : W64) (s : Run × Mgmt) : s.2.advances (configAct reg v s).2 := by
  cases reg with
  | word ofs =>
    unfold configAct
    dsimp only
    split
    · exact configPut_advances _ v s
    · split
      · rename_i h
        simp only [Bool.and_eq_true, decide_eq_true_eq, bne_iff_ne, ne_eq] at h
        have hlt : fld v 1 0 < 4 := Nat.mod_lt _ (by decide)
        exact reqwAct_advances _ (by omega) s.2
      · exact Mgmt.advances_refl _
    · exact Mgmt.advances_refl _
  | _ => exact configPut_advances _ v s

end Sys2Proof.Machine
end

section
/-! ## Every step keeps the bounds of the management plane (18 R458, R462, 20 R505, R510, R511) -/
namespace Sys2Proof.Machine

/-! Instructions and rows. -/

/-- An outcome whose state, where there is one, has a management plane that advances from another. -/
def keepsPlane (m : Mgmt) (o : Host.Outcome State Fault Refusal) : Prop := ∀ t, o = .next t → m.advances t.mgmt

theorem keepsPlane_next {m : Mgmt} {s : State} (h : m.advances s.mgmt) : keepsPlane m (.next s) := by
  rintro t ⟨⟩
  exact h

theorem issue_keepsPlane (i : Instr) (w : Work) (s : State) : keepsPlane s.mgmt (issue i w s) := by
  unfold issue
  split
  · split
    · exact keepsPlane_next (Mgmt.advances_refl _)
    · nofun
  · nofun

theorem rowRun_keepsPlane (due : Bool) (s : State) (act : Run → Run) : keepsPlane s.mgmt (rowRun due s act) := by
  unfold rowRun
  split
  · exact keepsPlane_next (Mgmt.advances_refl _)
  · nofun

theorem rowBoth_keepsPlane {due : Bool} {s : State} {act : Run × Mgmt → Run × Mgmt} (h : due = true → ∀ x : Run × Mgmt, x.2.advances (act x).2) :
    keepsPlane s.mgmt (rowBoth due s act) := by
  unfold rowBoth
  split
  · exact keepsPlane_next (h ‹_› (s.run, s.mgmt))
  · nofun

theorem rowServed_keepsPlane {due : Bool} {s : State} {act : Run × Mgmt → Run × Mgmt} (h : due = true → ∀ x : Run × Mgmt, x.2.advances (act x).2) :
    keepsPlane s.mgmt (rowServed due s act) :=
  rowBoth_keepsPlane fun hd x => (h (Bool.and_eq_true_iff.mp hd).2 x).trans (answer_advances _ _)

theorem rowAsked_keepsPlane {due : Bool} {part : Nat} {h : W64} {right : Nat} {s : State} {act : Run × Mgmt → Run × Mgmt}
    (ha : ∀ x : Run × Mgmt, x.2.advances (act x).2) : keepsPlane s.mgmt (rowAsked due part h right s act) := by
  refine rowBoth_keepsPlane fun _ x => ?_
  dsimp only
  split
  · exact ha (rightsSeen x.1 part (partDie x.1 part) h, x.2)
  · exact answer_advances _ _

theorem rowToldAsked_keepsPlane {due : Bool} {part : Nat} {h : W64} {right : Nat} {s : State} {act : Run × Mgmt → Run × Mgmt}
    (ha : ∀ x : Run × Mgmt, x.2.advances (act x).2) : keepsPlane s.mgmt (rowToldAsked due part h right s act) :=
  rowAsked_keepsPlane fun x => (ha x).trans (answer_advances _ _)

theorem readConfig_keepsPlane (ofs : Nat) (s : State) : keepsPlane s.mgmt (readConfig ofs s) := rowBoth_keepsPlane fun _ _ => answer_advances _ _

/-- Instructions and the rows of units leave the management plane; each other row keeps it by the lemma about its effect. -/
theorem exec_keepsPlane (i : Instr) (s : State) : keepsPlane s.mgmt (exec i s) := by
  unfold exec
  cases i
  case preemptLimit | committedStorePerform | matrixPerform | copyPiece | copyPieceFail | drainLand | burstReturn | heldBurstStart |
      heldRecordPush | lxDigest | lxChunkDone | lxStepDone | lxFault | stepOverdue | launcherTake | graphRecord | lxRecord | signal | waitev |
      waitevComplete | cstart | cstop | fenceRecord | graphNodeComplete | run | suspend | skip | retry | clusterPlace | stealRequest | preempt |
      groupResume | inval | resolve | pin | unpin | faultRecordWrite | loss | drain | coreFence | eolUpdate | sample | powerThrottle =>
    exact rowRun_keepsPlane _ s _
  case ptroot | caprevoke | winsync | keyLoad | keyClear | watchdogKill => exact rowServed_keepsPlane fun _ _ => Mgmt.advances_refl _
  case configWrite reg v => exact rowServed_keepsPlane fun _ => configAct_advances reg v
  case launchRecord | launchComplete => exact rowBoth_keepsPlane fun _ _ => protectLog_advances _ _
  case flitReceive a wire => exact rowBoth_keepsPlane fun _ => flitAct_advances a wire
  case replay a => exact rowBoth_keepsPlane fun _ _ => replay_advances _ a _
  case heartbeat a => exact rowBoth_keepsPlane fun _ _ => heartbeat_advances _ a _
  case laneFail a lane => exact rowBoth_keepsPlane fun _ => laneFailAct_advances a lane
  case retrainTimeout a => exact rowBoth_keepsPlane fun _ _ => losePort_advances _ a _
  case portSilent a => exact rowBoth_keepsPlane fun _ _ => losePort_advances _ a _
  case widthChange a => exact rowBoth_keepsPlane fun _ => widthChangeAct_advances a
  case retrainComplete a laneok => exact rowBoth_keepsPlane fun _ => retrainCompleteAct_advances a laneok
  case reqw a w =>
    refine rowServed_keepsPlane fun h _ => reqwAct_advances a ?_ _
    simp only [Bool.and_eq_true, bne_iff_ne, ne_eq] at h
    bv_omega
  case atollDiscard => exact rowBoth_keepsPlane fun _ _ => Mgmt.advances_updAtoll _ _ _
  case retransmit dev tag => exact rowBoth_keepsPlane fun _ => retransmitAct_advances dev tag
  case rdReq a p | wrReq a p | atReq a p => exact rowBoth_keepsPlane fun _ => requestAct_advances a p
  case rdrep a p | wrack a p | atrep a p => exact rowBoth_keepsPlane fun _ => replyAct_advances a p
  case lxpull => exact rowBoth_keepsPlane fun _ => lxPacket_advances (fun a => pullAct_advances a _)
  case lxdata | lxres => exact rowBoth_keepsPlane fun _ => lxPacket_advances (fun a => contributionAct_advances a _ _)
  case join a port p => exact rowBoth_keepsPlane fun _ => joinAct_advances a port p
  case down a port p => exact rowBoth_keepsPlane fun _ => downAct_advances a port p
  case joinack a p => exact rowBoth_keepsPlane fun _ => joinackAct_advances a p
  case joinrefuse a p => exact rowBoth_keepsPlane fun _ => joinrefuseAct_advances a p
  case portdown party p | death party p | alive party p | park party p | unpark party p =>
    exact rowBoth_keepsPlane fun _ => noticeAct_advances party p
  case powerReset => exact rowBoth_keepsPlane fun _ => powerReset_advances
  case moduleReset => exact rowBoth_keepsPlane fun _ => moduleReset_advances
  case mmpReset => exact rowBoth_keepsPlane fun _ => mmpReset_advances
  case powerLoss => exact rowBoth_keepsPlane fun _ => powerLoss_advances
  case holdover => exact rowBoth_keepsPlane fun _ _ => Mgmt.advances_of_eq rfl rfl
  case timesync stepTo => exact rowBoth_keepsPlane fun _ => timesyncAct_advances stepTo
  case hostmemRead f part va n _ => exact rowBoth_keepsPlane fun _ => hostRead_advances f part va n
  case hostmemWrite f part va data _ => exact rowBoth_keepsPlane fun _ => hostWrite_advances f part va data
  case add64 f part va _ | cas64 f part va _ _ => exact rowBoth_keepsPlane fun _ => hostAtomic_advances f part va _
  case quarantine die => exact rowBoth_keepsPlane fun _ => quarantineAct_advances die
  case restart die _ failed => exact rowBoth_keepsPlane fun _ => restartAct_advances die failed
  case release die => exact rowBoth_keepsPlane fun _ => releaseAct_advances die
  case dcpReadyTimeout die => exact rowBoth_keepsPlane fun _ => dcpTimeoutAct_advances die
  case dramRepair die x => exact rowBoth_keepsPlane fun _ => repairAct_advances die x
  case healthUpdate => exact rowBoth_keepsPlane fun _ _ => Mgmt.advances_refl _
  case firmwareWrite kind slot image => exact rowBoth_keepsPlane fun _ _ => writeImage_advances kind slot image _
  case firmwareCommit kind => exact rowServed_keepsPlane fun _ _ => commitAct_advances kind _
  case attestation => exact rowBoth_keepsPlane fun _ _ => answer_advances _ _
  case sketchRead unit => exact rowBoth_keepsPlane fun _ => sketchAct_advances unit
  case waitDescriptorRead => exact rowAsked_keepsPlane fun _ => answer_advances _ _
  case sampleInterval | replayMode | injectionArm => exact rowToldAsked_keepsPlane fun _ => Mgmt.advances_refl _
  case haltRelease x =>
    obtain ⟨_ | handle, group⟩ := x
    · exact rowServed_keepsPlane fun _ _ => Mgmt.advances_refl _
    · exact rowToldAsked_keepsPlane fun _ => Mgmt.advances_refl _
  all_goals exact issue_keepsPlane _ _ s

/-! One step. -/

theorem settle_advances (old : Run) (issued : Option (Nat × Nat)) (s : State) : s.mgmt.advances (settle old issued s).mgmt := by
  unfold settle
  dsimp only
  split
  · exact ((finishBoot_advances (_, s.mgmt)).trans (pump_advances _)).trans (narrows_advances _)
  · exact Mgmt.advances_refl _

theorem andThen_settle_keepsPlane {m : Mgmt} {o : Host.Outcome State Fault Refusal} (h : keepsPlane m o) (old : Run) (issued : Option (Nat × Nat)) :
    keepsPlane m (andThen o (settle old issued)) := by
  cases o with
  | next s => exact keepsPlane_next ((h s rfl).trans (settle_advances old issued s))
  | fault => nofun
  | refused => nofun

theorem perform_keepsPlane (a : Act) (s : State) : keepsPlane s.mgmt (perform a s) := by
  unfold perform
  split
  · split
    · split
      · rename_i r _
        exact keepsPlane_next (settle_advances _ _ { s with run := r })
      · exact andThen_settle_keepsPlane (exec_keepsPlane _ { s with run := _ }) _ _
    · exact keepsPlane_next (settle_advances _ none s)
  · exact andThen_settle_keepsPlane (exec_keepsPlane _ s) _ _
  · exact andThen_settle_keepsPlane (rowRun_keepsPlane _ s _) _ _
  · exact andThen_settle_keepsPlane (readConfig_keepsPlane _ s) _ _

/-- An act that waits for room leaves no trace but the step's end. -/
theorem attempt_keepsPlane (a : Act) (s : State) : keepsPlane s.mgmt (attempt a s) := by
  have h := perform_keepsPlane a s
  unfold attempt accepted
  split
  · rename_i t ht
    refine keepsPlane_next ?_
    split
    · exact settle_advances _ none { s with run := holdRecord a s.run }
    · exact h t ht
  · exact h

/-- Time that passes takes from each port what it has sent. -/
theorem elapse_advances (ticks : Nat) (s : State) : s.mgmt.advances (elapse ticks s).mgmt := by
  unfold elapse passTime
  refine Mgmt.advances.trans (s.mgmt.advances_mapPorts (f := fun p => { p with wire := [] }) fun p => Port.legal_of_bounded_eq rfl) ?_
  exact Mgmt.advances_of_eq rfl rfl

theorem ferryArrives_advances (f : Option Nat) (s : State) : s.mgmt.advances (ferryArrives f s).mgmt := by
  cases f <;> exact Mgmt.advances_of_eq rfl rfl

theorem arrives_advances (e : Entry) (s : State) : s.mgmt.advances (arrives e s).mgmt :=
  (ferryArrives_advances (Act.ferry e) s).trans (Mgmt.advances_of_eq rfl rfl)

/-- The invariant: time, the entry that arrives, its act and the step's end each keep the plane. -/
theorem step_keepsPlane (s : State) : keepsPlane s.mgmt (step s) := by
  unfold step stepState
  split
  · rename_i e rest _
    have harrives : s.mgmt.advances (arrives e (elapse e.elapsed { s with agenda := rest })).mgmt :=
      (elapse_advances e.elapsed { s with agenda := rest }).trans (arrives_advances e _)
    exact fun t ht => harrives.trans (attempt_keepsPlane _ _ t ht)
  · have helapse := elapse_advances stepTicks s
    dsimp only
    split
    · rename_i a turn _
      exact fun t ht => helapse.trans (attempt_keepsPlane a { elapse stepTicks s with turn } t ht)
    · exact keepsPlane_next (helapse.trans (settle_advances ..))

/-- Settles O8: every part of a step keeps a legal plane legal. -/
theorem stepsKeepTheManagementPlaneLegal : Obligations.StepsKeepTheManagementPlaneLegal := fun s t hlegal h => (step_keepsPlane s t h).1 hlegal

/-- Settles O9: no part of a step lowers a floor. -/
theorem firmwareFloorsNeverFall : Obligations.FirmwareFloorsNeverFall := fun s t h => (step_keepsPlane s t h).2

/-- Settles O7: the ports are as `Port.reset` has them, and no repair is pending. -/
theorem legalAtReset : Obligations.LegalAtReset := by
  unfold Obligations.LegalAtReset
  refine ⟨rfl, rfl, List.length_replicate, by decide, fun p hp => ?_⟩
  obtain rfl := List.eq_of_mem_replicate hp
  exact Port.reset_legal

end Sys2Proof.Machine
end

section
/-! ## Reset (14 R382, 19 R476, 20 R502, R506, R509, R514) -/
namespace Sys2Proof.Machine

/-- Settles O6: each list of the state after reset holds one value, or nothing. -/
theorem resetValues : Obligations.ResetValues := by
  unfold Obligations.ResetValues
  refine ⟨rfl, rfl, fun p hp => ?ports, fun d hd => ?dies, fun p hp => ?parts, fun k hk => ?keys, rfl, rfl, rfl⟩
  case ports =>
    obtain rfl := List.eq_of_mem_replicate hp
    exact ⟨rfl, rfl⟩
  case dies =>
    obtain rfl := List.eq_of_mem_replicate hd
    refine ⟨rfl, rfl, rfl, rfl, fun k hk => ?_, rfl, rfl, rfl, rfl, rfl, rfl, rfl, rfl, rfl, rfl⟩
    obtain rfl := List.eq_of_mem_replicate hk
    rfl
  case parts =>
    obtain ⟨n, -, rfl⟩ := List.mem_map.mp hp
    exact ⟨rfl, rfl, rfl, rfl⟩
  case keys =>
    obtain rfl := List.eq_of_mem_replicate hk
    rfl

end Sys2Proof.Machine
end

section
/-! ## A step and the entry of its agenda (15 R413, R414, 19 R473) -/
namespace Sys2Proof.Machine

/-- A step attempts the next entry of the agenda, once time has passed and the entry has arrived. -/
theorem step_of_agenda {s : State} {e : Entry} {rest : List Entry} (h : s.agenda = e :: rest) :
    step s = attempt e.act (arrives e (elapse e.elapsed { s with agenda := rest })) := by
  unfold step stepState
  rw [h]

/-- A fragment that may issue issues what its turn fetches. -/
theorem perform_issue {s : State} {gid frag : Nat} {i : Instr} {r : Run} (hmay : mayIssue s.run gid frag = true)
    (hturn : fragTurn s.run gid frag = .instr i r) :
    perform (.issue gid frag) s = andThen (exec i { s with run := r }) (settle s.run (some (gid, frag))) := by
  unfold perform
  dsimp only
  rw [if_pos hmay, hturn]

/-- The turn of one that may not issue passes. -/
theorem perform_passes {s : State} {gid frag : Nat} (hmay : mayIssue s.run gid frag = false) :
    perform (.issue gid frag) s = .next (settle s.run none s) := if_neg (Bool.eq_false_iff.mp hmay)

/-- An act whose records all have room is what comes of it. -/
theorem accepted_of_room {a : Act} {s : State} {o : Host.Outcome State Fault Refusal} (h : ∀ t, o = .next t → recordsWait t.run = false) :
    accepted a s o = o := by
  cases o with
  | next t => exact congrArg Host.Outcome.next (if_neg (Bool.eq_false_iff.mp (h t rfl)))
  | fault => rfl
  | refused => rfl

/-- Settles O4: a step attempts the entry, and an attempt is the act as it is accepted. -/
theorem stepRunsTheFetchedInstruction : Obligations.StepRunsTheFetchedInstruction := by
  unfold Obligations.StepRunsTheFetchedInstruction
  intro s e a rest hagenda hact s1
  have hstep : step s = accepted a s1 (perform a s1) := by
    rw [step_of_agenda hagenda, hact]
    rfl
  refine ⟨fun gid frag i r ha hmay hturn => ?issue, fun gid frag ha hmay => ?pass, fun i ha => ?event, fun i j ha => ?store,
    fun ofs ha => ?read, fun o => accepted_of_room, fun t ht => ?wait⟩
  case issue =>
    rw [hstep, ha, perform_issue hmay hturn]
  case pass => rw [hstep, ha, perform_passes hmay]
  case event => rw [hstep, ha]; rfl
  case store => rw [hstep, ha]; rfl
  case read => rw [hstep, ha]; rfl
  case wait => exact congrArg Host.Outcome.next (if_pos ht)

end Sys2Proof.Machine
end

section
/-! ## Supervisor instructions (14 R373 to R378) -/
namespace Sys2Proof.Machine

/-- An instruction that moves no queue word completes, with what follows its completion. -/
theorem issue_completes_of_no_queue {i : Instr} {w : Work} {s : State} {c : Ctx} {r r' : Run} (h : Ready i s c r) (hu : c.usesQueue = false)
    (hc : w.cmp c.f = .none) (hf : w.finish = none) (hb : w.body c (advance c r) = .ok r') :
    issue i w s = .next { s with run := w.fin c (completed s c r').run } := by
  rw [issue_completes h (.inr (.inr hc)) (.inl hf) hb, closing_of_no_queue hu, completed, closing_of_no_queue hu]

/-- A return that the record allows completes, and a pre-emption that waited follows it (14 R374). -/
theorem tret_completes {f : Fields} {s : State} {c : Ctx} {r r1 : Run} (h : Ready (.tret f) s c r)
    (hr : returnFrom (advance c r) c.gid = some (r1, true)) :
    exec (.tret f) s = .next { s with run := heldEviction c (completed s c r1).run } := by
  refine issue_completes_of_no_queue h (h.usesQueue_of_shape rfl (fun _ => rfl) rfl) rfl rfl ?_
  dsimp only
  rw [hr]

/-- MSK is as ON says, and where it is cleared a pre-emption that waited follows (14 R375). -/
theorem tmask_completes {f : Fields} {s : State} {c : Ctx} {r : Run} (h : Ready (.tmask f) s c r) :
    let t := completed s c ((advance c r).updGrp c.gid fun g => { g with msk := xbit c.f 0 })
    exec (.tmask f) s = .next (if xbit c.f 0 then t else { t with run := heldEviction c t.run }) := by
  intro t
  refine (issue_completes_of_no_queue h (h.usesQueue_of_shape rfl (fun _ => rfl) rfl) rfl rfl rfl).trans ?_
  dsimp only
  split <;> rfl

/-- A write that its register accepts takes place: CAPREVOKE and WINSYNC as their own steps answer, every other one at once (14 R376, R386, R390). -/
theorem sysw_completes {f : Fields} {s : State} {c : Ctx} {r r1 : Run} (h : Ready (.sysw f) s c r) (hact : c.active ≠ 0) :
    let r0 := advance c r
    let n := c.f.x.toNat
    let v := w64 (readUniform r0 c c.f.a .n64)
    sysWritable n = true → sysAccepts (r0.part c.part) n v = true → (n = 0x01A → revokeBody c r0 v.toNat = .ok r1) →
    (n = 0x021 → winsyncBody c r0 v.toNat = .ok r1) →
    exec (.sysw f) s = .next (completed s c (
      if n = 0x01A ∨ n = 0x021 then r1
      else if n = 0x014 then r0.updGrp c.gid fun g => { g with utvec := v }
      else if n = 0x028 then setPtroot r0 c.part v
      else sysPut r0 c.part n v)) := by
  intro r0 n v hwritable haccepts hrevoke hsync
  have hgood : ¬ (!sysWritable n || !sysAccepts (r0.part c.part) n v) = true := by simp [hwritable, haccepts]
  refine issue_completed h (.inr (.inr rfl)) (.inl rfl) rfl ((if_neg hact).trans ((if_neg hgood).trans ?_))
  by_cases hrev : n = 0x01A
  · exact (if_pos hrev).trans ((hrevoke hrev).trans (congrArg Except.ok (if_pos (.inl hrev)).symm))
  refine (if_neg hrev).trans ?_
  by_cases hwin : n = 0x021
  · exact (if_pos hwin).trans ((hsync hwin).trans (congrArg Except.ok (if_pos (.inr hwin)).symm))
  refine (if_neg hwin).trans ?_
  rw [if_neg (not_or.mpr ⟨hrev, hwin⟩), apply_ite Except.ok, apply_ite Except.ok]

/-- With room for its event and its lines written back, the group is parked (14 R377). -/
theorem halt_completes {f : Fields} {s : State} {c : Ctx} {r r1 : Run} (h : Ready (.halt f) s c r) :
    let r0 := advance c r
    let u := coreUnit c.t.die c.t.core
    unitHasRoom r0.units u = true → flushBody c r0 = .ok r1 →
    exec (.halt f) s = .next (completed s c
      ((emitGrp r1 c.gid u (0xD000 ||| c.f.x.toNat) (c.pc - w64 (codeBase r1 c.grp true)).toNat).2.updGrp c.gid
        fun g => { g with parked := some (c.f.x.toNat, r1.now c.t.die) })) := by
  intro r0 u hroom hflush
  have hfits : ¬ (!unitHasRoom r0.units u) = true := by simp [hroom]
  refine issue_completed h (.inr (.inr rfl)) (.inl rfl) rfl ((if_neg hfits).trans ?_)
  exact bind_of_eq_ok hflush _

/-- Settles O51: each instruction by what its effect answers; TRET and TMASK with the pre-emption that waited. -/
theorem supervisorInstructionsComplete : Obligations.SupervisorInstructionsComplete := by
  unfold Obligations.SupervisorInstructionsComplete
  intro f s c r r0 part v n u
  refine ⟨fun r1 h => tret_completes h, tmask_completes, fun h hp hact => ?sysr, fun r1 h hact => sysw_completes h hact,
    fun r1 h hroom hflush => halt_completes h hroom hflush, fun r1 h hflush => ?ctxfl⟩
  case sysr => exact exec_completes_with_result (fun _ => rfl) h (.inr (.inr rfl)) (.inl rfl) rfl hp (if_neg hact)
  case ctxfl => exact issue_completed h (.inr (.inr rfl)) (.inl rfl) rfl hflush

end Sys2Proof.Machine
end

section
/-! ## The first words of a trap record (17 R434) -/
namespace Sys2Proof.Machine

/-- A field of a number that a word holds, by division. -/
theorem fld_w64 {n : Nat} (hn : n < 2 ^ 64) (hi lo : Nat) : fld (w64 n) hi lo = n / 2 ^ lo % 2 ^ (hi - lo + 1) := by
  rw [fld, w64, BitVec.toNat_ofNat, Nat.mod_eq_of_lt hn, Nat.shiftRight_eq_div_pow]

/-- A bit of it is its field of one bit. -/
theorem getLsbD_w64 {n k : Nat} {b : Bool} (hn : n < 2 ^ 64) (hb : n / 2 ^ k % 2 = bit b) : (w64 n).getLsbD k = b := by
  rw [BitVec.getLsbD, w64, BitVec.toNat_ofNat, Nat.mod_eq_of_lt hn, Nat.testBit_eq_decide_div_mod_eq, hb]
  cases b <;> rfl

theorem bit_lt_two (b : Bool) : bit b < 2 := by cases b <;> decide

/-- The codes of the causes have six bits. -/
theorem Cause.code_lt (c : Cause) : c.code < 64 := by cases c <;> decide

/-- W0 as its fields, each below the next. -/
theorem recordWord0_fields {sup deferred reenter resume cause detail lane code : Nat} (hsup : sup < 2) (hdef : deferred < 2) (hre : reenter < 2)
    (hres : resume < 4) (hcause : cause < 64) (hdetail : detail < 256) (hlane : lane < 128) (hcode : code < 4096) :
    let n := 2 ^ 63 + sup * 2 ^ 62 + deferred * 2 ^ 61 + reenter * 2 ^ 60 + resume * 2 ^ 58 + cause * 2 ^ 32 + detail * 2 ^ 24 + lane * 2 ^ 16 + code
    n < 2 ^ 64 ∧ n / 2 ^ 63 % 2 = 1 ∧ n / 2 ^ 62 % 2 = sup ∧ n / 2 ^ 61 % 2 = deferred ∧ n / 2 ^ 60 % 2 = reenter ∧ n / 2 ^ 58 % 4 = resume ∧
      n / 2 ^ 32 % 64 = cause ∧ n / 2 ^ 24 % 256 = detail ∧ n / 2 ^ 16 % 128 = lane ∧ n / 2 ^ 0 % 4096 = code := by
  intro n
  omega

/-- Two halves of a word. -/
theorem fld_halves {a b : Nat} (ha : a < 2 ^ 32) (hb : b < 2 ^ 32) : fld (w64 (a * 2 ^ 32 + b)) 63 32 = a ∧ fld (w64 (a * 2 ^ 32 + b)) 31 0 = b := by
  have hn : a * 2 ^ 32 + b < 2 ^ 64 := by omega
  rw [fld_w64 hn, fld_w64 hn]
  omega

/-- The slices and the group of W7. -/
theorem fld_slices_group {a b : Nat} (ha : a < 256) (hb : b < 64) : fld (w64 (a * 256 + b)) 15 8 = a ∧ fld (w64 (a * 256 + b)) 5 0 = b := by
  have hn : a * 256 + b < 2 ^ 64 := by omega
  rw [fld_w64 hn, fld_w64 hn]
  omega

/-- Settles O54: W0 by its fields, the others by their halves. -/
theorem trapRecordsNameTheirCause : Obligations.TrapRecordsNameTheirCause := by
  unfold Obligations.TrapRecordsNameTheirCause
  intro g t l i sup reenter resume time id hresume hdetail hlane hcode hteam hslices hgroup w
  obtain ⟨hn, h63, h62, h61, h60, h58, h32, h24, h16, h0⟩ := recordWord0_fields (bit_lt_two sup) (bit_lt_two i.deferred) (bit_lt_two reenter)
    hresume i.cause.code_lt hdetail hlane hcode
  have hw0 : w 0 = w64 (2 ^ 63 + bit sup * 2 ^ 62 + bit i.deferred * 2 ^ 61 + bit reenter * 2 ^ 60 + resume * 2 ^ 58 + i.cause.code * 2 ^ 32 +
      i.detail * 2 ^ 24 + i.lane * 2 ^ 16 + i.code) := by
    rw [← Nat.mod_eq_of_lt hdetail, ← Nat.mod_eq_of_lt hlane, ← Nat.mod_eq_of_lt hcode]
    rfl
  obtain ⟨haux, hzero⟩ := fld_halves (b := 0) (Nat.mod_lt i.aux (by decide : 0 < 2 ^ 32)) (by decide)
  rw [Nat.add_zero] at haux hzero
  obtain ⟨hlaunch, hteamNum⟩ := fld_halves l.launchid.isLt hteam
  obtain ⟨hcount, hnum⟩ := fld_slices_group hslices hgroup
  rw [hw0]
  simp only [fld_w64 hn]
  exact ⟨h63, getLsbD_w64 hn h62, getLsbD_w64 hn h61, getLsbD_w64 hn h60, h58, h32, h24, h16, h0, rfl, rfl, haux, hzero, rfl, rfl, hlaunch,
    hteamNum, hcount, hnum⟩

end Sys2Proof.Machine
end

section
/-! ## Rows that take place where they are due (14 R386, R390, 15 R391 to R412, 16 R426 to R430, 18 R456 to R470, 19 and 20) -/
namespace Sys2Proof.Machine

/-! The forms of a row. -/

theorem happens_of_rowBoth {i : Instr} {due : State → Bool} {act : Run × Mgmt → Run × Mgmt} (he : ∀ s, exec i s = rowBoth (due s) s act) :
    Happens i due act := fun s => ⟨fun h => (he s).trans (if_pos h), fun h => (he s).trans (if_neg (Bool.eq_false_iff.mp h))⟩

/-- A row of what executes, whose effect may look at the management plane. -/
theorem happensRun_of_rowRun {i : Instr} {due : State → Bool} {act : Run → Run} (he : ∀ s, exec i s = rowRun (due s) s act) :
    HappensRun i due act := fun s => ⟨fun h => (he s).trans (if_pos h), fun h => (he s).trans (if_neg (Bool.eq_false_iff.mp h))⟩

theorem told_of_rowServed {i : Instr} {due : State → Bool} {act : Run × Mgmt → Run × Mgmt} (he : ∀ s, exec i s = rowServed (due s) s act) :
    Told i due act := happens_of_rowBoth he

theorem asked_of_rowAsked {i : Instr} {part : Nat} {h : W64} {right : Nat} {due : State → Bool} {act : Run × Mgmt → Run × Mgmt}
    (he : ∀ s, exec i s = rowAsked (due s) part h right s act) : Asked i part h right due act := happens_of_rowBoth he

theorem toldAsked_of_rowToldAsked {i : Instr} {part : Nat} {h : W64} {right : Nat} {due : State → Bool} {act : Run × Mgmt → Run × Mgmt}
    (he : ∀ s, exec i s = rowToldAsked (due s) part h right s act) : ToldAsked i part h right due act := asked_of_rowAsked he

/-! The launcher, the schedulers and paging. -/

/-- Settles O58: each row is one of the four forms, with its condition and its effect. -/
theorem launcherSchedulersAndPagingAct : Obligations.LauncherSchedulersAndPagingAct := by
  unfold Obligations.LauncherSchedulersAndPagingAct
  refine ⟨⟨fun part q => ⟨?take, ?run, ?suspend, ?skip, ?retry⟩,
      fun src => ⟨?launch, ?graph, ?lx, ?signal, ?waitev, ?waitevComplete, ?cstart, ?cstop, ?fence, ?node⟩, fun l => ?complete,
      fun die => ⟨?place, ?preempt, fun l => ?steal⟩, fun g => ⟨?resume, ?limit⟩⟩,
    fun part => ⟨?inval, ?resolve, ?pin, ?unpin, ?fault⟩, fun part v => ⟨?ptroot, ?caprevoke, ?winsync⟩, fun reg v => ?config⟩
  case launch | complete => exact happens_of_rowBoth fun _ => rfl
  case ptroot | caprevoke | winsync | config => exact told_of_rowServed fun _ => rfl
  all_goals exact happensRun_of_rowRun fun _ => rfl

/-- Settles O59: each row but the request for a width changes both what executes and the links. -/
theorem fabricActs : Obligations.FabricActs := by
  unfold Obligations.FabricActs
  refine ⟨fun a => ⟨?replay, ?heartbeat, ?retrainTimeout, ?widthChange, ?silent, fun wire => ?flit, fun lane => ?laneFail, fun ok => ?retrain,
      fun w => ?reqw, fun i => ?discard⟩, fun dev tag => ?retransmit,
    fun a p => ⟨?rdReq, ?wrReq, ?atReq, ?rdrep, ?wrack, ?atrep, ?joinack, ?joinrefuse, fun port => ⟨?join, ?down⟩⟩,
    fun party p => ⟨?lxpull, ?lxdata, ?lxres, ?portdown, ?death, ?alive, ?park, ?unpark⟩⟩
  case reqw => exact told_of_rowServed fun _ => rfl
  all_goals exact happens_of_rowBoth fun _ => rfl

/-- Whoever asks for it, a group is released only by a served request and only where it is parked. -/
theorem haltRelease_notPending {x : Release} {s : State} (h : served s.mgmt = false ∨ releaseDue s.run x.group = false) :
    exec (.haltRelease x) s = .fault .notPending := by
  obtain ⟨_ | handle, group⟩ := x
  all_goals
    refine if_neg ?_
    rcases h with h | h <;> simp [h]

/-- A tool's request for a release is refused without BREAK in the group's partition (14 R377). -/
theorem haltRelease_asked {g : Nat} {h : W64} {s : State} (hdue : releaseDue s.run g = true) (hserved : served s.mgmt = true)
    (hpart : ((s.run.grp g).map (partOf s.run)).getD 0 < Config.partitions) :
    let part := ((s.run.grp g).map (partOf s.run)).getD 0
    let seen := rightsSeen s.run part (partDie s.run part) h
    exec (.haltRelease { handle := some h, group := g }) s = .next (
      if handleHolds s.run part h rightBreak then { s with run := seen.updGrp g fun g => { g with parked := none }, mgmt := answer s.mgmt .done }
      else { s with run := seen, mgmt := answer s.mgmt .refused }) := by
  intro part seen
  have hrow : (served s.mgmt && decide (part < Config.partitions) && releaseDue s.run g) = true := by simp [hserved, hdue, part, hpart]
  refine (if_pos hrow).trans ?_
  dsimp only
  split <;> rfl

/-- Settles O60: each row is one of the five forms; the release of a group is one or another, by who asks for it. -/
theorem managementPlaneActs : Obligations.ManagementPlaneActs := by
  unfold Obligations.ManagementPlaneActs
  refine ⟨⟨⟨?powerReset, ?moduleReset⟩, ?powerLoss, ?mmpReset, ?holdover, fun step => ?timesync⟩, fun u => ⟨?loss, ?sketch⟩,
    fun h part => ⟨?descriptors, fun n => ?interval, fun q mode => ?mode, fun die core count bit => ?inject⟩,
    fun die core => ⟨?sample, ?fence, fun slot hold => ?throttle⟩,
    fun g => ⟨?releaseTold, fun h part s hpart hdue hserved hlt => ?releaseAsked⟩, fun x s => haltRelease_notPending, fun t => ?watchdog,
    fun die => ⟨?drain, ?quarantine, fun slot failed => ?restart, ?release, ?dcpTimeout, fun x => ?repair, fun x => ?health, fun x y => ?eol⟩,
    fun slot id part => ⟨?keyLoad, ?keyClear⟩, fun kind => ⟨?commit, fun slot image => ?write⟩, fun nonce => ?attestation,
    fun ferry part va => ⟨fun n acq => ?hostRead, fun data rel => ?hostWrite, fun x => ?add, fun x y => ?cas⟩⟩
  case loss | sample | fence | throttle | drain | eol => exact happensRun_of_rowRun fun _ => rfl
  case releaseTold | watchdog | keyLoad | keyClear | commit => exact told_of_rowServed fun _ => rfl
  case descriptors => exact asked_of_rowAsked fun _ => rfl
  case interval | mode | inject => exact toldAsked_of_rowToldAsked fun _ => rfl
  case releaseAsked =>
    subst hpart
    exact haltRelease_asked hdue hserved hlt
  all_goals exact happens_of_rowBoth fun _ => rfl

end Sys2Proof.Machine
end

section
/-! ## Branches (01 R26, 09 R268 to R272) -/
namespace Sys2Proof.Machine

/-! Whether a branch moves the issuing slices, or traps. -/

theorem branch_of_fits {b : Branch} {c : Ctx} (h : b.fits c = true) (r : Run) : branch c r b = .ok (b.moves c r) := if_pos h

/-- The trap of a branch that a slice's stack has no room for. -/
def fullTrap (b : Branch) (c : Ctx) : Option TrapInfo := if b.fits c then none else some (c.trap .illegalOperand 0 (c.lowest.getD 0) 0)

theorem branch_traps {b : Branch} {c : Ctx} {t : TrapInfo} (h : fullTrap b c = some t) (r : Run) : branch c r b = .error (.trap t []) := by
  unfold fullTrap at h
  split at h
  case isTrue => cases h
  case isFalse hfull => exact (if_neg hfull).trans (Option.some.inj h ▸ rfl)

theorem offsetBranch_of_fits {c : Ctx} {r : Run} {join : Bool}
    (hin : ∀ l ∈ c.lanes, c.aAs r .n32 l % 8 = 0 ∧ c.aAs r .n32 l < codeSize r c.grp c.grp.super) (hf : (laneBranch c r join).fits c = true) :
    offsetBranch c r join = .ok ((laneBranch c r join).moves c r) := by
  have haligned : (c.lanes.find? fun l => c.aAs r .n32 l % 8 != 0) = none := List.find?_eq_none.mpr fun l hl => by simp [(hin l hl).1]
  have hinside : (c.lanes.find? fun l => decide (codeSize r c.grp c.grp.super ≤ c.aAs r .n32 l)) = none :=
    List.find?_eq_none.mpr fun l hl => by simpa using (hin l hl).2
  unfold offsetBranch
  dsimp only
  rw [haligned, hinside]
  exact branch_of_fits hf r

/-- The trap of BRX and RET: for the lowest lane with a misaligned offset, then for the lowest with one outside the code, then for a stack. -/
def offsetTrap (join : Bool) (c : Ctx) (r : Run) : Option TrapInfo :=
  match c.lanes.find? fun l => c.aAs r .n32 l % 8 != 0 with
  | some l => some (c.trap .misaligned 0 l 0)
  | none =>
    match c.lanes.find? fun l => decide (codeSize r c.grp c.grp.super ≤ c.aAs r .n32 l) with
    | some l => some (c.trap .illegalOperand 0 l 0)
    | none => fullTrap (laneBranch c r join) c

theorem offsetBranch_traps {c : Ctx} {r : Run} {join : Bool} {t : TrapInfo} (h : offsetTrap join c r = some t) :
    offsetBranch c r join = .error (.trap t []) := by
  unfold offsetTrap at h
  unfold offsetBranch
  dsimp only
  cases haligned : c.lanes.find? fun l => c.aAs r .n32 l % 8 != 0 with
  | some l =>
    simp only [haligned, Option.some.injEq] at h
    exact h ▸ rfl
  | none =>
    simp only [haligned] at h
    dsimp only
    cases hinside : c.lanes.find? fun l => decide (codeSize r c.grp c.grp.super ≤ c.aAs r .n32 l) with
    | some l =>
      simp only [hinside, Option.some.injEq] at h
      exact h ▸ rfl
    | none =>
      simp only [hinside] at h
      exact branch_traps h r

/-- The effect of CALL: a branch, then the link. -/
def callBody : Body := fun c r => do
  let link := (c.nextPc - w64 (codeBase r c.grp c.grp.super)).toNat
  if c.active = 0 then .ok r
  else
    let r ← branch c r (voteBranch c)
    writeRes r c .n32 fun _ => link % 2 ^ 32

theorem exec_call (f : Fields) (s : State) : exec (.call f) s = issue (.call f) { body := callBody } s := rfl

theorem callBody_of_no_lane {c : Ctx} (h : c.active = 0) (r : Run) : callBody c r = .ok r := if_pos h

theorem callBody_of_lane {c : Ctx} (h : c.active ≠ 0) (r : Run) :
    callBody c r = (branch c r (voteBranch c) >>= fun r' =>
      writeRes r' c .n32 fun _ => (c.nextPc - w64 (codeBase r c.grp c.grp.super)).toNat % 2 ^ 32) := if_neg h

/-- A trap that the effect of an instruction answers which is not compared and not in flight. -/
theorem traps_of_body {i : Instr} {w : Work} {trap : Ctx → Run → Option TrapInfo} (he : ∀ s, exec i s = issue i w s) (hcmp : ∀ f, w.cmp f = .none)
    (hf : w.finish = none) (hb : ∀ c r t, trap c r = some t → w.body c r = .error (.trap t [])) : Traps i trap := by
  intro s c r t h ht
  rw [he]
  exact issue_traps h (.inr (.inr (hcmp c.f))) (.inl hf) (hb c _ t ht)

/-- Settles O34: each is a branch by a vote or by offsets, which moves the slices or traps; CALL's link follows its branch. -/
theorem branchesComplete : Obligations.BranchesComplete := by
  unfold Obligations.BranchesComplete
  intro f ofs size inCode
  refine ⟨?bra, ?brx, ?ret, ?callIdle, fun s c r h hp hact hf => ?call, ?braTraps, ?callTraps, ?brxTraps, ?retTraps⟩
  case bra => exact acts_of_body (fun _ => rfl) (fun _ => rfl) rfl rfl fun _ _ _ _ hf => branch_of_fits hf _
  case brx | ret => exact acts_of_body (fun _ => rfl) (fun _ => rfl) rfl rfl fun _ _ _ _ ⟨hin, hf⟩ => offsetBranch_of_fits hin hf
  case callIdle => exact acts_of_body (exec_call f) (fun _ => rfl) rfl rfl fun _ _ _ _ hact => callBody_of_no_lane hact _
  case call =>
    refine exec_completes_with_result (exec_call f) h (.inr (.inr rfl)) (.inl rfl) rfl hp ?_
    exact (callBody_of_lane hact _).trans (bind_of_eq_ok (branch_of_fits hf _) _)
  case braTraps => exact traps_of_body (fun _ => rfl) (fun _ => rfl) rfl fun _ r _ ht => branch_traps ht r
  case brxTraps | retTraps => exact traps_of_body (fun _ => rfl) (fun _ => rfl) rfl fun _ _ _ ht => offsetBranch_traps ht
  case callTraps =>
    refine traps_of_body (exec_call f) (fun _ => rfl) rfl fun c r t ht => ?_
    split at ht
    case isTrue => cases ht
    case isFalse hact =>
      refine (callBody_of_lane hact r).trans ?_
      rw [branch_traps ht]
      rfl

end Sys2Proof.Machine
end

section
/-! ## How branches move a slice (01 R26, 09 R269, R271) -/
namespace Sys2Proof.Machine

/-! The move by the number of a slice's ways on. -/

theorem Branch.move_of_none {b : Branch} {n : Nat} {x : Slice} (h : b.ways n x = []) (from_ : W64) (len : Nat) :
    b.move from_ len n x = x.goTo b.none_ from_ len := by
  unfold Branch.move
  rw [h]

/-- One way on is taken with every lane, and nothing is pushed. -/
theorem Branch.move_of_one {b : Branch} {n : Nat} {x : Slice} {e : W64 × BitVec 4} (h : b.ways n x = [e]) (from_ : W64) (len : Nat) :
    let y := b.move from_ len n x
    y.pc = e.1 ∧ y.mask = x.mask ∧ y.stack = x.stack ∧ y.crp = x.crp ∧ b.need n x = 0 := by
  simp [Branch.move, Branch.need, h]

/-- Of several ways on the first is taken with its lanes, above a PATH entry for each other and, where the branch joins, a JOIN entry for all. -/
theorem Branch.move_of_more {b : Branch} {n : Nat} {x : Slice} {e e' : W64 × BitVec 4} {rest : List (W64 × BitVec 4)}
    (h : b.ways n x = e :: e' :: rest) (from_ : W64) (len : Nat) :
    let y := b.move from_ len n x
    let crp := if b.join then b.rpc else x.crp
    y.pc = e.1 ∧ y.mask = e.2 ∧ y.crp = crp ∧
      y.stack = (e' :: rest).map (fun p => { pc := some p.1, mask := p.2, rpc := crp, kind := .path }) ++
        (if b.join then [{ pc := b.rpc, mask := x.mask, rpc := x.crp, kind := .join }] else []) ++ x.stack := by
  simp [Branch.move, h]

/-! Votes (R26). -/

theorem getLsbD_nibble {m : W128} {n k : Nat} (hk : k < 4) : (nibble m n).getLsbD k = m.getLsbD (4 * n + k) := by
  simp [nibble, hk]

theorem voteSides_of_no_lane {x : Slice} (h : x.mask = 0) (tgt fall : W64) (taken : BitVec 4) : voteSides tgt fall taken x = [] := by
  simp [voteSides, h]

/-- Lanes that are all among some others. -/
theorem and_of_subset {m t : BitVec 4} (h : ∀ k, k < 4 → m.getLsbD k = true → t.getLsbD k = true) : m &&& t = m ∧ m &&& ~~~t = 0#4 := by
  refine ⟨BitVec.eq_of_getLsbD_eq fun k hk => ?_, BitVec.eq_of_getLsbD_eq fun k hk => ?_⟩
  all_goals
    rw [BitVec.getLsbD_and]
    cases hm : m.getLsbD k with
    | false => simp
    | true => simp [h k hk hm, hk]

/-- Where the vote holds in every lane of a slice, the slice has the taken side alone. -/
theorem voteSides_of_all {x : Slice} {taken : BitVec 4} (hx : x.mask ≠ 0#4)
    (h : ∀ k, k < 4 → x.mask.getLsbD k = true → taken.getLsbD k = true) (tgt fall : W64) : voteSides tgt fall taken x = [(tgt, x.mask)] := by
  obtain ⟨htaken, hrest⟩ := and_of_subset h
  simp [voteSides, htaken, hrest, hx]

/-- Where it holds in none, the slice has the other side alone. -/
theorem voteSides_of_none {x : Slice} {taken : BitVec 4} (hx : x.mask ≠ 0#4)
    (h : ∀ k, k < 4 → x.mask.getLsbD k = true → taken.getLsbD k = false) (tgt fall : W64) : voteSides tgt fall taken x = [(fall, x.mask)] := by
  obtain ⟨hrest, htaken⟩ := and_of_subset (m := x.mask) (t := ~~~taken) fun k hk hm => by rw [BitVec.getLsbD_not, h k hk hm]; simp [hk]
  rw [BitVec.not_not] at htaken
  simp [voteSides, htaken, hrest, hx]

/-- Where it holds in some lanes and not in others, the slice has both. -/
theorem voteSides_of_both {x : Slice} {taken : BitVec 4} (hyes : ∃ k, k < 4 ∧ x.mask.getLsbD k = true ∧ taken.getLsbD k = true)
    (hno : ∃ k, k < 4 ∧ x.mask.getLsbD k = true ∧ taken.getLsbD k = false) (tgt fall : W64) :
    voteSides tgt fall taken x = [(tgt, x.mask &&& taken), (fall, x.mask &&& ~~~taken)] := by
  obtain ⟨i, hi, hmask, htaken⟩ := hyes
  obtain ⟨j, hj, hmask', htaken'⟩ := hno
  have hne : ∀ {m : BitVec 4} {k : Nat}, m.getLsbD k = true → m ≠ 0#4 := fun h h0 => by simp [h0] at h
  have h1 : x.mask &&& taken ≠ 0#4 := hne (k := i) (by rw [BitVec.getLsbD_and, hmask, htaken]; rfl)
  have h2 : x.mask &&& ~~~taken ≠ 0#4 := hne (k := j) (by rw [BitVec.getLsbD_and, hmask', BitVec.getLsbD_not, htaken']; simp [hj])
  simp [voteSides, h1, h2]

/-- A slice under a vote (R26). -/
theorem voteBranch_move (c : Ctx) (n : Nat) (x : Slice) :
    let act := fun (k : Nat) => c.active.getLsbD (4 * n + k)
    let y := (voteBranch c).move c.pc c.len n x
    (x.mask = 0 → y.pc = branchTarget c ∧ y.mask = 0 ∧ y.stack = x.stack) ∧
    (x.mask ≠ 0 → (∀ k, k < 4 → x.mask.getLsbD k = true → act k = true) →
      y.pc = branchTarget c ∧ y.mask = x.mask ∧ y.stack = x.stack ∧ y.crp = x.crp ∧ (voteBranch c).need n x = 0) ∧
    (x.mask ≠ 0 → (∀ k, k < 4 → x.mask.getLsbD k = true → act k = false) →
      y.pc = c.nextPc ∧ y.mask = x.mask ∧ y.stack = x.stack ∧ y.crp = x.crp ∧ (voteBranch c).need n x = 0) ∧
    ((∃ k, k < 4 ∧ x.mask.getLsbD k = true ∧ act k = true) → (∃ k, k < 4 ∧ x.mask.getLsbD k = true ∧ act k = false) →
      y.pc = branchTarget c ∧ y.crp = branchRpc c ∧ (∀ k, k < 4 → y.mask.getLsbD k = (x.mask.getLsbD k && act k)) ∧ (voteBranch c).need n x = 2 ∧
      ∃ m, (∀ k, k < 4 → m.getLsbD k = (x.mask.getLsbD k && !act k)) ∧
        y.stack = { pc := some c.nextPc, mask := m, rpc := branchRpc c, kind := .path } ::
          { pc := branchRpc c, mask := x.mask, rpc := x.crp, kind := .join } :: x.stack) := by
  intro act y
  have hact : ∀ k, k < 4 → (nibble c.active n).getLsbD k = act k := fun k hk => getLsbD_nibble hk
  refine ⟨fun hx => ?noLane, fun hx hall => ?all, fun hx hnone => ?none, fun ⟨i, hi, hm, ha⟩ ⟨j, hj, hm', ha'⟩ => ?both⟩
  case noLane =>
    have hy : y = x.goTo (branchTarget c) c.pc c.len := Branch.move_of_none (voteSides_of_no_lane hx _ _ _) _ _
    rw [hy]
    simp [hx]
  case all => exact Branch.move_of_one (b := voteBranch c) (voteSides_of_all hx (fun k hk hm => (hact k hk).trans (hall k hk hm)) _ _) _ _
  case none => exact Branch.move_of_one (b := voteBranch c) (voteSides_of_none hx (fun k hk hm => (hact k hk).trans (hnone k hk hm)) _ _) _ _
  case both =>
    have hways : (voteBranch c).ways n x = _ := voteSides_of_both ⟨i, hi, hm, (hact i hi).trans ha⟩ ⟨j, hj, hm', (hact j hj).trans ha'⟩ _ _
    obtain ⟨hpc, hmask, hcrp, hstack⟩ := Branch.move_of_more hways c.pc c.len
    refine ⟨hpc, hcrp, fun k hk => ?_, by unfold Branch.need; rw [hways]; rfl, x.mask &&& ~~~nibble c.active n, fun k hk => ?_, hstack⟩
    · rw [← hact k hk, ← BitVec.getLsbD_and]
      exact congrArg (·.getLsbD k) hmask
    · rw [BitVec.getLsbD_and, BitVec.getLsbD_not, hact k hk, decide_eq_true hk, Bool.true_and]

/-- Settles O35: the vote's two sides, and the ways on of the lanes' own addresses, by how many of them there are. -/
theorem branchVotesMoveSlices : Obligations.BranchVotesMoveSlices := by
  unfold Obligations.BranchVotesMoveSlices
  refine ⟨voteBranch_move, ?_⟩
  intro c r n x join hx next ways y
  obtain ⟨hsorted, hlanes, hall⟩ := slicePaths_spec x next
  refine ⟨hsorted, fun e he k hk => ?lanes, fun k hk hm => hall k (by simp [hk, hm]), fun e he => ?one, fun e e' rest he => ?more⟩
  case lanes =>
    rw [hlanes e he k hk]
    simp [hk, Bool.decide_and]
  case one =>
    obtain ⟨hpc, hmask, hstack, hcrp, -⟩ := Branch.move_of_one he c.pc c.len
    exact ⟨hpc, hmask, hstack, hcrp⟩
  case more =>
    obtain ⟨hpc, hmask, hcrp, hstack⟩ := Branch.move_of_more he c.pc c.len
    cases join <;> exact ⟨hpc, hmask, hcrp, hstack⟩

end Sys2Proof.Machine
end

section
/-! ## Joins, paths and team barriers (01 R29 to R35, R38, 09 R272, R277, R278) -/
namespace Sys2Proof.Machine

/-- A REGANG whose mask names its own slices joins what has arrived, and its slices that have not joined wait (01 R29). -/
theorem regang_completes {f : Fields} {s : State} {c : Ctx} {r : Run} (h : Ready (.regang f) s c r) :
    let set := namedSlices (maskReg c.grp (regIndex c.f.a 16)) c.grp.width
    set ≠ 0 → (∀ n ∈ c.slices, set.getLsbD n = true) →
    let t := completed s c (joinAll 32 ((advance c r).updGrp c.gid fun g => g.updSlices c.slices fun x => { x with arrived := some (set, x.pc) }) c.gid)
    exec (.regang f) s = .next
      { t with run := waitAfter c t.run (fun x => x.arrived.isSome) 2 12 ((maskReg c.grp (regIndex c.f.a 16)).truncate 64) } := by
  intro set hset hown t
  have hlegal : ¬ (set = 0 || !c.slices.all fun n => set.getLsbD n) = true := by simpa using And.intro hset hown
  exact issue_completes_of_no_queue h (h.usesQueue_of_shape rfl (fun _ => rfl) rfl) rfl rfl (if_neg hlegal)

/-- Settles O36: REGANG's operand is accepted, and SPLITS and BACKOFF have no condition. -/
theorem joinsAndPathsComplete : Obligations.JoinsAndPathsComplete := by
  unfold Obligations.JoinsAndPathsComplete
  refine fun f => ⟨fun s c r h => regang_completes h, ?splits, ?backoff⟩
  case splits | backoff => exact acts_of_body (fun _ => rfl) (fun _ => rfl) rfl rfl fun _ _ _ _ _ => rfl

/-! Barriers. -/

/-- The current generation has another `.SPAWNED` value than the instruction's. -/
def otherForm (c : Ctx) (r : Run) : Prop := (curBarrier r c).spawnedForm = some (!xbit c.f 4)

theorem any_ne_iff (o : Option Bool) (b : Bool) : o.any (· != b) = true ↔ o = some (!b) := by
  cases o with
  | none => simp
  | some a => cases a <;> cases b <;> simp

theorem barBody_of_other {c : Ctx} {r : Run} (h : otherForm c r) (bara : Bool) : barBody bara c r = .error c.illegal :=
  if_pos ((any_ne_iff _ _).mpr h)

theorem barBody_of_arrived {c : Ctx} {r : Run} (h : arrivedGroup (curBarrier r c) (c.gid, c.grp) = true) : barBody true c r = .error c.illegal := by
  by_cases ho : otherForm c r
  · exact barBody_of_other ho true
  · exact (if_neg fun hx => ho ((any_ne_iff _ _).mp hx)).trans (if_pos h)

/-- A slice whose record of an unmatched BARA of the instruction's barrier is dropped. -/
def Ctx.dropPhase (c : Ctx) (x : Slice) : Slice := { x with bara := x.bara.filter fun e => e.1 != barNumber c }

theorem bar_arrives {c : Ctx} {r : Run} (h : ¬ otherForm c r) :
    let n := barNumber c
    let b := curBarrier r c
    let phase := fun (k : Nat) => (c.sliceOf k).splitPhase n
    let past := fun (k : Nat) => (phase k).any fun g => decide (g < b.gen)
    let stay := c.slices.filter fun k => !past k
    barBody false c r = .ok (checkBarrier ((arriveSlices r c (stay.filter fun k => (phase k).isNone)).updGrp c.gid fun g =>
      (g.updSlices (c.slices.filter past) c.dropPhase).updSlices stay fun x => { c.dropPhase x with bar := some (n, b.gen) }) c.grp.team n) :=
  if_neg fun hx => h ((any_ne_iff _ _).mp hx)

theorem bara_arrives {c : Ctx} {r : Run} (h : ¬ otherForm c r) (hwhole : arrivedGroup (curBarrier r c) (c.gid, c.grp) = false) :
    let n := barNumber c
    let b := curBarrier r c
    let older := fun (x : Slice) => { x with bara := x.bara.filter fun e => !(e.1 == n && decide (e.2 < b.gen)) }
    barBody true c r = .ok (checkBarrier ((arriveSlices r c c.slices).updGrp c.gid fun g =>
      { g with slices := g.slices.map older }.updSlices c.slices fun x => { c.dropPhase x with bara := (c.dropPhase x).bara ++ [(n, b.gen)] })
      c.grp.team n) := by
  intro n b older
  refine (if_neg fun hx => h ((any_ne_iff _ _).mp hx)).trans ((if_neg (by rw [hwhole]; decide)).trans ?_)
  simp only [ite_true, Option.any_none, Bool.not_false, List.filter_true, Option.isNone_none, List.filter_false]
  rfl

/-- Settles O37: the form of the generation refuses either instruction, the group's arrival a BARA; elsewhere they arrive. -/
theorem barriersComplete : Obligations.BarriersComplete := by
  unfold Obligations.BarriersComplete
  intro f cur other drop waited
  refine ⟨fun s c r h hform => ?bar, fun s c r h hform hwhole => ?bara, ?barTraps, ?baraTraps⟩
  case bar => exact issue_completes_of_no_queue (w := barWork false) h (h.usesQueue_of_shape rfl (fun _ => rfl) rfl) rfl rfl (bar_arrives hform)
  case bara => exact issue_completes_of_no_queue (w := barWork true) h (h.usesQueue_of_shape rfl (fun _ => rfl) rfl) rfl rfl (bara_arrives hform hwhole)
  case barTraps =>
    refine traps_of_body (w := barWork false) (fun _ => rfl) (fun _ => rfl) rfl fun c r t ht => ?_
    split at ht
    case isTrue ho => exact (barBody_of_other ho false).trans (Option.some.inj ht ▸ rfl)
    case isFalse => cases ht
  case baraTraps =>
    refine traps_of_body (w := barWork true) (fun _ => rfl) (fun _ => rfl) rfl fun c r t ht => ?_
    split at ht
    case isTrue ho =>
      have hill : barBody true c r = .error c.illegal := ho.elim (fun ho => barBody_of_other ho true) barBody_of_arrived
      exact hill.trans (Option.some.inj ht ▸ rfl)
    case isFalse => cases ht

end Sys2Proof.Machine
end

section
/-! ## Ends and region starts (01 R37, R54, 09 R279 to R283) -/
namespace Sys2Proof.Machine

/-! EXIT (R279). -/

/-- The active lanes' end, with what follows in their group. -/
def leaveActive (c : Ctx) (r : Run) : Run := leaveGroup (endActive c r) c.gid

theorem exitBody_of_no_lane {c : Ctx} (h : c.active = 0) (r : Run) : exitBody c r = .ok r := if_pos h

/-- Past its waits, an EXIT ends its lanes, in a protected launch with a commit. -/
theorem exitBody_of_acknowledged {c : Ctx} {r : Run} (hact : c.active ≠ 0) (hsent : sendBuffered c r (fun _ => true) = .ok ())
    (hacked : awaitStores c false (fun _ => true) = .ok ()) :
    exitBody c r =
      if c.shadowed then
        match commitAfter r c.grp.team (leaveActive c) with
        | (r, true) => .ok (performCommitted r c.grp.team)
        | (_, false) => .error (.undone fun r => (commitAfter r c.grp.team (leaveActive c)).1)
      else .ok (leaveActive c r) := by
  refine (if_neg hact).trans ?_
  rw [hsent, hacked]
  rfl

/-- The team may end with its lanes. -/
theorem exit_completes {f : Fields} {s : State} {c : Ctx} {r r1 : Run} (h : Ready (.exit f) s c r) (hb : exitBody c (advance c r) = .ok r1) :
    exec (.exit f) s = .next { s with run := tryEndTeam (completed s c r1).run c.grp.team } :=
  issue_completes_of_no_queue (w := { body := exitBody, fin := fun c r => tryEndTeam r c.grp.team }) h
    (h.usesQueue_of_shape rfl (fun _ => rfl) rfl) rfl rfl hb

/-! LIVE (R282). -/

/-- The registers that a LIVE names. -/
def liveNamed (c : Ctx) : List Nat := ((List.range 64).filter fun i => c.f.w2.getLsbD i).map (64 * xbits c.f 1 0 + ·)

theorem live_legal {c : Ctx} (hregs : ∀ k ∈ liveNamed c, k < c.l.vregs) (hwhole : ∀ n ∈ c.grp.liveSlices, n ∈ c.slices) :
    ¬ ((liveNamed c).any (fun k => decide (c.l.vregs ≤ k)) || !c.grp.liveSlices.all (fun n => c.slices.contains n)) = true := by
  simpa using And.intro hregs hwhole

/-- Settles O38: EXIT by whether a lane is active and whether the launch is protected; the others have one effect each. -/
theorem endsAndRegionsComplete : Obligations.EndsAndRegionsComplete := by
  unfold Obligations.EndsAndRegionsComplete
  intro f
  refine ⟨fun s c r h => ⟨fun hact => ?idle, fun hact hu hacked => ?exit, fun r1 hact hs hsent hacked hcommit => ?prot⟩, ?region, ?live, ?yield, ?nop⟩
  case idle => exact exit_completes h (exitBody_of_no_lane hact _)
  case exit =>
    refine exit_completes h ((exitBody_of_acknowledged hact (sendBuffered_of_unpaired hu _ _) hacked).trans ?_)
    exact if_neg (Bool.eq_false_iff.mp hu)
  case prot =>
    refine exit_completes h ((exitBody_of_acknowledged hact hsent hacked).trans ((if_pos hs).trans ?_))
    rw [show commitAfter (advance c r) c.grp.team (leaveActive c) = (r1, true) from hcommit]
  case live => exact acts_of_body (fun _ => rfl) (fun _ => rfl) rfl rfl fun _ c r _ ⟨hregs, hwhole⟩ => if_neg (live_legal hregs hwhole)
  case region | yield | nop => exact acts_of_body (fun _ => rfl) (fun _ => rfl) rfl rfl fun _ _ _ _ _ => rfl

end Sys2Proof.Machine
end

section
/-! ## Traps that enter their handlers (01 R51, 14 R365 to R370, 17 R454) -/
namespace Sys2Proof.Machine

/-! Which handler a cause enters (R366). -/

/-- A cause that some handler takes, met at USER level, whose record can be written. -/
theorem deliver_enters {r r1 : Run} {gid : Nat} {g : Grp} {i : TrapInfo} (hg : r.grp gid = some g) (hu : g.super = false)
    (hlatch : i.cause ≠ .latchLost) (hpair : i.cause ≠ .pairMismatch) (hcons : consumes i = false) :
    let r0 := dropWaits r gid
    let e := emitGrp r0 gid (coreUnit (dieOfGrp r0 g) (coreOfGrp r0 g)) 0x0005 (i.cause.code + bit (!toUser r0 g i.cause) * 64 + bit i.deferred * 128)
    writeRecord e.2 gid i (!toUser r0 g i.cause) 0 e.1 = .ok r1 →
    let r2 := (dropRemotes r1 gid fun _ => false).updGrp gid fun g => { g with lat := [] }
    deliver r gid i = if toUser r0 g i.cause then deliverUser r2 gid g else deliverSuper r2 gid g := by
  intro r0 e hrecord r2
  unfold deliver
  rw [hg]
  dsimp only
  rw [if_neg hlatch, if_neg hpair, if_neg (by rw [hcons]; decide), if_neg (by rw [hu]; decide), hrecord]

/-! A slice that starts a handler. -/

/-- A slice has started a handler at an address, unless it has exited (14 R369, R370). -/
def Slice.entered (pc : W64) (frag : Nat) (x y : Slice) : Prop :=
  if x.live then y.pc = pc ∧ y.mask = 0xF ∧ y.crp = none ∧ y.stack = [] ∧ y.frag = frag ∧ y.wait = none ∧ y.gone = x.gone ∧
    y.arrived = none ∧ y.bar = none else y.live = false

theorem Slice.enter_entered (pc : W64) (frag : Nat) (x : Slice) : x.entered pc frag (x.enter pc frag) := by
  unfold Slice.entered Slice.enter
  cases hl : x.live with
  | true => exact ⟨rfl, rfl, rfl, rfl, rfl, rfl, rfl, rfl, rfl⟩
  | false => exact hl

theorem Slice.enterUser_entered (pc : W64) (frag : Nat) (x : Slice) : x.entered pc frag (x.enterUser pc frag) := x.enter_entered pc frag

theorem Slice.enterUser_recorded {x : Slice} (h : x.live = true) (pc : W64) (frag : Nat) : (x.enterUser pc frag).recorded = x.arrival := if_pos h

/-- What a slice keeps for the return does not show in how it starts. -/
theorem Slice.enter_keep_entered (pc : W64) (frag : Nat) (x : Slice) : x.entered pc frag (x.keep.enter pc frag) := x.keep.enter_entered pc frag

theorem Slice.enter_keep_kept {x : Slice} (h : x.live = true) (pc : W64) (frag : Nat) :
    (x.keep.enter pc frag).kept = some { arrived := x.arrived, recorded := x.recorded, bar := x.bar, wait := x.onWait } := by
  have hkept : x.keep.live = true := h
  unfold Slice.enter
  rw [if_pos hkept]
  exact if_pos h

/-! The group. -/

theorem restoreUndo_spec {r : Run} {gid : Nat} {g : Grp} (hg : r.grp gid = some g) :
    (restoreUndo r gid).grp gid = some { g with staged := [] } ∧ r.restSame gid g.team (restoreUndo r gid) := by
  obtain ⟨hrest, hgroups⟩ := foldl_updTeam_restSame gid g.team g.undo.reverse (fun e t =>
    { t with tiles := updAt t.tiles (e.1 % 8) fun x => { x.fill (denseBytes (t.cfg.m * t.cfg.n * e.2.w) 0 e.2.bytes) with w := e.2.w } }) r
  unfold restoreUndo
  simp only [hg]
  refine ⟨?_, hrest.trans (Run.restSame_updGrp ..)⟩
  rw [Run.updGrp_grp_self, Run.grp, hgroups, show r.groups.find gid = some g from hg]
  rfl

/-- A group's registers, predicates, masks and flags, its bindings and its vector are as before. -/
def Grp.sameRegisters (g h : Grp) : Prop :=
  h.v = g.v ∧ h.g = g.g ∧ h.sg = g.sg ∧ h.p = g.p ∧ h.m = g.m ∧ h.q = g.q ∧ h.utvec = g.utvec ∧ h.fflags = g.fflags

theorem deliverUser_spec {r : Run} {gid : Nat} {g : Grp} (hg : r.grp gid = some g) :
    r.restSame gid g.team (deliverUser r gid g) ∧ ∃ h, (deliverUser r gid g).grp gid = some h ∧ h.uin = true ∧ h.super = g.super ∧ h.msk = g.msk ∧
      g.sameRegisters h ∧ h.slices = g.slices.map (Slice.enterUser (w64 (codeBase r g false + fld g.utvec 31 0)) (entryFrag g)) := by
  obtain ⟨hundo, hrest⟩ := restoreUndo_spec hg
  obtain ⟨hrest', undo, holds, staged, no, hstart, -⟩ := groupRegionStart_spec hundo
  refine ⟨(hrest.trans hrest').trans (Run.restSame_updGrp ..),
    { g with undo := undo, holds := holds, staged := staged, regionNo := no, uin := true,
             slices := g.slices.map (Slice.enterUser (w64 (codeBase r g false + fld g.utvec 31 0)) (entryFrag g)) },
    ?_, rfl, rfl, rfl, ⟨rfl, rfl, rfl, rfl, rfl, rfl, rfl, rfl⟩, rfl⟩
  unfold deliverUser
  rw [Run.updGrp_grp_self, hstart]
  rfl

theorem deliverSuper_spec {r : Run} {gid : Nat} {g : Grp} (hg : r.grp gid = some g) :
    r.restSame gid g.team (deliverSuper r gid g) ∧ ∃ h, (deliverSuper r gid g).grp gid = some h ∧ h.super = true ∧ h.msk = true ∧ h.uin = g.uin ∧
      g.sameRegisters h ∧ (∀ k, k < 7 → predMask h k = 0) ∧
      h.slices = g.slices.map fun x => x.keep.enter (superVector r g) (entryFrag g) := by
  refine ⟨Run.restSame_updGrp ..,
    { g with super := true, msk := true, sp := List.replicate 7 0, slices := g.slices.map fun x => x.keep.enter (superVector r g) (entryFrag g) },
    ?_, rfl, rfl, rfl, ⟨rfl, rfl, rfl, rfl, rfl, rfl, rfl, rfl⟩, fun k hk => ?_, rfl⟩
  · unfold deliverSuper
    rw [Run.updGrp_grp_self, hg]
    rfl
  · have hne : k ≠ 7 := by omega
    have hclear : nthD 0 (List.replicate 7 (0 : W128)) k = 0 := by
      unfold nthD
      rw [List.getElem?_replicate, if_pos hk]
      rfl
    exact (if_neg hne).trans hclear

/-- Settles O53: which handler a cause enters by the definition of its delivery, and what each entry leaves by the
group that it leaves. -/
theorem trapsEnterTheirHandlers : Obligations.TrapsEnterTheirHandlers := by
  unfold Obligations.TrapsEnterTheirHandlers
  intro r gid g hg
  obtain ⟨⟨huGrps, -, huMem, -⟩, hu, huGrp, huUin, huSuper, huMsk, huRegs, huSlices⟩ := deliverUser_spec hg
  obtain ⟨⟨hsGrps, -, hsMem, -⟩, hs, hsGrp, hsSuper, hsMsk, hsUin, hsRegs, hsPreds, hsSlices⟩ := deliverSuper_spec hg
  refine ⟨fun i r1 hsuper hlatch hpair hcons hrecord => deliver_enters hg hsuper hlatch hpair hcons hrecord, ?_⟩
  intro start same
  refine ⟨⟨hu, huGrp, huUin, huSuper, huMsk, huRegs, by simp [huSlices], fun n x hx => ?user⟩,
    ⟨hs, hsGrp, hsSuper, hsMsk, hsUin, hsRegs, hsPreds, by simp [hsSlices], fun n x hx => ?super⟩,
    fun k a hk => ⟨⟨huGrps k hk, hsGrps k hk⟩, congrArg (memByte · a) huMem, congrArg (memByte · a) hsMem⟩⟩
  case user => exact ⟨_, by rw [huSlices, List.getElem?_map, hx]; rfl, x.enterUser_entered _ _, fun hl => Slice.enterUser_recorded hl _ _⟩
  case super => exact ⟨_, by rw [hsSlices, List.getElem?_map, hx]; rfl, x.enter_keep_entered _ _, fun hl => Slice.enter_keep_kept hl _ _⟩

end Sys2Proof.Machine
end

section
/-! ## A commit, and words that go through rings, leave what slices wait for (01 R51, R54, 02 R72, 17 R444, R445) -/
namespace Sys2Proof.Machine

/-! Groups whose slices wait as before. -/

/-- Each group that is there was there before, and its slices wait for the same. -/
def Run.keepsWaits (r t : Run) : Prop := ∀ n h, t.grp n = some h → ∃ g, r.grp n = some g ∧ g.sameWaits h

theorem Run.keepsWaits_of_groups {r t : Run} (h : t.groups = r.groups) : r.keepsWaits t :=
  fun n g hg => ⟨g, (congrArg (Sparse.find · n) h).symm.trans hg, Grp.sameWaits_of_eq rfl rfl⟩

theorem Run.keepsWaits_refl (r : Run) : r.keepsWaits r := Run.keepsWaits_of_groups rfl

theorem Run.sameWork.keepsWaits {r t : Run} (h : r.sameWork t) : r.keepsWaits t := Run.keepsWaits_of_groups h.1

theorem Run.keepsWaits.trans {r s t : Run} (a : r.keepsWaits s) (b : s.keepsWaits t) : r.keepsWaits t := by
  intro n k hk
  obtain ⟨h, hh, hhk⟩ := b n k hk
  obtain ⟨g, hg, hgh⟩ := a n h hh
  exact ⟨g, hg, hgh.trans hhk⟩

/-- What comes after a change that is of no group. -/
theorem Run.keepsWaits.after {r s t : Run} (a : s.keepsWaits t) (h : s.groups = r.groups) : r.keepsWaits t := (Run.keepsWaits_of_groups h).trans a

theorem Run.updGrp_keepsWaits (r : Run) (n : Nat) {f : Grp → Grp} (hf : ∀ g : Grp, g.sameWaits (f g)) : r.keepsWaits (r.updGrp n f) := by
  intro k h hh
  by_cases hk : k = n
  · subst hk
    rw [Run.updGrp_grp_self] at hh
    obtain ⟨g, hg, rfl⟩ := Option.map_eq_some_iff.mp hh
    exact ⟨g, hg, hf g⟩
  · exact ⟨h, (r.updGrp_grp_of_ne hk f).symm.trans hh, Grp.sameWaits_of_eq rfl rfl⟩

/-- An update of a group that leaves its team and its slices. -/
theorem Run.updGrp_keepsWaits_of_eq (r : Run) (n : Nat) {f : Grp → Grp} (hf : ∀ g, (f g).team = g.team ∧ (f g).slices = g.slices) :
    r.keepsWaits (r.updGrp n f) :=
  r.updGrp_keepsWaits n fun g => Grp.sameWaits_of_eq (hf g).1 (hf g).2

theorem foldl_keepsWaits {α : Type} {f : Run → α → Run} (h : ∀ (r : Run) a, r.keepsWaits (f r a)) (xs : List α) (r : Run) :
    r.keepsWaits (xs.foldl f r) :=
  List.foldlRecOn (motive := r.keepsWaits) xs f r.keepsWaits_refl fun s hs a _ => hs.trans (h s a)

theorem ite_keepsWaits {p : Prop} [Decidable p] {r s t : Run} (hs : r.keepsWaits s) (ht : r.keepsWaits t) : r.keepsWaits (if p then s else t) := by
  split
  · exact hs
  · exact ht

theorem eq_ok_of_mapError_eq_ok {ε δ α : Type} {x : Except ε α} {f : ε → δ} {y : α} (h : x.mapError f = .ok y) : x = .ok y := by
  cases x with
  | error e => cases h
  | ok a => exact congrArg Except.ok (Except.ok.inj h)

/-! Accesses of memory. -/

theorem writeLeaf_sameWork (r : Run) (part : Nat) (l : Leaf) (va : W64) (bs : List Byte) : r.sameWork (writeLeaf r part l va bs) :=
  (writeKeyed_sameWork ..).trans (touchHome_sameWork ..)

theorem checkVirt_sameWork {r t : Run} {q : Req} {va : W64} {n : Nat} (h : checkVirt r q va n = .ok t) : r.sameWork t := by
  refine foldlM_ok_induction (P := r.sameWork) (fun s hs p _ u hu => ?_) r.sameWork_refl h
  have htr := translate_readsOnly s q (w64 p.1)
  split at hu
  case h_1 => cases hu
  case h_2 u' heq =>
    rw [heq] at htr
    exact Except.ok.inj hu ▸ hs.trans htr.1

theorem writeVirt_sameWork {r t : Run} {q : Req} {va : W64} {bs : List Byte} (h : writeVirt r q va bs = .ok t) : r.sameWork t := by
  unfold writeVirt at h
  split at h
  case h_1 => cases h
  case h_2 r1 hcheck =>
    refine foldlM_ok_induction (P := r.sameWork) (fun s hs p _ u hu => ?_) (checkVirt_sameWork hcheck) h
    have htr := translate_readsOnly s q (w64 p.1)
    split at hu
    case h_1 => cases hu
    case h_2 u' heq =>
      rw [heq] at htr
      exact Except.ok.inj hu ▸ (hs.trans htr.1).trans (writeLeaf_sameWork ..)

theorem readLeaf_readsOnly {r t : Run} {part : Nat} {l : Leaf} {va : W64} {n : Nat} {bs : List Byte} (h : readLeaf r part l va n = .ok (bs, t)) :
    r.readsOnly t := by
  have hleaf : r.readsOnly (leafRead r part l va n) := (readMarks_readsOnly ..).trans (touchHome_readsOnly ..)
  unfold readLeaf at h
  split at h
  case h_1 => cases h
  case h_2 => exact (Prod.mk.inj (Except.ok.inj h)).2 ▸ hleaf

theorem MatOp.read_sameWork {op : MatOp} {part va n : Nat} {r : Run} {y : List Byte × Run} (h : op.read part r va n = .ok y) : r.sameWork y.2 := by
  refine foldlM_ok_induction (P := fun acc : List Byte × Run => r.sameWork acc.2) (fun acc hacc p _ z hz => ?_) r.sameWork_refl h
  split at hz
  case h_1 => exact Except.ok.inj hz ▸ hacc
  case h_2 =>
    split at hz
    case h_1 => cases hz
    case h_2 hread => exact Except.ok.inj hz ▸ hacc.trans (readLeaf_readsOnly hread).1

theorem MatOp.readAll_sameWork {op : MatOp} {part : Nat} {r : Run} {ranges : List (Nat × Nat)} {y : List (List Byte) × Run}
    (h : op.readAll part r ranges = .ok y) : r.sameWork y.2 := by
  refine foldlM_ok_induction (P := fun acc : List (List Byte) × Run => r.sameWork acc.2) (fun acc hacc p _ z hz => ?_) r.sameWork_refl h
  obtain ⟨x, hx, rfl⟩ := exists_of_map_eq_ok hz
  exact hacc.trans (MatOp.read_sameWork hx)

/-! Matrix work that completes (10 R299). -/

theorem stage_keepsWaits (r : Run) (op : MatOp) (n : Counts) : r.keepsWaits (stage r op n) := by
  unfold stage
  split
  case h_1 => exact r.keepsWaits_refl
  case h_2 =>
    exact ite_keepsWaits r.keepsWaits_refl (ite_keepsWaits (Run.keepsWaits_of_groups rfl) (r.updGrp_keepsWaits_of_eq _ fun _ => ⟨rfl, rfl⟩))

theorem undoDue_keepsWaits (r : Run) (op : MatOp) : r.keepsWaits (undoDue r op) := by
  unfold undoDue undoCopy
  refine ite_keepsWaits (r.updGrp_keepsWaits_of_eq _ fun g => ?_) r.keepsWaits_refl
  split <;> exact ⟨rfl, rfl⟩

theorem performMma_keepsWaits {r t : Run} {op : MatOp} {part : Nat} (h : performMma r op part = .ok t) : r.keepsWaits t := by
  unfold performMma at h
  obtain ⟨x1, h1, h⟩ := exists_of_bind_eq_ok h
  obtain ⟨x2, h2, h⟩ := exists_of_bind_eq_ok h
  obtain ⟨x3, h3, h⟩ := exists_of_bind_eq_ok h
  obtain ⟨x4, h4, h⟩ := exists_of_bind_eq_ok h
  have hreads := (((MatOp.readAll_sameWork h1).trans (MatOp.readAll_sameWork h2)).trans (MatOp.read_sameWork h3)).trans (MatOp.read_sameWork h4)
  have hundo := hreads.keepsWaits.trans (undoDue_keepsWaits x4.2 op)
  rw [← Except.ok.inj h]
  exact hundo.trans ((stage_keepsWaits _ _ _).after rfl)

theorem performLoad_keepsWaits {r t : Run} {op : MatOp} {part : Nat} (h : performLoad r op part = .ok t) : r.keepsWaits t := by
  unfold performLoad at h
  obtain ⟨x, hx, h⟩ := exists_of_bind_eq_ok h
  rw [← Except.ok.inj h]
  exact (MatOp.readAll_sameWork hx).keepsWaits.trans ((stage_keepsWaits _ _ _).after rfl)

theorem storeRow_keepsWaits (op : MatOp) (part : Nat) (prot : Bool) (r : Run) (va : Nat) (bs : List Byte) :
    r.keepsWaits (storeRow op part prot r va bs) := by
  refine foldl_keepsWaits (fun r p => ?_) _ r
  split
  case h_1 => exact r.keepsWaits_refl
  case h_2 => exact ite_keepsWaits (Run.keepsWaits_of_groups rfl) (writeLeaf_sameWork ..).keepsWaits

/-! A commit that takes place (01 R54, 17 R445). -/

theorem applyStaged_keepsWaits (r : Run) (gid : Nat) : r.keepsWaits (applyStaged r gid) := by
  unfold applyStaged
  split
  case h_1 => exact r.keepsWaits_refl
  case h_2 g _ =>
    dsimp only
    exact Run.keepsWaits.after (Run.updGrp_keepsWaits_of_eq _ gid fun _ => ⟨rfl, rfl⟩) (foldl_updTeam_restSame gid g.team g.staged _ r).2

theorem writeArea_sameWork {r t : Run} {gid copy k : Nat} {g : Grp} {l : Launch} {keys : List Nat} (h : writeArea r gid g l copy k keys = .ok t) :
    r.sameWork t := by
  refine foldlM_ok_induction (P := r.sameWork) (fun s hs x _ u hu => ?_) r.sameWork_refl h
  split at hu
  case h_1 hwrite => exact hs.trans (Except.ok.inj hu ▸ writeVirt_sameWork hwrite)
  case h_2 => cases hu

theorem writeCheckpoint_sameWork {r : Run} {tid area : Nat} {l : Launch} {y : Sparse Grp × Run} (h : writeCheckpoint r tid area l = .ok y) :
    r.sameWork y.2 := by
  refine foldlM_ok_induction (P := fun acc : Sparse Grp × Run => r.sameWork acc.2) (fun acc hacc e _ z hz => ?_) r.sameWork_refl h
  split at hz
  case isTrue => exact Except.ok.inj hz ▸ hacc
  case isFalse =>
    dsimp only at hz
    split at hz
    case h_1 => cases hz
    case h_2 hwrite => exact Except.ok.inj hz ▸ (hacc.trans (Run.newFree_readsOnly _).1).trans (writeArea_sameWork hwrite)

theorem commitCore_keepsWaits {r t : Run} {tid : Nat} {queue : List MatOp} (h : commitCore r tid queue = .ok t) : r.keepsWaits t := by
  unfold commitCore at h
  split at h
  case h_1 => exact Except.ok.inj h ▸ r.keepsWaits_refl
  case h_2 =>
    obtain ⟨x, hx, rfl⟩ := exists_of_map_eq_ok h
    have hstaged := foldl_keepsWaits (fun r (e : Nat × Grp) =>
      (applyStaged_keepsWaits r e.1).trans (Run.updGrp_keepsWaits_of_eq _ e.1 (f := fun g => { g with undo := [], holds := [] }) fun _ => ⟨rfl, rfl⟩))
      (teamGroups r tid) r
    exact (hstaged.trans (writeCheckpoint_sameWork hx).keepsWaits).trans (Run.keepsWaits_of_groups rfl)

theorem performStoreOp_keepsWaits {r t : Run} {op : MatOp} {part : Nat} {queue : List MatOp} {stop : Run → Nat × AccFail → Run}
    (h : performStoreOp r op part queue stop = .ok t) : r.keepsWaits t := by
  obtain ⟨s, hs, rfl⟩ := exists_of_map_eq_ok h
  have hroom : r.keepsWaits s := by
    split at hs
    case isTrue => exact commitCore_keepsWaits (eq_ok_of_mapError_eq_ok hs)
    case isFalse => exact Except.ok.inj hs ▸ r.keepsWaits_refl
  exact hroom.trans (foldl_keepsWaits (fun r i => (storeRow_keepsWaits _ _ _ _ _ _).trans (stage_keepsWaits _ _ _)) _ s)

theorem performMat_keepsWaits {r t : Run} {op : MatOp} {queue : List MatOp} {stop : Run → Nat × AccFail → Run}
    (h : performMat r op queue stop = .ok t) : r.keepsWaits t := by
  unfold performMat at h
  split at h
  case h_1 | h_2 => exact performMma_keepsWaits (eq_ok_of_mapError_eq_ok h)
  case h_3 => exact Except.ok.inj h ▸ Run.keepsWaits_of_groups rfl
  case h_4 => exact performStoreOp_keepsWaits h
  case h_5 => exact performLoad_keepsWaits (eq_ok_of_mapError_eq_ok h)

theorem performAt_keepsWaits {stop : Run → Nat × AccFail → Run} {r t : Run} {d k i : Nat} (h : performAt stop r d k i = (t, .done)) :
    r.keepsWaits t := by
  unfold performAt at h
  split at h
  case h_1 => exact (Prod.mk.inj h).1 ▸ r.keepsWaits_refl
  case h_2 =>
    dsimp only at h
    split at h
    case isTrue => cases (Prod.mk.inj h).2
    case isFalse =>
      split at h
      case h_1 hmat => exact (Prod.mk.inj h).1 ▸ (performMat_keepsWaits hmat).after rfl
      case h_2 => cases (Prod.mk.inj h).2
      case h_3 => cases (Prod.mk.inj h).2

theorem drainWanted_keepsWaits {stop : Run → Nat × AccFail → Run} {fuel : Nat} {r t : Run} {d k : Nat} {want : MatOp → Bool}
    (h : drainWanted stop fuel r d k want = (t, .done)) : r.keepsWaits t := by
  induction fuel generalizing r with
  | zero => exact (Prod.mk.inj h).1 ▸ r.keepsWaits_refl
  | succ fuel ih =>
    unfold drainWanted at h
    split at h
    case h_1 => exact (Prod.mk.inj h).1 ▸ r.keepsWaits_refl
    case h_2 =>
      split at h
      case h_1 hat => exact (performAt_keepsWaits hat).trans (ih h)
      case h_2 hne => exact absurd h (hne t)

theorem commitTeam_keepsWaits {r t : Run} {tid : Nat} (h : commitTeam r tid = (t, true)) : r.keepsWaits t := by
  unfold commitTeam commitAfter at h
  dsimp only at h
  split at h
  case isTrue => cases (Prod.mk.inj h).2
  case isFalse =>
    split at h
    case h_1 => cases (Prod.mk.inj h).2
    case h_2 => cases (Prod.mk.inj h).2
    case h_3 s hdrain =>
      have hwork : r.keepsWaits s := by
        unfold matrixDrainTeam drainTeamWhere at hdrain
        split at hdrain
        case h_1 => exact (Prod.mk.inj hdrain).1 ▸ r.keepsWaits_refl
        case h_2 => exact drainWanted_keepsWaits hdrain
      split at h
      case h_1 hcore => exact (Prod.mk.inj h).1 ▸ hwork.trans (commitCore_keepsWaits hcore)
      case h_2 => cases (Prod.mk.inj h).2

/-- A store buffer with room, once it has been merged or committed. -/
theorem makeRoom_keepsWaits {r t : Run} {c : Ctx} (h : makeRoom r c = (t, true)) : r.keepsWaits t := by
  have hlast : ∀ (full : Bool) (s : Run), r.keepsWaits s → (if full then commitTeam s c.grp.team else (s, true)) = (t, true) → r.keepsWaits t := by
    intro full s hs h
    cases full with
    | true => exact hs.trans (commitTeam_keepsWaits h)
    | false => exact (Prod.mk.inj h).1 ▸ hs
  unfold makeRoom at h
  dsimp only at h
  split at h
  case isTrue => exact (Prod.mk.inj h).1 ▸ r.keepsWaits_refl
  case isFalse =>
    refine hlast _ _ ?_ h
    exact ite_keepsWaits (Run.keepsWaits_of_groups rfl) (Run.keepsWaits_of_groups rfl)

/-! Words that go through rings (02 R72 to R74). -/

/-- A queue register that is bound to no semaphore. -/
def Ctx.ringOnly (c : Ctx) (e : Nat × Nat) : Prop := ∀ b, c.grp.q.find e.1 = some b → b.kind < 4

theorem Ctx.ringOnly_of_no_sem {c : Ctx} (hact : c.active ≠ 0) (h : c.usesSem = false) {e : Nat × Nat}
    (he : e ∈ queueReads c.sh c.f ++ (queueWrite c.sh c.f).toList) : c.ringOnly e := by
  intro b hb
  have hnone := List.any_eq_false.mp ((Bool.and_eq_false_iff.mp h).resolve_left (by simpa using hact)) e he
  rw [hb] at hnone
  simpa using hnone

theorem queueCheck_of_ring {c : Ctx} {e : Nat × Nat} (h : c.ringOnly e) (r : Run) : queueCheck c r e = .ok r := by
  unfold queueCheck
  split
  case h_1 b hb => simp [h b hb]
  case h_2 => rfl

theorem keepReturned_keepsWaits (r : Run) (c : Ctx) (b : QBind) (n : Nat) : r.keepsWaits (keepReturned r c b n) := by
  unfold keepReturned
  exact ite_keepsWaits r.keepsWaits_refl (r.updGrp_keepsWaits_of_eq _ fun _ => ⟨rfl, rfl⟩)

theorem queuePop_of_ring {c : Ctx} {e : Nat × Nat} (h : c.ringOnly e) {acc y : List (Nat × List Nat) × Run} (hy : queuePop c acc e = .ok y) :
    acc.2.keepsWaits y.2 := by
  unfold queuePop at hy
  split at hy
  case h_2 => exact Except.ok.inj hy ▸ acc.2.keepsWaits_refl
  case h_1 b t hb _ =>
    dsimp only at hy
    rw [if_pos (h b hb)] at hy
    split at hy
    case isTrue => exact Except.ok.inj hy ▸ acc.2.keepsWaits_refl
    case isFalse =>
      split at hy
      case isTrue => exact Except.ok.inj hy ▸ keepReturned_keepsWaits _ _ _ _
      case isFalse =>
        split at hy
        case isTrue => cases hy
        case isFalse => exact Except.ok.inj hy ▸ Run.keepsWaits.after (keepReturned_keepsWaits _ _ _ _) rfl

theorem queueRoom_eq {c : Ctx} {r t : Run} {e : Nat × Nat} (h : queueRoom c r e = .ok t) : t = r := by
  unfold queueRoom at h
  split at h
  case h_1 =>
    split at h
    case isTrue => cases h
    case isFalse => exact (Except.ok.inj h).symm
  case h_2 => exact (Except.ok.inj h).symm

theorem queues_keepsWaits {c : Ctx} {r t : Run} {pops : List (Nat × List Nat)} (hact : c.active ≠ 0) (hsem : c.usesSem = false)
    (h : queues c r = .ok (pops, t)) : r.keepsWaits t := by
  obtain ⟨r1, h1, h⟩ := exists_of_bind_eq_ok h
  obtain ⟨x, h2, h⟩ := exists_of_bind_eq_ok h
  obtain ⟨r3, h3, h⟩ := exists_of_bind_eq_ok h
  have hring : ∀ e ∈ queueReads c.sh c.f ++ (queueWrite c.sh c.f).toList, c.ringOnly e := fun e he => Ctx.ringOnly_of_no_sem hact hsem he
  have hcheck : r1 = r := foldlM_ok_induction (P := (· = r)) (fun s hs e he u hu => by
    rw [queueCheck_of_ring (hring e he)] at hu
    exact (Except.ok.inj hu).symm.trans hs) rfl h1
  have hpop : r1.keepsWaits x.2 := foldlM_ok_induction (P := fun acc : List (Nat × List Nat) × Run => r1.keepsWaits acc.2)
    (fun acc hacc e he y hy => hacc.trans (queuePop_of_ring (hring e (List.mem_append_left _ he)) hy)) r1.keepsWaits_refl h2
  have hroom : r3 = x.2 := foldlM_ok_induction (P := (· = x.2)) (fun s hs e _ u hu => (queueRoom_eq hu).trans hs) rfl h3
  rw [hcheck] at hpop
  rw [← (Prod.mk.inj (Except.ok.inj h)).2, hroom]
  exact hpop

/-! The advance, and the end of what the slices of an instruction wait for. -/

theorem groupRegionStart_keepsWaits (r : Run) (gid : Nat) : r.keepsWaits (groupRegionStart r gid) := by
  unfold groupRegionStart
  split
  case h_1 => exact r.keepsWaits_refl
  case h_2 =>
    refine ite_keepsWaits (r.updGrp_keepsWaits_of_eq _ fun _ => ⟨rfl, rfl⟩) ?_
    refine Run.keepsWaits.trans ?_ (Run.updGrp_keepsWaits_of_eq _ gid fun _ => ⟨rfl, rfl⟩)
    exact ite_keepsWaits r.keepsWaits_refl (applyStaged_keepsWaits _ _)

theorem Ctx.groupPastIt_sameWaits (c : Ctx) (tick : Nat) (g : Grp) : g.sameWaits (c.groupPastIt tick g) := by
  have hpc := g.updSlices_sameWaits c.slices (f := fun s => { s with pc := s.pc + w64 c.len, last := tick, lastPc := c.pc }) fun _ => rfl
  unfold Ctx.groupPastIt
  dsimp only
  split
  · exact (hpc.trans (Grp.updSlices_sameWaits _ _ (f := fun s => { s with valid := 0 }) fun _ => rfl)).trans (Grp.sameWaits_of_eq rfl rfl)
  · exact hpc.trans (Grp.sameWaits_of_eq rfl rfl)

theorem advance_keepsWaits (c : Ctx) (r : Run) : r.keepsWaits (advance c r) := by
  have hpast := r.updGrp_keepsWaits c.gid (c.groupPastIt_sameWaits r.tick)
  rw [advance_eq]
  refine ite_keepsWaits (hpast.trans ((groupRegionStart_keepsWaits _ _).trans (Run.updGrp_keepsWaits _ _ fun g => ?_))) hpast
  exact g.updSlices_sameWaits _ fun _ => rfl

/-- The end of waits of which none is on a semaphore writes no memory. -/
theorem endWaits_mem {r : Run} {gid : Nat} {ns : List Nat} (h : ∀ g, r.grp gid = some g → g.noSemWaitIn ns) : (endWaits r gid ns).mem = r.mem := by
  cases hg : r.grp gid with
  | none =>
    unfold endWaits
    rw [show r.groups.find gid = none from hg]
  | some g =>
    obtain ⟨⟨-, -, hmem, -⟩, -⟩ := endWaits_spec hg (waitObjects_of_noSemWaitIn (h g hg))
    exact hmem

end Sys2Proof.Machine
end

section
/-! ## Stores of a protected launch enter the store buffer (01 R53, 08 R246, R247, 17 R443, R444) -/
namespace Sys2Proof.Machine

/-- The effects of ST, STS and RST. -/
def stBody : Body := fun c r => do
  let (as, r) ← globalAccess r c c.lanes 1 c.size (kindAligned c.f) (gAddr r c)
  .ok (if c.shadowed then bufferStores r c (as.flatMap fun x => laneStores c x.1 x.2 (storeVal r c x.1))
       else storeLate r (as.map fun x => laneLate c x.1 x.2 (storeVal r c x.1)))

theorem exec_st_eq (f : Fields) (s : State) : exec (.st f) s = issue (.st f) { cmp := fun _ => .store, body := stBody } s := rfl

theorem stBody_of_shadowed {c : Ctx} {r r1 : Run} {as : List (Nat × List Piece64)} (hs : c.shadowed = true)
    (h : globalAccess r c c.lanes 1 c.size (kindAligned c.f) (gAddr r c) = .ok (as, r1)) :
    stBody c r = .ok (bufferStores r1 c (as.flatMap fun x => laneStores c x.1 x.2 (storeVal r1 c x.1))) :=
  (bind_of_eq_ok h _).trans (congrArg Except.ok (if_pos hs))

/-- The store that a lane's STS buffers. -/
def stsStore (c : Ctx) (r : Run) (l : Nat) : BufStore :=
  { group := c.gid, lane := l, weak := false, edge := decide (3 ≤ kindOf c.f) || subOf c.f == 1, pc := c.pc, hint := 0
    dest := .scratch (subOf c.f == 1), addr := sAddr r c l, bytes := leBytes c.size (storeVal r c l), taken := max 4 c.size }

def stsBody : Body := fun c r => do
  let ea := sAddr r c
  scratchAccess c c.lanes c.size (lineAligned c.f) ea
  let ns := touched ea c.size c.lanes
  if subOf c.f = 2 then awaitLines r c ns .empty (some true) else pure ()
  let data := fun (l : Nat) => leBytes c.size (storeVal r c l)
  if c.shadowed && subOf c.f != 2 then .ok (bufferStores r c (c.lanes.map (stsStore c r)))
  else
    .ok (r.updTeam c.grp.team fun t =>
      let t := c.lanes.foldl (fun t l => scrWrite t (ea l) (data l)) t
      if subOf c.f = 0 then t else setLines t ns fillLine)

theorem exec_sts_eq (f : Fields) (s : State) :
    exec (.sts f) s = issue (.sts f) { cmp := fun f => if subOf f = 2 then .atomic else .store, body := stsBody } s := rfl

theorem stsBody_of_shadowed {c : Ctx} {r : Run} (hs : c.shadowed = true) (hsub : subOf c.f ≠ 2)
    (h : scratchAccess c c.lanes c.size (lineAligned c.f) (sAddr r c) = .ok ()) :
    stsBody c r = .ok (bufferStores r c (c.lanes.map (stsStore c r))) := by
  refine (bind_of_eq_ok h _).trans ?_
  dsimp only
  rw [if_neg hsub]
  exact if_pos (by simp [hs, hsub])

/-- The store that a lane's RST buffers. -/
def rstStore (c : Ctx) (r : Run) (l : Nat) : BufStore :=
  { group := c.gid, lane := l, weak := false, edge := decide (3 ≤ kindOf c.f), pc := c.pc, hint := 0
    dest := .peer (peerOf r c l) c.pc (c.slices.head?.getD 0) (Machine.sizeOf c.f), addr := (rAddr r c l).toNat, bytes := rstData r c l
    taken := max 4 c.size }

def rstBody : Body := fun c r => do
  let r ← remoteCheck r c c.lanes 1 (strongAligned c.size)
  if c.shadowed then .ok (r.updTeam c.grp.team fun t => { t with sbuf := t.sbuf ++ c.lanes.map (rstStore c r) })
  else
    let ls := laneReqs r c c.lanes fun l => slotBytes (rAddr r c l).toNat (rstData r c l)
    if !tagRoom r ls then .error (.wait remoteWait fun _ r => r)
    else .ok (sendStores r c.part c.gid c.pc (c.slices.head?.getD 0) ls)

theorem exec_rst_eq (f : Fields) (s : State) : exec (.rst f) s = issue (.rst f) { cmp := fun _ => .store, body := rstBody } s := rfl

theorem rstBody_of_shadowed {c : Ctx} {r r1 : Run} (hs : c.shadowed = true) (h : remoteCheck r c c.lanes 1 (strongAligned c.size) = .ok r1) :
    rstBody c r = .ok (r1.updTeam c.grp.team fun t => { t with sbuf := t.sbuf ++ c.lanes.map (rstStore c r1) }) :=
  (bind_of_eq_ok h _).trans (if_pos hs)

/-- Stores that enter the buffer write no memory, where no wait that ends is on a semaphore. -/
theorem completed_bufferStores_mem {s : State} {c : Ctx} {r1 : Run} (ss : List BufStore) (hgrp : s.run.grp c.gid = some c.grp)
    (hsem : c.usesSem = false) (hwaits : s.run.keepsWaits r1) (hwait : noSemWait c) : (completed s c (bufferStores r1 c ss)).run.mem = r1.mem := by
  have hclose : ∀ x, closing c x = x := fun x => by simp [closing, Ctx.wordsCmp, hsem, Cmp.commits]
  have hnone : ∀ g, (bufferStores r1 c ss).grp c.gid = some g → g.noSemWaitIn c.slices := by
    intro g hg
    obtain ⟨g0, hg0, hsame⟩ := hwaits c.gid g hg
    exact hsame.noSemWaitIn (Option.some.inj (hgrp.symm.trans hg0) ▸ hwait)
  unfold completed
  rw [hclose]
  exact endWaits_mem (r := bufferStores r1 c ss) hnone

/-- Settles O55: the room is made, the checks pass, and the effect is the buffer with the new stores behind. -/
theorem protectedStoresAreBuffered : Obligations.ProtectedStoresAreBuffered := by
  unfold Obligations.ProtectedStoresAreBuffered
  intro i f s c0 c base r r0 calm _ hsh hi hm hc hd he hml hs hact hsem hroom hq
  refine ⟨fun hst as r1 hacc => ?st, fun hsts hsub hacc => ?sts, fun hrst r1 hcheck => ?rst⟩
  case st =>
    subst hst
    intro r' hcalm
    refine ⟨(exec_st_eq f s).trans (issue_store rfl hsh hi hm hc hd he hml hs hact rfl hsem rfl rfl hroom hq
      (stBody_of_shadowed hs hacc) hcalm), fun hwait => ?_⟩
    obtain ⟨-, -, -, -, -, hgrp, -⟩ := makeCtx_fields hm
    have hqueues : base.keepsWaits r := queues_keepsWaits (c := c0) (by rw [hc] at hact; exact hact) (by rw [hc] at hsem; exact hsem) hq
    have hready := ((c.onto_sameWork s.run).keepsWaits.trans (makeRoom_keepsWaits hroom)).trans hqueues
    have haccess := (advance_keepsWaits c r).trans (globalAccess_spec hacc).2.1.keepsWaits
    exact completed_bufferStores_mem _ (by rw [hgrp, hc]) hsem (hready.trans haccess) hwait
  case sts =>
    subst hsts
    intro r' hcalm
    exact (exec_sts_eq f s).trans (issue_store rfl hsh hi hm hc hd he hml hs hact
      (if_neg hsub) hsem rfl rfl hroom hq (stsBody_of_shadowed hs hsub hacc) hcalm)
  case rst =>
    subst hrst
    intro goes r' hcalm
    exact (exec_rst_eq f s).trans (issue_store rfl hsh hi hm hc hd he hml hs hact rfl hsem rfl rfl hroom hq
      (rstBody_of_shadowed hs hcheck) hcalm)

end Sys2Proof.Machine
end

section
/-! ## Commits around an effect (01 R53, 08 R246, 11 R321, R325, 17 R444) -/
namespace Sys2Proof.Machine

/-- The comparison that commits of an instruction of a protected launch: its own, or for words through a semaphore that of an atomic. -/
theorem cmp_of_commits {c : Ctx} {w : Work} (hs : c.shadowed = true) (hact : c.active ≠ 0)
    (h : w.cmp c.f = .atomic ∨ w.cmp c.f = .engine ∨ (w.cmp c.f = .store ∧ c.usesSem = true)) :
    c.cmp w = if w.cmp c.f = .engine then .engine else .atomic := by
  have hpaired : ¬ (!c.shadowed || decide (c.active = 0)) = true := by simpa [hs] using hact
  unfold Ctx.cmp
  rw [if_neg hpaired]
  rcases h with h | h | ⟨h, hsem⟩
  · simp [h]
  · simp [h]
  · simp [h, hsem]

/-- What comes before it: a commit, unless an engine instruction waits and nothing has come to be stored. -/
theorem before_of_commits {c : Ctx} {w : Work} {s : State} {base : Run} (hs : c.shadowed = true) (hact : c.active ≠ 0)
    (hcmp : w.cmp c.f = .atomic ∨ w.cmp c.f = .engine ∨ (w.cmp c.f = .store ∧ c.usesSem = true))
    (h : if w.cmp c.f = .engine ∧ c.waiting = true ∧ ((s.run.team c.grp.team).map (·.sbuf)).getD [] = [] then base = c.onto s.run
      else commitNow (c.onto s.run) c.grp.team = (base, true)) : c.before (c.cmp w) (c.onto s.run) = (base, true) := by
  rw [cmp_of_commits hs hact hcmp]
  unfold Ctx.before
  by_cases heng : w.cmp c.f = .engine
  · rw [if_pos heng]
    simp only [heng, true_and] at h
    simp only [Ctx.onto_team, Bool.not_not, Bool.and_eq_true, List.isEmpty_iff]
    split
    case isTrue hw => rw [if_pos hw] at h; rw [h]
    case isFalse hw => rw [if_neg hw] at h; exact h
  · rw [if_neg heng]
    rw [if_neg fun hx => heng hx.1] at h
    exact h

/-- An instruction whose comparison commits, its first commit made: its effect, its completion, and a commit of what they leave. -/
theorem issue_commits {i : Instr} {w : Work} {f : Fields} {s : State} {c0 c : Ctx} {base r r' : Run} (hf : fieldsOf i = some f)
    (hsh : shape i = some c.sh) (hi : s.run.issuing = some (c.gid, c.frag)) (hm : makeCtx s.run c.gid c.frag c.sh f = some c0)
    (hc : c = { c0 with pops := c.pops }) (hd : (c.sh.switch || c0.usesQueue) = true → dueDeferred c0.grp = none) (he : c0.early = none)
    (hml : c0.missing = []) (hcommits : (c0.cmp w).commits = true) (hfly : c0.flying w = false)
    (hbefore : c0.before (c0.cmp w) (c0.onto s.run) = (base, true)) (hq : queues c0 base = .ok (c.pops, r))
    (hb : w.body c (advance c r) = .ok r') (hinj : (r'.core c.t.die c.t.core).inject = none) :
    issue i w s = .next { s with run := (commitNow (w.fin c (ended c r')) c.grp.team).1 } := by
  have heff := effect_ready (w := w) hc hfly hq
  rw [hb] at heff
  obtain ⟨-, -, hsh', -⟩ := makeCtx_fields hm
  have hdue : (if (c.sh.switch || c0.usesQueue) = true then dueDeferred c0.grp else none) = none := by
    split
    · exact hd ‹_›
    · rfl
  have hin : (r'.core c0.t.die c0.t.core).inject = none := by rw [hc] at hinj; exact hinj
  have hgid : c0.gid = c.gid := by rw [hc]
  have hslices : c0.slices = c.slices := by rw [hc]
  unfold issue
  rw [hsh, hf, hi]
  dsimp only
  rw [hm]
  unfold issueCtx Ctx.resident issueReady
  simp only [hfly, Bool.not_false, Bool.true_and, hsh', hdue, he, hml, List.isEmpty_nil, hbefore, heff, ite_true, Bool.false_eq_true, ite_false,
    injected, hin, ite_self, hcommits, ended, hgid, hslices]

/-- Settles O56: the comparison of each instruction is its own, and one that commits does so around its effect. -/
theorem protectedInstructionsCommitAroundTheirEffect : Obligations.ProtectedInstructionsCommitAroundTheirEffect := by
  unfold Obligations.ProtectedInstructionsCommitAroundTheirEffect
  refine ⟨fun f i hi => ?atomics, fun f i hi => ?engine, fun f i hi => ?scratch, ?commits⟩
  case atomics =>
    simp only [List.mem_cons, List.not_mem_nil, or_false] at hi
    rcases hi with rfl | rfl | rfl | rfl | rfl | rfl
    all_goals exact ⟨_, fun _ => rfl, fun _ => rfl⟩
  case engine =>
    simp only [List.mem_cons, List.not_mem_nil, or_false] at hi
    rcases hi with rfl | rfl | rfl | rfl | rfl | rfl | rfl | rfl | rfl | rfl | rfl | rfl | rfl
    all_goals exact ⟨_, fun _ => rfl, fun _ => rfl⟩
  case scratch =>
    simp only [List.mem_cons, List.not_mem_nil, or_false] at hi
    rcases hi with rfl | rfl
    all_goals exact ⟨_, fun _ => rfl, fun _ h => if_pos h⟩
  case commits =>
    intro i w s c0 c base r r' commits waits empty hsh hf hi hm hc hd he hml hs hact hcommits hfly hbefore hq hb hinj
    have hcmp := cmp_of_commits (w := w) hs hact hcommits
    have hbefore' := before_of_commits hs hact hcommits hbefore
    refine issue_commits hf hsh hi hm hc hd he hml ?_ hfly ?_ hq hb hinj
    · rw [show c0.cmp w = c.cmp w by rw [hc]; rfl, hcmp]
      split <;> rfl
    · rw [hc] at hbefore'
      exact hbefore'

end Sys2Proof.Machine
end

section
/-! ## The units of a core and the LXEs (01 R45, R54, 10 R299, 11 R327 to R350, 19 R483) -/
namespace Sys2Proof.Machine

/-- Settles O57: each row is of the form that changes only what executes, also where its condition looks at the links. -/
theorem coreUnitsAct : Obligations.CoreUnitsAct := by
  unfold Obligations.CoreUnitsAct
  refine ⟨fun team => ⟨?store, fun ring => ?record⟩, fun die core i => ?matrix, fun op i => ⟨?piece, ?pieceFail, ?burst, ?heldBurst, ?drain⟩,
    fun die id s => ⟨fun dev from_ digest done hdue => ?digest, fun chunk => ?chunk, ?done, fun failure => ?fault, fun hdue => ?overdue⟩⟩
  case digest | overdue => exact if_pos hdue
  all_goals exact happensRun_of_rowRun fun _ => rfl

end Sys2Proof.Machine
end
